-- ==== Sys2Proof/Word.lean ====
section
/-! DEFINITION. The word types of the machine (00_scope R11) and nothing else. -/

namespace Sys2Proof

/-- 8 bits (R11). -/
abbrev Byte := BitVec 8
/-- 16 bits (R11); an instruction word, the status register. -/
abbrev Word := BitVec 16
/-- 32 bits (R11); a data or address register, an address, a long-word operand. -/
abbrev Long := BitVec 32
/-- A 3-bit function code, naming an address space (20_memory R70). -/
abbrev FC := BitVec 3

end Sys2Proof
end

