-- ==== Sys2Proof/Syntax.lean ====
section
/-! DEFINITION. The instructions of spec/opcode_table.json, one constructor a row, and their operands
(30_encoding R110 to R129). Fields whose bits the processor ignores are kept raw, so that no bit of
an encoding is lost (log 32). -/

namespace Sys2Proof

/-- A 3-bit register number (R113). -/
abbrev Reg := Fin 8

/-- Operand size (R11, R118). -/
inductive Size where
  | b
  | w
  | l
  deriving DecidableEq, Repr

/-- Operand size of instructions without a byte form. -/
inductive WL where
  | w
  | l
  deriving DecidableEq, Repr

/-- A 4-bit register designator "D/A, REGISTER" (R119). -/
structure Rn where
  /-- D/A: true for an address register. -/
  isAddr : Bool
  num : Reg
  deriving DecidableEq, Repr

/-- The index part common to the brief and the full extension word (R115, R116). -/
structure Index where
  reg : Rn
  /-- W/L: true takes all 32 bits, false sign-extends the low word. -/
  long : Bool
  /-- SCALE: the index is multiplied by two to this power. -/
  scale : Fin 4
  deriving DecidableEq, Repr

/-- A base or outer displacement of the full format (R116): null, word or long. -/
inductive Disp where
  | null
  | word (v : Word)
  | long (v : Long)
  deriving DecidableEq, Repr

/-- The index/indirect selection of the full format (R116). With the index suppressed the only
indirect form is written `pre` (its index is 0). -/
inductive Indirect where
  | none
  | pre (od : Disp)
  | post (od : Disp)
  deriving DecidableEq, Repr

/-- The first extension word of mode 110 and mode 111/011 with its displacement words. -/
inductive IndexExt where
  /-- Brief format (R115). -/
  | brief (ix : Index) (d8 : Byte)
  /-- Full format (R116): `bs` base suppressed, `is` index suppressed. -/
  | full (ix : Index) (bs is : Bool) (bd : Disp) (ind : Indirect)
  deriving DecidableEq, Repr

/-- Immediate extension words (R114 mode 111/100); a byte immediate is the low half of its word. -/
inductive Imm where
  | word (v : Word)
  | long (v : Long)
  deriving DecidableEq, Repr

/-- An effective address with its extension words (R113). -/
inductive Ea where
  | dreg (r : Reg)
  | areg (r : Reg)
  | ind (r : Reg)
  | postinc (r : Reg)
  | predec (r : Reg)
  | disp (r : Reg) (d16 : Word)
  | indexed (r : Reg) (x : IndexExt)
  | absW (a : Word)
  | absL (a : Long)
  | pcDisp (d16 : Word)
  | pcIndexed (x : IndexExt)
  | imm (v : Imm)
  deriving DecidableEq, Repr

/-- The sixteen condition tests (R121), in the order of their codes. -/
inductive Cond where
  | t | f | hi | ls | cc | cs | ne | eq | vc | vs | pl | mi | ge | lt | gt | le
  deriving DecidableEq, Repr

/-- A branch displacement (R120): the 8-bit field, or a 16- or 32-bit extension. -/
inductive BrDisp where
  | byte (d : Byte)
  | word (d : Word)
  | long (d : Long)
  deriving DecidableEq, Repr

/-- The shift count of the register forms (R290): the 3-bit immediate field, or a register. -/
inductive ShiftCount where
  | imm (c : Reg)
  | reg (r : Reg)
  deriving DecidableEq, Repr

/-- The three forms of EXG (R210). -/
inductive ExgMode where
  | dd
  | aa
  | da
  deriving DecidableEq, Repr

/-- The operand words of TRAPcc and cpTRAPcc (R381, R442). -/
inductive TrapOperand where
  | none
  | word (v : Word)
  | long (v : Long)
  deriving DecidableEq, Repr

/-- The offset and width fields of a bit-field extension word (R320). -/
structure BitField where
  offReg : Bool
  off : BitVec 5
  widReg : Bool
  wid : BitVec 5
  deriving DecidableEq, Repr

/-- The four forms of MOVEP are a size and a direction (R205); `toMem` true stores. -/
inductive Instr where
  -- data movement (40_data_movement)
  | move (sz : Size) (src dst : Ea)
  | movea (sz : WL) (src : Ea) (an : Reg)
  | moveq (dn : Reg) (data : Byte)
  | movemToMem (sz : WL) (mask : Word) (ea : Ea)
  | movemToReg (sz : WL) (mask : Word) (ea : Ea)
  | movep (toMem : Bool) (sz : WL) (dx ay : Reg) (d16 : Word)
  | lea (ea : Ea) (an : Reg)
  | pea (ea : Ea)
  | linkW (an : Reg) (d16 : Word)
  | linkL (an : Reg) (d32 : Long)
  | unlk (an : Reg)
  | exg (m : ExgMode) (rx ry : Reg)
  -- integer arithmetic (41_integer_arithmetic)
  | addToReg (sz : Size) (ea : Ea) (dn : Reg)
  | addToEa (sz : Size) (dn : Reg) (ea : Ea)
  | adda (sz : WL) (ea : Ea) (an : Reg)
  | addi (sz : Size) (v : Imm) (ea : Ea)
  | addq (sz : Size) (data : Reg) (ea : Ea)
  | addx (sz : Size) (mem : Bool) (ry rx : Reg)
  | clr (sz : Size) (ea : Ea)
  | cmp (sz : Size) (ea : Ea) (dn : Reg)
  | cmpa (sz : WL) (ea : Ea) (an : Reg)
  | cmpi (sz : Size) (v : Imm) (ea : Ea)
  | cmpm (sz : Size) (ay ax : Reg)
  | cmp2 (sz : Size) (ea : Ea) (rn : Rn)
  | divuW (ea : Ea) (dn : Reg)
  | divsW (ea : Ea) (dn : Reg)
  | divL (ea : Ea) (dq : Reg) (signed wide : Bool) (dr : Reg)
  | extW (dn : Reg)
  | extL (dn : Reg)
  | extbL (dn : Reg)
  | muluW (ea : Ea) (dn : Reg)
  | mulsW (ea : Ea) (dn : Reg)
  | mulL (ea : Ea) (dl : Reg) (signed wide : Bool) (dh : Reg)
  | neg (sz : Size) (ea : Ea)
  | negx (sz : Size) (ea : Ea)
  | subToReg (sz : Size) (ea : Ea) (dn : Reg)
  | subToEa (sz : Size) (dn : Reg) (ea : Ea)
  | suba (sz : WL) (ea : Ea) (an : Reg)
  | subi (sz : Size) (v : Imm) (ea : Ea)
  | subq (sz : Size) (data : Reg) (ea : Ea)
  | subx (sz : Size) (mem : Bool) (ry rx : Reg)
  -- logical (42_logical)
  | andToReg (sz : Size) (ea : Ea) (dn : Reg)
  | andToEa (sz : Size) (dn : Reg) (ea : Ea)
  | andi (sz : Size) (v : Imm) (ea : Ea)
  | orToReg (sz : Size) (ea : Ea) (dn : Reg)
  | orToEa (sz : Size) (dn : Reg) (ea : Ea)
  | ori (sz : Size) (v : Imm) (ea : Ea)
  | eor (sz : Size) (dn : Reg) (ea : Ea)
  | eori (sz : Size) (v : Imm) (ea : Ea)
  | not (sz : Size) (ea : Ea)
  | tst (sz : Size) (ea : Ea)
  -- shifts and rotates (43_shift_rotate)
  | aslReg (sz : Size) (c : ShiftCount) (dn : Reg)
  | aslMem (ea : Ea)
  | asrReg (sz : Size) (c : ShiftCount) (dn : Reg)
  | asrMem (ea : Ea)
  | lslReg (sz : Size) (c : ShiftCount) (dn : Reg)
  | lslMem (ea : Ea)
  | lsrReg (sz : Size) (c : ShiftCount) (dn : Reg)
  | lsrMem (ea : Ea)
  | rolReg (sz : Size) (c : ShiftCount) (dn : Reg)
  | rolMem (ea : Ea)
  | rorReg (sz : Size) (c : ShiftCount) (dn : Reg)
  | rorMem (ea : Ea)
  | roxlReg (sz : Size) (c : ShiftCount) (dn : Reg)
  | roxlMem (ea : Ea)
  | roxrReg (sz : Size) (c : ShiftCount) (dn : Reg)
  | roxrMem (ea : Ea)
  | swap (dn : Reg)
  -- bits and bit fields (44_bit_and_bitfield)
  | btstDyn (dn : Reg) (ea : Ea)
  | btstImm (n : Word) (ea : Ea)
  | bchgDyn (dn : Reg) (ea : Ea)
  | bchgImm (n : Word) (ea : Ea)
  | bclrDyn (dn : Reg) (ea : Ea)
  | bclrImm (n : Word) (ea : Ea)
  | bsetDyn (dn : Reg) (ea : Ea)
  | bsetImm (n : Word) (ea : Ea)
  | bftst (ea : Ea) (f : BitField)
  | bfextu (ea : Ea) (f : BitField) (dn : Reg)
  | bfchg (ea : Ea) (f : BitField)
  | bfexts (ea : Ea) (f : BitField) (dn : Reg)
  | bfclr (ea : Ea) (f : BitField)
  | bfffo (ea : Ea) (f : BitField) (dn : Reg)
  | bfset (ea : Ea) (f : BitField)
  | bfins (dn : Reg) (ea : Ea) (f : BitField)
  -- binary-coded decimal (45_bcd)
  | abcd (mem : Bool) (ry rx : Reg)
  | sbcd (mem : Bool) (ry rx : Reg)
  | nbcd (ea : Ea)
  | pack (mem : Bool) (ry rx : Reg) (adj : Word)
  | unpk (mem : Bool) (ry rx : Reg) (adj : Word)
  -- program control (46_program_control)
  | bcc (c : Cond) (d : BrDisp)
  | bra (d : BrDisp)
  | bsr (d : BrDisp)
  | dbcc (c : Cond) (dn : Reg) (d16 : Word)
  | scc (c : Cond) (ea : Ea)
  | jmp (ea : Ea)
  | jsr (ea : Ea)
  | rts
  | rtr
  | rtd (d16 : Word)
  | nop
  | callm (argc : Byte) (ea : Ea)
  | rtm (rn : Rn)
  -- system control (47_system_control)
  | trap (v : Fin 16)
  | trapcc (c : Cond) (op : TrapOperand)
  | trapv
  | chk (sz : WL) (ea : Ea) (dn : Reg)
  | chk2 (sz : Size) (ea : Ea) (rn : Rn)
  | illegal
  | bkpt (n : Reg)
  | stop (v : Word)
  | rte
  | reset
  | moveFromSr (ea : Ea)
  | moveToSr (ea : Ea)
  | andiToSr (v : Word)
  | eoriToSr (v : Word)
  | oriToSr (v : Word)
  | moveUsp (toReg : Bool) (an : Reg)
  | movec (toCtl : Bool) (rn : Rn) (code : BitVec 12)
  | moves (sz : Size) (toMem : Bool) (rn : Rn) (ea : Ea)
  | moveFromCcr (ea : Ea)
  | moveToCcr (ea : Ea)
  | andiToCcr (v : Word)
  | eoriToCcr (v : Word)
  | oriToCcr (v : Word)
  -- multiprocessor (48_multiprocessor)
  | tas (ea : Ea)
  | cas (sz : Size) (dc du : Reg) (ea : Ea)
  | cas2 (sz : WL) (rn1 : Rn) (du1 dc1 : Reg) (rn2 : Rn) (du2 dc2 : Reg)
  -- coprocessor interface (49_coprocessor): the operation word alone, since the modelled platform
  -- consumes no further word of an F-line instruction (R435)
  | cpGen (cpid mode reg : Reg)
  | cpScc (cpid mode reg : Reg)
  | cpDbcc (cpid dn : Reg)
  | cpTrapcc (cpid opmode : Reg)
  | cpBcc (cpid : Reg) (long : Bool) (cond : BitVec 6)
  | cpSave (cpid mode reg : Reg)
  | cpRestore (cpid mode reg : Reg)
  -- the emulator lines
  | fLine (any : BitVec 12)
  | aLine (any : BitVec 12)
  deriving DecidableEq, Repr

/-- Bytes of an operand (R12 `size`). -/
def Size.bytes : Size → Nat
  | .b => 1
  | .w => 2
  | .l => 4

/-- Bits of an operand (R12 `W`). -/
def Size.bits : Size → Nat
  | .b => 8
  | .w => 16
  | .l => 32

/-- The size of a word or long instruction as an operand size. -/
def WL.size : WL → Size
  | .w => .w
  | .l => .l

/-- Extension words of a displacement (R116). -/
def Disp.words : Disp → Nat
  | .null => 0
  | .word _ => 1
  | .long _ => 2

/-- Extension words of the outer displacement (R116). -/
def Indirect.words : Indirect → Nat
  | .none => 0
  | .pre od => od.words
  | .post od => od.words

/-- Extension words of an indexed mode: one brief word, or the full word, bd and od (R115, R116). -/
def IndexExt.words : IndexExt → Nat
  | .brief _ _ => 1
  | .full _ _ _ bd ind => 1 + bd.words + ind.words

/-- Extension words of an immediate (R114). -/
def Imm.words : Imm → Nat
  | .word _ => 1
  | .long _ => 2

/-- Extension words of an effective address (R113). -/
def Ea.words : Ea → Nat
  | .dreg _ | .areg _ | .ind _ | .postinc _ | .predec _ => 0
  | .disp _ _ | .absW _ | .pcDisp _ => 1
  | .absL _ => 2
  | .indexed _ x | .pcIndexed x => x.words
  | .imm v => v.words

/-- Extension words of a branch displacement (R120). -/
def BrDisp.words : BrDisp → Nat
  | .byte _ => 0
  | .word _ => 1
  | .long _ => 2

/-- Operand words of TRAPcc (R381). -/
def TrapOperand.words : TrapOperand → Nat
  | .none => 0
  | .word _ => 1
  | .long _ => 2

/-- The mode number of an effective address (R113). -/
def Ea.mode : Ea → Reg
  | .dreg _ => 0
  | .areg _ => 1
  | .ind _ => 2
  | .postinc _ => 3
  | .predec _ => 4
  | .disp _ _ => 5
  | .indexed _ _ => 6
  | .absW _ | .absL _ | .pcDisp _ | .pcIndexed _ | .imm _ => 7

/-- The register field of an effective address (R113). -/
def Ea.reg : Ea → Reg
  | .dreg r | .areg r | .ind r | .postinc r | .predec r | .disp r _ | .indexed r _ => r
  | .absW _ => 0
  | .absL _ => 1
  | .pcDisp _ => 2
  | .pcIndexed _ => 3
  | .imm _ => 4

end Sys2Proof
end

