-- ==== Sys2Proof/WellFormed.lean ====
section
/-! DEFINITION. Which terms of `Instr` are instructions: the addressing categories (R117), the size
restrictions and the shapes of the extension words each row of the opcode table asks for. -/

namespace Sys2Proof

/-- A category of effective address (R117, and the unions named under R122). -/
inductive Cat where
  | all
  | data
  | control
  | alterable
  | dataAlterable
  | memoryAlterable
  | controlAlterable
  | controlAlterablePredec
  | controlPostinc
  | dnControl
  | dnControlAlterable
  | dataExceptImm
  deriving DecidableEq, Repr

/-- Mode 111 with register 101 to 111 is never valid (R113). -/
def validMode (m r : Reg) : Bool := m != 7 || r.val ≤ 4

/-- `(An)`, `(d16,An)`, mode 110, absolute and PC-relative modes (R117 "control"). -/
def isControl (m r : Reg) : Bool :=
  m == 2 || m == 5 || m == 6 || (m == 7 && r.val ≤ 3)

/-- All but the PC forms and immediate (R117 "alterable"). -/
def isAlterable (m r : Reg) : Bool := m != 7 || r.val ≤ 1

/-- The category test on a mode and register field (R117). -/
def Cat.admits (c : Cat) (m r : Reg) : Bool :=
  validMode m r &&
    match c with
    | .all => true
    | .data => m != 1
    | .control => isControl m r
    | .alterable => isAlterable m r
    | .dataAlterable => m != 1 && isAlterable m r
    | .memoryAlterable => m != 0 && m != 1 && isAlterable m r
    | .controlAlterable => isControl m r && isAlterable m r
    | .controlAlterablePredec => m == 4 || (isControl m r && isAlterable m r)
    | .controlPostinc => m == 3 || isControl m r
    | .dnControl => m == 0 || isControl m r
    | .dnControlAlterable => m == 0 || (isControl m r && isAlterable m r)
    | .dataExceptImm => m != 1 && !(m == 7 && r == 4)

/-- A byte operand is never an address register (R114 mode 001). -/
def sizeAdmits (sz : Size) (m : Reg) : Bool := sz != .b || m != 1

/-- With the index suppressed there is no postindexed form (R116). -/
def IndexExt.wf : IndexExt → Bool
  | .full _ _ true _ (.post _) => false
  | _ => true

/-- A long immediate is two words, a byte or word immediate one (R114). -/
def Imm.wf (sz : Size) : Imm → Bool
  | .word _ => sz != .l
  | .long _ => sz == .l

/-- The extension words fit the mode and the operand size. -/
def Ea.shapeOk (sz : Size) : Ea → Bool
  | .indexed _ x | .pcIndexed x => x.wf
  | .imm v => v.wf sz
  | _ => true

/-- An effective address of category `c` for an operand of size `sz`. -/
def Ea.wf (c : Cat) (sz : Size) (ea : Ea) : Bool :=
  c.admits ea.mode ea.reg && sizeAdmits sz ea.mode && ea.shapeOk sz

/-- The 8-bit displacements `$00` and `$FF` select the word and long forms (R120). -/
def BrDisp.wf : BrDisp → Bool
  | .byte d => d != 0x00#8 && d != 0xFF#8
  | _ => true

/-- With `Do` = 1 bits 10:9 of the extension word are 0 (R320). -/
def BitField.wf (f : BitField) : Bool := !f.offReg || f.off.toNat < 8

/-- The operand selector of cpTRAPcc (R432): 010, 011 or 100. -/
def isTrapOpmode (r : Reg) : Bool := r == 2 || r == 3 || r == 4

/-- An operation word of line 1111 that a coprocessor row of the table takes; `t` is bits 8:6 (R432). -/
def isCpWord (t m r : Reg) : Bool :=
  match t.val with
  | 0 => Cat.admits .all m r
  | 1 => Cat.admits .dataAlterable m r || m == 1 || (m == 7 && isTrapOpmode r)
  | 2 | 3 => true
  | 4 => Cat.admits .controlAlterablePredec m r
  | 5 => Cat.admits .controlPostinc m r
  | _ => false

/-- Bits 8:6 of a 12-bit operand of lines 1010 and 1111. -/
def typeField (v : BitVec 12) : Reg := ⟨v.toNat / 64 % 8, by omega⟩
/-- Bits 5:3. -/
def modeField (v : BitVec 12) : Reg := ⟨v.toNat / 8 % 8, by omega⟩
/-- Bits 2:0. -/
def regField (v : BitVec 12) : Reg := ⟨v.toNat % 8, by omega⟩

/-- A term of `Instr` that stands for an instruction of the opcode table. -/
def Instr.wf : Instr → Bool
  | .move sz src dst => src.wf .all sz && dst.wf .dataAlterable sz
  | .movea sz src _ => src.wf .all sz.size
  | .movemToMem sz _ ea => ea.wf .controlAlterablePredec sz.size
  | .movemToReg sz _ ea => ea.wf .controlPostinc sz.size
  | .lea ea _ | .pea ea => ea.wf .control .l
  | .addToReg sz ea _ | .subToReg sz ea _ | .cmp sz ea _ => ea.wf .all sz
  | .addToEa sz _ ea | .subToEa sz _ ea | .andToEa sz _ ea | .orToEa sz _ ea =>
      ea.wf .memoryAlterable sz
  | .adda sz ea _ | .suba sz ea _ | .cmpa sz ea _ => ea.wf .all sz.size
  | .addi sz v ea | .subi sz v ea | .andi sz v ea | .ori sz v ea | .eori sz v ea =>
      v.wf sz && ea.wf .dataAlterable sz
  | .cmpi sz v ea => v.wf sz && ea.wf .dataExceptImm sz
  | .addq sz _ ea | .subq sz _ ea => ea.wf .alterable sz
  | .clr sz ea | .neg sz ea | .negx sz ea | .not sz ea | .eor sz _ ea => ea.wf .dataAlterable sz
  | .tst sz ea => ea.wf .all sz
  | .cmp2 sz ea _ | .chk2 sz ea _ => ea.wf .control sz
  | .divuW ea _ | .divsW ea _ | .muluW ea _ | .mulsW ea _ => ea.wf .data .w
  | .divL ea _ _ _ _ | .mulL ea _ _ _ _ => ea.wf .data .l
  | .andToReg sz ea _ | .orToReg sz ea _ => ea.wf .data sz
  | .aslMem ea | .asrMem ea | .lslMem ea | .lsrMem ea | .rolMem ea | .rorMem ea | .roxlMem ea
  | .roxrMem ea => ea.wf .memoryAlterable .w
  | .btstDyn _ ea => ea.wf .data .b
  | .btstImm _ ea => ea.wf .dataExceptImm .b
  | .bchgDyn _ ea | .bchgImm _ ea | .bclrDyn _ ea | .bclrImm _ ea | .bsetDyn _ ea
  | .bsetImm _ ea => ea.wf .dataAlterable .b
  | .bftst ea f | .bfextu ea f _ | .bfexts ea f _ | .bfffo ea f _ => ea.wf .dnControl .b && f.wf
  | .bfchg ea f | .bfclr ea f | .bfset ea f | .bfins _ ea f => ea.wf .dnControlAlterable .b && f.wf
  | .nbcd ea | .scc _ ea | .tas ea => ea.wf .dataAlterable .b
  | .bcc c d => c != .t && c != .f && d.wf
  | .bra d | .bsr d => d.wf
  | .jmp ea | .jsr ea | .callm _ ea => ea.wf .control .l
  | .chk sz ea _ => ea.wf .data sz.size
  | .moveFromSr ea | .moveFromCcr ea => ea.wf .dataAlterable .w
  | .moveToSr ea | .moveToCcr ea => ea.wf .data .w
  | .moves sz _ _ ea => ea.wf .memoryAlterable sz
  | .cas sz _ _ ea => ea.wf .memoryAlterable sz
  | .cpGen _ m r => Cat.admits .all m r
  | .cpScc _ m r => Cat.admits .dataAlterable m r
  | .cpTrapcc _ o => isTrapOpmode o
  | .cpSave _ m r => Cat.admits .controlAlterablePredec m r
  | .cpRestore _ m r => Cat.admits .controlPostinc m r
  | .fLine v => !isCpWord (typeField v) (modeField v) (regField v)
  | .moveq _ _ | .movep _ _ _ _ _ | .linkW _ _ | .linkL _ _ | .unlk _ | .exg _ _ _
  | .addx _ _ _ _ | .subx _ _ _ _ | .cmpm _ _ _ | .extW _ | .extL _ | .extbL _
  | .aslReg _ _ _ | .asrReg _ _ _ | .lslReg _ _ _ | .lsrReg _ _ _ | .rolReg _ _ _ | .rorReg _ _ _
  | .roxlReg _ _ _ | .roxrReg _ _ _ | .swap _ | .abcd _ _ _ | .sbcd _ _ _ | .pack _ _ _ _
  | .unpk _ _ _ _ | .dbcc _ _ _ | .rts | .rtr | .rtd _ | .nop | .rtm _ | .trap _ | .trapcc _ _
  | .trapv | .illegal | .bkpt _ | .stop _ | .rte | .reset | .andiToSr _ | .eoriToSr _ | .oriToSr _
  | .moveUsp _ _ | .movec _ _ _ | .andiToCcr _ | .eoriToCcr _ | .oriToCcr _
  | .cas2 _ _ _ _ _ _ _ | .cpDbcc _ _ | .cpBcc _ _ _ | .aLine _ => true

end Sys2Proof
end

