-- ==== Sys2Proof/Decode.lean ====
section
/-! DEFINITION. Decoding instruction words and encoding instructions (30_encoding R110 to R127).
The decoder takes the words from the operation word on, in the order of R112, and is total: it
answers an instruction with the number of words it took, or why there is none. -/

namespace Sys2Proof

/-- Reserved encodings whose effect the spec does not give. -/
inductive Reserved where
  /-- A reserved setting of the full-format extension word (R116, 93 U21). -/
  | fullExtension
  /-- A nonzero bit where the spec shows 0 in an extension word (R127, 93 U22). -/
  | extensionBits
  deriving DecidableEq, Repr

/-- Why the decoder found no instruction. -/
inductive Stop where
  /-- An illegal instruction (R123): the processor takes vector 4. -/
  | illegal
  /-- A reserved encoding. -/
  | reserved (r : Reserved)
  /-- The word list ended before the instruction did. -/
  | short
  deriving DecidableEq, Repr

/-- A parser of instruction words: it consumes the words it uses. -/
abbrev P := EStateM Stop (List Word)

/-- The next instruction word. -/
def nextWord : P Word := fun ws =>
  match ws with
  | [] => .error .short []
  | w :: rest => .ok w rest

/-- Two words, high-order first (R120). -/
def nextLong : P Long := do
  let hi ← nextWord
  let lo ← nextWord
  pure (hi ++ lo)

/-- An illegal instruction. -/
def illegal {α : Type} : P α := throw .illegal

/-- Go on only if `ok`; else the word is an illegal instruction (R123). -/
def legal (ok : Bool) : P Unit := if ok then pure () else illegal

/-- Go on only if the bits the spec shows as 0 are 0 (R127). -/
def zeroBits (ok : Bool) : P Unit := if ok then pure () else throw (.reserved .extensionBits)

/-- The 3-bit field of a word whose lowest bit is `lo`. -/
def fieldAt (w : Word) (lo : Nat) : Reg := ⟨w.toNat / 2 ^ lo % 8, Nat.mod_lt _ (by decide)⟩

/-- The register designator in bits 15:12 (R119). -/
def rnField (w : Word) : Rn := ⟨w.getLsbD 15, fieldAt w 12⟩

/-- The designator of bits 3:0 (RTM, R362). -/
def Rn.ofModeReg (m r : Reg) : Rn := ⟨m.val % 2 == 1, r⟩

/-- D/A, register, W/L and SCALE of an extension word (R115, R116). -/
def indexField (w : Word) : Index where
  reg := rnField w
  long := w.getLsbD 11
  scale := ⟨w.toNat / 2 ^ 9 % 4, Nat.mod_lt _ (by decide)⟩

/-- A displacement by its size code: 01 null, 10 word, 11 long (R116). -/
def nextDisp (code : Nat) : P Disp :=
  match code with
  | 1 => pure .null
  | 2 => do pure (.word (← nextWord))
  | 3 => do pure (.long (← nextLong))
  | _ => throw (.reserved .fullExtension)

/-- The outer displacement words of an I/IS setting, with IS (R116). -/
def nextIndirect (is : Bool) (iis : Nat) : P Indirect :=
  match is, iis with
  | _, 0 => pure .none
  | _, 1 => pure (.pre .null)
  | _, 2 => do pure (.pre (.word (← nextWord)))
  | _, 3 => do pure (.pre (.long (← nextLong)))
  | false, 5 => pure (.post .null)
  | false, 6 => do pure (.post (.word (← nextWord)))
  | false, 7 => do pure (.post (.long (← nextLong)))
  | _, _ => throw (.reserved .fullExtension)

/-- The I/IS settings of R116 that are not reserved. -/
def indirectCodeOk (is : Bool) (iis : Nat) : Bool :=
  if is then iis ≤ 3 else iis != 4

/-- The extension words of mode 110 and mode 111/011: bit 8 selects the format (R115, R116). -/
def nextIndexExt : P IndexExt := do
  let w ← nextWord
  let ix := indexField w
  if w.getLsbD 8 then
    let bdSize := w.toNat / 16 % 4
    let is := w.getLsbD 6
    let iis := w.toNat % 8
    if w.getLsbD 3 || bdSize == 0 || !indirectCodeOk is iis then throw (.reserved .fullExtension)
    let bd ← nextDisp bdSize
    let ind ← nextIndirect is iis
    pure (.full ix (w.getLsbD 7) is bd ind)
  else
    pure (.brief ix (w.extractLsb' 0 8))

/-- Immediate words of an operand size (R114 mode 111/100). -/
def nextImm (sz : Size) : P Imm :=
  match sz with
  | .l => do pure (.long (← nextLong))
  | _ => do pure (.word (← nextWord))

/-- The effective address of a mode and register field, with its extension words (R113). -/
def nextEa (sz : Size) (m r : Reg) : P Ea :=
  match m.val with
  | 0 => pure (.dreg r)
  | 1 => pure (.areg r)
  | 2 => pure (.ind r)
  | 3 => pure (.postinc r)
  | 4 => pure (.predec r)
  | 5 => do pure (.disp r (← nextWord))
  | 6 => do pure (.indexed r (← nextIndexExt))
  | _ =>
    match r.val with
    | 0 => do pure (.absW (← nextWord))
    | 1 => do pure (.absL (← nextLong))
    | 2 => do pure (.pcDisp (← nextWord))
    | 3 => do pure (.pcIndexed (← nextIndexExt))
    | 4 => do pure (.imm (← nextImm sz))
    | _ => illegal

/-- The category test of an operand of a given size, on the operation word alone (R117, R123). -/
def checkEa (c : Cat) (sz : Size) (m r : Reg) : P Unit := legal (c.admits m r && sizeAdmits sz m)

/-- An operand: its category test, then its extension words. -/
def operand (c : Cat) (sz : Size) (m r : Reg) : P Ea := do
  checkEa c sz m r
  nextEa sz m r

/-- An operand that comes after words of the instruction's own: the operation word is tested first,
then `own` reads those words, then the operand's extension words follow (R112). -/
def ownThenEa {α : Type} (c : Cat) (sz : Size) (m r : Reg) (own : P α) : P (α × Ea) := do
  checkEa c sz m r
  let x ← own
  let e ← nextEa sz m r
  pure (x, e)

/-- The standard size field, bits 7:6 (R118); 11 selects another instruction. -/
def stdSize (o : Reg) : Size :=
  match o.val % 4 with
  | 0 => .b
  | 1 => .w
  | _ => .l

/-- A condition code (R121). -/
def Cond.ofCode (n : Nat) : Cond :=
  match n with
  | 0 => .t | 1 => .f | 2 => .hi | 3 => .ls | 4 => .cc | 5 => .cs | 6 => .ne | 7 => .eq
  | 8 => .vc | 9 => .vs | 10 => .pl | 11 => .mi | 12 => .ge | 13 => .lt | 14 => .gt | _ => .le

/-- The displacement of a branch from its 8-bit field (R120). -/
def nextBrDisp (d : Byte) : P BrDisp :=
  if d = 0x00#8 then do pure (.word (← nextWord))
  else if d = 0xFF#8 then do pure (.long (← nextLong))
  else pure (.byte d)

/-- The extension word of the bit-field instructions (R320); with `reg` bits 14:12 name Dn, else
they are 000. -/
def nextBitField (reg : Bool) : P (Reg × BitField) := do
  let w ← nextWord
  let f : BitField := ⟨w.getLsbD 11, w.extractLsb' 6 5, w.getLsbD 5, w.extractLsb' 0 5⟩
  zeroBits (!w.getLsbD 15 && (reg || fieldAt w 12 == 0) && f.wf)
  pure (fieldAt w 12, f)

/-- The extension word of MULx.L and DIVx.L (R243, R246). -/
def nextMulDiv : P (Reg × Bool × Bool × Reg) := do
  let w ← nextWord
  zeroBits (!w.getLsbD 15 && w.toNat / 8 % 128 == 0)
  pure (fieldAt w 12, w.getLsbD 11, w.getLsbD 10, fieldAt w 0)

/-- The extension word of CMP2 and CHK2 (R241, R384): the register and bit 11. -/
def nextBounds : P (Rn × Bool) := do
  let w ← nextWord
  zeroBits (w.toNat % 2048 == 0)
  pure (rnField w, w.getLsbD 11)

/-- The extension word of CAS (R421): Du and Dc. -/
def nextCas : P (Reg × Reg) := do
  let w ← nextWord
  zeroBits (w.toNat / 512 == 0 && fieldAt w 3 == 0)
  pure (fieldAt w 6, fieldAt w 0)

/-- One extension word of CAS2 (R422): Rn, Du and Dc. -/
def nextCas2 : P (Rn × Reg × Reg) := do
  let w ← nextWord
  zeroBits (fieldAt w 9 == 0 && fieldAt w 3 == 0)
  pure (rnField w, fieldAt w 6, fieldAt w 0)

/-- The extension word of MOVES (R399): the register and `dr`. -/
def nextMoves : P (Rn × Bool) := do
  let w ← nextWord
  zeroBits (w.toNat % 2048 == 0)
  pure (rnField w, w.getLsbD 11)

/-- The argument count word of CALLM (R361). -/
def nextArgc : P Byte := do
  let w ← nextWord
  zeroBits (w.toNat / 256 == 0)
  pure (w.extractLsb' 0 8)

/-- CMP2 or CHK2, told apart by bit 11 of the extension word (R122). -/
def boundsOp (sz : Size) (m r : Reg) : P Instr := do
  let ((rn, chk), e) ← ownThenEa .control sz m r nextBounds
  pure (if chk then .chk2 sz e rn else .cmp2 sz e rn)

/-- CAS of size `sz` (R421). -/
def casOp (sz : Size) (m r : Reg) : P Instr := do
  let ((du, dc), e) ← ownThenEa .memoryAlterable sz m r nextCas
  pure (.cas sz dc du e)

/-- CAS, or CAS2 where the effective address field is 111/100 (R421, R422). -/
def casOrCas2 (sz : WL) (m r : Reg) : P Instr :=
  if m = 7 ∧ r = 4 then do
    let (rn1, du1, dc1) ← nextCas2
    let (rn2, du2, dc2) ← nextCas2
    pure (.cas2 sz rn1 du1 dc1 rn2 du2 dc2)
  else casOp sz.size m r

/-- An immediate instruction: its immediate, then its operand (R233). -/
def immOp (c : Cat) (sz : Size) (m r : Reg) (f : Imm → Ea → Instr) : P Instr := do
  let (v, e) ← ownThenEa c sz m r (nextImm sz)
  pure (f v e)

/-- ORI, ANDI, EORI: operand field 111/100 names the CCR (byte) or the SR (word). -/
def logicImm (o m r : Reg) (ccr sr : Word → Instr) (f : Size → Imm → Ea → Instr) : P Instr :=
  if m = 7 ∧ r = 4 ∧ o = 0 then do pure (ccr (← nextWord))
  else if m = 7 ∧ r = 4 ∧ o = 1 then do pure (sr (← nextWord))
  else immOp .dataAlterable (stdSize o) m r (f (stdSize o))

/-- A static bit instruction: the bit number word, then the operand (R310). -/
def bitImm (c : Cat) (m r : Reg) (f : Word → Ea → Instr) : P Instr := do
  let (n, e) ← ownThenEa c .b m r nextWord
  pure (f n e)

/-- Line 0000. -/
def line0 (a o m r : Reg) : P Instr :=
  match o.val with
  | 4 => if m = 1 then do pure (.movep false .w a r (← nextWord))
         else do pure (.btstDyn a (← operand .data .b m r))
  | 5 => if m = 1 then do pure (.movep false .l a r (← nextWord))
         else do pure (.bchgDyn a (← operand .dataAlterable .b m r))
  | 6 => if m = 1 then do pure (.movep true .w a r (← nextWord))
         else do pure (.bclrDyn a (← operand .dataAlterable .b m r))
  | 7 => if m = 1 then do pure (.movep true .l a r (← nextWord))
         else do pure (.bsetDyn a (← operand .dataAlterable .b m r))
  | 3 =>
    match a.val with
    | 0 => boundsOp .b m r
    | 1 => boundsOp .w m r
    | 2 => boundsOp .l m r
    | 3 =>
      if m.val ≤ 1 then pure (.rtm (Rn.ofModeReg m r))
      else do
        let (n, e) ← ownThenEa .control .l m r nextArgc
        pure (.callm n e)
    | 4 => bitImm .dataAlterable m r .bsetImm
    | 5 => casOp .b m r
    | 6 => casOrCas2 .w m r
    | _ => casOrCas2 .l m r
  | _ =>
    match a.val with
    | 0 => logicImm o m r .oriToCcr .oriToSr .ori
    | 1 => logicImm o m r .andiToCcr .andiToSr .andi
    | 2 => immOp .dataAlterable (stdSize o) m r (.subi (stdSize o))
    | 3 => immOp .dataAlterable (stdSize o) m r (.addi (stdSize o))
    | 4 =>
      match o.val with
      | 0 => bitImm .dataExceptImm m r .btstImm
      | 1 => bitImm .dataAlterable m r .bchgImm
      | _ => bitImm .dataAlterable m r .bclrImm
    | 5 => logicImm o m r .eoriToCcr .eoriToSr .eori
    | 6 => immOp .dataExceptImm (stdSize o) m r (.cmpi (stdSize o))
    | _ => do
      let ((rn, toMem), e) ← ownThenEa .memoryAlterable (stdSize o) m r nextMoves
      pure (.moves (stdSize o) toMem rn e)

/-- Lines 0001, 0010, 0011: MOVE, and MOVEA where the destination mode is 001 (R201, R202). -/
def lineMove (sz : Size) (a o m r : Reg) : P Instr :=
  if o = 1 then
    match sz with
    | .b => illegal
    | .w => do pure (.movea .w (← operand .all .w m r) a)
    | .l => do pure (.movea .l (← operand .all .l m r) a)
  else do
    checkEa .dataAlterable sz o a
    let src ← operand .all sz m r
    let dst ← nextEa sz o a
    pure (.move sz src dst)

/-- Line 0100, bits 11:6 = 111 001: TRAP, LINK, UNLK, MOVE USP and the words `$4E70` to `$4E7F`. -/
def line4E4 (m r : Reg) : P Instr :=
  match m.val with
  | 0 => pure (.trap ⟨r.val, by omega⟩)
  | 1 => pure (.trap ⟨8 + r.val, by omega⟩)
  | 2 => do pure (.linkW r (← nextWord))
  | 3 => pure (.unlk r)
  | 4 => pure (.moveUsp false r)
  | 5 => pure (.moveUsp true r)
  | 6 =>
    match r.val with
    | 0 => pure .reset
    | 1 => pure .nop
    | 2 => do pure (.stop (← nextWord))
    | 3 => pure .rte
    | 4 => do pure (.rtd (← nextWord))
    | 5 => pure .rts
    | 6 => pure .trapv
    | _ => pure .rtr
  | _ =>
    match r.val with
    | 2 => do
      let w ← nextWord
      pure (.movec false (rnField w) (w.extractLsb' 0 12))
    | 3 => do
      let w ← nextWord
      pure (.movec true (rnField w) (w.extractLsb' 0 12))
    | _ => illegal

/-- A MOVEM: the mask word, then the operand (R204). -/
def movemOp (c : Cat) (sz : WL) (m r : Reg) (f : WL → Word → Ea → Instr) : P Instr := do
  let (mask, e) ← ownThenEa c sz.size m r nextWord
  pure (f sz mask e)

/-- Line 0100. -/
def line4 (a o m r : Reg) : P Instr :=
  match o.val with
  | 4 => do pure (.chk .l (← operand .data .l m r) a)
  | 5 => illegal
  | 6 => do pure (.chk .w (← operand .data .w m r) a)
  | 7 => if a = 4 ∧ m = 0 then pure (.extbL r) else do pure (.lea (← operand .control .l m r) a)
  | 3 =>
    match a.val with
    | 0 => do pure (.moveFromSr (← operand .dataAlterable .w m r))
    | 1 => do pure (.moveFromCcr (← operand .dataAlterable .w m r))
    | 2 => do pure (.moveToCcr (← operand .data .w m r))
    | 3 => do pure (.moveToSr (← operand .data .w m r))
    | 4 => if m = 0 then pure (.extL r) else movemOp .controlAlterablePredec .l m r .movemToMem
    | 5 => if m = 7 ∧ r = 4 then pure .illegal else do pure (.tas (← operand .dataAlterable .b m r))
    | 6 => movemOp .controlPostinc .l m r .movemToReg
    | _ => do pure (.jmp (← operand .control .l m r))
  | _ =>
    match a.val with
    | 0 => do pure (.negx (stdSize o) (← operand .dataAlterable (stdSize o) m r))
    | 1 => do pure (.clr (stdSize o) (← operand .dataAlterable (stdSize o) m r))
    | 2 => do pure (.neg (stdSize o) (← operand .dataAlterable (stdSize o) m r))
    | 3 => do pure (.not (stdSize o) (← operand .dataAlterable (stdSize o) m r))
    | 4 =>
      match o.val with
      | 0 => if m = 1 then do pure (.linkL r (← nextLong))
             else do pure (.nbcd (← operand .dataAlterable .b m r))
      | 1 => if m = 0 then pure (.swap r) else if m = 1 then pure (.bkpt r)
             else do pure (.pea (← operand .control .l m r))
      | _ => if m = 0 then pure (.extW r) else movemOp .controlAlterablePredec .w m r .movemToMem
    | 5 => do pure (.tst (stdSize o) (← operand .all (stdSize o) m r))
    | 6 =>
      match o.val with
      | 0 => do
        let ((dl, g, z, dh), e) ← ownThenEa .data .l m r nextMulDiv
        pure (.mulL e dl g z dh)
      | 1 => do
        let ((dq, g, z, dr), e) ← ownThenEa .data .l m r nextMulDiv
        pure (.divL e dq g z dr)
      | _ => movemOp .controlPostinc .w m r .movemToReg
    | _ =>
      match o.val with
      | 0 => illegal
      | 1 => line4E4 m r
      | _ => do pure (.jsr (← operand .control .l m r))

/-- The operand words of TRAPcc by its `ooo` field: 010 word, 011 long, 100 none (R381). -/
def nextTrapOperand (r : Reg) : P TrapOperand :=
  match r.val with
  | 2 => do pure (.word (← nextWord))
  | 3 => do pure (.long (← nextLong))
  | _ => pure .none

/-- Line 0101: ADDQ, SUBQ, Scc, DBcc, TRAPcc. -/
def line5 (a o m r : Reg) : P Instr :=
  if o.val % 4 = 3 then
    let c := Cond.ofCode (a.val * 2 + o.val / 4)
    if m = 1 then do pure (.dbcc c r (← nextWord))
    else if m = 7 ∧ isTrapOpmode r then do pure (.trapcc c (← nextTrapOperand r))
    else do pure (.scc c (← operand .dataAlterable .b m r))
  else if o.val < 4 then do pure (.addq (stdSize o) a (← operand .alterable (stdSize o) m r))
  else do pure (.subq (stdSize o) a (← operand .alterable (stdSize o) m r))

/-- Bits 7:0 of an operation word from its octal fields. -/
def lowByte (o m r : Reg) : Byte := BitVec.ofNat 8 (o.val % 4 * 64 + m.val * 8 + r.val)

/-- Line 0110: Bcc, BRA, BSR. -/
def line6 (a o m r : Reg) : P Instr := do
  let d ← nextBrDisp (lowByte o m r)
  match a.val * 2 + o.val / 4 with
  | 0 => pure (.bra d)
  | 1 => pure (.bsr d)
  | n => pure (.bcc (Cond.ofCode n) d)

/-- The two directions of ADD, SUB, AND and OR: `ooo` below 4 computes into Dn (R231, R271). -/
def aluOp (c : Cat) (a o m r : Reg) (toReg : Size → Ea → Reg → Instr) (toEa : Size → Reg → Ea → Instr) :
    P Instr :=
  if o.val < 4 then do pure (toReg (stdSize o) (← operand c (stdSize o) m r) a)
  else do pure (toEa (stdSize o) a (← operand .memoryAlterable (stdSize o) m r))

/-- Line 1000: OR, DIVU.W, DIVS.W, SBCD, PACK, UNPK. -/
def line8 (a o m r : Reg) : P Instr :=
  match o.val with
  | 3 => do pure (.divuW (← operand .data .w m r) a)
  | 7 => do pure (.divsW (← operand .data .w m r) a)
  | 4 => if m.val ≤ 1 then pure (.sbcd (m == 1) r a) else aluOp .data a o m r .orToReg .orToEa
  | 5 => if m.val ≤ 1 then do pure (.pack (m == 1) r a (← nextWord))
         else aluOp .data a o m r .orToReg .orToEa
  | 6 => if m.val ≤ 1 then do pure (.unpk (m == 1) r a (← nextWord))
         else aluOp .data a o m r .orToReg .orToEa
  | _ => aluOp .data a o m r .orToReg .orToEa

/-- Line 1001: SUB, SUBA, SUBX. -/
def line9 (a o m r : Reg) : P Instr :=
  match o.val with
  | 3 => do pure (.suba .w (← operand .all .w m r) a)
  | 7 => do pure (.suba .l (← operand .all .l m r) a)
  | _ => if 4 ≤ o.val ∧ m.val ≤ 1 then pure (.subx (stdSize o) (m == 1) r a)
         else aluOp .all a o m r .subToReg .subToEa

/-- Line 1011: CMP, CMPA, CMPM, EOR. -/
def line11 (a o m r : Reg) : P Instr :=
  match o.val with
  | 3 => do pure (.cmpa .w (← operand .all .w m r) a)
  | 7 => do pure (.cmpa .l (← operand .all .l m r) a)
  | _ => if o.val < 4 then do pure (.cmp (stdSize o) (← operand .all (stdSize o) m r) a)
         else if m = 1 then pure (.cmpm (stdSize o) r a)
         else do pure (.eor (stdSize o) a (← operand .dataAlterable (stdSize o) m r))

/-- Line 1100: AND, MULU.W, MULS.W, ABCD, EXG. -/
def line12 (a o m r : Reg) : P Instr :=
  match o.val with
  | 3 => do pure (.muluW (← operand .data .w m r) a)
  | 7 => do pure (.mulsW (← operand .data .w m r) a)
  | 4 => if m.val ≤ 1 then pure (.abcd (m == 1) r a) else aluOp .data a o m r .andToReg .andToEa
  | 5 => if m = 0 then pure (.exg .dd a r) else if m = 1 then pure (.exg .aa a r)
         else aluOp .data a o m r .andToReg .andToEa
  | 6 => if m = 1 then pure (.exg .da a r) else aluOp .data a o m r .andToReg .andToEa
  | _ => aluOp .data a o m r .andToReg .andToEa

/-- Line 1101: ADD, ADDA, ADDX. -/
def line13 (a o m r : Reg) : P Instr :=
  match o.val with
  | 3 => do pure (.adda .w (← operand .all .w m r) a)
  | 7 => do pure (.adda .l (← operand .all .l m r) a)
  | _ => if 4 ≤ o.val ∧ m.val ≤ 1 then pure (.addx (stdSize o) (m == 1) r a)
         else aluOp .all a o m r .addToReg .addToEa

/-- The memory forms of the shifts and rotates (R290, R299): type in bits 10:9, direction in bit 8. -/
def memShift (tt : Nat) (left : Bool) (m r : Reg) : P Instr := do
  let e ← operand .memoryAlterable .w m r
  match tt, left with
  | 0, false => pure (.asrMem e)
  | 0, true => pure (.aslMem e)
  | 1, false => pure (.lsrMem e)
  | 1, true => pure (.lslMem e)
  | 2, false => pure (.roxrMem e)
  | 2, true => pure (.roxlMem e)
  | _, false => pure (.rorMem e)
  | _, true => pure (.rolMem e)

/-- The register forms (R290): type in bits 4:3. -/
def regShift (sz : Size) (tt : Nat) (left : Bool) (c : ShiftCount) (dn : Reg) : Instr :=
  match tt, left with
  | 0, false => .asrReg sz c dn
  | 0, true => .aslReg sz c dn
  | 1, false => .lsrReg sz c dn
  | 1, true => .lslReg sz c dn
  | 2, false => .roxrReg sz c dn
  | 2, true => .roxlReg sz c dn
  | _, false => .rorReg sz c dn
  | _, true => .rolReg sz c dn

/-- The eight bit-field instructions by `ttt` (R320). -/
def bitFieldOp (t : Nat) (m r : Reg) : P Instr :=
  match t with
  | 0 => do
    let ((_, f), e) ← ownThenEa .dnControl .b m r (nextBitField false)
    pure (.bftst e f)
  | 1 => do
    let ((dn, f), e) ← ownThenEa .dnControl .b m r (nextBitField true)
    pure (.bfextu e f dn)
  | 2 => do
    let ((_, f), e) ← ownThenEa .dnControlAlterable .b m r (nextBitField false)
    pure (.bfchg e f)
  | 3 => do
    let ((dn, f), e) ← ownThenEa .dnControl .b m r (nextBitField true)
    pure (.bfexts e f dn)
  | 4 => do
    let ((_, f), e) ← ownThenEa .dnControlAlterable .b m r (nextBitField false)
    pure (.bfclr e f)
  | 5 => do
    let ((dn, f), e) ← ownThenEa .dnControl .b m r (nextBitField true)
    pure (.bfffo e f dn)
  | 6 => do
    let ((_, f), e) ← ownThenEa .dnControlAlterable .b m r (nextBitField false)
    pure (.bfset e f)
  | _ => do
    let ((dn, f), e) ← ownThenEa .dnControlAlterable .b m r (nextBitField true)
    pure (.bfins dn e f)

/-- Line 1110: shifts, rotates, bit fields. -/
def line14 (a o m r : Reg) : P Instr :=
  if o.val % 4 = 3 then
    if a.val < 4 then memShift a.val (o.val / 4 == 1) m r
    else bitFieldOp ((a.val - 4) * 2 + o.val / 4) m r
  else
    let c := if m.val < 4 then ShiftCount.imm a else ShiftCount.reg a
    pure (regShift (stdSize o) (m.val % 4) (o.val / 4 == 1) c r)

/-- Line 1111: the coprocessor rows (R432), every other word the F-line row (R435). -/
def line15 (a o m r : Reg) : P Instr :=
  let other := Instr.fLine (BitVec.ofNat 12 (((a.val * 8 + o.val) * 8 + m.val) * 8 + r.val))
  match o.val with
  | 0 => pure (if Cat.admits .all m r then .cpGen a m r else other)
  | 1 => pure (if m = 1 then .cpDbcc a r
               else if m = 7 ∧ isTrapOpmode r then .cpTrapcc a r
               else if Cat.admits .dataAlterable m r then .cpScc a m r else other)
  | 2 => pure (.cpBcc a false (BitVec.ofNat 6 (m.val * 8 + r.val)))
  | 3 => pure (.cpBcc a true (BitVec.ofNat 6 (m.val * 8 + r.val)))
  | 4 => pure (if Cat.admits .controlAlterablePredec m r then .cpSave a m r else other)
  | 5 => pure (if Cat.admits .controlPostinc m r then .cpRestore a m r else other)
  | _ => pure other

/-- The opcode map of R122 by line and the four octal fields below it. -/
def decodeOp (line : Nat) (a o m r : Reg) : P Instr :=
  match line with
  | 0 => line0 a o m r
  | 1 => lineMove .b a o m r
  | 2 => lineMove .l a o m r
  | 3 => lineMove .w a o m r
  | 4 => line4 a o m r
  | 5 => line5 a o m r
  | 6 => line6 a o m r
  | 7 => if o.val < 4 then pure (.moveq a (lowByte o m r)) else illegal
  | 8 => line8 a o m r
  | 9 => line9 a o m r
  | 10 => pure (.aLine (BitVec.ofNat 12 (((a.val * 8 + o.val) * 8 + m.val) * 8 + r.val)))
  | 11 => line11 a o m r
  | 12 => line12 a o m r
  | 13 => line13 a o m r
  | 14 => line14 a o m r
  | _ => line15 a o m r

/-- One instruction from the word list, the operation word first (R112). -/
def parseInstr : P Instr := do
  let w ← nextWord
  decodeOp (w.toNat / 4096) (fieldAt w 9) (fieldAt w 6) (fieldAt w 3) (fieldAt w 0)

/-- What the decoder answers. -/
inductive Decoded where
  /-- An instruction and the number of words it takes. -/
  | instr (i : Instr) (words : Nat)
  /-- No instruction, and why. -/
  | none (why : Stop)
  deriving DecidableEq, Repr

/-- Decode the instruction at the head of a word list. -/
def decode (ws : List Word) : Decoded :=
  match parseInstr ws with
  | .ok i rest => .instr i (ws.length - rest.length)
  | .error e _ => .none e

/-- An operation word that is a privileged instruction in every form it can take (R390): the
privilege check needs no further word of it. -/
def isPrivilegedWord (w : Word) : Bool :=
  let line := w.toNat / 4096
  let a := fieldAt w 9
  let o := fieldAt w 6
  let m := fieldAt w 3
  let r := fieldAt w 0
  match line, a.val, o.val with
  | 0, 0, 1 | 0, 1, 1 | 0, 5, 1 => m == 7 && r == 4
  | 0, 7, 0 | 0, 7, 1 | 0, 7, 2 => Cat.admits .memoryAlterable m r
  | 4, 0, 3 => Cat.admits .dataAlterable m r
  | 4, 3, 3 => Cat.admits .data m r
  | 4, 7, 1 =>
    m == 4 || m == 5 || (m == 6 && (r == 0 || r == 2 || r == 3)) || (m == 7 && (r == 2 || r == 3))
  | _, _, _ => false

/-! Encoding, from the same tables. -/

/-- An operation word from its line and octal fields. -/
def opWord (line : Nat) (a o m r : Reg) : Word :=
  BitVec.ofNat 16 ((((line * 8 + a.val) * 8 + o.val) * 8 + m.val) * 8 + r.val)

/-- The two words of a long, high-order first. -/
def longWords (v : Long) : List Word := [v.extractLsb' 16 16, v.extractLsb' 0 16]

/-- A 3-bit number placed at bit `lo` of a word. -/
def put (n lo : Nat) : Word := BitVec.ofNat 16 (n * 2 ^ lo)

/-- A flag placed at bit `lo` of a word. -/
def putBit (b : Bool) (lo : Nat) : Word := put b.toNat lo

/-- The designator in bits 15:12 (R119). -/
def Rn.word (rn : Rn) : Word := putBit rn.isAddr 15 ||| put rn.num.val 12

/-- D/A, register, W/L and SCALE (R115). -/
def Index.word (ix : Index) : Word := ix.reg.word ||| putBit ix.long 11 ||| put ix.scale.val 9

/-- The size code of a displacement (R116). -/
def Disp.code : Disp → Nat
  | .null => 1
  | .word _ => 2
  | .long _ => 3

/-- The words of a displacement. -/
def Disp.enc : Disp → List Word
  | .null => []
  | .word v => [v]
  | .long v => longWords v

/-- The I/IS code (R116). -/
def Indirect.code : Indirect → Nat
  | .none => 0
  | .pre od => od.code
  | .post od => 4 + od.code

/-- The outer displacement words. -/
def Indirect.enc : Indirect → List Word
  | .none => []
  | .pre od => od.enc
  | .post od => od.enc

/-- The words of an indexed mode (R115, R116). -/
def IndexExt.enc : IndexExt → List Word
  | .brief ix d8 => [ix.word ||| d8.setWidth 16]
  | .full ix bs is bd ind =>
    (ix.word ||| putBit true 8 ||| putBit bs 7 ||| putBit is 6 ||| put bd.code 4 ||| put ind.code 0) ::
      (bd.enc ++ ind.enc)

/-- The words of an immediate. -/
def Imm.enc : Imm → List Word
  | .word v => [v]
  | .long v => longWords v

/-- The extension words of an effective address (R113). -/
def Ea.enc : Ea → List Word
  | .dreg _ | .areg _ | .ind _ | .postinc _ | .predec _ => []
  | .disp _ d | .absW d | .pcDisp d => [d]
  | .absL a => longWords a
  | .indexed _ x | .pcIndexed x => x.enc
  | .imm v => v.enc

/-- The standard size code (R118). -/
def Size.code : Size → Nat
  | .b => 0
  | .w => 1
  | .l => 2

/-- The one-bit size code of MOVEM (R118). -/
def WL.code : WL → Nat
  | .w => 0
  | .l => 1

/-- The code of a condition (R121). -/
def Cond.code : Cond → Nat
  | .t => 0 | .f => 1 | .hi => 2 | .ls => 3 | .cc => 4 | .cs => 5 | .ne => 6 | .eq => 7
  | .vc => 8 | .vs => 9 | .pl => 10 | .mi => 11 | .ge => 12 | .lt => 13 | .gt => 14 | .le => 15

/-- An octal digit. -/
def oct (n : Nat) : Reg := ⟨n % 8, Nat.mod_lt _ (by decide)⟩

/-- The operation word with an effective address in bits 5:0 (R113). -/
def eaWord (line : Nat) (a o : Reg) (e : Ea) : Word := opWord line a o e.mode e.reg

/-- The words of a branch (R120): `cc` in bits 11:8. -/
def branchWords (cc : Nat) (d : BrDisp) : List Word :=
  let op (b : Nat) : Word := BitVec.ofNat 16 (0x6000 + cc * 256 + b)
  match d with
  | .byte b => [op b.toNat]
  | .word v => [op 0x00, v]
  | .long v => op 0xFF :: longWords v

/-- A bit-field extension word (R320). -/
def BitField.word (dn : Reg) (f : BitField) : Word :=
  put dn.val 12 ||| putBit f.offReg 11 ||| put f.off.toNat 6 ||| putBit f.widReg 5 ||| put f.wid.toNat 0

/-- The words of a bit-field instruction. -/
def bitFieldWords (t : Nat) (dn : Reg) (e : Ea) (f : BitField) : List Word :=
  eaWord 14 (oct (4 + t / 2)) (oct (3 + t % 2 * 4)) e :: f.word dn :: e.enc

/-- The extension word of MULx.L and DIVx.L. -/
def mulDivWord (q : Reg) (g z : Bool) (h : Reg) : Word :=
  put q.val 12 ||| putBit g 11 ||| putBit z 10 ||| put h.val 0

/-- An extension word of CAS or CAS2. -/
def casWord (du dc : Reg) : Word := put du.val 6 ||| put dc.val 0

/-- The operation word of a register shift (R290). -/
def shiftWord (tt : Nat) (left : Bool) (sz : Size) (c : ShiftCount) (dn : Reg) : Word :=
  match c with
  | .imm n => opWord 14 n (oct (sz.code + left.toNat * 4)) (oct tt) dn
  | .reg n => opWord 14 n (oct (sz.code + left.toNat * 4)) (oct (4 + tt)) dn

/-- The words of a memory shift (R299). -/
def memShiftWords (tt : Nat) (left : Bool) (e : Ea) : List Word :=
  eaWord 14 (oct tt) (oct (3 + left.toNat * 4)) e :: e.enc

/-- The operation word of the two-register forms with an R/M bit (R235, R341). -/
def rmWord (line : Nat) (o : Nat) (mem : Bool) (ry rx : Reg) : Word :=
  opWord line rx (oct o) (oct mem.toNat) ry

/-- The MOVE size line (R118): 0001 byte, 0011 word, 0010 long. -/
def Size.moveLine : Size → Nat
  | .b => 1
  | .w => 3
  | .l => 2

/-- The opmode of an address-register form: 011 word, 111 long (R232). -/
def WL.addrOp : WL → Reg
  | .w => 3
  | .l => 7

/-- The words of an instruction (R112). -/
def encode : Instr → List Word
  | .move sz src dst => opWord sz.moveLine dst.reg dst.mode src.mode src.reg :: (src.enc ++ dst.enc)
  | .movea sz src an => opWord sz.size.moveLine an 1 src.mode src.reg :: src.enc
  | .moveq dn d => [BitVec.ofNat 16 (0x7000 + dn.val * 512 + d.toNat)]
  | .movemToMem sz mask e => eaWord 4 4 (oct (2 + sz.code)) e :: mask :: e.enc
  | .movemToReg sz mask e => eaWord 4 6 (oct (2 + sz.code)) e :: mask :: e.enc
  | .movep toMem sz dx ay d => [opWord 0 dx (oct (4 + toMem.toNat * 2 + sz.code)) 1 ay, d]
  | .lea e an => eaWord 4 an 7 e :: e.enc
  | .pea e => eaWord 4 4 1 e :: e.enc
  | .linkW an d => [opWord 4 7 1 2 an, d]
  | .linkL an d => opWord 4 4 0 1 an :: longWords d
  | .unlk an => [opWord 4 7 1 3 an]
  | .exg .dd rx ry => [opWord 12 rx 5 0 ry]
  | .exg .aa rx ry => [opWord 12 rx 5 1 ry]
  | .exg .da rx ry => [opWord 12 rx 6 1 ry]
  | .addToReg sz e dn => eaWord 13 dn (oct sz.code) e :: e.enc
  | .addToEa sz dn e => eaWord 13 dn (oct (4 + sz.code)) e :: e.enc
  | .adda sz e an => eaWord 13 an sz.addrOp e :: e.enc
  | .addi sz v e => eaWord 0 3 (oct sz.code) e :: (v.enc ++ e.enc)
  | .addq sz d e => eaWord 5 d (oct sz.code) e :: e.enc
  | .addx sz mem ry rx => [rmWord 13 (4 + sz.code) mem ry rx]
  | .clr sz e => eaWord 4 1 (oct sz.code) e :: e.enc
  | .cmp sz e dn => eaWord 11 dn (oct sz.code) e :: e.enc
  | .cmpa sz e an => eaWord 11 an sz.addrOp e :: e.enc
  | .cmpi sz v e => eaWord 0 6 (oct sz.code) e :: (v.enc ++ e.enc)
  | .cmpm sz ay ax => [opWord 11 ax (oct (4 + sz.code)) 1 ay]
  | .cmp2 sz e rn => eaWord 0 (oct sz.code) 3 e :: rn.word :: e.enc
  | .divuW e dn => eaWord 8 dn 3 e :: e.enc
  | .divsW e dn => eaWord 8 dn 7 e :: e.enc
  | .divL e dq g z dr => eaWord 4 6 1 e :: mulDivWord dq g z dr :: e.enc
  | .extW dn => [opWord 4 4 2 0 dn]
  | .extL dn => [opWord 4 4 3 0 dn]
  | .extbL dn => [opWord 4 4 7 0 dn]
  | .muluW e dn => eaWord 12 dn 3 e :: e.enc
  | .mulsW e dn => eaWord 12 dn 7 e :: e.enc
  | .mulL e dl g z dh => eaWord 4 6 0 e :: mulDivWord dl g z dh :: e.enc
  | .neg sz e => eaWord 4 2 (oct sz.code) e :: e.enc
  | .negx sz e => eaWord 4 0 (oct sz.code) e :: e.enc
  | .subToReg sz e dn => eaWord 9 dn (oct sz.code) e :: e.enc
  | .subToEa sz dn e => eaWord 9 dn (oct (4 + sz.code)) e :: e.enc
  | .suba sz e an => eaWord 9 an sz.addrOp e :: e.enc
  | .subi sz v e => eaWord 0 2 (oct sz.code) e :: (v.enc ++ e.enc)
  | .subq sz d e => eaWord 5 d (oct (4 + sz.code)) e :: e.enc
  | .subx sz mem ry rx => [rmWord 9 (4 + sz.code) mem ry rx]
  | .andToReg sz e dn => eaWord 12 dn (oct sz.code) e :: e.enc
  | .andToEa sz dn e => eaWord 12 dn (oct (4 + sz.code)) e :: e.enc
  | .andi sz v e => eaWord 0 1 (oct sz.code) e :: (v.enc ++ e.enc)
  | .orToReg sz e dn => eaWord 8 dn (oct sz.code) e :: e.enc
  | .orToEa sz dn e => eaWord 8 dn (oct (4 + sz.code)) e :: e.enc
  | .ori sz v e => eaWord 0 0 (oct sz.code) e :: (v.enc ++ e.enc)
  | .eor sz dn e => eaWord 11 dn (oct (4 + sz.code)) e :: e.enc
  | .eori sz v e => eaWord 0 5 (oct sz.code) e :: (v.enc ++ e.enc)
  | .not sz e => eaWord 4 3 (oct sz.code) e :: e.enc
  | .tst sz e => eaWord 4 5 (oct sz.code) e :: e.enc
  | .aslReg sz c dn => [shiftWord 0 true sz c dn]
  | .aslMem e => memShiftWords 0 true e
  | .asrReg sz c dn => [shiftWord 0 false sz c dn]
  | .asrMem e => memShiftWords 0 false e
  | .lslReg sz c dn => [shiftWord 1 true sz c dn]
  | .lslMem e => memShiftWords 1 true e
  | .lsrReg sz c dn => [shiftWord 1 false sz c dn]
  | .lsrMem e => memShiftWords 1 false e
  | .rolReg sz c dn => [shiftWord 3 true sz c dn]
  | .rolMem e => memShiftWords 3 true e
  | .rorReg sz c dn => [shiftWord 3 false sz c dn]
  | .rorMem e => memShiftWords 3 false e
  | .roxlReg sz c dn => [shiftWord 2 true sz c dn]
  | .roxlMem e => memShiftWords 2 true e
  | .roxrReg sz c dn => [shiftWord 2 false sz c dn]
  | .roxrMem e => memShiftWords 2 false e
  | .swap dn => [opWord 4 4 1 0 dn]
  | .btstDyn dn e => eaWord 0 dn 4 e :: e.enc
  | .btstImm n e => eaWord 0 4 0 e :: n :: e.enc
  | .bchgDyn dn e => eaWord 0 dn 5 e :: e.enc
  | .bchgImm n e => eaWord 0 4 1 e :: n :: e.enc
  | .bclrDyn dn e => eaWord 0 dn 6 e :: e.enc
  | .bclrImm n e => eaWord 0 4 2 e :: n :: e.enc
  | .bsetDyn dn e => eaWord 0 dn 7 e :: e.enc
  | .bsetImm n e => eaWord 0 4 3 e :: n :: e.enc
  | .bftst e f => bitFieldWords 0 0 e f
  | .bfextu e f dn => bitFieldWords 1 dn e f
  | .bfchg e f => bitFieldWords 2 0 e f
  | .bfexts e f dn => bitFieldWords 3 dn e f
  | .bfclr e f => bitFieldWords 4 0 e f
  | .bfffo e f dn => bitFieldWords 5 dn e f
  | .bfset e f => bitFieldWords 6 0 e f
  | .bfins dn e f => bitFieldWords 7 dn e f
  | .abcd mem ry rx => [rmWord 12 4 mem ry rx]
  | .sbcd mem ry rx => [rmWord 8 4 mem ry rx]
  | .nbcd e => eaWord 4 4 0 e :: e.enc
  | .pack mem ry rx adj => [rmWord 8 5 mem ry rx, adj]
  | .unpk mem ry rx adj => [rmWord 8 6 mem ry rx, adj]
  | .bcc c d => branchWords c.code d
  | .bra d => branchWords 0 d
  | .bsr d => branchWords 1 d
  | .dbcc c dn d => [opWord 5 (oct (c.code / 2)) (oct (3 + c.code % 2 * 4)) 1 dn, d]
  | .scc c e => eaWord 5 (oct (c.code / 2)) (oct (3 + c.code % 2 * 4)) e :: e.enc
  | .jmp e => eaWord 4 7 3 e :: e.enc
  | .jsr e => eaWord 4 7 2 e :: e.enc
  | .rts => [0x4E75]
  | .rtr => [0x4E77]
  | .rtd d => [0x4E74, d]
  | .nop => [0x4E71]
  | .callm n e => eaWord 0 3 3 e :: n.setWidth 16 :: e.enc
  | .rtm rn => [opWord 0 3 3 (oct rn.isAddr.toNat) rn.num]
  | .trap v => [opWord 4 7 1 (oct (v.val / 8)) (oct v.val)]
  | .trapcc c .none => [opWord 5 (oct (c.code / 2)) (oct (3 + c.code % 2 * 4)) 7 4]
  | .trapcc c (.word v) => [opWord 5 (oct (c.code / 2)) (oct (3 + c.code % 2 * 4)) 7 2, v]
  | .trapcc c (.long v) => opWord 5 (oct (c.code / 2)) (oct (3 + c.code % 2 * 4)) 7 3 :: longWords v
  | .trapv => [0x4E76]
  | .chk .w e dn => eaWord 4 dn 6 e :: e.enc
  | .chk .l e dn => eaWord 4 dn 4 e :: e.enc
  | .chk2 sz e rn => eaWord 0 (oct sz.code) 3 e :: (rn.word ||| 0x0800) :: e.enc
  | .illegal => [0x4AFC]
  | .bkpt n => [opWord 4 4 1 1 n]
  | .stop v => [0x4E72, v]
  | .rte => [0x4E73]
  | .reset => [0x4E70]
  | .moveFromSr e => eaWord 4 0 3 e :: e.enc
  | .moveToSr e => eaWord 4 3 3 e :: e.enc
  | .andiToSr v => [0x027C, v]
  | .eoriToSr v => [0x0A7C, v]
  | .oriToSr v => [0x007C, v]
  | .moveUsp toReg an => [opWord 4 7 1 (oct (4 + toReg.toNat)) an]
  | .movec toCtl rn code => [opWord 4 7 1 7 (oct (2 + toCtl.toNat)), rn.word ||| code.setWidth 16]
  | .moves sz toMem rn e => eaWord 0 7 (oct sz.code) e :: (rn.word ||| putBit toMem 11) :: e.enc
  | .moveFromCcr e => eaWord 4 1 3 e :: e.enc
  | .moveToCcr e => eaWord 4 2 3 e :: e.enc
  | .andiToCcr v => [0x023C, v]
  | .eoriToCcr v => [0x0A3C, v]
  | .oriToCcr v => [0x003C, v]
  | .tas e => eaWord 4 5 3 e :: e.enc
  | .cas sz dc du e => eaWord 0 (oct (5 + sz.code)) 3 e :: casWord du dc :: e.enc
  | .cas2 sz rn1 du1 dc1 rn2 du2 dc2 =>
    [opWord 0 (oct (6 + sz.code)) 3 7 4, rn1.word ||| casWord du1 dc1, rn2.word ||| casWord du2 dc2]
  | .cpGen a m r => [opWord 15 a 0 m r]
  | .cpScc a m r => [opWord 15 a 1 m r]
  | .cpDbcc a r => [opWord 15 a 1 1 r]
  | .cpTrapcc a o => [opWord 15 a 1 7 o]
  | .cpBcc a long c => [opWord 15 a (oct (2 + long.toNat)) (oct (c.toNat / 8)) (oct c.toNat)]
  | .cpSave a m r => [opWord 15 a 4 m r]
  | .cpRestore a m r => [opWord 15 a 5 m r]
  | .fLine v => [BitVec.ofNat 16 (0xF000 + v.toNat)]
  | .aLine v => [BitVec.ofNat 16 (0xA000 + v.toNat)]

/-- The words of the longest instruction (R112). -/
def maxWords : Nat := 11

/-- The instruction words numbered as spec/opcode_table.json numbers bits: word `k` is bits
`16k+15..16k` of `w`, and every bit from `nbits` on is 0. -/
def tableWords (nbits w : Nat) : List Word :=
  (List.range maxWords).map fun k => BitVec.ofNat 16 ((w % 2 ^ nbits) / 2 ^ (16 * k))

/-- The two bytes of an instruction word as memory holds them, high-order byte first (20_memory R73). -/
def wordBytes (w : Word) : List Byte := [w.extractLsb' 8 8, w.extractLsb' 0 8]

/-- An instruction word from the two bytes at its address (20_memory R73). -/
def bytesWord (hi lo : Byte) : Word := hi ++ lo

/-- The words of a byte string. -/
def bytesWords : List Byte → List Word
  | hi :: lo :: rest => bytesWord hi lo :: bytesWords rest
  | _ => []

/-- The instruction the decoder reads from a table word: its words are laid out as bytes in the
hardware's order, read back as words, and decoded. -/
def decodeTableWord (nbits w : Nat) : Option Instr :=
  match decode (bytesWords ((tableWords nbits w).flatMap wordBytes)) with
  | .instr i _ => some i
  | .none _ => none

end Sys2Proof
end

