-- ==== Sys2Proof/Config.lean ====
section
/-! DEFINITION. What the spec leaves to an implementation or to the platform (00_scope R7), and the
free values: constants without a body, so that no proof can rest on what they are (log 6). -/

namespace Sys2Proof

/-- The free value of draw number `n`: 32 bits that nothing determines (notation `draw` of R12). -/
opaque Config.freeLong : Nat → Long

/-- Free: at draw `n`, which of the values that register `r` held in the course of an instruction cut
short by a bus error it keeps (0 to 7 data, 8 to 15 address, 16 and 17 the other stack pointers, 18 the
SR; 40_data_movement R200, log 8). -/
opaque Config.partialUpdate : Nat → Nat → Nat

/-- Free: at draw `n`, whether byte `i` of a stack frame whose writing hit a bus error was
written (93 U6, log 30). -/
opaque Config.partialFrame : Nat → Nat → Bool

/-- Free: at draw `n`, whether the pipe still holds old version number `i` of an instruction word
that has been written since it may have been prefetched (20_memory R85, 93 U40, log 16). -/
opaque Config.stalePrefetch : Nat → Nat → Bool

/-- Free: at draw `n`, whether an instruction fetch that hits the cache gives the cached word where a store
has changed memory since (20_memory R85, 92 D13, log 17). -/
opaque Config.staleCache : Nat → Nat → Bool

/-- Free: the byte that a device at an address answers to a data read at draw `n` (R7 `mem_map`, log 41). -/
opaque Config.deviceByte : Nat → Nat → Byte

/-- Free: the word that a device at an address answers to an instruction fetch at draw `n` (log 41). -/
opaque Config.deviceWord : Nat → Nat → Word

/-- Free: at draw `n`, whether an instruction that begins with T1, T0 = 11 is traced (93 U20, log 7). -/
opaque Config.reservedTrace : Nat → Bool

/-- The 4-bit internal version number of the processor (10_state R44, 92 D12). -/
opaque Config.cpuVersion : BitVec 4

/-- Bus cycles that external hardware does not end normally (the predicate `bus_fault`, R7, 92 D4): those at
an address from `lo` to `hi` inclusive, in the spaces whose function-code bit is set in `spaces`, reads and/or
writes, whose size code is set in `sizes`: bit 1 byte, bit 2 word, bit 3 three bytes, bit 0 long word (R513
SIZ). -/
structure Hole where
  lo : Nat
  hi : Nat
  spaces : BitVec 8
  sizes : BitVec 4
  reads : Bool
  writes : Bool
  /-- The cycle is never ended (R89 d), rather than ended with a bus error. -/
  never : Bool
  deriving DecidableEq, Repr

/-- What answers at an address other than RAM (R7 `mem_map`). -/
inductive AreaKind where
  /-- Read as memory; writes end normally and change nothing. -/
  | rom
  /-- A device: reads give a free byte each time, writes change no memory (log 41). -/
  | device
  /-- Nothing: a bus cycle that moves a byte here ends in a bus error (92 D4). -/
  | nothing
  deriving DecidableEq, Repr

/-- A range of addresses, `lo` to `hi` inclusive, in the spaces whose function-code bit is set in
`spaces`, that is not RAM (R7 `mem_map`). -/
structure Area where
  lo : Nat
  hi : Nat
  spaces : BitVec 8
  kind : AreaKind
  deriving DecidableEq, Repr

/-- A range of addresses answered by a data port of `bytes` bytes: 4, 2 or 1 (R7 `port_size`). -/
structure Port where
  lo : Nat
  hi : Nat
  bytes : Nat
  deriving DecidableEq, Repr

/-- The platform: the open parameters of R7 as plain data. No step changes it. -/
structure Platform where
  /-- Bus cycles that end with a bus error or never (92 D4); the first that applies decides. -/
  holes : List Hole
  /-- ROM, devices and nothing (92 D3); an address in none of them is RAM, and the first that applies decides. -/
  areas : List Area
  /-- Ports narrower than 32 bits (92 D3); an address in none of them has a 32-bit port. -/
  ports : List Port
  /-- The memory that answers each function code (92 D3): equal entries are one memory. -/
  bank : Vector (Fin 8) 8
  /-- `CPU_VERSION` (92 D12). -/
  cpuVersion : BitVec 4
  /-- `FORMAT_ERROR_FRAME` (92 D10): true for the short bus fault frame `$A`, false for `$0`. -/
  formatErrorShort : Bool
  deriving DecidableEq, Repr

/-- The spec's default platform (92 D3, D4, D10, D12): one flat RAM for every space, 32-bit ports,
no bus error, format errors in the short frame (log 5, log 18). -/
def Platform.default : Platform where
  holes := []
  areas := []
  ports := []
  bank := Vector.replicate 8 0
  cpuVersion := Config.cpuVersion
  formatErrorShort := true

end Sys2Proof
end

