-- ==== Sys2Proof/Machine/State.lean ====
section
/-! DEFINITION. The state of the machine (10_state), the reasons a step can stop, and the state after
reset. Every field is plain data. -/

namespace Sys2Proof.Machine

/-- Memory as (key, byte) pairs in rising key order, no pair equal to what an unlisted key reads as
(R37). The key of address `a` in memory bank `b` is `b * 2^32 + a`. -/
abbrev Memory := List Host.Cell

/-- Processor run state (R40, 92 D14, and the stuck state of R89). -/
inductive RunState where
  | normal
  | stopped
  | halted
  /-- Waiting for a bus cycle that never ends (20_memory R89 d, 93 U41). -/
  | hung
  deriving DecidableEq, Repr

/-- How the instruction of this step ended, which decides about trace (R42, 60_exceptions R545). -/
inductive Ending where
  /-- It completed and the next instruction follows it in memory. -/
  | sequential
  /-- It completed, wrote the SR, and the next instruction follows it in memory. -/
  | wroteSr
  /-- It completed and changed program flow. -/
  | flow
  /-- It is an RTE that completed from a `$0` or `$2` frame. -/
  | returned
  /-- It is an RTE that goes on by running a read-modify-write instruction again (R553, log 42). -/
  | rerun
  /-- It took an instruction trap (R533). -/
  | trapped
  /-- It did not execute: an illegal, privileged or emulated instruction, a format error, or a bus
  or address error. -/
  | notDone
  deriving DecidableEq, Repr

/-- An owed trace (R42, R547, 92 D29). -/
structure Owed where
  /-- The address of the trapping instruction. -/
  addr : Long
  /-- False once another traced trap was taken while this was owed: then whether it fires is open (93 U32). -/
  sure : Bool
  deriving DecidableEq, Repr

/-- A valid entry of the instruction cache (R49): the tag FC2 : address 31:8, and the long word. -/
structure CacheLine where
  fc2 : Bool
  tag : BitVec 24
  data : Long
  deriving DecidableEq, Repr

/-- How external hardware answers an interrupt acknowledge cycle (R562, 92 D6). -/
inductive Ack where
  | vector (v : Byte)
  | autovector
  | busError
  deriving DecidableEq, Repr

/-- What external hardware does at one step (92 D6, R600). -/
structure Input where
  reset : Bool
  ipl : Fin 8
  ack : Ack
  deriving DecidableEq, Repr

/-- The state of the machine. INVENTORY.md, "State", names the rule of each field. -/
structure State where
  d : Vector Long 8
  a : Vector Long 7
  usp : Long
  isp : Long
  msp : Long
  pc : Long
  sr : Word
  vbr : Long
  sfc : FC
  dfc : FC
  cacr : Long
  caar : Long
  mem : Memory
  cache : Vector (Option CacheLine) 64
  /-- Old versions of instruction words that the pipe may still hold (R43, R85). -/
  pipe : List (Nat × Word)
  run : RunState
  srCopy : Word
  owed : Option Owed
  ending : Ending
  eaTemp : Option Long
  scanPc : Option Long
  ipl : Fin 8
  /-- A change to level 7 that no interrupt has answered yet (R47, R561). -/
  nmi : Bool
  /-- The model's own: what external hardware does at the coming steps. -/
  inputs : List Input
  /-- The model's own: the platform, which no step changes. -/
  platform : Platform
  /-- The model's own: the number of the next free value. -/
  draws : Nat
  deriving DecidableEq, Repr

/-- Why the machine stops with a fault. -/
inductive Fault where
  /-- `step` on a halted processor to which RESET is not given (R532, R581, 92 D14). Safe. -/
  | halted
  /-- `step` on a processor that waits for a bus cycle that never ends, to which RESET is not given
  (20_memory R89, 93 U41, log 33). Safe. -/
  | unterminated
  /-- RTE has followed more throwaway frames than there are stack-pointer values, so the loop of
  R388 never ends. Raised by RTE. Safe. -/
  | rteEndless
  deriving DecidableEq, Repr

/-- Why an instruction has no meaning here. -/
inductive Refusal where
  /-- An instruction without a meaning yet; raised by `exec`'s arms only. Safe. -/
  | notModelled (mnemonic : String)
  /-- `LINK A7,#d` (R208, 93 U23, 90 C7). Safe. -/
  | linkA7
  /-- `UNLK A7` (R209, 93 U23, 90 C7). Safe. -/
  | unlkA7
  /-- RTE from a frame of format `$9` or `$A`, or of format `$B` but for the rerun of a read-modify-write
  instruction (R553), that passed its checks (R388, R550, 92 D11). Safe. -/
  | rteInternalFrame
  /-- CALLM or RTM of type `$01`, which needs the external access control hardware (92 D16). Safe. -/
  | moduleAccessLevel
  /-- A module entry word with bits 11:0 not zero (R365, 93 U9). Safe. -/
  | moduleEntryWord
  /-- A reserved full-format extension word (R116, 93 U21); raised by `step`. Safe. -/
  | reservedFullExtension
  /-- A nonzero bit where the spec shows 0 in an extension word (R127, 93 U22); raised by `step`. Safe. -/
  | reservedExtensionBits
  deriving DecidableEq, Repr

/-- The machine right after reset (R50, R600). Memory lists nothing, so the reset vectors at 0 and 4
read as 0 (log 1, log 3); registers that reset does not touch hold 0 (log 2). -/
def State.reset : State where
  d := Vector.replicate 8 0
  a := Vector.replicate 7 0
  usp := 0
  isp := 0
  msp := 0
  pc := 0
  sr := 0x2700
  vbr := 0
  sfc := 0
  dfc := 0
  cacr := 0
  caar := 0
  mem := []
  cache := Vector.replicate 64 none
  pipe := []
  run := .normal
  srCopy := 0
  owed := none
  ending := .sequential
  eaTemp := none
  scanPc := none
  ipl := 0
  nmi := false
  inputs := []
  platform := Platform.default
  draws := 0

end Sys2Proof.Machine
end

