-- ==== Sys2Proof/Machine/Memory.lean ====
section
/-! DEFINITION. Memory as a canonical list of bytes: reading, writing, and the canonical form (R37,
20_memory R72, R73, R94). -/

namespace Sys2Proof.Machine

/-- What a byte that nothing has written reads as (DESIGN CHOICE, unsafe, log 1). -/
def Memory.unlisted : Byte := 0

/-- The key of an address in a memory bank. -/
def Memory.key (bank : Fin 8) (a : Long) : Nat := bank.val * 2 ^ 32 + a.toNat

/-- The byte at a key. -/
def Memory.byteAt : Memory → Nat → Byte
  | [], _ => Memory.unlisted
  | (k, b) :: rest, n =>
    if n < k then Memory.unlisted else if n = k then b else Memory.byteAt rest n

/-- A pair put before a list, unless it is what an unlisted key reads as. -/
def Memory.consByte (n : Nat) (v : Byte) (m : Memory) : Memory :=
  if v = Memory.unlisted then m else (n, v) :: m

/-- Write a byte, keeping the canonical form. -/
def Memory.setByte : Memory → Nat → Byte → Memory
  | [], n, v => Memory.consByte n v []
  | (k, b) :: rest, n, v =>
    if n < k then Memory.consByte n v ((k, b) :: rest)
    else if n = k then Memory.consByte n v rest
    else (k, b) :: Memory.setByte rest n v

/-- The canonical form: keys strictly rise, and no listed byte is the unlisted value. -/
def Memory.wf : Memory → Bool
  | [] => true
  | (k, b) :: rest =>
    b != Memory.unlisted && rest.all (fun c => decide (k < c.1)) && Memory.wf rest

/-- `n` bytes from address `a` upward; addresses wrap (R94). -/
def Memory.load (m : Memory) (bank : Fin 8) (a : Long) : Nat → List Byte
  | 0 => []
  | n + 1 => m.byteAt (Memory.key bank a) :: Memory.load m bank (a + 1) n

/-- Store bytes from address `a` upward; addresses wrap (R94). -/
def Memory.store (m : Memory) (bank : Fin 8) (a : Long) : List Byte → Memory
  | [] => m
  | b :: bs => Memory.store (m.setByte (Memory.key bank a) b) bank (a + 1) bs

/-- Store those bytes whose index, counted from `i`, is selected. -/
def Memory.storeWhere (sel : Nat → Bool) (m : Memory) (bank : Fin 8) (a : Long) (i : Nat) :
    List Byte → Memory
  | [] => m
  | b :: bs =>
    Memory.storeWhere sel (if sel i then m.setByte (Memory.key bank a) b else m) bank (a + 1)
      (i + 1) bs

/-- The value of a byte string, high-order byte first (R73). -/
def bytesLong (bs : List Byte) : Long := bs.foldl (fun acc b => acc <<< 8 ||| b.setWidth 32) 0

/-- The low `n` bytes of a value, high-order byte first (R73). -/
def longBytes (v : Long) : Nat → List Byte
  | 0 => []
  | n + 1 => v.extractLsb' (8 * n) 8 :: longBytes v n

end Sys2Proof.Machine
end

