-- ==== Sys2Proof/Machine/Ops.lean ====
section
/-! DEFINITION. The named operations over registers and memory, taking an exception, and returning
from one. Every meaning is built from these. -/

namespace Sys2Proof.Machine

/-! ## Status register (R26, R391) -/

/-- The implemented bits of the SR: T1 T0 S M, I2:I0, X N Z V C (R26). -/
def srImplemented : Word := 0xF71F

/-- SR.S. -/
def State.sBit (s : State) : Bool := s.sr.getLsbD 13
/-- SR.M. -/
def State.mBit (s : State) : Bool := s.sr.getLsbD 12
/-- SR.T1. -/
def State.t1 (s : State) : Bool := s.sr.getLsbD 15
/-- SR.T0. -/
def State.t0 (s : State) : Bool := s.sr.getLsbD 14
/-- Tracing on every instruction (R545): T1, T0 = 10. With the reserved setting 11 whether the
instruction is traced is free (93 U20, log 7). -/
def State.tracedAll (s : State) : Bool := s.t1 && (!s.t0 || Config.reservedTrace s.draws)
/-- SR.I, the interrupt priority mask. -/
def State.iMask (s : State) : Nat := s.sr.toNat / 256 % 8

/-- `SR <- v` (R391): bits 11, 7, 6 and 5 ignore writes and read 0. -/
def State.setSr (s : State) (v : Word) : State := { s with sr := v &&& srImplemented }

/-- The condition codes (R28). -/
structure CC where
  x : Bool
  n : Bool
  z : Bool
  v : Bool
  c : Bool
  deriving DecidableEq, Repr

/-- The condition codes as bits 4:0. -/
def CC.bits (f : CC) : Word :=
  (if f.x then 0x10 else 0) ||| (if f.n then 0x08 else 0) ||| (if f.z then 0x04 else 0) |||
    (if f.v then 0x02 else 0) ||| (if f.c then 0x01 else 0)

/-- The condition codes of bits 4:0 of a word. -/
def CC.ofBits (w : Word) : CC :=
  ⟨w.getLsbD 4, w.getLsbD 3, w.getLsbD 2, w.getLsbD 1, w.getLsbD 0⟩

/-- The CCR. -/
def State.cc (s : State) : CC := CC.ofBits s.sr

/-- Write X N Z V C; the rest of the SR is unchanged. -/
def State.setCc (s : State) (f : CC) : State := { s with sr := (s.sr &&& 0xFFE0) ||| f.bits }

/-! ## Registers (R21 to R24) -/

/-- The active stack pointer (R23). -/
def State.sp (s : State) : Long := if s.sBit then (if s.mBit then s.msp else s.isp) else s.usp

/-- Write the active stack pointer (R23). -/
def State.setSp (s : State) (v : Long) : State :=
  if s.sBit then (if s.mBit then { s with msp := v } else { s with isp := v })
  else { s with usp := v }

/-- `D[n]`. -/
def State.dreg (s : State) (r : Reg) : Long := s.d[r.val]

/-- `D[n] <- v`, all 32 bits. -/
def State.setD (s : State) (r : Reg) (v : Long) : State := { s with d := s.d.set r.val v }

/-- `A[n]`; `A[7]` is the active stack pointer (R22). -/
def State.areg (s : State) (r : Reg) : Long := if h : r.val < 7 then s.a[r.val] else s.sp

/-- `A[n] <- v`, always all 32 bits (R22). -/
def State.setA (s : State) (r : Reg) (v : Long) : State :=
  if h : r.val < 7 then { s with a := s.a.set r.val v } else s.setSp v

/-- The low operand bits set. -/
def sizeMask : Size → Long
  | .b => 0xFF
  | .w => 0xFFFF
  | .l => 0xFFFFFFFF

/-- The operand of a size in a 32-bit value: its low bits, zero-extended. -/
def trunc (sz : Size) (v : Long) : Long := v &&& sizeMask sz

/-- Sign extension of an operand to 32 bits (R12 `sext_32`). -/
def sext (sz : Size) (v : Long) : Long :=
  match sz with
  | .b => (v.setWidth 8).signExtend 32
  | .w => (v.setWidth 16).signExtend 32
  | .l => v

/-- Sign extension of a word to 32 bits. -/
def sextWord (w : Word) : Long := w.signExtend 32

/-- The most significant bit of an operand. -/
def msb (sz : Size) (v : Long) : Bool := v.getLsbD (sz.bits - 1)

/-- Write the low bits of `D[n]`; the bits outside the operand are unchanged (R21). -/
def State.putD (s : State) (sz : Size) (r : Reg) (v : Long) : State :=
  s.setD r ((s.dreg r &&& ~~~(sizeMask sz)) ||| trunc sz v)

/-- `R[k]` (R12, R119). -/
def State.getR (s : State) (rn : Rn) : Long := if rn.isAddr then s.areg rn.num else s.dreg rn.num

/-- `R[k] <- v`, all 32 bits. -/
def State.setR (s : State) (rn : Rn) (v : Long) : State :=
  if rn.isAddr then s.setA rn.num v else s.setD rn.num v

/-! ## Free values (R12 `draw`, log 6) -/

/-- The free bit of draw `n`. -/
def freeBit (n : Nat) : Bool := (Config.freeLong n).getLsbD 0
/-- The free word of draw `n`. -/
def freeWord (n : Nat) : Word := (Config.freeLong n).setWidth 16
/-- `k` free words from draw `n` on, as bytes. -/
def freeWords (n k : Nat) : List Byte :=
  (List.range k).flatMap fun i => longBytes (Config.freeLong (n + i)) 2

/-- Count `k` draws as used. -/
def State.used (s : State) (k : Nat) : State := { s with draws := s.draws + k }

/-! ## Bus accesses (20_memory) -/

/-- The data space of the current privilege level (R70). -/
def State.dataSpace (s : State) : FC := if s.sBit then 5 else 1
/-- The program space of the current privilege level (R70). -/
def State.progSpace (s : State) : FC := if s.sBit then 6 else 2

/-- Supervisor data space, where exception processing reads and writes (R70, 92 D24). -/
def supervisorData : FC := 5
/-- Supervisor program space, where the reset vector is read (R70, R82). -/
def supervisorProgram : FC := 6
/-- CPU space (R70, R83). -/
def cpuSpace : FC := 7

/-- The memory that answers a function code (92 D3). -/
def State.bank (s : State) (fc : FC) : Fin 8 :=
  s.platform.bank[fc.toNat]'(by have := fc.isLt; omega)

/-- A byte of memory through a function code. -/
def State.byte (s : State) (fc : FC) (a : Long) : Byte := s.mem.byteAt (Memory.key (s.bank fc) a)

/-- `n` bytes of memory through a function code. -/
def State.load (s : State) (fc : FC) (a : Long) (n : Nat) : List Byte := s.mem.load (s.bank fc) a n

/-- An address in an area that is not RAM (R7 `mem_map`). -/
def Area.holds (x : Area) (fc : FC) (a : Long) : Bool :=
  decide (x.lo ≤ a.toNat) && decide (a.toNat ≤ x.hi) && x.spaces.getLsbD fc.toNat

/-- What answers at an address; none is RAM. -/
def State.area (s : State) (fc : FC) (a : Long) : Option AreaKind :=
  (s.platform.areas.find? fun x => Area.holds x fc a).map (·.kind)

/-- Byte `i` of a store at `a` is in RAM. -/
def State.lands (s : State) (fc : FC) (a : Long) (i : Nat) : Bool :=
  (s.area fc (a + BitVec.ofNat 32 i)).isNone

/-- One of `n` bytes is a device's. -/
def State.onDevice (s : State) (fc : FC) (a : Long) (n : Nat) : Bool :=
  (List.range n).any fun i => s.area fc (a + BitVec.ofNat 32 i) == some .device

/-- Store bytes through a function code; only RAM takes them. -/
def State.store (s : State) (fc : FC) (a : Long) (bs : List Byte) : State :=
  { s with mem := s.mem.storeWhere (s.lands fc a) (s.bank fc) a 0 bs }

/-- The bytes that `n` addresses answer to a read: memory's, or a device's, which are free (log 41). -/
def State.answer (s : State) (fc : FC) (a : Long) (n : Nat) : List Byte :=
  (List.range n).map fun i =>
    let x := a + BitVec.ofNat 32 i
    if s.area fc x = some .device then Config.deviceByte s.draws x.toNat else s.byte fc x

/-- The bus cycles of a hole (92 D4). -/
def Hole.hits (h : Hole) (fc : FC) (a : Long) (size : Nat) (write : Bool) : Bool :=
  decide (h.lo ≤ a.toNat) && decide (a.toNat ≤ h.hi) && h.spaces.getLsbD fc.toNat &&
    h.sizes.getLsbD (size % 4) && (if write then h.writes else h.reads)

/-- How a bus cycle of `size` bytes at an address ends (R89): none for normally, else whether it never
ends; if it does end, that is `bus_fault` (R7, 92 D4). Nothing answers in CPU space on the modelled platform
(R434, 92 D5, D16, D17), so an access there ends in a bus error (log 5). -/
def State.badEnd (s : State) (fc : FC) (a : Long) (size : Nat) (write : Bool) : Option Bool :=
  if fc = cpuSpace then some false
  else (s.platform.holes.find? fun h => Hole.hits h fc a size write).map (·.never)

/-- The width in bytes of the port that answers at an address (R77). -/
def State.portBytes (s : State) (a : Long) : Nat :=
  match s.platform.ports.find? fun p => decide (p.lo ≤ a.toNat) && decide (a.toNat ≤ p.hi) with
  | some p => p.bytes
  | none => 4

/-- The index of the first byte of the bus cycle that moves byte `i` of an access at `a`: more than four
bytes, a stack frame, are moved as long words (R79, R514), and a cycle is split where the address crosses a
port boundary (R74, R77, Table 5-6). The table has one port for an operand; where ports of different width meet
inside a long word, each byte goes by the port of its own address (DESIGN CHOICE, log 48). -/
def State.cycleStart (s : State) (a : Long) (i : Nat) : Nat :=
  let at_ := a + BitVec.ofNat 32 i
  i - min (i % 4) (at_.toNat % s.portBytes at_)

/-- The bytes that the operand, or the long word of a stack frame, has left to transfer when the cycle at byte
`j` of an access of `n` bytes begins: the size of that cycle (R513, log 40). -/
def cycleLeft (n j : Nat) : Nat := min 4 (n - j / 4 * 4) - j % 4

/-- How the cycle that moves byte `i` of an access of `n` bytes ends: a bus error where nothing is at the
byte's address (92 D4), else as the platform says of the cycle's own address and size (R7 `bus_fault`). -/
def State.byteEnd (s : State) (fc : FC) (write : Bool) (a : Long) (n i : Nat) : Option Bool :=
  let j := s.cycleStart a i
  if s.area fc (a + BitVec.ofNat 32 i) = some .nothing then some false
  else s.badEnd fc (a + BitVec.ofNat 32 j) (cycleLeft n j) write

/-- The first byte of an access whose cycle does not end normally, and whether it never ends. -/
def State.firstFault (s : State) (fc : FC) (write : Bool) (a : Long) (n : Nat) : Option (Nat × Bool) :=
  (List.range n).findSome? fun i => (s.byteEnd fc write a n i).map fun never => (i, never)

/-- The number of bus cycles of an operand of `n` bytes at `a` on a port of `p` bytes (Table 5-6). -/
def busCycles (p n : Nat) (a : Long) : Nat := ((a.toNat % p) + n + p - 1) / p

/-- A bus cycle that ended with a bus error (R530, R513), or never ended (R89). -/
structure BusFault where
  /-- An instruction prefetch, not a data cycle. -/
  fetch : Bool
  fc : FC
  /-- The address of the cycle. -/
  addr : Long
  /-- Bytes left to transfer. -/
  left : Nat
  write : Bool
  /-- Part of a read-modify-write sequence. -/
  rmw : Bool
  /-- The operand being written. -/
  out : List Byte
  /-- The cycle never ends. -/
  never : Bool
  deriving DecidableEq, Repr

/-- Bus accesses: a state, or a bus error with the state it left. -/
abbrev Bus := EStateM BusFault State

/-- The fault of an access of `n` bytes whose byte `i` does not end normally. -/
def State.accessFault (s : State) (fc : FC) (write rmw : Bool) (a : Long) (n : Nat) (i : Nat × Bool)
    (out : List Byte) : BusFault :=
  let j := s.cycleStart a i.1
  ⟨false, fc, a + BitVec.ofNat 32 j, cycleLeft n j, write, rmw, out, i.2⟩

/-- Count a draw when a device was read. -/
def State.afterRead (s : State) (fc : FC) (a : Long) (n : Nat) : State :=
  if s.onDevice fc a n then s.used 1 else s

/-- Read `n` bytes (R12 `MemRead`, R73). -/
def busRead (rmw : Bool) (fc : FC) (a : Long) (n : Nat) : Bus (List Byte) := fun s =>
  match s.firstFault fc false a n with
  | none => .ok (if s.onDevice fc a n then s.answer fc a n else s.load fc a n) (s.afterRead fc a n)
  | some i => .error (s.accessFault fc false rmw a n i []) s

/-- Write bytes (R12 `MemWrite`, R73). A bus error leaves the bytes of the earlier bus cycles
written (R74, log 40). -/
def busWrite (rmw : Bool) (fc : FC) (a : Long) (bs : List Byte) : Bus Unit := fun s =>
  match s.firstFault fc true a bs.length with
  | none => .ok () (s.store fc a bs)
  | some i =>
    .error (s.accessFault fc true rmw a bs.length i bs) (s.store fc a (bs.take (s.cycleStart a i.1)))

/-! ## Exceptions (60_exceptions) -/

/-- The stack frame an exception builds (R515). -/
inductive FrameKind where
  /-- Format `$0` (R506). -/
  | four
  /-- Format `$2` with the instruction address (R508). -/
  | six (iaddr : Long)
  /-- The frame of a format error, which the platform chooses (R540, 92 D10). -/
  | formatError
  deriving DecidableEq, Repr

/-- An exception to take: its vector, the PC its frame saves, and the frame. -/
structure Exc where
  vector : Byte
  savedPc : Long
  frame : FrameKind
  ending : Ending
  deriving DecidableEq, Repr

/-- The word at +6 of a frame: format and vector offset (R504). -/
def formatWord (fmt : BitVec 4) (vector : Byte) : Word := fmt ++ (0#2 ++ vector ++ 0#2)

/-- SR, PC and format word, at +0, +2 and +6 of every frame (R504). -/
def frameHead (fmt : BitVec 4) (sr : Word) (pc : Long) (vector : Byte) : List Byte :=
  longBytes (sr.setWidth 32) 2 ++ longBytes pc 4 ++
    longBytes ((formatWord fmt vector).setWidth 32) 2

/-- Bytes +8 to +$1F of a short bus fault frame (R511). The words the spec does not describe are
free (92 D11); `n` is the first of nine draws. -/
def shortTail (n : Nat) (ssw : Word) (addr out : Long) : List Byte :=
  freeWords n 1 ++ longBytes (ssw.setWidth 32) 2 ++ freeWords (n + 1) 2 ++ longBytes addr 4 ++
    freeWords (n + 3) 2 ++ longBytes out 4 ++ freeWords (n + 5) 2

/-- Bytes +$20 to +$5B of a long bus fault frame (R512), from draw `n`: free but for the version number. -/
def longTail (n : Nat) (version : BitVec 4) : List Byte :=
  freeWords n 11 ++
    longBytes ((version ++ (freeWord (n + 11)).setWidth 12).setWidth 32) 2 ++ freeWords (n + 12) 18

/-- The size code of the special status word (R513): 01 byte, 10 word, 11 three bytes, 00 long. -/
def sizeCode (left : Nat) : Word :=
  match left with
  | 1 => 1
  | 2 => 2
  | 3 => 3
  | _ => 0

/-- A flag as a bit of a word. -/
def flagAt (b : Bool) (i : Nat) : Word := if b then 1#16 <<< i else 0

/-- The special status word (R513). A prefetch fault sets the fault and rerun bits of one stage, which
one is free, and its data-cycle bits but DF are free (log 10). -/
def BusFault.ssw (f : BusFault) (n : Nat) : Word :=
  if f.fetch then (if freeBit n then 0xA000 else 0x5000) ||| (freeWord (n + 1) &&& 0x00F7)
  else
    0x0100 ||| flagAt f.rmw 7 ||| flagAt (!f.write) 6 ||| (sizeCode f.left <<< 4) |||
      f.fc.setWidth 16

/-- The data cycle fault address (R511), free for a prefetch (log 10). -/
def BusFault.frameAddr (f : BusFault) (n : Nat) : Long :=
  if f.fetch then Config.freeLong n else f.addr

/-- The data output buffer (R511): the operand in its low-order bits when it was being written;
every other bit is free (log 10). -/
def BusFault.frameOut (f : BusFault) (n : Nat) : Long :=
  Config.freeLong n <<< (8 * f.out.length) ||| bytesLong f.out

/-- Draws used by a bus fault frame. -/
def frameDraws : Nat := 64

/-- The bus fault frame of vector 2 or 3 (R511, R512), with draws from `n`. -/
def faultFrame (n : Nat) (vector : Byte) (long : Bool) (version : BitVec 4) (sr : Word) (pc : Long)
    (f : BusFault) : List Byte :=
  frameHead (if long then 0xB else 0xA) sr pc vector ++
    shortTail n (f.ssw (n + 10)) (f.frameAddr (n + 12)) (f.frameOut (n + 13)) ++
    (if long then longTail (n + 14) version else [])

/-- The SR on entry to an exception: S set, T1 and T0 clear (R510). -/
def enteredSr (sr : Word) : Word := (sr &&& 0x3FFF) ||| 0x2000

/-- The first actions of exception processing (R510): the SR is copied, S set, T1 and T0 cleared; the
pipe will be refilled (R85) and a stop ends (R582). -/
def State.beginException (s : State) : State :=
  { s with srCopy := s.sr, sr := enteredSr s.sr, pipe := [], run := .normal }

/-- A double bus fault: the processor enters the halted state and memory is not altered (R532). -/
def State.halt (s : State) : State := { s with run := .halted, ending := .notDone }

/-- The stuck state: the processor waits for a bus cycle that never ends (R89 d, 93 U41). -/
def State.hang (s : State) : State := { s with run := .hung, ending := .notDone }

/-- The address of a vector (R501). -/
def State.vectorAddr (s : State) (vector : Byte) : Long := s.vbr + (vector.setWidth 32 <<< 2)

/-- Push a frame on the supervisor stack in use, as one update (R514). If a bus cycle of it faults,
which bytes were written is free (93 U6). The spec leaves the order of a frame's cycles open (R79, R514);
of several that would fault the model reports the one at the lowest address (DESIGN CHOICE, log 30). -/
def pushFrame (bs : List Byte) : Bus Unit := fun s =>
  let a := s.sp - BitVec.ofNat 32 bs.length
  let t := s.setSp a
  match t.firstFault supervisorData true a bs.length with
  | none => .ok () (t.store supervisorData a bs)
  | some i =>
    let sel := fun k => Config.partialFrame t.draws k && t.lands supervisorData a k &&
      (t.byteEnd supervisorData true a bs.length k).isNone
    let j := t.cycleStart a i.1
    .error (t.accessFault supervisorData true false a bs.length i ((bs.drop (j / 4 * 4)).take 4))
      ({ t with mem := Memory.storeWhere sel t.mem (t.bank supervisorData) a 0 bs }.used 1)

/-- Load the PC from a vector (R501, R510). -/
def loadVector (vector : Byte) : Bus Unit := do
  let s ← get
  let bs ← busRead false supervisorData (s.vectorAddr vector) 4
  modify fun t => { t with pc := bytesLong bs }

/-- Bus error (vector 2) or address error (vector 3) exception processing (R530, R531). A bus error
in it, or an odd vector, is a double bus fault: the state is left as it was, halted (R532, log 31). The frame
is written before the vector is read, and the lowest-addressed of its cycles that do not end normally decides
whether the processor halts or waits (DESIGN CHOICE, log 30). The processing ends with the PC loaded: a bus error
on the handler's first word is the next step's, and ordinary (DESIGN CHOICE, log 47). Where a cycle of the frame or
of the vector never ends, the processor waits with the registers and memory it had before this exception
(DESIGN CHOICE, log 49). -/
def State.enterFault (s : State) (vector : Byte) (long : Bool) (pc : Long) (f : BusFault) : State :=
  let t := s.beginException
  let bs := faultFrame s.draws vector long s.platform.cpuVersion s.sr pc f
  let a := t.sp - BitVec.ofNat 32 bs.length
  match t.firstFault supervisorData true a bs.length with
  | some (_, never) => if never then s.hang else s.halt
  | none =>
    match loadVector vector ((t.setSp a).store supervisorData a bs) with
    | .error g _ => if g.never then s.hang else s.halt
    | .ok _ u => if u.pc.getLsbD 0 then (s.used frameDraws).halt else { u with ending := .notDone }.used frameDraws

/-- The bus error exception, vector 2 (R530). -/
def State.busError (s : State) (long : Bool) (f : BusFault) : State := s.enterFault 2 long s.pc f

/-- A bus error while another exception is processed: an ordinary bus error exception starts; the
partial frame stays below it and SR keeps what that exception gave it (92 D27). Which of the two
frames it builds is open, so it is drawn (log 9). The spec does not say whether the trace of a traced trap
whose entry ends so stays owed; the model owes none (DEDUCED, log 13). At a cycle that never ends the processor
waits in the state the first exception has reached (DESIGN CHOICE, log 49). -/
def State.nestedBusError (s : State) (f : BusFault) : State :=
  if f.never then s.hang else (s.used 1).busError (freeBit s.draws) f

/-- The frame of an exception, with the SR copy `sr` (R506, R508, R540). The SSW of a format error
frame is free but for FB, FC and DF, which are 0 (92 D10). -/
def Exc.frameBytes (x : Exc) (p : Platform) (sr : Word) (n : Nat) : List Byte :=
  match x.frame with
  | .four => frameHead 0 sr x.savedPc x.vector
  | .six ia => frameHead 2 sr x.savedPc x.vector ++ longBytes ia 4
  | .formatError =>
    if p.formatErrorShort then
      frameHead 0xA sr x.savedPc x.vector ++
        shortTail n (freeWord (n + 10) &&& 0x30F7) (Config.freeLong (n + 12))
          (Config.freeLong (n + 13))
    else frameHead 0 sr x.savedPc x.vector

/-- Draws used by the frame of an exception. -/
def Exc.draws (x : Exc) : Nat :=
  match x.frame with
  | .formatError => frameDraws
  | _ => 0

/-- Take an exception other than reset, an interrupt, a bus error or an address error (R510). R510 lets the
frame's writes and the vector's read come in any order; here the frame is written first, which shows where the
vector lies in the frame or both would fault (DESIGN CHOICE, log 30). -/
def State.takeException (s : State) (x : Exc) : State :=
  let bs := x.frameBytes s.platform s.sr s.draws
  match (do pushFrame bs; loadVector x.vector : Bus Unit) (s.beginException.used x.draws) with
  | .ok _ t => { t with ending := x.ending }
  | .error f t => t.nestedBusError f

/-- Take an interrupt of level `l` (R510, R563): the mask becomes `l`; with M = 1 the frame goes on the
master stack, M is cleared, and a throwaway frame with the SR as it stood goes on the interrupt stack. The
vector is read after the frames (DESIGN CHOICE, log 30). -/
def State.takeInterrupt (s : State) (l : Fin 8) (vector : Byte) : State :=
  let t := s.beginException
  let t := { t with sr := (t.sr &&& 0xF8FF) ||| (BitVec.ofNat 16 l.val <<< 8) }
  let body : Bus Unit := do
    pushFrame (frameHead 0 s.sr s.pc vector)
    let u ← get
    if u.mBit then
      set { u with sr := u.sr &&& 0xEFFF }
      pushFrame (frameHead 1 u.sr s.pc vector)
    loadVector vector
  match body t with
  | .ok _ u => { u with ending := .flow }
  | .error f u => u.nestedBusError f

/-! ## Running one instruction -/

/-- Why the body of an instruction stopped before its end. -/
inductive Abort where
  /-- A bus error on one of its accesses (R530), or a cycle that never ends (R89). `seen` are states that
  its updates passed through; with `made` the first of them stands: what led to it was surely done. -/
  | bus (f : BusFault) (seen : List State) (made : Bool)
  /-- `raise X` (R12). -/
  | raised (x : Exc)
  /-- A double bus fault (R532). -/
  | doubleFault
  | refuse (r : Refusal)
  | fault (f : Fault)
  deriving DecidableEq, Repr

/-- The body of an instruction. -/
abbrev M := EStateM Abort State

/-- A bus access inside an instruction. -/
def liftBus {α : Type} (x : Bus α) : M α := fun s =>
  match x s with
  | .ok a t => .ok a t
  | .error f t => .error (.bus f [] false) t

/-- `x`, but a bus error in it may leave a register as it is now: an update of the instruction comes before
`x` and another in it (R200). -/
def checkpoint {α : Type} (x : M α) : M α := fun s =>
  match x s with
  | .error (.bus f seen made) t => .error (.bus f (if made then seen else s :: seen) made) t
  | r => r

/-- `x`, but a bus error in it leaves what was done before it done (40_data_movement R204). -/
def afterMade {α : Type} (x : M α) : M α := fun s =>
  match x s with
  | .error (.bus f seen made) t => .error (.bus f (if made then seen else s :: seen) true) t
  | r => r

/-- Free choice of one of the values that register `r` held (R200, log 8). -/
def anyOf {α : Type} [DecidableEq α] (n r : Nat) (seen : List α) (new : α) : α :=
  if seen.all (· == new) then new else seen.getD (Config.partialUpdate n r) new

/-- The state a bus error leaves: the accesses that were made stand; each register the instruction
had updated keeps its old value, its new one, or one it held between (R200, R530, log 8). -/
def State.partly (seen : List State) (t : State) (pc : Long) : State :=
  { t with
    d := Vector.ofFn fun i => anyOf t.draws i.val (seen.map (·.d[i])) t.d[i]
    a := Vector.ofFn fun i => anyOf t.draws (8 + i.val) (seen.map (·.a[i])) t.a[i]
    usp := anyOf t.draws 15 (seen.map (·.usp)) t.usp
    isp := anyOf t.draws 16 (seen.map (·.isp)) t.isp
    msp := anyOf t.draws 17 (seen.map (·.msp)) t.msp
    sr := anyOf t.draws 18 (seen.map (·.sr)) t.sr
    pc := pc
    draws := t.draws + 1 }

/-- The registers of `s` in the state `t` (R553: a read-modify-write instruction can be run again whole, so
a bus error in it leaves the registers it began with; DEDUCED, log 42). -/
def State.undone (s t : State) : State :=
  { t with d := s.d, a := s.a, usp := s.usp, isp := s.isp, msp := s.msp, sr := s.sr, pc := s.pc, draws := t.draws + 1 }

/-- The state `s` with the draws that `t` has counted. -/
def State.atDraw (s t : State) : State := { s with draws := t.draws }

/-- The end of an instruction that began in `s` and was cut short in `t` by the cycle `f`: the bus error
exception with the long frame (R530, log 9), or the wait for a cycle that never ends (R89). -/
def State.cutShort (s t : State) (f : BusFault) (seen : List State) (made : Bool) : State :=
  let u := if f.rmw then s.undone t else State.partly (if made then seen else s :: seen) t s.pc
  if f.never then u.hang else u.busError true f

/-- Run the body of an instruction from state `s`, taking the exception it ends in. -/
def runInstr (body : M Unit) (s : State) : Host.Outcome State Fault Refusal :=
  match body s with
  | .ok _ t => .next t
  | .error (.bus f seen made) t => .next (s.cutShort t f seen made)
  | .error (.raised x) t => .next (t.takeException x)
  | .error .doubleFault t => .next (s.atDraw t).halt
  | .error (.refuse r) _ => .refused r
  | .error (.fault f) _ => .fault f

/-- `raise X` (R12). -/
def raised {α : Type} (x : Exc) : M α := throw (.raised x)

/-- An instruction without a meaning for this operand. -/
def refuse {α : Type} (r : Refusal) : M α := throw (.refuse r)

/-- The next free value (R12 `draw`). -/
def draw : M Long := fun s => .ok (Config.freeLong s.draws) (s.used 1)

/-- The next free bit. -/
def drawBit : M Bool := do
  let v ← draw
  pure (v.getLsbD 0)

/-- `npc`: the address after an instruction of `n` words (R12). -/
def State.npc (s : State) (n : Nat) : Long := s.pc + BitVec.ofNat 32 (2 * n)

/-- Go on to the next instruction: `pc <- npc` (R200 f). -/
def advance (n : Nat) : M Unit := modify fun s => { s with pc := s.npc n, ending := .sequential }

/-- Go on to the next instruction after writing the SR (R545). -/
def advanceSr (n : Nat) : M Unit := modify fun s => { s with pc := s.npc n, ending := .wroteSr }

/-- `pc <- target` (R12). -/
def jump (target : Long) : M Unit := modify fun s => { s with pc := target, ending := .flow }

/-- The illegal instruction exception (R536). -/
def State.illegalExc (s : State) : Exc := ⟨4, s.pc, .four, .notDone⟩

/-- The privilege violation exception (R538). -/
def State.privilegeExc (s : State) : Exc := ⟨8, s.pc, .four, .notDone⟩

/-- The format error exception (R540). -/
def State.formatExc (s : State) : Exc := ⟨14, s.pc, .formatError, .notDone⟩

/-- An instruction trap with the six-word frame, of an instruction of `n` words (R508, R533). -/
def State.trapExc (s : State) (vector : Byte) (n : Nat) : Exc :=
  ⟨vector, s.npc n, .six s.pc, .trapped⟩

/-- The illegal instruction exception from inside an instruction. -/
def raiseIllegal {α : Type} : M α := do
  let s ← get
  raised s.illegalExc

/-- A privileged instruction: with S = 0 it has no effect but the privilege violation (R390). -/
def privileged (body : M Unit) : M Unit := do
  let s ← get
  if s.sBit then body else raised s.privilegeExc

/-! ## Memory operands -/

/-- `MemRead(fc, a, size)`, zero-extended. -/
def readMem (rmw : Bool) (fc : FC) (a : Long) (sz : Size) : M Long := do
  let bs ← liftBus (busRead rmw fc a sz.bytes)
  pure (bytesLong bs)

/-- `MemWrite(fc, a, size, v)`. -/
def writeMem (rmw : Bool) (fc : FC) (a : Long) (sz : Size) (v : Long) : M Unit :=
  liftBus (busWrite rmw fc a (longBytes v sz.bytes))

/-- `MemRead(a, size)` in the data space of the current privilege level. -/
def readData (a : Long) (sz : Size) : M Long := do
  let s ← get
  readMem false s.dataSpace a sz

/-- `MemWrite(a, size, v)` in the data space of the current privilege level. -/
def writeData (a : Long) (sz : Size) (v : Long) : M Unit := do
  let s ← get
  writeMem false s.dataSpace a sz v

/-- `push_4(v)` (R12). -/
def pushLong (v : Long) : M Unit := do
  modify fun s => s.setSp (s.sp - 4)
  let s ← get
  writeData s.sp .l v

/-- `pop_4()` (R12). -/
def popLong : M Long := do
  let s ← get
  let v ← readData s.sp .l
  modify fun t => t.setSp (t.sp + 4)
  pure v

/-! ## Return from exception (R388, R541, R550) -/

/-- The end of an RTE from a `$0` or `$2` frame of `size` bytes: the stack pointer that was active
moves past the frame, then SR and PC are restored. -/
def State.restore (s : State) (size : Nat) (sr : Word) (pc : Long) : State :=
  { (s.setSp (s.sp + BitVec.ofNat 32 size)).setSr sr with pc := pc, ending := .returned }

/-- An RTE that found an improper frame: everything is as before the RTE (R541). -/
def rteFormatError (s0 : State) : M Unit := do
  modify fun t => s0.atDraw t
  raised s0.formatExc

/-- Load internal state from a frame; a bus error in it is a double bus fault that leaves the state as
before the RTE (R532, log 31). The spec leaves the order of its cycles open (R79, R514): where one ends in a bus
error and another never ends, the lowest-addressed decides which it is (DESIGN CHOICE, log 30). The wait too
leaves the registers as before the RTE (DESIGN CHOICE, log 49). -/
def loadInternal (s0 : State) (a : Long) (n : Nat) : M Long := fun s =>
  match busRead false supervisorData a n s with
  | .ok bs t => .ok (bytesLong bs) t
  | .error f t => if f.never then .error (.bus f [s0] true) s0 else .error .doubleFault t

/-- An RTE from a frame with internal state, of `size` bytes: it is loaded; continuing from it has no
meaning here (92 D11). -/
def rteInternal (s0 : State) (size : Nat) : M Unit := do
  let s ← get
  let _ ← loadInternal s0 s.sp size
  refuse .rteInternalFrame

/-- DF and RM of a special status word (R513). -/
def reruns (ssw : Word) : Bool := ssw.getLsbD 8 && ssw.getLsbD 7

/-- An RTE from a long bus fault frame with the given SR and PC: the version check, the word at +$36
(R541); then with DF and RM set in the special status word the frame is removed and the read-modify-write
instruction at PC runs again, whole (R553); else its internal state would be needed (92 D11). That the version
and the special status word are read before the rest of the frame is the model's (R79; DESIGN CHOICE, log 30). -/
def rteLongFrame (s0 : State) (sr : Word) (pc : Long) : M Unit := do
  let s ← get
  let version ← loadInternal s0 (s.sp + 0x36) 2
  if version.extractLsb' 12 4 ≠ s.platform.cpuVersion then rteFormatError s0
  else
    let ssw ← loadInternal s0 (s.sp + 0x0A) 2
    if reruns (ssw.setWidth 16) then do
      let _ ← loadInternal s0 s.sp 92
      modify fun t => { t.restore 92 sr pc with ending := .rerun }
    else rteInternal s0 92

/-- The loop of R388: throwaway frames reload SR and go on with the frame on the stack that SR then
selects. `s0` is the state before the RTE. -/
def rteLoop (s0 : State) : Nat → M Unit
  | 0 => throw (.fault .rteEndless)
  | n + 1 => do
    let s ← get
    let sr ← readMem false supervisorData s.sp .w
    let pc ← readMem false supervisorData (s.sp + 2) .l
    let fw ← readMem false supervisorData (s.sp + 6) .w
    match (fw.extractLsb' 12 4).toNat with
    | 0x0 => modify fun t => t.restore 8 (sr.setWidth 16) pc
    | 0x1 => do
      modify fun t => (t.setSp (t.sp + 8)).setSr (sr.setWidth 16)
      checkpoint (rteLoop s0 n)
    | 0x2 => modify fun t => t.restore 12 (sr.setWidth 16) pc
    | 0x9 => rteInternal s0 20
    | 0xA => rteInternal s0 32
    | 0xB => rteLongFrame s0 (sr.setWidth 16) pc
    | _ => rteFormatError s0

/-- More frames than the three stack pointers and the SR have values: a longer chain repeats (log 19). -/
def rteFuel : Nat := 2 ^ 112

end Sys2Proof.Machine
end

