-- ==== Sys2Proof/Machine/Flags.lean ====
section
/-! DEFINITION. The results and condition codes of the data instructions, as plain functions: the
condition tests, binary arithmetic, logic, shifts and rotates, decimal arithmetic, bit fields. -/

namespace Sys2Proof.Machine

/-- The condition tests (R121). -/
def condTrue (c : Cond) (f : CC) : Bool :=
  match c with
  | .t => true
  | .f => false
  | .hi => !f.c && !f.z
  | .ls => f.c || f.z
  | .cc => !f.c
  | .cs => f.c
  | .ne => !f.z
  | .eq => f.z
  | .vc => !f.v
  | .vs => f.v
  | .pl => !f.n
  | .mi => f.n
  | .ge => f.n == f.v
  | .lt => f.n != f.v
  | .gt => !f.z && f.n == f.v
  | .le => f.z || f.n != f.v

/-! ## Integer arithmetic (R230) -/

/-- A result with its overflow and carry. -/
structure Alu where
  r : Long
  v : Bool
  c : Bool
  deriving DecidableEq, Repr

/-- The value of a flag as an operand. -/
def flagLong (b : Bool) : Long := if b then 1 else 0

/-- `add(s, d, x)` (R230); the operands are truncated to the size. -/
def addAlu (sz : Size) (s d : Long) (x : Bool) : Alu :=
  let r := trunc sz (s + d + flagLong x)
  let sm := msb sz s
  let dm := msb sz d
  let rm := msb sz r
  { r := r
    v := (sm && dm && !rm) || (!sm && !dm && rm)
    c := (sm && dm) || (!rm && dm) || (sm && !rm) }

/-- `sub(s, d, x)` (R230): destination minus source. -/
def subAlu (sz : Size) (s d : Long) (x : Bool) : Alu :=
  let r := trunc sz (d - s - flagLong x)
  let sm := msb sz s
  let dm := msb sz d
  let rm := msb sz r
  { r := r
    v := (!sm && dm && !rm) || (sm && !dm && rm)
    c := (sm && !dm) || (rm && !dm) || (sm && rm) }

/-- Flags of ADD and SUB: X is C (R231, R249). -/
def arithCc (sz : Size) (o : Alu) (_old : CC) : CC := ⟨o.c, msb sz o.r, o.r == 0, o.v, o.c⟩

/-- Flags of a comparison: X unchanged (R237). -/
def compareCc (sz : Size) (o : Alu) (old : CC) : CC := ⟨old.x, msb sz o.r, o.r == 0, o.v, o.c⟩

/-- Flags of ADDX and SUBX: Z is only ever cleared (R235, R253). -/
def extendCc (sz : Size) (o : Alu) (old : CC) : CC :=
  ⟨o.c, msb sz o.r, old.z && o.r == 0, o.v, o.c⟩

/-- NEG (R247). -/
def negAlu (sz : Size) (d : Long) : Alu :=
  let r := trunc sz (0 - d)
  { r := r, v := msb sz d && msb sz r, c := r != 0 }

/-- NEGX (R248). -/
def negxAlu (sz : Size) (d : Long) (x : Bool) : Alu :=
  let r := trunc sz (0 - d - flagLong x)
  { r := r, v := msb sz d && msb sz r, c := msb sz d || msb sz r }

/-- Flags of moves and logic: V and C clear, X unchanged (R201, R270). -/
def logicCc (sz : Size) (r : Long) (old : CC) : CC := ⟨old.x, msb sz r, r == 0, false, false⟩

/-! ## Multiplication and division (R230, R242 to R246) -/

/-- The operand as the integer it stands for. -/
def intOf (signed : Bool) (v : Long) : Int := if signed then v.toInt else (v.toNat : Int)

/-- The exact 64-bit product (R246). -/
def product (signed : Bool) (a b : Long) : BitVec 64 := BitVec.ofInt 64 (intOf signed a * intOf signed b)

/-- An integer fits `bits` bits, signed or unsigned. -/
def fits (signed : Bool) (bits : Nat) (i : Int) : Bool :=
  if signed then decide (-(2 ^ (bits - 1) : Int) ≤ i) && decide (i < 2 ^ (bits - 1))
  else decide (0 ≤ i) && decide (i < 2 ^ bits)

/-- The dividend of the 64-bit forms, high part first, as an integer (R243). -/
def dividend64 (signed : Bool) (hi lo : Long) : Int :=
  if signed then (hi ++ lo).toInt else ((hi ++ lo).toNat : Int)

/-! ## Shifts and rotates (R290 to R298) -/

/-- A shifted operand with its X, V and C. -/
structure Shifted where
  r : Long
  x : Bool
  v : Bool
  c : Bool
  deriving DecidableEq, Repr

/-- Bit `i` of an operand, a bit below 0 being 0 (R291). -/
def bitOrZero (d : Long) (i : Int) : Bool := if i < 0 then false else d.getLsbD i.toNat

/-- ASL (R291): V tells whether the sign bit changed at any step. -/
def aslOut (sz : Size) (n : Nat) (d : Long) (x : Bool) : Shifted :=
  let w := sz.bits
  let out := decide (n ≤ w) && d.getLsbD (w - n)
  let changed := (List.range n).any fun i => bitOrZero d ((w : Int) - 2 - i) != msb sz d
  if n = 0 then ⟨d, x, false, false⟩ else ⟨trunc sz (d <<< n), out, changed, out⟩

/-- ASR (R292). -/
def asrOut (sz : Size) (n : Nat) (d : Long) (x : Bool) : Shifted :=
  let out := if n ≤ sz.bits then d.getLsbD (n - 1) else msb sz d
  if n = 0 then ⟨d, x, false, false⟩ else ⟨trunc sz ((sext sz d).sshiftRight n), out, false, out⟩

/-- LSL (R293). -/
def lslOut (sz : Size) (n : Nat) (d : Long) (x : Bool) : Shifted :=
  let out := decide (n ≤ sz.bits) && d.getLsbD (sz.bits - n)
  if n = 0 then ⟨d, x, false, false⟩ else ⟨trunc sz (d <<< n), out, false, out⟩

/-- LSR (R294). -/
def lsrOut (sz : Size) (n : Nat) (d : Long) (x : Bool) : Shifted :=
  let out := decide (n ≤ sz.bits) && d.getLsbD (n - 1)
  if n = 0 then ⟨d, x, false, false⟩ else ⟨d >>> n, out, false, out⟩

/-- ROL (R295): X unchanged. -/
def rolOut (sz : Size) (n : Nat) (d : Long) (x : Bool) : Shifted :=
  let m := n % sz.bits
  let r := trunc sz ((d <<< m) ||| (d >>> (sz.bits - m)))
  ⟨r, x, false, n != 0 && r.getLsbD 0⟩

/-- ROR (R296): X unchanged. -/
def rorOut (sz : Size) (n : Nat) (d : Long) (x : Bool) : Shifted :=
  let m := n % sz.bits
  let r := trunc sz ((d >>> m) ||| (d <<< (sz.bits - m)))
  ⟨r, x, false, n != 0 && msb sz r⟩

/-- Rotate a value of `w` bits left by `m`, `m ≤ w`. -/
def rotateNat (w m v : Nat) : Nat := (v * 2 ^ m + v / 2 ^ (w - m)) % 2 ^ w

/-- `X : d`, the value of `W` + 1 bits that ROXL and ROXR rotate. -/
def withExtend (sz : Size) (d : Long) (x : Bool) : Nat := (if x then 2 ^ sz.bits else 0) + d.toNat

/-- The operand and X of a value of `W` + 1 bits; C is X. -/
def ofExtend (sz : Size) (v : Nat) : Shifted :=
  let x := v / 2 ^ sz.bits % 2 == 1
  ⟨BitVec.ofNat 32 (v % 2 ^ sz.bits), x, false, x⟩

/-- ROXL (R297). -/
def roxlOut (sz : Size) (n : Nat) (d : Long) (x : Bool) : Shifted :=
  ofExtend sz (rotateNat (sz.bits + 1) (n % (sz.bits + 1)) (withExtend sz d x))

/-- ROXR (R298). -/
def roxrOut (sz : Size) (n : Nat) (d : Long) (x : Bool) : Shifted :=
  ofExtend sz (rotateNat (sz.bits + 1) (sz.bits + 1 - n % (sz.bits + 1)) (withExtend sz d x))

/-- Flags of the shifts and rotates (R290). -/
def shiftCc (sz : Size) (o : Shifted) : CC := ⟨o.x, msb sz o.r, o.r == 0, o.v, o.c⟩

/-! ## Decimal arithmetic (R340 to R345) -/

/-- Both digits are 0 to 9. -/
def bcdValid (v : Long) : Bool := decide (v.toNat % 16 ≤ 9) && decide (v.toNat / 16 % 16 ≤ 9)

/-- The value of a packed byte. -/
def bcdValue (v : Long) : Nat := v.toNat / 16 % 16 * 10 + v.toNat % 16

/-- `bcd(n)` of a number below 100. -/
def bcdOf (n : Nat) : Long := BitVec.ofNat 32 (n / 10 * 16 + n % 10)

/-- ABCD: the result byte and the carry (R341). -/
def abcdOut (s d : Long) (x : Bool) : Long × Bool :=
  let t := bcdValue s + bcdValue d + (if x then 1 else 0)
  (bcdOf (t % 100), decide (100 ≤ t))

/-- SBCD: the result byte and the borrow (R342); NBCD has `d` = 0 (R343). -/
def sbcdOut (s d : Long) (x : Bool) : Long × Bool :=
  let t : Int := (bcdValue d : Int) - bcdValue s - (if x then 1 else 0)
  (bcdOf (t % 100).toNat, decide (t < 0))

/-- The byte PACK makes of the adjusted word (R344). -/
def packByte (t : Word) : Long := (t.extractLsb' 8 4 ++ t.extractLsb' 0 4).setWidth 32

/-- The word UNPK makes of a byte, before the adjustment (R345). -/
def unpackWord (s : Long) : Word := 0#4 ++ s.extractLsb' 4 4 ++ 0#4 ++ s.extractLsb' 0 4

/-! ## Bit fields (R320) -/

/-- The low `width` bits set. -/
def fieldMask (width : Nat) : Long := BitVec.ofNat 32 (2 ^ width - 1)

/-- The field of a data register: it wraps from bit 0 to bit 31. -/
def regField32 (d : Long) (off width : Nat) : Long := d.rotateLeft (off % 32) >>> (32 - width)

/-- A data register with its field replaced. -/
def putRegField32 (d : Long) (off width : Nat) (v : Long) : Long :=
  let m := fieldMask width <<< (32 - width)
  ((d.rotateLeft (off % 32) &&& ~~~m) ||| ((v <<< (32 - width)) &&& m)).rotateRight (off % 32)

/-- The bytes a field in memory spans (R320): `o` is the offset in the first byte. -/
def fieldBytes (o width : Nat) : Nat := (o + width + 7) / 8

/-- The field of a byte string, as a number. -/
def memField (bs : List Byte) (o width : Nat) : Long :=
  let v := bs.foldl (fun acc b => acc * 256 + b.toNat) 0
  BitVec.ofNat 32 (v / 2 ^ (8 * bs.length - o - width) % 2 ^ width)

/-- A byte string of a number, high-order byte first. -/
def natBytes (v : Nat) : Nat → List Byte
  | 0 => []
  | n + 1 => BitVec.ofNat 8 (v / 256 ^ n) :: natBytes v n

/-- A byte string with its field replaced by the low `width` bits of `v`; the other bits keep their values. -/
def putMemField (bs : List Byte) (o width : Nat) (v : Long) : List Byte :=
  let old := bs.foldl (fun acc b => acc * 256 + b.toNat) 0
  let low := 8 * bs.length - o - width
  natBytes (old / 2 ^ (low + width) * 2 ^ (low + width) + v.toNat % 2 ^ width * 2 ^ low + old % 2 ^ low)
    bs.length

/-- The index of the first 1 bit of a field, `width` if there is none (R324). -/
def firstOne (f : Long) : Nat → Nat
  | 0 => 0
  | width + 1 => if f.getLsbD width then 0 else 1 + firstOne f width

/-- Flags of a bit field (R320). -/
def fieldCc (width : Nat) (f : Long) (old : CC) : CC :=
  ⟨old.x, f.getLsbD (width - 1), f == 0, false, false⟩

end Sys2Proof.Machine
end

