-- ==== Sys2Proof/Machine/Operands.lean ====
section
/-! DEFINITION. Effective addresses (R113 to R116): the address, the operand read, written and
modified. `own` is the number of extension words of the instruction before the operand's. -/

namespace Sys2Proof.Machine

/-! ## Addresses -/

/-- The scaled index (R115). -/
def State.indexValue (s : State) (ix : Index) : Long :=
  (if ix.long then s.getR ix.reg else sext .w (s.getR ix.reg)) <<< ix.scale.val

/-- A displacement, sign-extended (R116). -/
def dispValue : Disp → Long
  | .null => 0
  | .word v => sextWord v
  | .long v => v

/-- The address of an indexed mode (R115, R116). The pointer of a memory-indirect mode is read in `space`. -/
def indexedAddr (space : FC) (base : Long) (e : IndexExt) : M Long := do
  let s ← get
  match e with
  | .brief ix d8 => pure (base + d8.signExtend 32 + s.indexValue ix)
  | .full ix bs is bd ind =>
    let b := (if bs then 0 else base) + dispValue bd
    let i := if is then 0 else s.indexValue ix
    match ind with
    | .none => pure (b + i)
    | .pre od => do
      let p ← readMem false space (b + i) .l
      pure (p + dispValue od)
    | .post od => do
      let p ← readMem false space b .l
      pure (p + i + dispValue od)

/-- The step of `(An)+` and `-(An)`: the operand size, but 2 for a byte through A7 (R114). -/
def stepOf (sz : Size) (r : Reg) : Long :=
  if r = 7 ∧ sz = .b then 2 else BitVec.ofNat 32 sz.bytes

/-- The address of a memory operand, with the side effects of its mode (R114 to R116). A register or an
immediate has no address: such an operation word is illegal (R123). -/
def memAddr (sz : Size) (own : Nat) (ea : Ea) : M Long := do
  let s ← get
  match ea with
  | .ind r => pure (s.areg r)
  | .postinc r => do
    set (s.setA r (s.areg r + stepOf sz r))
    pure (s.areg r)
  | .predec r => do
    set (s.setA r (s.areg r - stepOf sz r))
    pure (s.areg r - stepOf sz r)
  | .disp r d16 => pure (s.areg r + sextWord d16)
  | .indexed r e => indexedAddr s.dataSpace (s.areg r) e
  | .absW a => pure (sextWord a)
  | .absL a => pure a
  | .pcDisp d16 => pure (s.npc (1 + own) + sextWord d16)
  | .pcIndexed e => indexedAddr s.progSpace (s.npc (1 + own)) e
  | .dreg _ | .areg _ | .imm _ => raiseIllegal

/-- PC-relative operands are read in the program space (R114, R116). -/
def isPcRelative : Ea → Bool
  | .pcDisp _ | .pcIndexed _ => true
  | .dreg _ | .areg _ | .ind _ | .postinc _ | .predec _ | .disp _ _ | .indexed _ _ | .absW _
  | .absL _ | .imm _ => false

/-- The address space of a memory operand (R114). -/
def State.eaSpace (s : State) (ea : Ea) : FC := if isPcRelative ea then s.progSpace else s.dataSpace

/-- An immediate operand; the high byte of a byte immediate's word is ignored (R114). -/
def immValue (sz : Size) : Imm → Long
  | .word v => trunc sz (v.setWidth 32)
  | .long v => trunc sz v

/-! ## Operands -/

/-- `read_ea(ea, size)` (R12), zero-extended. -/
def readEa (sz : Size) (own : Nat) (ea : Ea) : M Long := do
  let s ← get
  match ea with
  | .dreg r => pure (trunc sz (s.dreg r))
  | .areg r => pure (trunc sz (s.areg r))
  | .imm v => pure (immValue sz v)
  | .ind _ | .postinc _ | .predec _ | .disp _ _ | .indexed _ _ | .absW _ | .absL _ | .pcDisp _
  | .pcIndexed _ => do
    let a ← memAddr sz own ea
    readMem false (s.eaSpace ea) a sz

/-- `write_ea(ea, size, v)` (R12) to a data alterable operand. -/
def writeEa (sz : Size) (own : Nat) (ea : Ea) (v : Long) : M Unit := do
  match ea with
  | .dreg r => modify fun s => s.putD sz r v
  | .ind _ | .postinc _ | .predec _ | .disp _ _ | .indexed _ _ | .absW _ | .absL _ => do
    let a ← memAddr sz own ea
    writeData a sz v
  | .areg _ | .pcDisp _ | .pcIndexed _ | .imm _ => raiseIllegal

/-- Read a data alterable operand once, compute its new value and the flags from it and the old
flags, and write it back to the same place. -/
def modifyEa (sz : Size) (own : Nat) (ea : Ea) (f : Long → CC → Long × CC) : M Unit := do
  match ea with
  | .dreg r =>
    modify fun s =>
      let (v, cc) := f (trunc sz (s.dreg r)) s.cc
      (s.putD sz r v).setCc cc
  | .ind _ | .postinc _ | .predec _ | .disp _ _ | .indexed _ _ | .absW _ | .absL _ => do
    let a ← memAddr sz own ea
    let d ← readData a sz
    let s ← get
    let (v, cc) := f d s.cc
    set (s.setCc cc)
    writeData a sz v
  | .areg _ | .pcDisp _ | .pcIndexed _ | .imm _ => raiseIllegal

/-- Read an operand and set the flags from it. -/
def testEa (sz : Size) (own : Nat) (ea : Ea) (f : Long → CC → CC) : M Unit := do
  let v ← readEa sz own ea
  modify fun s => s.setCc (f v s.cc)

/-! ## Register lists of MOVEM (R204) -/

/-- `R[k]` (R12): D0 to D7, then A0 to A7. -/
def rnOf (k : Nat) : Rn := ⟨decide (8 ≤ k), ⟨k % 8, Nat.mod_lt _ (by decide)⟩⟩

/-- The registers of a mask whose bit 0 is D0, in rising order. -/
def maskRegs (mask : Word) : List Rn := ((List.range 16).filter fun k => mask.getLsbD k).map rnOf

/-- The registers of a mask whose bit 0 is A7, A7 first. -/
def maskRegsDown (mask : Word) : List Rn :=
  ((List.range 16).filter fun k => mask.getLsbD k).map fun k => rnOf (15 - k)

/-- Store registers upward from `a`. -/
def storeRegs (sz : Size) (a : Long) : List Rn → M Unit
  | [] => pure ()
  | rn :: rest => do
    let s ← get
    writeData a sz (s.getR rn)
    storeRegs sz (a + BitVec.ofNat 32 sz.bytes) rest

/-- Store registers downward from `a`; the value stored for `A[n]` is its initial value minus the size. -/
def storeRegsDown (sz : Size) (n : Reg) (a : Long) : List Rn → M Long
  | [] => pure a
  | rn :: rest => do
    let s ← get
    let a' := a - BitVec.ofNat 32 sz.bytes
    let v := if rn = ⟨true, n⟩ then s.areg n - BitVec.ofNat 32 sz.bytes else s.getR rn
    writeData a' sz v
    storeRegsDown sz n a' rest

/-- Load registers upward from `a`, word operands sign-extended. A bus error leaves the registers already
loaded changed (R204). -/
def loadRegs (space : FC) (sz : Size) (a : Long) : List Rn → M Long
  | [] => pure a
  | rn :: rest => do
    let v ← readMem false space a sz
    modify fun s => s.setR rn (sext sz v)
    afterMade (loadRegs space sz (a + BitVec.ofNat 32 sz.bytes) rest)

end Sys2Proof.Machine
end

