-- ==== Sys2Proof/Machine/Arith.lean ====
section
/-! DEFINITION. The meanings of the integer arithmetic instructions (41_integer_arithmetic). -/

namespace Sys2Proof.Machine

/-- An operation on two operands: the source, the destination and X to a result with its flags. -/
abbrev AluOp := Size → Long → Long → Bool → Alu

/-- `<op> <ea>,Dn`: the effective address is the source. -/
def aluToReg (op : AluOp) (sz : Size) (ea : Ea) (dn : Reg) : M Unit := do
  let v ← readEa sz 0 ea
  modify fun t =>
    let o := op sz v (trunc sz (t.dreg dn)) false
    (t.putD sz dn o.r).setCc (arithCc sz o t.cc)
  advance (1 + ea.words)

/-- `<op> Dn,<ea>`: the effective address is the destination. -/
def aluToEa (op : AluOp) (sz : Size) (dn : Reg) (ea : Ea) : M Unit := do
  let t ← get
  let v := trunc sz (t.dreg dn)
  modifyEa sz 0 ea fun d cc => let o := op sz v d false; (o.r, arithCc sz o cc)
  advance (1 + ea.words)

/-- `<op>A`: on all 32 bits of An, a word source sign-extended, no flags. -/
def aluToAddr (f : Long → Long → Long) (sz : WL) (ea : Ea) (an : Reg) : M Unit := do
  let v ← readEa sz.size 0 ea
  modify fun t => t.setA an (f (t.areg an) (sext sz.size v))
  advance (1 + ea.words)

/-- `<op>I #v,<ea>`. -/
def aluImm (op : AluOp) (sz : Size) (v : Imm) (ea : Ea) : M Unit := do
  modifyEa sz v.words ea fun d cc => let o := op sz (immValue sz v) d false; (o.r, arithCc sz o cc)
  advance (1 + v.words + ea.words)

/-- The data of ADDQ and SUBQ: 1 to 8, 8 written 000 (R234). -/
def quickValue (data : Reg) : Long := if data = 0 then 8 else BitVec.ofNat 32 data.val

/-- `<op>Q #v,<ea>`; on An all 32 bits take part and no flag changes (R234). -/
def aluQuick (op : AluOp) (f : Long → Long → Long) (sz : Size) (data : Reg) (ea : Ea) : M Unit := do
  match ea with
  | .areg r => modify fun t => t.setA r (f (t.areg r) (quickValue data))
  | .dreg _ | .ind _ | .postinc _ | .predec _ | .disp _ _ | .indexed _ _ | .absW _ | .absL _
  | .pcDisp _ | .pcIndexed _ | .imm _ =>
    modifyEa sz 0 ea fun d cc => let o := op sz (quickValue data) d false; (o.r, arithCc sz o cc)
  advance (1 + ea.words)

/-- `<op>X`: both operands in data registers or both in memory, predecremented, source first (R235). -/
def aluExtend (op : AluOp) (sz : Size) (mem : Bool) (ry rx : Reg) : M Unit := do
  if mem then do
    let v ← readEa sz 0 (.predec ry)
    checkpoint (modifyEa sz 0 (.predec rx) fun d cc => let o := op sz v d cc.x; (o.r, extendCc sz o cc))
  else do
    let v ← readEa sz 0 (.dreg ry)
    modifyEa sz 0 (.dreg rx) fun d cc => let o := op sz v d cc.x; (o.r, extendCc sz o cc)
  advance 1

/-! ## Addition -/

/-- ADD to a data register (R231). -/
def execAddToReg (sz : Size) (ea : Ea) (dn : Reg) (s : State) : Host.Outcome State Fault Refusal :=
  runInstr (aluToReg addAlu sz ea dn) s

/-- ADD to memory (R231). -/
def execAddToEa (sz : Size) (dn : Reg) (ea : Ea) (s : State) : Host.Outcome State Fault Refusal :=
  runInstr (aluToEa addAlu sz dn ea) s

/-- ADDA (R232). -/
def execAdda (sz : WL) (ea : Ea) (an : Reg) (s : State) : Host.Outcome State Fault Refusal :=
  runInstr (aluToAddr (fun d v => d + v) sz ea an) s

/-- ADDI (R233). -/
def execAddi (sz : Size) (v : Imm) (ea : Ea) (s : State) : Host.Outcome State Fault Refusal :=
  runInstr (aluImm addAlu sz v ea) s

/-- ADDQ (R234). -/
def execAddq (sz : Size) (data : Reg) (ea : Ea) (s : State) : Host.Outcome State Fault Refusal :=
  runInstr (aluQuick addAlu (fun d v => d + v) sz data ea) s

/-- ADDX (R235). -/
def execAddx (sz : Size) (mem : Bool) (ry rx : Reg) (s : State) : Host.Outcome State Fault Refusal :=
  runInstr (aluExtend addAlu sz mem ry rx) s

/-! ## Clear and compare -/

/-- CLR: written without being read (R236). -/
def execClr (sz : Size) (ea : Ea) (s : State) : Host.Outcome State Fault Refusal :=
  runInstr (do
    modify fun t => t.setCc (logicCc sz 0 t.cc)
    writeEa sz 0 ea 0
    advance (1 + ea.words)) s

/-- CMP (R237). -/
def execCmp (sz : Size) (ea : Ea) (dn : Reg) (s : State) : Host.Outcome State Fault Refusal :=
  runInstr (do
    let v ← readEa sz 0 ea
    modify fun t => t.setCc (compareCc sz (subAlu sz v (trunc sz (t.dreg dn)) false) t.cc)
    advance (1 + ea.words)) s

/-- CMPA: on 32 bits, a word source sign-extended (R238). -/
def execCmpa (sz : WL) (ea : Ea) (an : Reg) (s : State) : Host.Outcome State Fault Refusal :=
  runInstr (do
    let v ← readEa sz.size 0 ea
    modify fun t => t.setCc (compareCc .l (subAlu .l (sext sz.size v) (t.areg an) false) t.cc)
    advance (1 + ea.words)) s

/-- CMPI (R239). -/
def execCmpi (sz : Size) (v : Imm) (ea : Ea) (s : State) : Host.Outcome State Fault Refusal :=
  runInstr (do
    testEa sz v.words ea fun d cc => compareCc sz (subAlu sz (immValue sz v) d false) cc
    advance (1 + v.words + ea.words)) s

/-- CMPM (R240). -/
def execCmpm (sz : Size) (ay ax : Reg) (s : State) : Host.Outcome State Fault Refusal :=
  runInstr (do
    let v ← readEa sz 0 (.postinc ay)
    checkpoint (testEa sz 0 (.postinc ax) fun d cc => compareCc sz (subAlu sz v d false) cc)
    advance 1) s

/-- The bounds and the register value of CMP2 and CHK2, and the width they are compared in (R241):
for an address register all are 32 bits, the bounds sign-extended. -/
def boundsOf (sz : Size) (ea : Ea) (rn : Rn) : M (Size × Long × Long × Long) := do
  let a ← memAddr sz 1 ea
  let t ← get
  let lo ← readMem false (t.eaSpace ea) a sz
  let hi ← readMem false (t.eaSpace ea) (a + BitVec.ofNat 32 sz.bytes) sz
  if rn.isAddr then pure (.l, sext sz lo, sext sz hi, t.areg rn.num)
  else pure (sz, lo, hi, trunc sz (t.dreg rn.num))

/-- `in_bounds` of R241. -/
def inBounds (sz : Size) (lo hi v : Long) : Bool :=
  decide ((trunc sz (v - lo)).toNat ≤ (trunc sz (hi - lo)).toNat)

/-- The lower bound is the smaller as signed or as unsigned numbers (R241). -/
def boundsOrdered (sz : Size) (lo hi : Long) : Bool :=
  decide ((sext sz lo).toInt ≤ (sext sz hi).toInt) || decide (lo.toNat ≤ hi.toNat)

/-- The flags of CMP2 and CHK2; answers C. N and V are free, and so is C with bounds in neither order
(R241, 93 U24, U33, log 25, log 34). -/
def compareBounds (sz : Size) (lo hi v : Long) : M Bool := do
  let free ← draw
  let c := if boundsOrdered sz lo hi then !inBounds sz lo hi v else free.getLsbD 2
  modify fun t =>
    t.setCc ⟨t.cc.x, free.getLsbD 0, v == lo || v == hi, free.getLsbD 1, c⟩
  pure c

/-- CMP2 (R241). -/
def execCmp2 (sz : Size) (ea : Ea) (rn : Rn) (s : State) : Host.Outcome State Fault Refusal :=
  runInstr (do
    let (wc, lo, hi, v) ← boundsOf sz ea rn
    let _ ← compareBounds wc lo hi v
    advance (2 + ea.words)) s

/-! ## Division -/

/-- A zero divisor: C is 0 and N, Z and V are free, then the trap is taken (R242, R535, log 34). -/
def zeroDivide (words : Nat) : M Unit := do
  let free ← draw
  modify fun t => t.setCc ⟨t.cc.x, free.getLsbD 0, free.getLsbD 1, free.getLsbD 2, false⟩
  let t ← get
  raised (t.trapExc 5 words)

/-- A quotient that does not fit: V is 1, C is 0, N and Z are free (R242, log 34). -/
def divOverflow : M Unit := do
  let free ← draw
  modify fun t => t.setCc ⟨t.cc.x, free.getLsbD 0, free.getLsbD 1, true, false⟩

/-- DIVU.W and DIVS.W (R242). -/
def divWord (signed : Bool) (ea : Ea) (dn : Reg) : M Unit := do
  let v ← readEa .w 0 ea
  let sv := if signed then sext .w v else v
  if sv = 0 then zeroDivide (1 + ea.words)
  else do
    let t ← get
    let dividend := intOf signed (t.dreg dn)
    let divisor := intOf signed sv
    let q := Int.tdiv dividend divisor
    let r := Int.tmod dividend divisor
    if fits signed 16 q then
      set ((t.setD dn (BitVec.ofInt 16 r ++ BitVec.ofInt 16 q)).setCc
        (logicCc .w (trunc .w (BitVec.ofInt 32 q)) t.cc))
    else divOverflow
    advance (1 + ea.words)

/-- DIVU.W (R242). -/
def execDivuW (ea : Ea) (dn : Reg) (s : State) : Host.Outcome State Fault Refusal :=
  runInstr (divWord false ea dn) s

/-- DIVS.W (R242). -/
def execDivsW (ea : Ea) (dn : Reg) (s : State) : Host.Outcome State Fault Refusal :=
  runInstr (divWord true ea dn) s

/-- DIVU.L, DIVS.L, DIVUL.L, DIVSL.L (R243). With a 64-bit dividend and Dr = Dq the register is free
(93 U25, log 26). -/
def execDivL (ea : Ea) (dq : Reg) (signed wide : Bool) (dr : Reg) (s : State) :
    Host.Outcome State Fault Refusal :=
  runInstr (do
    let v ← readEa .l 1 ea
    if v = 0 then zeroDivide (2 + ea.words)
    else do
      let t ← get
      let dividend :=
        if wide then dividend64 signed (t.dreg dr) (t.dreg dq) else intOf signed (t.dreg dq)
      let divisor := intOf signed v
      let q := Int.tdiv dividend divisor
      let r := Int.tmod dividend divisor
      if fits signed 32 q then do
        let q32 : Long := BitVec.ofInt 32 q
        set (t.setCc (logicCc .l q32 t.cc))
        if dr = dq then
          if wide then do
            let free ← draw
            modify fun u => u.setD dq free
          else modify fun u => u.setD dq q32
        else modify fun u => (u.setD dr (BitVec.ofInt 32 r)).setD dq q32
      else divOverflow
      advance (2 + ea.words)) s

/-! ## Sign extension -/

/-- EXT.W (R244). -/
def execExtW (dn : Reg) (s : State) : Host.Outcome State Fault Refusal :=
  runInstr (do
    modify fun t =>
      let v := trunc .w (sext .b (t.dreg dn))
      (t.putD .w dn v).setCc (logicCc .w v t.cc)
    advance 1) s

/-- EXT.L (R244). -/
def execExtL (dn : Reg) (s : State) : Host.Outcome State Fault Refusal :=
  runInstr (do
    modify fun t =>
      let v := sext .w (t.dreg dn)
      (t.setD dn v).setCc (logicCc .l v t.cc)
    advance 1) s

/-- EXTB.L (R244). -/
def execExtbL (dn : Reg) (s : State) : Host.Outcome State Fault Refusal :=
  runInstr (do
    modify fun t =>
      let v := sext .b (t.dreg dn)
      (t.setD dn v).setCc (logicCc .l v t.cc)
    advance 1) s

/-! ## Multiplication -/

/-- MULU.W and MULS.W (R245). -/
def mulWord (signed : Bool) (ea : Ea) (dn : Reg) : M Unit := do
  let v ← readEa .w 0 ea
  modify fun t =>
    let d := trunc .w (t.dreg dn)
    let r := if signed then sext .w d * sext .w v else d * v
    (t.setD dn r).setCc (logicCc .l r t.cc)
  advance (1 + ea.words)

/-- MULU.W (R245). -/
def execMuluW (ea : Ea) (dn : Reg) (s : State) : Host.Outcome State Fault Refusal :=
  runInstr (mulWord false ea dn) s

/-- MULS.W (R245). -/
def execMulsW (ea : Ea) (dn : Reg) (s : State) : Host.Outcome State Fault Refusal :=
  runInstr (mulWord true ea dn) s

/-- MULU.L and MULS.L (R246). With a 64-bit result and Dh = Dl the register is free (93 U25, log 26). -/
def execMulL (ea : Ea) (dl : Reg) (signed wide : Bool) (dh : Reg) (s : State) :
    Host.Outcome State Fault Refusal :=
  runInstr (do
    let v ← readEa .l 1 ea
    let t ← get
    let p := product signed (t.dreg dl) v
    let lo : Long := p.setWidth 32
    if wide then do
      set (t.setCc ⟨t.cc.x, p.getLsbD 63, p == 0, false, false⟩)
      if dh = dl then do
        let free ← draw
        modify fun u => u.setD dl free
      else modify fun u => (u.setD dh (p.extractLsb' 32 32)).setD dl lo
    else
      let overflow := !fits signed 32 (intOf signed (t.dreg dl) * intOf signed v)
      set ((t.setD dl lo).setCc ⟨t.cc.x, msb .l lo, lo == 0, overflow, false⟩)
    advance (2 + ea.words)) s

/-! ## Negation -/

/-- NEG (R247). -/
def execNeg (sz : Size) (ea : Ea) (s : State) : Host.Outcome State Fault Refusal :=
  runInstr (do
    modifyEa sz 0 ea fun d cc => let o := negAlu sz d; (o.r, arithCc sz o cc)
    advance (1 + ea.words)) s

/-- NEGX (R248). -/
def execNegx (sz : Size) (ea : Ea) (s : State) : Host.Outcome State Fault Refusal :=
  runInstr (do
    modifyEa sz 0 ea fun d cc => let o := negxAlu sz d cc.x; (o.r, extendCc sz o cc)
    advance (1 + ea.words)) s

/-! ## Subtraction -/

/-- SUB from a data register (R249). -/
def execSubToReg (sz : Size) (ea : Ea) (dn : Reg) (s : State) : Host.Outcome State Fault Refusal :=
  runInstr (aluToReg subAlu sz ea dn) s

/-- SUB from memory (R249). -/
def execSubToEa (sz : Size) (dn : Reg) (ea : Ea) (s : State) : Host.Outcome State Fault Refusal :=
  runInstr (aluToEa subAlu sz dn ea) s

/-- SUBA (R250). -/
def execSuba (sz : WL) (ea : Ea) (an : Reg) (s : State) : Host.Outcome State Fault Refusal :=
  runInstr (aluToAddr (fun d v => d - v) sz ea an) s

/-- SUBI (R251). -/
def execSubi (sz : Size) (v : Imm) (ea : Ea) (s : State) : Host.Outcome State Fault Refusal :=
  runInstr (aluImm subAlu sz v ea) s

/-- SUBQ (R252). -/
def execSubq (sz : Size) (data : Reg) (ea : Ea) (s : State) : Host.Outcome State Fault Refusal :=
  runInstr (aluQuick subAlu (fun d v => d - v) sz data ea) s

/-- SUBX (R253). -/
def execSubx (sz : Size) (mem : Bool) (ry rx : Reg) (s : State) : Host.Outcome State Fault Refusal :=
  runInstr (aluExtend subAlu sz mem ry rx) s

end Sys2Proof.Machine
end

