-- ==== Sys2Proof/Machine/System.lean ====
section
/-! DEFINITION. The meanings of the system control instructions (47_system_control). -/

namespace Sys2Proof.Machine

/-! ## Trapping instructions -/

/-- TRAP (R380, R534). -/
def execTrap (v : Fin 16) (s : State) : Host.Outcome State Fault Refusal :=
  runInstr (raised ⟨BitVec.ofNat 8 (32 + v.val), s.npc 1, .four, .trapped⟩) s

/-- TRAPcc; the operand words are for the handler (R381). -/
def execTrapcc (c : Cond) (op : TrapOperand) (s : State) : Host.Outcome State Fault Refusal :=
  runInstr (if condTrue c s.cc then raised (s.trapExc 7 (1 + op.words)) else advance (1 + op.words)) s

/-- TRAPV (R382). -/
def execTrapv (s : State) : Host.Outcome State Fault Refusal :=
  runInstr (if s.cc.v then raised (s.trapExc 7 1) else advance 1) s

/-- CHK (R383). Z, V and C are free, and N when it does not trap (log 34). -/
def execChk (sz : WL) (ea : Ea) (dn : Reg) (s : State) : Host.Outcome State Fault Refusal :=
  runInstr (do
    let b ← readEa sz.size 0 ea
    let t ← get
    let v := (sext sz.size (t.dreg dn)).toInt
    let bound := (sext sz.size b).toInt
    let free ← draw
    let flags := fun n => (⟨t.cc.x, n, free.getLsbD 0, free.getLsbD 1, free.getLsbD 2⟩ : CC)
    let trap := fun n => do
      modify fun u => u.setCc (flags n)
      raised (t.trapExc 6 (1 + ea.words))
    if v < 0 then trap true
    else if bound < v then trap false
    else do
      modify fun u => u.setCc (flags (free.getLsbD 3))
      advance (1 + ea.words)) s

/-- CHK2 (R384). -/
def execChk2 (sz : Size) (ea : Ea) (rn : Rn) (s : State) : Host.Outcome State Fault Refusal :=
  runInstr (do
    let (wc, lo, hi, v) ← boundsOf sz ea rn
    let c ← compareBounds wc lo hi v
    let t ← get
    if c then raised (t.trapExc 6 (2 + ea.words)) else advance (2 + ea.words)) s

/-- ILLEGAL (R385). -/
def execIllegal (s : State) : Host.Outcome State Fault Refusal := runInstr raiseIllegal s

/-- BKPT: the platform has no breakpoint hardware, so the acknowledge cycle ends in a bus error and
the illegal instruction exception is taken (R386, R580, 92 D17). -/
def execBkpt (_n : Reg) (s : State) : Host.Outcome State Fault Refusal := runInstr raiseIllegal s

/-! ## STOP, RTE, RESET -/

/-- STOP (R387, R548). Traced, it does not stop. -/
def execStop (v : Word) (s : State) : Host.Outcome State Fault Refusal :=
  runInstr (privileged do
    modify fun t => { t.setSr v with run := if s.tracedAll then .normal else .stopped }
    advance 2) s

/-- RTE (R388, R541, R555). -/
def execRte (s : State) : Host.Outcome State Fault Refusal :=
  runInstr (privileged (rteLoop s rteFuel)) s

/-- RESET: the identity on processor and memory apart from the PC (R389, R51, 92 D18, log 36). -/
def execReset (s : State) : Host.Outcome State Fault Refusal := runInstr (privileged (advance 1)) s

/-! ## The status register -/

/-- MOVE from SR (R392). -/
def execMoveFromSr (ea : Ea) (s : State) : Host.Outcome State Fault Refusal :=
  runInstr (privileged do
    writeEa .w 0 ea (s.sr.setWidth 32)
    advance (1 + ea.words)) s

/-- MOVE to SR (R393). -/
def execMoveToSr (ea : Ea) (s : State) : Host.Outcome State Fault Refusal :=
  runInstr (privileged do
    let v ← readEa .w 0 ea
    modify fun t => t.setSr (v.setWidth 16)
    advanceSr (1 + ea.words)) s

/-- ANDI, EORI and ORI to SR, by R391. -/
def changeSr (f : Word → Word) : M Unit := privileged do
  modify fun t => t.setSr (f t.sr)
  advanceSr 2

/-- ANDI to SR (R394). -/
def execAndiToSr (v : Word) (s : State) : Host.Outcome State Fault Refusal :=
  runInstr (changeSr fun w => w &&& v) s

/-- EORI to SR (R395). -/
def execEoriToSr (v : Word) (s : State) : Host.Outcome State Fault Refusal :=
  runInstr (changeSr fun w => w ^^^ v) s

/-- ORI to SR (R396). -/
def execOriToSr (v : Word) (s : State) : Host.Outcome State Fault Refusal :=
  runInstr (changeSr fun w => w ||| v) s

/-- MOVE USP (R397). -/
def execMoveUsp (toReg : Bool) (an : Reg) (s : State) : Host.Outcome State Fault Refusal :=
  runInstr (privileged do
    if toReg then modify fun t => t.setA an t.usp else modify fun t => { t with usp := t.areg an }
    advance 1) s

/-! ## Control registers and address spaces -/

/-- The control registers of MOVEC (R398). -/
inductive ControlReg where
  | sfc
  | dfc
  | cacr
  | usp
  | vbr
  | caar
  | msp
  | isp
  deriving DecidableEq, Repr

/-- The control register of a code (R398). -/
def controlReg (code : BitVec 12) : Option ControlReg :=
  match code.toNat with
  | 0x000 => some .sfc
  | 0x001 => some .dfc
  | 0x002 => some .cacr
  | 0x800 => some .usp
  | 0x801 => some .vbr
  | 0x802 => some .caar
  | 0x803 => some .msp
  | 0x804 => some .isp
  | _ => none

/-- Read a control register; bits that are not implemented read 0 (R398, R32). -/
def State.readControl (s : State) : ControlReg → Long
  | .sfc => s.sfc.setWidth 32
  | .dfc => s.dfc.setWidth 32
  | .cacr => s.cacr &&& 3
  | .usp => s.usp
  | .vbr => s.vbr
  | .caar => s.caar
  | .msp => s.msp
  | .isp => s.isp

/-- The cache entry CAAR names (R33). -/
def cacheIndex (a : Long) : Fin 64 := ⟨a.toNat / 4 % 64, Nat.mod_lt _ (by decide)⟩

/-- Write CACR: C invalidates every entry, CE the entry CAAR names; E and F are stored (R32). -/
def State.writeCacr (s : State) (v : Long) : State :=
  { s with
    cacr := v &&& 3
    cache :=
      if v.getLsbD 3 then Vector.replicate 64 none
      else if v.getLsbD 2 then s.cache.set (cacheIndex s.caar).val none
      else s.cache }

/-- Write a control register; bits that are not implemented are ignored (R398). -/
def State.writeControl (s : State) (r : ControlReg) (v : Long) : State :=
  match r with
  | .sfc => { s with sfc := v.setWidth 3 }
  | .dfc => { s with dfc := v.setWidth 3 }
  | .cacr => s.writeCacr v
  | .usp => { s with usp := v }
  | .vbr => { s with vbr := v }
  | .caar => { s with caar := v }
  | .msp => { s with msp := v }
  | .isp => { s with isp := v }

/-- MOVEC (R398): the privilege check first, then an unknown code is illegal (92 D25). -/
def execMovec (toCtl : Bool) (rn : Rn) (code : BitVec 12) (s : State) :
    Host.Outcome State Fault Refusal :=
  runInstr (privileged do
    match controlReg code with
    | none => raiseIllegal
    | some r =>
      if toCtl then modify fun t => t.writeControl r (t.getR rn)
      else modify fun t => t.setR rn (t.readControl r)
      advance 2) s

/-- The addressing mode changes the address register `rn` names. -/
def stepsRegister (ea : Ea) (rn : Rn) : Bool :=
  match ea with
  | .postinc r | .predec r => rn == ⟨true, r⟩
  | .dreg _ | .areg _ | .ind _ | .disp _ _ | .indexed _ _ | .absW _ | .absL _ | .pcDisp _
  | .pcIndexed _ | .imm _ => false

/-- MOVES (R399). Storing the address register that the mode steps, the value stored is free
(93 U30, log 23). -/
def execMoves (sz : Size) (toMem : Bool) (rn : Rn) (ea : Ea) (s : State) :
    Host.Outcome State Fault Refusal :=
  runInstr (privileged do
    let a ← memAddr sz 1 ea
    if toMem then do
      let free ← draw
      let v := if stepsRegister ea rn then free else s.getR rn
      writeMem false s.dfc a sz v
    else do
      let v ← readMem false s.sfc a sz
      modify fun t => if rn.isAddr then t.setA rn.num (sext sz v) else t.putD sz rn.num v
    advance (2 + ea.words)) s

/-! ## The condition code register -/

/-- MOVE from CCR (R400). -/
def execMoveFromCcr (ea : Ea) (s : State) : Host.Outcome State Fault Refusal :=
  runInstr (do
    writeEa .w 0 ea ((s.sr &&& 0x001F).setWidth 32)
    advance (1 + ea.words)) s

/-- MOVE to CCR (R401). -/
def execMoveToCcr (ea : Ea) (s : State) : Host.Outcome State Fault Refusal :=
  runInstr (do
    let v ← readEa .w 0 ea
    modify fun t => t.setCc (CC.ofBits (v.setWidth 16))
    advance (1 + ea.words)) s

/-- ANDI, EORI and ORI to CCR: bits 4:0 only. -/
def changeCcr (f : Word → Word) : M Unit := do
  modify fun t => t.setCc (CC.ofBits (f t.sr))
  advance 2

/-- ANDI to CCR (R402). -/
def execAndiToCcr (v : Word) (s : State) : Host.Outcome State Fault Refusal :=
  runInstr (changeCcr fun w => w &&& v) s

/-- EORI to CCR (R403). -/
def execEoriToCcr (v : Word) (s : State) : Host.Outcome State Fault Refusal :=
  runInstr (changeCcr fun w => w ^^^ v) s

/-- ORI to CCR (R404). -/
def execOriToCcr (v : Word) (s : State) : Host.Outcome State Fault Refusal :=
  runInstr (changeCcr fun w => w ||| v) s

end Sys2Proof.Machine
end

