-- ==== Sys2Proof/Machine/Fetch.lean ====
section
/-! DEFINITION. Instruction fetch: the instruction cache (R49, R32), instruction words from memory, and
the words the pipe may still hold from before a store (R43, R85, R611). -/

namespace Sys2Proof.Machine

/-! ## The instruction cache (R49) -/

/-- The cached long word at an address, if the cache is enabled and hits. -/
def State.cacheHit (s : State) (fc : FC) (a : Long) : Option Long :=
  if s.cacr.getLsbD 0 then
    match s.cache[(cacheIndex a).val] with
    | some l => if l.fc2 = fc.getLsbD 2 ∧ l.tag = a.extractLsb' 8 24 then some l.data else none
    | none => none
  else none

/-- The half of a long word that holds the instruction word at `a`. -/
def halfOf (v a : Long) : Word := if a.getLsbD 1 then v.extractLsb' 0 16 else v.extractLsb' 16 16

/-- The long-word boundary at or below an address. -/
def longBase (a : Long) : Long := a &&& 0xFFFFFFFC

/-- An instruction word, or how the bus cycle that should bring it ends (R89). -/
inductive Fetched where
  | word (w : Word)
  /-- A bus error, or with `never` no end at all. -/
  | fault (never : Bool)
  deriving DecidableEq, Repr

/-- The word, if there is one. -/
def Fetched.word? : Fetched → Option Word
  | .word w => some w
  | .fault _ => none

/-- How the cycles that bring the instruction word at `a` end. They read the aligned long word that holds
it (R76, Table 5-6); a fault on its other half, in a cycle that does not bring this word or where nothing is at
the other's address, is not this word's. R76 speaks of faults alone: that a cycle on
the other half that never ends does not hold the processor either is the model's (DESIGN CHOICE, log 33). -/
def State.wordEnd (s : State) (fc : FC) (a : Long) : Option Bool :=
  let o := if a.getLsbD 1 then 2 else 0
  [o, o + 1].findSome? fun i => s.byteEnd fc false (longBase a) 4 i

/-- The instruction word that memory holds at `a`; none where it cannot be read or a device answers. -/
def State.storedWord (s : State) (fc : FC) (a : Long) : Option Word :=
  if (s.wordEnd fc a).isSome || s.onDevice fc a 2 then none
  else some (bytesWord (s.byte fc a) (s.byte fc (a + 1)))

/-- An instruction word read from the bus; a device answers a free word (log 41). -/
def State.memoryWord (s : State) (fc : FC) (a : Long) : Fetched :=
  match s.wordEnd fc a with
  | some never => .fault never
  | none => .word ((s.storedWord fc a).getD (Config.deviceWord s.draws a.toNat))

/-- The instruction word of a cache hit: the held one, or freely memory's where that has changed (R85,
92 D13, log 17). -/
def State.cachedWord (s : State) (line a : Long) : Word :=
  match s.storedWord s.progSpace a with
  | some w => if Config.staleCache s.draws a.toNat then halfOf line a else w
  | none => halfOf line a

/-- An instruction word as the cache and memory give it now (R49). -/
def State.currentWord (s : State) (a : Long) : Fetched :=
  match s.cacheHit s.progSpace a with
  | some v => .word (s.cachedWord v a)
  | none => s.memoryWord s.progSpace a

/-! ## The pipe (R43, R85, log 16) -/

/-- The old version of a word that the pipe still holds, which is free; `i` numbers the entries. -/
def staleWord (n : Nat) (a : Long) : Nat → List (Nat × Word) → Option Word
  | _, [] => none
  | i, (k, w) :: rest =>
    if k = a.toNat ∧ Config.stalePrefetch n i = true then some w else staleWord n a (i + 1) rest

/-- The instruction word the processor uses at an address. -/
def State.fetchWord (s : State) (a : Long) : Fetched :=
  match staleWord s.draws a 0 s.pipe with
  | some w => .word w
  | none => s.currentWord a

/-- Up to `n` instruction words from an address, as far as they can be read. -/
def State.fetchWords (s : State) (a : Long) : Nat → List Word
  | 0 => []
  | n + 1 =>
    match s.fetchWord a with
    | .word w => w :: s.fetchWords (a + 2) n
    | .fault _ => []

/-- Fill the cache entry of the instruction word at `a` on a miss, unless the cache is off or frozen (R32, R49).
Where the other half of the long word cannot be read the entry stays as it was (DESIGN CHOICE, log 17). -/
def State.fillWord (s : State) (a : Long) : State :=
  if s.cacr.getLsbD 0 && !s.cacr.getLsbD 1 && (s.cacheHit s.progSpace a).isNone then
    match s.fetchWord (longBase a), s.fetchWord (longBase a + 2) with
    | .word hi, .word lo =>
      let line : CacheLine := ⟨s.progSpace.getLsbD 2, a.extractLsb' 8 24, hi ++ lo⟩
      { s with cache := s.cache.set (cacheIndex a).val (some line) }
    | _, _ => s
  else s

/-- Fill the cache for the `n` words of an instruction. -/
def State.fillWords (s : State) (a : Long) : Nat → State
  | 0 => s
  | n + 1 => (s.fillWord a).fillWords (a + 2) n

/-- The words the pipe may have read while the instruction at `a` ran: those of its own long word and
of the three long words that follow (R611, 92 D13). -/
def pipeWindow (a : Long) : List Long :=
  (List.range 8).map fun k => longBase a + BitVec.ofNat 32 (2 * k)

/-- The address lies at most eight words ahead of the PC. -/
def aheadOf (pc : Long) (k : Nat) : Bool := decide ((BitVec.ofNat 32 k - pc).toNat < 16)

/-- The word that memory held at `a` in `s` and no longer holds in `t`. -/
def overwritten (fc : FC) (s t : State) (a : Long) : Option Word :=
  (s.storedWord fc a).filter fun w => t.storedWord fc a != some w

/-- The pipe after an instruction that did not change the flow: the words ahead that the instruction stored
over, and those the pipe held before, unless the program space has changed: then the next instruction is
fetched in the new one. What a write of CACR takes from the cache does not come here: it is in effect for the
next instruction (R612, log 16). -/
def nextPipe (s t : State) : List (Nat × Word) :=
  let gone := (pipeWindow s.pc).filterMap fun a => (overwritten t.progSpace s t a).map fun w => (a.toNat, w)
  (gone ++ if s.progSpace = t.progSpace then s.pipe else []).filter fun e => aheadOf t.pc e.1

end Sys2Proof.Machine
end

