-- ==== Sys2Proof/Machine/Boundary.lean ====
section
/-! DEFINITION. What happens between instructions: trace, interrupts, address errors on the next
fetch, and the reset exception (60_exceptions R531, R545 to R548, R560 to R571; 70_reset R600). -/

namespace Sys2Proof.Machine

/-! ## Trace (R545 to R547) -/

/-- An ending that loads the PC non-sequentially or writes the SR (R545, T1, T0 = 01). -/
def Ending.isFlow : Ending → Bool
  | .flow | .returned | .trapped | .wroteSr => true
  | .sequential | .rerun | .notDone => false

/-- The instruction that began in `s` and ended as `e` is traced (R545). -/
def State.traces (s : State) (e : Ending) : Bool :=
  s.tracedAll || (!s.t1 && s.t0 && e.isFlow)

/-- Trace exception processing: vector 9, a six-word frame whose instruction address is that of the
traced instruction (R546). -/
def State.takeTrace (t : State) (iaddr : Long) : State := t.takeException ⟨9, t.pc, .six iaddr, .flow⟩

/-- A traced instruction trap makes a trace owed (R547, 92 D29). With one owed already, which trap it is
for and whether it fires is free (93 U32, log 13). -/
def State.oweTrace (t : State) (addr : Long) : State :=
  match t.owed with
  | none => { t with owed := some ⟨addr, true⟩ }
  | some o => ({ t with owed := some ⟨if freeBit t.draws then addr else o.addr, false⟩ }).used 1

/-- The trace of the instruction at `iaddr` itself. None before an instruction at an odd address, whose
address error comes first (log 11). -/
def State.takeOwnTrace (t : State) (iaddr : Long) : State :=
  if t.pc.getLsbD 0 then t else t.takeTrace iaddr

/-- The trace at the end of the instruction that began in `s` and left `t` (R545 to R548, R571). A traced
trap owes a trace and an RTE takes the one owed, wherever the PC then points (R547, 92 D29, log 13). -/
def traceAfter (s t : State) : State :=
  if t.run ≠ .normal then t
  else
    match t.ending with
    | .notDone | .rerun => t
    | .trapped => if s.traces .trapped then t.oweTrace s.pc else t
    | .returned =>
      match t.owed with
      | some o =>
        if o.sure || freeBit t.draws then { (t.used 1) with owed := none }.takeTrace o.addr
        else if s.traces .returned then (t.used 1).takeOwnTrace s.pc else t.used 1
      | none => if s.traces .returned then t.takeOwnTrace s.pc else t
    | .sequential => if s.traces .sequential then t.takeOwnTrace s.pc else t
    | .wroteSr => if s.traces .wroteSr then t.takeOwnTrace s.pc else t
    | .flow => if s.traces .flow then t.takeOwnTrace s.pc else t

/-- The pipe after the instruction that began in `s` and left `t`: a change of flow refills it (R85). -/
def pipeAfter (s t : State) : List (Nat × Word) :=
  match t.ending with
  | .sequential | .wroteSr => nextPipe s t
  | .flow | .returned | .rerun | .trapped | .notDone => []

/-- The end of an instruction: the pipe, then the trace owed for it. The draw bumped here is the one
that fetching and the reserved trace setting used. -/
def afterInstr (s t : State) : State := traceAfter s ({ t with pipe := pipeAfter s t }.used 1)

/-! ## Interrupts (R560 to R566) -/

/-- What external hardware does at this step; once the list is used up it requests nothing (log 14). -/
def State.input (s : State) : Input := s.inputs.head?.getD ⟨false, 0, .autovector⟩

/-- Sample the request level; a change to level 7 is remembered (R561). -/
def State.sample (s : State) : State :=
  { s with
    ipl := s.input.ipl
    nmi := s.nmi || (s.input.ipl == 7 && s.ipl != 7)
    inputs := s.inputs.tail }

/-- The sampled request is taken at this boundary (R561). -/
def State.recognised (s : State) : Bool := decide (s.iMask < s.ipl.val) || (s.ipl == 7 && s.nmi)

/-- The vector number of an interrupt (R562, R564). -/
def Ack.vectorOf (a : Ack) (l : Fin 8) : Byte :=
  match a with
  | .vector v => v
  | .autovector => BitVec.ofNat 8 (24 + l.val)
  | .busError => 24

/-- Take the sampled interrupt; taking level 7 answers the change to it (R561, R563). -/
def State.interrupt (s : State) (a : Ack) : State :=
  { s with nmi := s.nmi && s.ipl != 7 }.takeInterrupt s.ipl (a.vectorOf s.ipl)

/-! ## Address error and reset -/

/-- The address error of a prefetch from an odd PC (R531). Either bus fault frame may be built: which
one is free (log 11). -/
def State.addressError (s : State) : State :=
  (s.used 1).enterFault 3 (freeBit s.draws) s.pc ⟨true, s.progSpace, s.pc, 2, false, false, [], false⟩

/-- The initial ISP and PC are read from the reset vectors (R600, R604). -/
def readResetVectors : Bus Unit := do
  let sp ← busRead false supervisorProgram 0 4
  modify fun t => { t with isp := bytesLong sp }
  let pc ← busRead false supervisorProgram 4 4
  modify fun t => { t with pc := bytesLong pc }

/-- The reset exception (R600, R604, R50). The spec does not say whether a request at level 7 that stays
through RESET counts afterwards as a change to level 7; here it does, for the level sampled last is taken
to be 0 (DESIGN CHOICE, log 45). Nor does it say what a reset ended by a double bus fault leaves; here the
registers already reset or loaded stay so (DEDUCED, log 31). A bus error on the word at the initial PC is the
next step's, no double bus fault (DESIGN CHOICE, log 47). The wait for a vector that never comes leaves the same
as the halt (DESIGN CHOICE, log 49). -/
def State.resetException (s : State) : State :=
  let t := { s with
    sr := (s.sr &&& 0x001F) ||| 0x2700
    vbr := 0
    cacr := 0
    cache := Vector.replicate 64 none
    pipe := []
    run := .normal
    owed := none
    ending := .sequential
    eaTemp := none
    scanPc := none
    ipl := 0
    nmi := false }
  match readResetVectors t with
  | .ok _ u => if u.pc.getLsbD 0 then { u with run := .halted } else u
  | .error f u => { u with run := if f.never then .hung else .halted }

end Sys2Proof.Machine
end

