-- ==== Sys2Proof/Machine/Bcd.lean ====
section
/-! DEFINITION. The meanings of the binary-coded decimal instructions (45_bcd). -/

namespace Sys2Proof.Machine

/-- The result of a decimal operation with its flags. When a digit is above 9 the byte, C and X are each
free (R340, 92 D28, log 35); N and V are always free (log 34); Z is only ever cleared (R340). -/
def bcdResult (free : Long) (valid : Bool) (out : Long × Bool) (cc : CC) : Long × CC :=
  let r := if valid then out.1 else free.setWidth 8 |>.setWidth 32
  let c := if valid then out.2 else free.getLsbD 8
  let x := if valid then out.2 else free.getLsbD 11
  (r, ⟨x, free.getLsbD 9, cc.z && r == 0, free.getLsbD 10, c⟩)

/-- A decimal operation on two bytes: source, destination and X. -/
abbrev BcdOp := Long → Long → Bool → Long × Bool

/-- The two forms of ABCD and SBCD: data registers, or memory with predecrement, source first (R341). -/
def bcdTwo (op : BcdOp) (mem : Bool) (ry rx : Reg) : M Unit := do
  let free ← draw
  let step := fun (v d : Long) (cc : CC) =>
    bcdResult free (bcdValid v && bcdValid d) (op v d cc.x) cc
  if mem then do
    let v ← readEa .b 0 (.predec ry)
    checkpoint (modifyEa .b 0 (.predec rx) (step v))
  else do
    let v ← readEa .b 0 (.dreg ry)
    modifyEa .b 0 (.dreg rx) (step v)
  advance 1

/-- ABCD (R341). -/
def execAbcd (mem : Bool) (ry rx : Reg) (s : State) : Host.Outcome State Fault Refusal :=
  runInstr (bcdTwo abcdOut mem ry rx) s

/-- SBCD (R342). -/
def execSbcd (mem : Bool) (ry rx : Reg) (s : State) : Host.Outcome State Fault Refusal :=
  runInstr (bcdTwo sbcdOut mem ry rx) s

/-- NBCD (R343). -/
def execNbcd (ea : Ea) (s : State) : Host.Outcome State Fault Refusal :=
  runInstr (do
    let free ← draw
    modifyEa .b 0 ea fun d cc => bcdResult free (bcdValid d) (sbcdOut d 0 cc.x) cc
    advance (1 + ea.words)) s

/-- The step of a byte predecrement of PACK and UNPK: 1, or for A7 1 or 2, which is free (R344, 93 U27, log 22). -/
def packStep (r : Reg) : M Long := do
  if r = 7 then do
    let b ← drawBit
    pure (if b then 2 else 1)
  else pure 1

/-- `A[r] <- A[r] - step`, answering the new value. -/
def stepDown (r : Reg) (step : Long) : M Long := do
  let t ← get
  set (t.setA r (t.areg r - step))
  pure (t.areg r - step)

/-- PACK (R344). -/
def execPack (mem : Bool) (ry rx : Reg) (adj : Word) (s : State) : Host.Outcome State Fault Refusal :=
  runInstr (do
    if mem then do
      let sy ← packStep ry
      let sx ← packStep rx
      let a ← stepDown ry sy
      let lo ← readData a .b
      checkpoint do
        let b ← stepDown ry sy
        let hi ← readData b .b
        checkpoint do
          let c ← stepDown rx sx
          writeData c .b (packByte (((hi <<< 8) ||| lo).setWidth 16 + adj))
    else
      modify fun t => t.putD .b rx (packByte ((t.dreg ry).setWidth 16 + adj))
    advance 2) s

/-- UNPK (R345). -/
def execUnpk (mem : Bool) (ry rx : Reg) (adj : Word) (s : State) : Host.Outcome State Fault Refusal :=
  runInstr (do
    if mem then do
      let sy ← packStep ry
      let sx ← packStep rx
      let a ← stepDown ry sy
      let v ← readData a .b
      let w := unpackWord v + adj
      checkpoint do
        let b ← stepDown rx sx
        writeData b .b ((w.extractLsb' 0 8).setWidth 32)
        checkpoint do
          let c ← stepDown rx sx
          writeData c .b ((w.extractLsb' 8 8).setWidth 32)
    else
      modify fun t => t.putD .w rx ((unpackWord (t.dreg ry) + adj).setWidth 32)
    advance 2) s

end Sys2Proof.Machine
end

