-- ==== Sys2Proof/Machine/Bits.lean ====
section
/-! DEFINITION. The meanings of the bit and bit-field instructions (44_bit_and_bitfield). -/

namespace Sys2Proof.Machine

/-! ## Single bits (R310) -/

/-- What a bit instruction does to its operand: the operand and the mask of the bit. -/
abbrev BitChange := Long → Long → Long

/-- The operand of a bit instruction: all of a data register, or a byte (R310). -/
def bitSize : Ea → Size
  | .dreg _ => .l
  | .areg _ | .ind _ | .postinc _ | .predec _ | .disp _ _ | .indexed _ _ | .absW _ | .absL _
  | .pcDisp _ | .pcIndexed _ | .imm _ => .b

/-- The mask of bit `n`, modulo the operand width (R310). -/
def bitMask (sz : Size) (n : Nat) : Long := 1#32 <<< (n % sz.bits)

/-- Z tells that the bit was 0; X, N, V, C are unchanged (R310). -/
def bitCc (v m : Long) (cc : CC) : CC := { cc with z := v &&& m == 0 }

/-- BTST (R311). -/
def bitTest (n own : Nat) (ea : Ea) : M Unit := do
  testEa (bitSize ea) own ea fun v cc => bitCc v (bitMask (bitSize ea) n) cc
  advance (1 + own + ea.words)

/-- BCHG, BCLR and BSET (R312 to R314). -/
def bitModify (f : BitChange) (n own : Nat) (ea : Ea) : M Unit := do
  let m := bitMask (bitSize ea) n
  modifyEa (bitSize ea) own ea fun v cc => (f v m, bitCc v m cc)
  advance (1 + own + ea.words)

/-- The bit number of the dynamic forms. -/
def bitNumber (dn : Reg) : M Nat := do
  let t ← get
  pure (t.dreg dn).toNat

/-- The bit number of the static forms: bits 7:0 of the word (R310). -/
def immBit (n : Word) : Nat := n.toNat % 256

/-- BTST with the number in a register (R311). -/
def execBtstDyn (dn : Reg) (ea : Ea) (s : State) : Host.Outcome State Fault Refusal :=
  runInstr (do
    let n ← bitNumber dn
    bitTest n 0 ea) s

/-- BTST with an immediate number (R311). -/
def execBtstImm (n : Word) (ea : Ea) (s : State) : Host.Outcome State Fault Refusal :=
  runInstr (bitTest (immBit n) 1 ea) s

/-- BCHG with the number in a register (R312). -/
def execBchgDyn (dn : Reg) (ea : Ea) (s : State) : Host.Outcome State Fault Refusal :=
  runInstr (do
    let n ← bitNumber dn
    bitModify (fun v m => v ^^^ m) n 0 ea) s

/-- BCHG with an immediate number (R312). -/
def execBchgImm (n : Word) (ea : Ea) (s : State) : Host.Outcome State Fault Refusal :=
  runInstr (bitModify (fun v m => v ^^^ m) (immBit n) 1 ea) s

/-- BCLR with the number in a register (R313). -/
def execBclrDyn (dn : Reg) (ea : Ea) (s : State) : Host.Outcome State Fault Refusal :=
  runInstr (do
    let n ← bitNumber dn
    bitModify (fun v m => v &&& ~~~m) n 0 ea) s

/-- BCLR with an immediate number (R313). -/
def execBclrImm (n : Word) (ea : Ea) (s : State) : Host.Outcome State Fault Refusal :=
  runInstr (bitModify (fun v m => v &&& ~~~m) (immBit n) 1 ea) s

/-- BSET with the number in a register (R314). -/
def execBsetDyn (dn : Reg) (ea : Ea) (s : State) : Host.Outcome State Fault Refusal :=
  runInstr (do
    let n ← bitNumber dn
    bitModify (fun v m => v ||| m) n 0 ea) s

/-- BSET with an immediate number (R314). -/
def execBsetImm (n : Word) (ea : Ea) (s : State) : Host.Outcome State Fault Refusal :=
  runInstr (bitModify (fun v m => v ||| m) (immBit n) 1 ea) s

/-! ## Bit fields (R320) -/

/-- The offset: a data register as a signed number, or the field (R320). -/
def State.fieldOffset (s : State) (f : BitField) : Int :=
  if f.offReg then (s.dreg ⟨f.off.toNat % 8, Nat.mod_lt _ (by decide)⟩).toInt else f.off.toNat

/-- The width, 1 to 32 (R320). -/
def State.fieldWidth (s : State) (f : BitField) : Nat :=
  let w := if f.widReg then (s.dreg ⟨f.wid.toNat % 8, Nat.mod_lt _ (by decide)⟩).toNat % 32
    else f.wid.toNat
  if w = 0 then 32 else w

/-- Read the bytes of a field: a long word or less first, then the fifth byte (log 40). -/
def readField (fc : FC) (a : Long) (n : Nat) : M (List Byte) := do
  let lo ← liftBus (busRead false fc a (min n 4))
  let hi ← liftBus (busRead false fc (a + 4) (n - 4))
  pure (lo ++ hi)

/-- Write the bytes of a field back. -/
def writeField (fc : FC) (a : Long) (bs : List Byte) : M Unit := do
  liftBus (busWrite false fc a (bs.take 4))
  liftBus (busWrite false fc (a + 4) (bs.drop 4))

/-- Where a field is, and what it holds. -/
structure Field where
  /-- The data register, or none for memory. -/
  reg : Option Reg
  fc : FC
  addr : Long
  bytes : List Byte
  /-- The offset in the register or in the first byte. -/
  off : Nat
  width : Nat
  value : Long

/-- Locate and read a field (R320). -/
def fetchField (ea : Ea) (f : BitField) : M Field := do
  let t ← get
  let off := t.fieldOffset f
  let width := t.fieldWidth f
  match ea with
  | .dreg r =>
    let o := (off % 32).toNat
    pure ⟨some r, 0, 0, [], o, width, regField32 (t.dreg r) o width⟩
  | .areg _ | .ind _ | .postinc _ | .predec _ | .disp _ _ | .indexed _ _ | .absW _ | .absL _
  | .pcDisp _ | .pcIndexed _ | .imm _ => do
    let base ← memAddr .b 1 ea
    let a := base + BitVec.ofInt 32 (off / 8)
    let o := (off % 8).toNat
    let bs ← readField (t.eaSpace ea) a (fieldBytes o width)
    pure ⟨none, t.eaSpace ea, a, bs, o, width, memField bs o width⟩

/-- Replace a field by the low bits of `v`. -/
def storeField (x : Field) (v : Long) : M Unit := do
  match x.reg with
  | some r => modify fun t => t.setD r (putRegField32 (t.dreg r) x.off x.width v)
  | none => writeField x.fc x.addr (putMemField x.bytes x.off x.width v)

/-- An instruction that sets the flags from the old field, then goes on with it. -/
def fieldInstr (ea : Ea) (f : BitField) (body : Field → M Unit) : M Unit := do
  let x ← fetchField ea f
  modify fun t => t.setCc (fieldCc x.width x.value t.cc)
  body x
  advance (2 + ea.words)

/-- BFTST (R321). -/
def execBftst (ea : Ea) (f : BitField) (s : State) : Host.Outcome State Fault Refusal :=
  runInstr (fieldInstr ea f fun _ => pure ()) s

/-- BFEXTU (R322). -/
def execBfextu (ea : Ea) (f : BitField) (dn : Reg) (s : State) : Host.Outcome State Fault Refusal :=
  runInstr (fieldInstr ea f fun x => modify fun t => t.setD dn x.value) s

/-- BFCHG (R325). -/
def execBfchg (ea : Ea) (f : BitField) (s : State) : Host.Outcome State Fault Refusal :=
  runInstr (fieldInstr ea f fun x => storeField x (~~~x.value)) s

/-- A field of `width` bits as a signed number (R323). -/
def signedField (width : Nat) (v : Long) : Long :=
  if v.getLsbD (width - 1) then v ||| ~~~(fieldMask width) else v

/-- BFEXTS (R323). -/
def execBfexts (ea : Ea) (f : BitField) (dn : Reg) (s : State) : Host.Outcome State Fault Refusal :=
  runInstr (fieldInstr ea f fun x => modify fun t => t.setD dn (signedField x.width x.value)) s

/-- BFCLR (R326). -/
def execBfclr (ea : Ea) (f : BitField) (s : State) : Host.Outcome State Fault Refusal :=
  runInstr (fieldInstr ea f fun x => storeField x 0) s

/-- The offset BFFFO adds (R324): for a data register operand and an offset register outside 0 to 31,
the register or its value modulo 32, which is free (93 U26, log 26). -/
def ffoOffset (off : Int) (x : Field) : M Long := do
  if x.reg.isSome ∧ ¬ (0 ≤ off ∧ off < 32) then do
    let b ← drawBit
    pure (if b then BitVec.ofNat 32 x.off else BitVec.ofInt 32 off)
  else pure (BitVec.ofInt 32 off)

/-- BFFFO (R324). -/
def execBfffo (ea : Ea) (f : BitField) (dn : Reg) (s : State) : Host.Outcome State Fault Refusal :=
  runInstr (fieldInstr ea f fun x => do
    let off ← ffoOffset (s.fieldOffset f) x
    modify fun t => t.setD dn (off + BitVec.ofNat 32 (firstOne x.value x.width))) s

/-- BFSET (R327). -/
def execBfset (ea : Ea) (f : BitField) (s : State) : Host.Outcome State Fault Refusal :=
  runInstr (fieldInstr ea f fun x => storeField x (fieldMask 32)) s

/-- BFINS: the flags come from the inserted value (R328). -/
def execBfins (dn : Reg) (ea : Ea) (f : BitField) (s : State) : Host.Outcome State Fault Refusal :=
  runInstr (do
    let x ← fetchField ea f
    let t ← get
    let v := t.dreg dn &&& fieldMask x.width
    set (t.setCc (fieldCc x.width v t.cc))
    storeField x v
    advance (2 + ea.words)) s

end Sys2Proof.Machine
end

