-- ==== Sys2Proof/Machine/Control.lean ====
section
/-! DEFINITION. The meanings of the program control instructions (46_program_control). -/

namespace Sys2Proof.Machine

/-! ## Branches, jumps and returns -/

/-- A branch displacement, sign-extended (R350). -/
def brValue : BrDisp → Long
  | .byte d => d.signExtend 32
  | .word d => sextWord d
  | .long d => d

/-- `pc <- (pc + 2) + disp` (R350). -/
def branchBy (d : Long) : M Unit := do
  let t ← get
  jump (t.pc + 2 + d)

/-- Bcc (R350). -/
def execBcc (c : Cond) (d : BrDisp) (s : State) : Host.Outcome State Fault Refusal :=
  runInstr (if condTrue c s.cc then branchBy (brValue d) else advance (1 + d.words)) s

/-- BRA (R351). -/
def execBra (d : BrDisp) (s : State) : Host.Outcome State Fault Refusal :=
  runInstr (branchBy (brValue d)) s

/-- BSR (R352). -/
def execBsr (d : BrDisp) (s : State) : Host.Outcome State Fault Refusal :=
  runInstr (do
    pushLong (s.npc (1 + d.words))
    branchBy (brValue d)) s

/-- DBcc (R353). -/
def execDbcc (c : Cond) (dn : Reg) (d16 : Word) (s : State) : Host.Outcome State Fault Refusal :=
  runInstr (do
    if condTrue c s.cc then advance 2
    else do
      let n := trunc .w (s.dreg dn - 1)
      modify fun t => t.putD .w dn n
      if n != 0xFFFF then branchBy (sextWord d16) else advance 2) s

/-- Scc: written without being read (R354). -/
def execScc (c : Cond) (ea : Ea) (s : State) : Host.Outcome State Fault Refusal :=
  runInstr (do
    writeEa .b 0 ea (if condTrue c s.cc then 0xFF else 0)
    advance (1 + ea.words)) s

/-- JMP (R355). -/
def execJmp (ea : Ea) (s : State) : Host.Outcome State Fault Refusal :=
  runInstr (do
    let a ← memAddr .l 0 ea
    jump a) s

/-- JSR (R356). -/
def execJsr (ea : Ea) (s : State) : Host.Outcome State Fault Refusal :=
  runInstr (do
    let a ← memAddr .l 0 ea
    pushLong (s.npc (1 + ea.words))
    jump a) s

/-- RTS (R357). -/
def execRts (s : State) : Host.Outcome State Fault Refusal :=
  runInstr (do
    let a ← popLong
    jump a) s

/-- Write the CCR from bits 4:0 of a word. -/
def setCcr (w : Word) : M Unit := modify fun t => t.setCc (CC.ofBits w)

/-- RTR (R358). -/
def execRtr (s : State) : Host.Outcome State Fault Refusal :=
  runInstr (do
    let w ← readData s.sp .w
    setCcr (w.setWidth 16)
    modify fun t => t.setSp (t.sp + 2)
    let a ← popLong
    jump a) s

/-- RTD (R359). -/
def execRtd (d16 : Word) (s : State) : Host.Outcome State Fault Refusal :=
  runInstr (do
    let a ← popLong
    modify fun t => t.setSp (t.sp + sextWord d16)
    jump a) s

/-- NOP (R360). -/
def execNop (s : State) : Host.Outcome State Fault Refusal := runInstr (advance 1) s

/-! ## Module call and return -/

/-- The opt and type fields, in bits 15:13 and 12:8 of a word, are proper: opt 000 or 100, type `$00`
or `$01` (R361, R362). -/
def moduleWordOk (w : Word) : Bool :=
  (w.extractLsb' 13 3 == 0#3 || w.extractLsb' 13 3 == 4#3) &&
    (w.extractLsb' 8 5 == 0#5 || w.extractLsb' 8 5 == 1#5)

/-- A format error for improper opt and type fields (R540, R542); type `$01` needs external hardware whose
answers the spec does not give (92 D16, log 27). -/
def checkModule (w : Word) : M Unit := do
  let t ← get
  if moduleWordOk w then
    if w.extractLsb' 8 5 == 1#5 then refuse .moduleAccessLevel else pure ()
  else raised t.formatExc

/-- Write long words upward from `a`. -/
def writeLongs (a : Long) : List Long → M Unit
  | [] => pure ()
  | v :: rest => do
    writeData a .l v
    writeLongs (a + 4) rest

/-- CALLM (R361, R363 to R365). The access level byte and the reserved word of the frame are free
(93 U28, log 27). R361 gives the frame's contents but neither the size nor the order of its writes: here
SP moves first, then six long words are written in rising order (DESIGN CHOICE, log 44). The descriptor is read
in the space of its addressing mode (R70), the module entry word in data space (DEDUCED, log 38). -/
def execCallm (argc : Byte) (ea : Ea) (s : State) : Host.Outcome State Fault Refusal :=
  runInstr (do
    let d ← memAddr .l 1 ea
    let at_ ← get
    let w0 ← readMem false (at_.eaSpace ea) d .l
    let head : Word := w0.extractLsb' 16 16
    checkModule head
    let entry ← readMem false (at_.eaSpace ea) (d + 4) .l
    let ew ← readData entry .w
    if ew.extractLsb' 0 12 != 0#12 then refuse .moduleEntryWord
    let rn := rnOf (ew.toNat / 2 ^ 12)
    let t ← get
    let free ← draw
    modify fun u => u.setSp (u.sp - 24)
    writeLongs (t.sp - 24)
      [(((head &&& 0xFF00) ||| (free.setWidth 16 &&& 0x00FF)) ++ (t.sr &&& 0x001F)),
        (argc.setWidth 16 ++ free.extractLsb' 16 16), d, t.npc (2 + ea.words), t.getR rn, t.sp]
    let data ← readMem false (at_.eaSpace ea) (d + 8) .l
    modify fun u => u.setR rn data
    jump (entry + 2)) s

/-- RTM (R362, R364), its reads and writes in the order of R362. A bus error on a read after that of the CCR
leaves the old or the new CCR, freely (R200, log 8). -/
def execRtm (rn : Rn) (s : State) : Host.Outcome State Fault Refusal :=
  runInstr (do
    let f := s.sp
    let w ← readData f .w
    checkModule (w.setWidth 16)
    let ccr ← readData (f + 2) .w
    setCcr (ccr.setWidth 16)
    let count ← readData (f + 4) .w
    let target ← readData (f + 0xC) .l
    let saved ← readData (f + 0x10) .l
    modify fun t => (t.setR rn saved).setSp (f + 24 + (count &&& 0xFF))
    jump target) s

end Sys2Proof.Machine
end

