-- ==== Sys2Proof/Machine/Coproc.lean ====
section
/-! DEFINITION. The meanings of the operation words of lines 1010 and 1111 (49_coprocessor, R537), and
what the spec gives of the coprocessor interface registers. The platform has no coprocessor (92 D5). -/

namespace Sys2Proof.Machine

/-! ## CPU space (R83, R84) -/

/-- The coprocessor interface registers (R84, R450 to R453). -/
inductive Cir where
  | response
  | control
  | save
  | restore
  | operationWord
  | command
  | condition
  | operand
  | registerSelect
  | instructionAddress
  | operandAddress
  deriving DecidableEq, Repr

/-- The offset of a register in its set (R84, R451, R452). -/
def Cir.offset : Cir → Long
  | .response => 0x00
  | .control => 0x02
  | .save => 0x04
  | .restore => 0x06
  | .operationWord => 0x08
  | .command => 0x0A
  | .condition => 0x0E
  | .operand => 0x10
  | .registerSelect => 0x14
  | .instructionAddress => 0x18
  | .operandAddress => 0x1C

/-- The width of a register in bits (R84). -/
def Cir.width : Cir → Nat
  | .operand | .instructionAddress | .operandAddress => 32
  | .response | .control | .save | .restore | .operationWord | .command | .condition | .registerSelect => 16

/-- The bits of a register that are used, the least significant ones: of the control register two, the others are
undefined and reserved (R84). -/
def Cir.usedBits : Cir → Nat
  | .control => 2
  | r => r.width

/-- The main processor reads the register (R84). -/
def Cir.reads : Cir → Bool
  | .response | .save | .restore | .operand | .registerSelect | .instructionAddress | .operandAddress => true
  | .control | .operationWord | .command | .condition => false

/-- The main processor writes the register (R84). -/
def Cir.writes : Cir → Bool
  | .control | .restore | .operationWord | .command | .condition | .operand | .instructionAddress
  | .operandAddress => true
  | .response | .save | .registerSelect => false

/-- The offsets of the two reserved words of the set (R84). -/
def reservedCirOffsets : List Long := [0x0C, 0x16]

/-- The CPU space address of a register of coprocessor `cpid` (R83). -/
def cirAddress (cpid : Reg) (r : Cir) : Long := 0x00020000 + BitVec.ofNat 32 (cpid.val * 0x2000) + r.offset

/-- The CPU space address of a breakpoint acknowledge cycle (R83). -/
def breakpointAddress (n : Reg) : Long := BitVec.ofNat 32 (n.val * 4)

/-- The CPU space address of an interrupt acknowledge cycle (R83). -/
def acknowledgeAddress (l : Fin 8) : Long := 0xFFFFFFF1 ||| BitVec.ofNat 32 (l.val * 2)

/-- The CPU space address of a register of the access level control hardware (R83). That the bits R83 does not
name are 0, as in the breakpoint and coprocessor rows, is read from those (DEDUCED, log 39). No instruction of the
model reaches it: CALLM and RTM of type `$01` are refused (92 D16). -/
def accessLevelAddress (offset : BitVec 7) : Long := 0x00010000 + offset.setWidth 32

/-- A CPU space cycle with the fields of its address (R83). -/
inductive CpuCycle where
  | breakpoint (n : Reg)
  | accessLevel (offset : BitVec 7)
  | coprocessor (cpid : Reg) (offset : BitVec 5)
  | interrupt (level : Fin 8)
  deriving DecidableEq, Repr

/-- Three bits of an address as a number. -/
def threeBits (a : Long) (low : Nat) : Fin 8 := ⟨a.toNat / 2 ^ low % 8, Nat.mod_lt _ (by decide)⟩

/-- The cycle of a CPU space address: A19:A16 give its type (R83). None is a type that R83 does not list. -/
def cpuCycle (a : Long) : Option CpuCycle :=
  match (a.extractLsb' 16 4).toNat with
  | 0 => some (.breakpoint (threeBits a 2))
  | 1 => some (.accessLevel (a.extractLsb' 0 7))
  | 2 => some (.coprocessor (threeBits a 13) (a.extractLsb' 0 5))
  | 15 => some (.interrupt (threeBits a 1))
  | _ => none

/-- The register of the first CIR access of an F-line instruction by its type field, and whether it is
a write (R434). -/
def firstCir (t : Reg) : Cir × Bool :=
  match t.val with
  | 0 => (.command, true)
  | 4 => (.save, false)
  | 5 => (.restore, true)
  | _ => (.condition, true)

/-! ## Line 1010 and line 1111 -/

/-- The exception of an emulator line: four-word frame, saved PC the operation word (R537). -/
def emulatorExc (s : State) (vector : Byte) : Exc := ⟨vector, s.pc, .four, .notDone⟩

/-- An operation word of line 1111 (R435): cpSAVE and cpRESTORE are privileged; else the first CIR access
would end in a bus error (R434), so the F-line exception is taken. No further word is consumed. -/
def fLineTrap (cpid t : Reg) : M Unit := do
  let s ← get
  if (t = 4 ∨ t = 5) ∧ s.sBit = false ∧ cpid ≠ 0 then raised s.privilegeExc
  else raised (emulatorExc s 11)

/-- cpGEN (R437, R435). -/
def execCpGen (cpid _mode _reg : Reg) (s : State) : Host.Outcome State Fault Refusal :=
  runInstr (fLineTrap cpid 0) s

/-- cpScc (R440, R435). -/
def execCpScc (cpid _mode _reg : Reg) (s : State) : Host.Outcome State Fault Refusal :=
  runInstr (fLineTrap cpid 1) s

/-- cpDBcc (R441, R435). -/
def execCpDbcc (cpid _dn : Reg) (s : State) : Host.Outcome State Fault Refusal :=
  runInstr (fLineTrap cpid 1) s

/-- cpTRAPcc (R442, R435). -/
def execCpTrapcc (cpid _opmode : Reg) (s : State) : Host.Outcome State Fault Refusal :=
  runInstr (fLineTrap cpid 1) s

/-- cpBcc (R439, R435). -/
def execCpBcc (cpid : Reg) (long : Bool) (_cond : BitVec 6) (s : State) :
    Host.Outcome State Fault Refusal :=
  runInstr (fLineTrap cpid (if long then 3 else 2)) s

/-- cpSAVE (R444, R446, R435). -/
def execCpSave (cpid _mode _reg : Reg) (s : State) : Host.Outcome State Fault Refusal :=
  runInstr (fLineTrap cpid 4) s

/-- cpRESTORE (R445, R446, R435). -/
def execCpRestore (cpid _mode _reg : Reg) (s : State) : Host.Outcome State Fault Refusal :=
  runInstr (fLineTrap cpid 5) s

/-- The CpID of a 12-bit F-line operand, bits 11:9 (R432). -/
def cpidField (v : BitVec 12) : Reg := ⟨v.toNat / 512 % 8, Nat.mod_lt _ (by decide)⟩

/-- Any other word of line 1111 (R432, R435). -/
def execFLine (v : BitVec 12) (s : State) : Host.Outcome State Fault Refusal :=
  runInstr (fLineTrap (cpidField v) (typeField v)) s

/-- A word of line 1010 (R124, R537). -/
def execALine (_v : BitVec 12) (s : State) : Host.Outcome State Fault Refusal :=
  runInstr (raised (emulatorExc s 10)) s

/-! ## The primitive the spec describes -/

/-- Store operand bytes in parts of four, then the rest (R475). `fuel` is the number of parts. -/
def storeParts (fc : FC) (a : Long) (bs : List Byte) : Nat → M Unit
  | 0 => pure ()
  | fuel + 1 => do
    liftBus (busWrite false fc a (bs.take 4))
    storeParts fc (a + 4) (bs.drop 4) fuel

/-- "Write to previously evaluated effective address" (R470 to R476) with the bytes the operand CIR
gives: to the address in the temporary register, in the data space of the current privilege level;
no register changes. With no address evaluated the address is free (R473, 93 U2). No instruction
reaches it, since no coprocessor answers (log 39). -/
def writeEvaluated (operand : List Byte) : M Unit := do
  let free ← draw
  let t ← get
  storeParts t.dataSpace (t.eaTemp.getD free) operand ((operand.length + 3) / 4)

end Sys2Proof.Machine
end

