-- ==== Sys2Proof/Machine/Logic.lean ====
section
/-! DEFINITION. The meanings of the logical instructions (42_logical). -/

namespace Sys2Proof.Machine

/-- A bitwise operation of source and destination. -/
abbrev BitOp := Long → Long → Long

/-- `<op> <ea>,Dn` (R271). -/
def logicToReg (op : BitOp) (sz : Size) (ea : Ea) (dn : Reg) : M Unit := do
  let v ← readEa sz 0 ea
  modify fun t =>
    let r := op (trunc sz (t.dreg dn)) v
    (t.putD sz dn r).setCc (logicCc sz r t.cc)
  advance (1 + ea.words)

/-- `<op> Dn,<ea>` (R271). -/
def logicToEa (op : BitOp) (sz : Size) (dn : Reg) (ea : Ea) : M Unit := do
  let t ← get
  let v := trunc sz (t.dreg dn)
  modifyEa sz 0 ea fun d cc => (op d v, logicCc sz (op d v) cc)
  advance (1 + ea.words)

/-- `<op>I #v,<ea>` (R272). -/
def logicImmediate (op : BitOp) (sz : Size) (v : Imm) (ea : Ea) : M Unit := do
  modifyEa sz v.words ea fun d cc =>
    let r := op d (immValue sz v)
    (r, logicCc sz r cc)
  advance (1 + v.words + ea.words)

/-- AND to a data register (R271). -/
def execAndToReg (sz : Size) (ea : Ea) (dn : Reg) (s : State) : Host.Outcome State Fault Refusal :=
  runInstr (logicToReg (fun d v => d &&& v) sz ea dn) s

/-- AND to memory (R271). -/
def execAndToEa (sz : Size) (dn : Reg) (ea : Ea) (s : State) : Host.Outcome State Fault Refusal :=
  runInstr (logicToEa (fun d v => d &&& v) sz dn ea) s

/-- ANDI (R272). -/
def execAndi (sz : Size) (v : Imm) (ea : Ea) (s : State) : Host.Outcome State Fault Refusal :=
  runInstr (logicImmediate (fun d v => d &&& v) sz v ea) s

/-- OR to a data register (R273). -/
def execOrToReg (sz : Size) (ea : Ea) (dn : Reg) (s : State) : Host.Outcome State Fault Refusal :=
  runInstr (logicToReg (fun d v => d ||| v) sz ea dn) s

/-- OR to memory (R273). -/
def execOrToEa (sz : Size) (dn : Reg) (ea : Ea) (s : State) : Host.Outcome State Fault Refusal :=
  runInstr (logicToEa (fun d v => d ||| v) sz dn ea) s

/-- ORI (R274). -/
def execOri (sz : Size) (v : Imm) (ea : Ea) (s : State) : Host.Outcome State Fault Refusal :=
  runInstr (logicImmediate (fun d v => d ||| v) sz v ea) s

/-- EOR (R275). -/
def execEor (sz : Size) (dn : Reg) (ea : Ea) (s : State) : Host.Outcome State Fault Refusal :=
  runInstr (logicToEa (fun d v => d ^^^ v) sz dn ea) s

/-- EORI (R276). -/
def execEori (sz : Size) (v : Imm) (ea : Ea) (s : State) : Host.Outcome State Fault Refusal :=
  runInstr (logicImmediate (fun d v => d ^^^ v) sz v ea) s

/-- NOT (R277). -/
def execNot (sz : Size) (ea : Ea) (s : State) : Host.Outcome State Fault Refusal :=
  runInstr (do
    modifyEa sz 0 ea fun d cc =>
      let r := trunc sz (~~~d)
      (r, logicCc sz r cc)
    advance (1 + ea.words)) s

/-- TST (R278). -/
def execTst (sz : Size) (ea : Ea) (s : State) : Host.Outcome State Fault Refusal :=
  runInstr (do
    testEa sz 0 ea fun v cc => logicCc sz v cc
    advance (1 + ea.words)) s

end Sys2Proof.Machine
end

