-- ==== Sys2Proof/Machine/Moves.lean ====
section
/-! DEFINITION. The meanings of the data movement instructions (40_data_movement). -/

namespace Sys2Proof.Machine

/-- MOVE (R201). -/
def execMove (sz : Size) (src dst : Ea) (s : State) : Host.Outcome State Fault Refusal :=
  runInstr (do
    let v ← readEa sz 0 src
    checkpoint do
      modify fun t => t.setCc (logicCc sz v t.cc)
      writeEa sz src.words dst v
    advance (1 + src.words + dst.words)) s

/-- MOVEA (R202). -/
def execMovea (sz : WL) (src : Ea) (an : Reg) (s : State) : Host.Outcome State Fault Refusal :=
  runInstr (do
    let v ← readEa sz.size 0 src
    modify fun t => t.setA an (sext sz.size v)
    advance (1 + src.words)) s

/-- MOVEQ (R203). -/
def execMoveq (dn : Reg) (data : Byte) (s : State) : Host.Outcome State Fault Refusal :=
  runInstr (do
    let v := data.signExtend 32
    modify fun t => (t.setD dn v).setCc (logicCc .l v t.cc)
    advance 1) s

/-- MOVEM, registers to memory (R204). -/
def execMovemToMem (sz : WL) (mask : Word) (ea : Ea) (s : State) : Host.Outcome State Fault Refusal :=
  runInstr (do
    match ea with
    | .predec n => do
      let t ← get
      let a ← storeRegsDown sz.size n (t.areg n) (maskRegsDown mask)
      modify fun u => u.setA n a
    | .ind _ | .disp _ _ | .indexed _ _ | .absW _ | .absL _ => do
      let a ← memAddr sz.size 1 ea
      storeRegs sz.size a (maskRegs mask)
    | .dreg _ | .areg _ | .postinc _ | .pcDisp _ | .pcIndexed _ | .imm _ => raiseIllegal
    advance (2 + ea.words)) s

/-- MOVEM, memory to registers (R204). -/
def execMovemToReg (sz : WL) (mask : Word) (ea : Ea) (s : State) : Host.Outcome State Fault Refusal :=
  runInstr (do
    let t ← get
    match ea with
    | .postinc n => do
      let a ← loadRegs t.dataSpace sz.size (t.areg n) (maskRegs mask)
      modify fun u => u.setA n a
    | .ind _ | .disp _ _ | .indexed _ _ | .absW _ | .absL _ | .pcDisp _ | .pcIndexed _ => do
      let a ← memAddr sz.size 1 ea
      let _ ← loadRegs (t.eaSpace ea) sz.size a (maskRegs mask)
      pure ()
    | .dreg _ | .areg _ | .predec _ | .imm _ => raiseIllegal
    advance (2 + ea.words)) s

/-- Store the low `n` bytes of `v`, high-order byte first, at every second address (R205). -/
def storeAlternate (a : Long) (v : Long) : Nat → M Unit
  | 0 => pure ()
  | n + 1 => do
    writeData a .b ((v >>> (8 * n)) &&& 0xFF)
    storeAlternate (a + 2) v n

/-- Load `n` bytes from every second address, high-order byte first (R205). -/
def loadAlternate (a : Long) (acc : Long) : Nat → M Long
  | 0 => pure acc
  | n + 1 => do
    let b ← readData a .b
    loadAlternate (a + 2) (acc <<< 8 ||| b) n

/-- MOVEP (R205). A load writes Dx after all its bytes are read, so a bus error on a later byte leaves Dx as it
was; the spec leaves open whether it holds the bytes already read (DESIGN CHOICE, log 46). -/
def execMovep (toMem : Bool) (sz : WL) (dx ay : Reg) (d16 : Word) (s : State) :
    Host.Outcome State Fault Refusal :=
  runInstr (do
    let t ← get
    let a := t.areg ay + sextWord d16
    if toMem then storeAlternate a (t.dreg dx) sz.size.bytes
    else do
      let v ← loadAlternate a 0 sz.size.bytes
      modify fun u => u.putD sz.size dx v
    advance 2) s

/-- LEA (R206). -/
def execLea (ea : Ea) (an : Reg) (s : State) : Host.Outcome State Fault Refusal :=
  runInstr (do
    let a ← memAddr .l 0 ea
    modify fun t => t.setA an a
    advance (1 + ea.words)) s

/-- PEA (R207). -/
def execPea (ea : Ea) (s : State) : Host.Outcome State Fault Refusal :=
  runInstr (do
    let a ← memAddr .l 0 ea
    pushLong a
    advance (1 + ea.words)) s

/-- The effect of LINK (R208). With A7 the spec gives no effect and asks for a refusal (93 U23, 90 C7, log 21). -/
def linkBody (an : Reg) (d : Long) : M Unit := do
  if an = 7 then refuse .linkA7
  let t ← get
  pushLong (t.areg an)
  modify fun u => (u.setA an u.sp).setSp (u.sp + d)

/-- LINK, word displacement (R208). -/
def execLinkW (an : Reg) (d16 : Word) (s : State) : Host.Outcome State Fault Refusal :=
  runInstr (do
    linkBody an (sextWord d16)
    advance 2) s

/-- LINK, long displacement (R208). -/
def execLinkL (an : Reg) (d32 : Long) (s : State) : Host.Outcome State Fault Refusal :=
  runInstr (do
    linkBody an d32
    advance 3) s

/-- UNLK (R209). With A7 the spec gives no effect and asks for a refusal (93 U23, 90 C7, log 21). -/
def execUnlk (an : Reg) (s : State) : Host.Outcome State Fault Refusal :=
  runInstr (do
    if an = 7 then refuse .unlkA7
    modify fun t => t.setSp (t.areg an)
    let v ← popLong
    modify fun t => t.setA an v
    advance 1) s

/-- EXG (R210). -/
def execExg (m : ExgMode) (rx ry : Reg) (s : State) : Host.Outcome State Fault Refusal :=
  runInstr (do
    let t ← get
    match m with
    | .dd => set ((t.setD rx (t.dreg ry)).setD ry (t.dreg rx))
    | .aa => set ((t.setA rx (t.areg ry)).setA ry (t.areg rx))
    | .da => set ((t.setD rx (t.areg ry)).setA ry (t.dreg rx))
    advance 1) s

end Sys2Proof.Machine
end

