-- ==== Sys2Proof/Machine/Multi.lean ====
section
/-! DEFINITION. The meanings of the read-modify-write instructions (48_multiprocessor). One step
makes all the accesses of one, so nothing comes between them (R423). -/

namespace Sys2Proof.Machine

/-- TAS (R420). -/
def execTas (ea : Ea) (s : State) : Host.Outcome State Fault Refusal :=
  runInstr (do
    match ea with
    | .dreg r =>
      modify fun t =>
        let v := trunc .b (t.dreg r)
        (t.putD .b r (v ||| 0x80)).setCc (logicCc .b v t.cc)
    | .ind _ | .postinc _ | .predec _ | .disp _ _ | .indexed _ _ | .absW _ | .absL _ => do
      let a ← memAddr .b 0 ea
      let t ← get
      let v ← readMem true t.dataSpace a .b
      modify fun u => u.setCc (logicCc .b v u.cc)
      writeMem true t.dataSpace a .b (v ||| 0x80)
    | .areg _ | .pcDisp _ | .pcIndexed _ | .imm _ => raiseIllegal
    advance (1 + ea.words)) s

/-- CAS (R421). -/
def execCas (sz : Size) (dc du : Reg) (ea : Ea) (s : State) : Host.Outcome State Fault Refusal :=
  runInstr (do
    let a ← memAddr sz 1 ea
    let t ← get
    let v ← readMem true t.dataSpace a sz
    let o := subAlu sz (trunc sz (t.dreg dc)) v false
    modify fun u => u.setCc (compareCc sz o u.cc)
    if o.r = 0 then writeMem true t.dataSpace a sz (t.dreg du)
    else modify fun u => u.putD sz dc v
    advance (2 + ea.words)) s

/-- CAS2 (R422). When it fails and both compare registers are one, which operand it receives is free
(93 U31, log 24). -/
def execCas2 (sz : WL) (rn1 : Rn) (du1 dc1 : Reg) (rn2 : Rn) (du2 dc2 : Reg) (s : State) :
    Host.Outcome State Fault Refusal :=
  runInstr (do
    let wd := sz.size
    let t ← get
    let v1 ← readMem true t.dataSpace (t.getR rn1) wd
    let v2 ← readMem true t.dataSpace (t.getR rn2) wd
    let o1 := subAlu wd (trunc wd (t.dreg dc1)) v1 false
    let o2 := subAlu wd (trunc wd (t.dreg dc2)) v2 false
    modify fun u => u.setCc (compareCc wd (if o1.r = 0 then o2 else o1) u.cc)
    if o1.r = 0 ∧ o2.r = 0 then do
      writeMem true t.dataSpace (t.getR rn1) wd (t.dreg du1)
      writeMem true t.dataSpace (t.getR rn2) wd (t.dreg du2)
    else if dc1 = dc2 then do
      let b ← drawBit
      modify fun u => u.putD wd dc1 (if b then v1 else v2)
    else modify fun u => (u.putD wd dc1 v1).putD wd dc2 v2
    advance 3) s

end Sys2Proof.Machine
end

