-- ==== Sys2Proof/Machine/Shift.lean ====
section
/-! DEFINITION. The meanings of the shift and rotate instructions (43_shift_rotate). -/

namespace Sys2Proof.Machine

/-- A shift by a count of an operand, with X. -/
abbrev ShiftOp := Size → Nat → Long → Bool → Shifted

/-- The count: the immediate, 000 meaning 8, or a data register modulo 64 (R290). -/
def State.shiftCount (s : State) : ShiftCount → Nat
  | .imm c => if c = 0 then 8 else c.val
  | .reg r => (s.dreg r).toNat % 64

/-- The register form (R290). -/
def shiftReg (op : ShiftOp) (sz : Size) (c : ShiftCount) (dn : Reg) : M Unit := do
  modify fun t =>
    let o := op sz (t.shiftCount c) (trunc sz (t.dreg dn)) t.cc.x
    (t.putD sz dn o.r).setCc (shiftCc sz o)
  advance 1

/-- The memory form: the word at the address, by one place (R290, R299). -/
def shiftMem (op : ShiftOp) (ea : Ea) : M Unit := do
  modifyEa .w 0 ea fun d cc =>
    let o := op .w 1 d cc.x
    (o.r, shiftCc .w o)
  advance (1 + ea.words)

/-- ASL, register form (R291). -/
def execAslReg (sz : Size) (c : ShiftCount) (dn : Reg) (s : State) :
    Host.Outcome State Fault Refusal :=
  runInstr (shiftReg aslOut sz c dn) s

/-- ASL, memory form (R291, R299). -/
def execAslMem (ea : Ea) (s : State) : Host.Outcome State Fault Refusal :=
  runInstr (shiftMem aslOut ea) s

/-- ASR, register form (R292). -/
def execAsrReg (sz : Size) (c : ShiftCount) (dn : Reg) (s : State) :
    Host.Outcome State Fault Refusal :=
  runInstr (shiftReg asrOut sz c dn) s

/-- ASR, memory form (R292, R299). -/
def execAsrMem (ea : Ea) (s : State) : Host.Outcome State Fault Refusal :=
  runInstr (shiftMem asrOut ea) s

/-- LSL, register form (R293). -/
def execLslReg (sz : Size) (c : ShiftCount) (dn : Reg) (s : State) :
    Host.Outcome State Fault Refusal :=
  runInstr (shiftReg lslOut sz c dn) s

/-- LSL, memory form (R293, R299). -/
def execLslMem (ea : Ea) (s : State) : Host.Outcome State Fault Refusal :=
  runInstr (shiftMem lslOut ea) s

/-- LSR, register form (R294). -/
def execLsrReg (sz : Size) (c : ShiftCount) (dn : Reg) (s : State) :
    Host.Outcome State Fault Refusal :=
  runInstr (shiftReg lsrOut sz c dn) s

/-- LSR, memory form (R294, R299). -/
def execLsrMem (ea : Ea) (s : State) : Host.Outcome State Fault Refusal :=
  runInstr (shiftMem lsrOut ea) s

/-- ROL, register form (R295). -/
def execRolReg (sz : Size) (c : ShiftCount) (dn : Reg) (s : State) :
    Host.Outcome State Fault Refusal :=
  runInstr (shiftReg rolOut sz c dn) s

/-- ROL, memory form (R295, R299). -/
def execRolMem (ea : Ea) (s : State) : Host.Outcome State Fault Refusal :=
  runInstr (shiftMem rolOut ea) s

/-- ROR, register form (R296). -/
def execRorReg (sz : Size) (c : ShiftCount) (dn : Reg) (s : State) :
    Host.Outcome State Fault Refusal :=
  runInstr (shiftReg rorOut sz c dn) s

/-- ROR, memory form (R296, R299). -/
def execRorMem (ea : Ea) (s : State) : Host.Outcome State Fault Refusal :=
  runInstr (shiftMem rorOut ea) s

/-- ROXL, register form (R297). -/
def execRoxlReg (sz : Size) (c : ShiftCount) (dn : Reg) (s : State) :
    Host.Outcome State Fault Refusal :=
  runInstr (shiftReg roxlOut sz c dn) s

/-- ROXL, memory form (R297, R299). -/
def execRoxlMem (ea : Ea) (s : State) : Host.Outcome State Fault Refusal :=
  runInstr (shiftMem roxlOut ea) s

/-- ROXR, register form (R298). -/
def execRoxrReg (sz : Size) (c : ShiftCount) (dn : Reg) (s : State) :
    Host.Outcome State Fault Refusal :=
  runInstr (shiftReg roxrOut sz c dn) s

/-- ROXR, memory form (R298, R299). -/
def execRoxrMem (ea : Ea) (s : State) : Host.Outcome State Fault Refusal :=
  runInstr (shiftMem roxrOut ea) s

/-- SWAP (R300). -/
def execSwap (dn : Reg) (s : State) : Host.Outcome State Fault Refusal :=
  runInstr (do
    modify fun t =>
      let v := (t.dreg dn).extractLsb' 0 16 ++ (t.dreg dn).extractLsb' 16 16
      (t.setD dn v).setCc (logicCc .l v t.cc)
    advance 1) s

end Sys2Proof.Machine
end

