-- ==== Sys2Proof/Machine/Dispatch.lean ====
section
/-! DEFINITION. The meaning of each instruction, one arm a constructor. -/

namespace Sys2Proof.Machine

def exec (i : Instr) (s : State) : Host.Outcome State Fault Refusal :=
  match i with
  | .move sz src dst => Sys2Proof.Machine.execMove sz src dst s
  | .movea sz src an => Sys2Proof.Machine.execMovea sz src an s
  | .moveq dn data => Sys2Proof.Machine.execMoveq dn data s
  | .movemToMem sz mask ea => Sys2Proof.Machine.execMovemToMem sz mask ea s
  | .movemToReg sz mask ea => Sys2Proof.Machine.execMovemToReg sz mask ea s
  | .movep toMem sz dx ay d16 => Sys2Proof.Machine.execMovep toMem sz dx ay d16 s
  | .lea ea an => Sys2Proof.Machine.execLea ea an s
  | .pea ea => Sys2Proof.Machine.execPea ea s
  | .linkW an d16 => Sys2Proof.Machine.execLinkW an d16 s
  | .linkL an d32 => Sys2Proof.Machine.execLinkL an d32 s
  | .unlk an => Sys2Proof.Machine.execUnlk an s
  | .exg m rx ry => Sys2Proof.Machine.execExg m rx ry s
  | .addToReg sz ea dn => Sys2Proof.Machine.execAddToReg sz ea dn s
  | .addToEa sz dn ea => Sys2Proof.Machine.execAddToEa sz dn ea s
  | .adda sz ea an => Sys2Proof.Machine.execAdda sz ea an s
  | .addi sz v ea => Sys2Proof.Machine.execAddi sz v ea s
  | .addq sz data ea => Sys2Proof.Machine.execAddq sz data ea s
  | .addx sz mem ry rx => Sys2Proof.Machine.execAddx sz mem ry rx s
  | .clr sz ea => Sys2Proof.Machine.execClr sz ea s
  | .cmp sz ea dn => Sys2Proof.Machine.execCmp sz ea dn s
  | .cmpa sz ea an => Sys2Proof.Machine.execCmpa sz ea an s
  | .cmpi sz v ea => Sys2Proof.Machine.execCmpi sz v ea s
  | .cmpm sz ay ax => Sys2Proof.Machine.execCmpm sz ay ax s
  | .cmp2 sz ea rn => Sys2Proof.Machine.execCmp2 sz ea rn s
  | .divuW ea dn => Sys2Proof.Machine.execDivuW ea dn s
  | .divsW ea dn => Sys2Proof.Machine.execDivsW ea dn s
  | .divL ea dq signed wide dr => Sys2Proof.Machine.execDivL ea dq signed wide dr s
  | .extW dn => Sys2Proof.Machine.execExtW dn s
  | .extL dn => Sys2Proof.Machine.execExtL dn s
  | .extbL dn => Sys2Proof.Machine.execExtbL dn s
  | .muluW ea dn => Sys2Proof.Machine.execMuluW ea dn s
  | .mulsW ea dn => Sys2Proof.Machine.execMulsW ea dn s
  | .mulL ea dl signed wide dh => Sys2Proof.Machine.execMulL ea dl signed wide dh s
  | .neg sz ea => Sys2Proof.Machine.execNeg sz ea s
  | .negx sz ea => Sys2Proof.Machine.execNegx sz ea s
  | .subToReg sz ea dn => Sys2Proof.Machine.execSubToReg sz ea dn s
  | .subToEa sz dn ea => Sys2Proof.Machine.execSubToEa sz dn ea s
  | .suba sz ea an => Sys2Proof.Machine.execSuba sz ea an s
  | .subi sz v ea => Sys2Proof.Machine.execSubi sz v ea s
  | .subq sz data ea => Sys2Proof.Machine.execSubq sz data ea s
  | .subx sz mem ry rx => Sys2Proof.Machine.execSubx sz mem ry rx s
  | .andToReg sz ea dn => Sys2Proof.Machine.execAndToReg sz ea dn s
  | .andToEa sz dn ea => Sys2Proof.Machine.execAndToEa sz dn ea s
  | .andi sz v ea => Sys2Proof.Machine.execAndi sz v ea s
  | .orToReg sz ea dn => Sys2Proof.Machine.execOrToReg sz ea dn s
  | .orToEa sz dn ea => Sys2Proof.Machine.execOrToEa sz dn ea s
  | .ori sz v ea => Sys2Proof.Machine.execOri sz v ea s
  | .eor sz dn ea => Sys2Proof.Machine.execEor sz dn ea s
  | .eori sz v ea => Sys2Proof.Machine.execEori sz v ea s
  | .not sz ea => Sys2Proof.Machine.execNot sz ea s
  | .tst sz ea => Sys2Proof.Machine.execTst sz ea s
  | .aslReg sz c dn => Sys2Proof.Machine.execAslReg sz c dn s
  | .aslMem ea => Sys2Proof.Machine.execAslMem ea s
  | .asrReg sz c dn => Sys2Proof.Machine.execAsrReg sz c dn s
  | .asrMem ea => Sys2Proof.Machine.execAsrMem ea s
  | .lslReg sz c dn => Sys2Proof.Machine.execLslReg sz c dn s
  | .lslMem ea => Sys2Proof.Machine.execLslMem ea s
  | .lsrReg sz c dn => Sys2Proof.Machine.execLsrReg sz c dn s
  | .lsrMem ea => Sys2Proof.Machine.execLsrMem ea s
  | .rolReg sz c dn => Sys2Proof.Machine.execRolReg sz c dn s
  | .rolMem ea => Sys2Proof.Machine.execRolMem ea s
  | .rorReg sz c dn => Sys2Proof.Machine.execRorReg sz c dn s
  | .rorMem ea => Sys2Proof.Machine.execRorMem ea s
  | .roxlReg sz c dn => Sys2Proof.Machine.execRoxlReg sz c dn s
  | .roxlMem ea => Sys2Proof.Machine.execRoxlMem ea s
  | .roxrReg sz c dn => Sys2Proof.Machine.execRoxrReg sz c dn s
  | .roxrMem ea => Sys2Proof.Machine.execRoxrMem ea s
  | .swap dn => Sys2Proof.Machine.execSwap dn s
  | .btstDyn dn ea => Sys2Proof.Machine.execBtstDyn dn ea s
  | .btstImm n ea => Sys2Proof.Machine.execBtstImm n ea s
  | .bchgDyn dn ea => Sys2Proof.Machine.execBchgDyn dn ea s
  | .bchgImm n ea => Sys2Proof.Machine.execBchgImm n ea s
  | .bclrDyn dn ea => Sys2Proof.Machine.execBclrDyn dn ea s
  | .bclrImm n ea => Sys2Proof.Machine.execBclrImm n ea s
  | .bsetDyn dn ea => Sys2Proof.Machine.execBsetDyn dn ea s
  | .bsetImm n ea => Sys2Proof.Machine.execBsetImm n ea s
  | .bftst ea f => Sys2Proof.Machine.execBftst ea f s
  | .bfextu ea f dn => Sys2Proof.Machine.execBfextu ea f dn s
  | .bfchg ea f => Sys2Proof.Machine.execBfchg ea f s
  | .bfexts ea f dn => Sys2Proof.Machine.execBfexts ea f dn s
  | .bfclr ea f => Sys2Proof.Machine.execBfclr ea f s
  | .bfffo ea f dn => Sys2Proof.Machine.execBfffo ea f dn s
  | .bfset ea f => Sys2Proof.Machine.execBfset ea f s
  | .bfins dn ea f => Sys2Proof.Machine.execBfins dn ea f s
  | .abcd mem ry rx => Sys2Proof.Machine.execAbcd mem ry rx s
  | .sbcd mem ry rx => Sys2Proof.Machine.execSbcd mem ry rx s
  | .nbcd ea => Sys2Proof.Machine.execNbcd ea s
  | .pack mem ry rx adj => Sys2Proof.Machine.execPack mem ry rx adj s
  | .unpk mem ry rx adj => Sys2Proof.Machine.execUnpk mem ry rx adj s
  | .bcc c d => Sys2Proof.Machine.execBcc c d s
  | .bra d => Sys2Proof.Machine.execBra d s
  | .bsr d => Sys2Proof.Machine.execBsr d s
  | .dbcc c dn d16 => Sys2Proof.Machine.execDbcc c dn d16 s
  | .scc c ea => Sys2Proof.Machine.execScc c ea s
  | .jmp ea => Sys2Proof.Machine.execJmp ea s
  | .jsr ea => Sys2Proof.Machine.execJsr ea s
  | .rts => Sys2Proof.Machine.execRts s
  | .rtr => Sys2Proof.Machine.execRtr s
  | .rtd d16 => Sys2Proof.Machine.execRtd d16 s
  | .nop => Sys2Proof.Machine.execNop s
  | .callm argc ea => Sys2Proof.Machine.execCallm argc ea s
  | .rtm rn => Sys2Proof.Machine.execRtm rn s
  | .trap v => Sys2Proof.Machine.execTrap v s
  | .trapcc c op => Sys2Proof.Machine.execTrapcc c op s
  | .trapv => Sys2Proof.Machine.execTrapv s
  | .chk sz ea dn => Sys2Proof.Machine.execChk sz ea dn s
  | .chk2 sz ea rn => Sys2Proof.Machine.execChk2 sz ea rn s
  | .illegal => Sys2Proof.Machine.execIllegal s
  | .bkpt n => Sys2Proof.Machine.execBkpt n s
  | .stop v => Sys2Proof.Machine.execStop v s
  | .rte => Sys2Proof.Machine.execRte s
  | .reset => Sys2Proof.Machine.execReset s
  | .moveFromSr ea => Sys2Proof.Machine.execMoveFromSr ea s
  | .moveToSr ea => Sys2Proof.Machine.execMoveToSr ea s
  | .andiToSr v => Sys2Proof.Machine.execAndiToSr v s
  | .eoriToSr v => Sys2Proof.Machine.execEoriToSr v s
  | .oriToSr v => Sys2Proof.Machine.execOriToSr v s
  | .moveUsp toReg an => Sys2Proof.Machine.execMoveUsp toReg an s
  | .movec toCtl rn code => Sys2Proof.Machine.execMovec toCtl rn code s
  | .moves sz toMem rn ea => Sys2Proof.Machine.execMoves sz toMem rn ea s
  | .moveFromCcr ea => Sys2Proof.Machine.execMoveFromCcr ea s
  | .moveToCcr ea => Sys2Proof.Machine.execMoveToCcr ea s
  | .andiToCcr v => Sys2Proof.Machine.execAndiToCcr v s
  | .eoriToCcr v => Sys2Proof.Machine.execEoriToCcr v s
  | .oriToCcr v => Sys2Proof.Machine.execOriToCcr v s
  | .tas ea => Sys2Proof.Machine.execTas ea s
  | .cas sz dc du ea => Sys2Proof.Machine.execCas sz dc du ea s
  | .cas2 sz rn1 du1 dc1 rn2 du2 dc2 => Sys2Proof.Machine.execCas2 sz rn1 du1 dc1 rn2 du2 dc2 s
  | .cpGen cpid mode reg => Sys2Proof.Machine.execCpGen cpid mode reg s
  | .cpScc cpid mode reg => Sys2Proof.Machine.execCpScc cpid mode reg s
  | .cpDbcc cpid dn => Sys2Proof.Machine.execCpDbcc cpid dn s
  | .cpTrapcc cpid opmode => Sys2Proof.Machine.execCpTrapcc cpid opmode s
  | .cpBcc cpid long cond => Sys2Proof.Machine.execCpBcc cpid long cond s
  | .cpSave cpid mode reg => Sys2Proof.Machine.execCpSave cpid mode reg s
  | .cpRestore cpid mode reg => Sys2Proof.Machine.execCpRestore cpid mode reg s
  | .fLine any => Sys2Proof.Machine.execFLine any s
  | .aLine any => Sys2Proof.Machine.execALine any s

end Sys2Proof.Machine
end

