-- ==== Sys2Proof/Machine/Step.lean ====
section
/-! DEFINITION. The step function: one instruction with the trace at its end, or one exception
processing sequence at a boundary (R571, 92 D20). -/

namespace Sys2Proof.Machine

/-- A bus error on an instruction word (R530): the short frame when it is the operation word, at an
instruction boundary, else the long frame (log 9). It is an ordinary bus error for the first word of a bus
error or address error handler and after reset too (DESIGN CHOICE, log 47). `k` words were read. A cycle that never ends is waited
for (R89). -/
def State.fetchError (s : State) (k : Nat) : State :=
  let a := s.pc + BitVec.ofNat 32 (2 * k)
  if s.fetchWord a = .fault true then s.hang
  else s.busError (k != 0) ⟨true, s.progSpace, a, 2, false, false, [], false⟩

/-- An operation word that needs privilege the processor does not have (R390): the violation is taken
whatever follows the word (log 28). -/
def State.violates (s : State) (ws : List Word) : Bool :=
  !s.sBit && (ws.head?.map isPrivilegedWord).getD false

/-- What follows when the words at the PC are no instruction (R123, R530, R536, R538). -/
def State.undecoded (s : State) (ws : List Word) (why : Stop) : Host.Outcome State Fault Refusal :=
  if s.violates ws then .next (s.takeException s.privilegeExc)
  else
    match why with
    | .illegal => .next (s.takeException s.illegalExc)
    | .short => .next (s.fetchError ws.length)
    | .reserved .fullExtension => .refused .reservedFullExtension
    | .reserved .extensionBits => .refused .reservedExtensionBits

/-- Fetch, decode and execute one instruction from an even PC. All its words are fetched before any operand
access, so a bus error on a later word comes before them; R530 allows the accesses and updates of the
instruction to come first (DESIGN CHOICE, log 43). The words of an instruction that decodes fill the cache also
where it takes a privilege violation or another exception instead of its effect, and words that do not decode
fill nothing (DESIGN CHOICE, log 17). -/
def State.runNext (s : State) : Host.Outcome State Fault Refusal :=
  let ws := s.fetchWords s.pc maxWords
  match decode ws with
  | .instr i n =>
    match exec i (s.fillWords s.pc n) with
    | .next t => .next (afterInstr s t)
    | .fault f => .fault f
    | .refused r => .refused r
  | .none why =>
    match s.undecoded ws why with
    | .next t => .next (afterInstr s t)
    | .fault f => .fault f
    | .refused r => .refused r

/-- One step: RESET if it is asserted (R600); an address error if the PC is odd (R531, R570); an
interrupt if one is recognised (R561, R571, R566); else the next instruction, unless the processor is
stopped (R582, 92 D14), halted (R581) or waiting for a cycle that never ends (R89). Every step begins at a
boundary: a further interrupt may be taken right after the processing of another exception, before its handler's
first instruction (DESIGN CHOICE, log 50). -/
def step (s : State) : Host.Outcome State Fault Refusal :=
  let x := s.input
  let t := s.sample
  if x.reset then .next t.resetException
  else
    match s.run with
    | .halted => .fault .halted
    | .hung => .fault .unterminated
    | .stopped => .next (if t.recognised then t.interrupt x.ack else t)
    | .normal =>
      if t.pc.getLsbD 0 then .next t.addressError
      else if t.recognised then .next (t.interrupt x.ack)
      else t.runNext

/-- The state whose next step runs the given instruction words: they are stored at the PC, in the program
space, and neither the pipe nor the cache holds anything older (log 3). -/
def State.withFetchWord (s : State) (nbits w : Nat) : State :=
  { s with
    mem := s.mem.store (s.bank s.progSpace) s.pc ((tableWords nbits w).flatMap wordBytes)
    pipe := []
    cache := Vector.replicate 64 none }

end Sys2Proof.Machine
end

