-- ==== Sys2Proof/Safety.lean ====
section
/-! DEFINITION. What counts as a safe state and a safe run, and the terms the claims are stated in. -/

namespace Sys2Proof.Machine

/-! ## Safe states and runs -/

/-- The bits the machine does not implement read as 0 and memory is in canonical form (R26, R32, R37). -/
def State.Inv (s : State) : Prop :=
  s.mem.wf = true ∧ s.sr &&& ~~~srImplemented = 0 ∧ s.srCopy &&& ~~~srImplemented = 0 ∧
    s.cacr &&& ~~~3#32 = 0

/-- `k` steps from `s` end neither in a fault nor in a refusal. -/
def runsFor (k : Nat) (s : State) : Prop := ∃ t, Sys2Proof.core.run k s = .next t

/-- Nothing comes before the next instruction at this boundary: RESET is not asserted, the processor
runs, the PC is even and no interrupt is recognised. -/
def State.ready (s : State) : Prop :=
  s.input.reset = false ∧ s.run = .normal ∧ s.pc.getLsbD 0 = false ∧ s.sample.recognised = false

/-! ## Where an instruction leaves the machine -/

/-- A branch displacement as a signed number. -/
def distance : BrDisp → Int
  | .byte d => d.toInt
  | .word d => d.toInt
  | .long d => d.toInt

/-- `t` with the PC at `pc`, the next instruction following in memory. -/
def State.goOn (t : State) (pc : Long) : State := { t with pc := pc, ending := .sequential }

/-- `t` with the PC at `pc`, the flow changed. -/
def State.flowTo (t : State) (pc : Long) : State := { t with pc := pc, ending := .flow }

/-- One access reads `n` bytes at `a` from memory, not from a device. -/
def State.readable (s : State) (fc : FC) (a : Long) (n : Nat) : Prop :=
  ((s.firstFault fc false a n).isNone && !s.onDevice fc a n) = true

/-- One access writes `n` bytes at `a`. -/
def State.writable (s : State) (fc : FC) (a : Long) (n : Nat) : Prop := s.firstFault fc true a n = none

/-- `n` bytes at `a` are RAM. -/
def State.inRam (s : State) (fc : FC) (a : Long) (n : Nat) : Prop := (List.range n).all (s.lands fc a) = true

/-- The long word at an address, high-order byte first. -/
def State.longAt (s : State) (fc : FC) (a : Long) : Long := bytesLong (s.load fc a 4)

/-- The word at an address, high-order byte first. -/
def State.wordAt (s : State) (fc : FC) (a : Long) : Long := bytesLong (s.load fc a 2)

/-! ## Values and flags, by exact arithmetic -/

/-- An operand as a signed number. -/
def signedOf (sz : Size) (v : Long) : Int := (sext sz v).toInt

/-- The result of an exact computation: `u` as unsigned and `i` as signed numbers; the result wraps, C
tells that `u` does not fit, V that `i` does not. -/
def exactAlu (sz : Size) (u i : Int) : Alu where
  r := BitVec.ofInt 32 (u % 2 ^ sz.bits)
  v := decide (i < -2 ^ (sz.bits - 1) ∨ 2 ^ (sz.bits - 1) ≤ i)
  c := decide (u < 0 ∨ 2 ^ sz.bits ≤ u)

/-- `d + v + x` exactly. -/
def exactAdd (sz : Size) (v d : Long) (x : Bool) : Alu :=
  exactAlu sz (d.toNat + v.toNat + x.toNat) (signedOf sz d + signedOf sz v + x.toNat)

/-- `d - v - x` exactly. -/
def exactSub (sz : Size) (v d : Long) (x : Bool) : Alu :=
  exactAlu sz (d.toNat - v.toNat - x.toNat) (signedOf sz d - signedOf sz v - x.toNat)

/-- N and Z of a result, V and C clear, X kept. -/
def valueCc (sz : Size) (r : Long) (old : CC) : CC :=
  ⟨old.x, decide (signedOf sz r < 0), decide (r = 0), false, false⟩

/-- All flags of an addition or subtraction; X is C. -/
def sumCc (sz : Size) (o : Alu) : CC := ⟨o.c, decide (signedOf sz o.r < 0), decide (o.r = 0), o.v, o.c⟩

/-- The flags of a comparison; X kept. -/
def cmpCc (sz : Size) (o : Alu) (old : CC) : CC := { sumCc sz o with x := old.x }

/-- The flags of the extended forms: Z is only cleared. -/
def stickyCc (sz : Size) (o : Alu) (old : CC) : CC := { sumCc sz o with z := old.z && decide (o.r = 0) }

/-- The integer an operand stands for. -/
def numberOf (signed : Bool) (sz : Size) (v : Long) : Int := if signed then signedOf sz v else v.toNat

/-- `q` and `r` are quotient and remainder: the remainder is smaller than the divisor and is 0 or has
the sign of the dividend (R230). -/
def Divides (n d q r : Int) : Prop := n = q * d + r ∧ |r| < |d| ∧ (r = 0 ∨ 0 < r * n)

/-- An integer fits `bits` bits. -/
def inRange (signed : Bool) (bits : Nat) (i : Int) : Prop :=
  if signed then -2 ^ (bits - 1) ≤ i ∧ i < 2 ^ (bits - 1) else 0 ≤ i ∧ i < 2 ^ bits

/-! ## Shifts and rotates, by arithmetic on the operand as a number -/

/-- A shifted value; X is C, but unchanged for a count of 0 (R291). -/
def exactShift (n : Nat) (r : Nat) (out ovf x : Bool) : Shifted :=
  ⟨BitVec.ofNat 32 r, if n = 0 then x else out, decide (n ≠ 0) && ovf, decide (n ≠ 0) && out⟩

/-- Left shift: the product by a power of two wraps; the last bit shifted out is C; V tells, for the
arithmetic shift, that the signed product does not fit. -/
def exactLeft (arith : Bool) (sz : Size) (n : Nat) (d : Long) (x : Bool) : Shifted :=
  exactShift n (d.toNat * 2 ^ n % 2 ^ sz.bits) (decide (d.toNat * 2 ^ n / 2 ^ sz.bits % 2 = 1))
    (arith && decide (signedOf sz d * 2 ^ n < -2 ^ (sz.bits - 1) ∨ 2 ^ (sz.bits - 1) ≤ signedOf sz d * 2 ^ n)) x

/-- Right shift: the floor of the quotient by a power of two, of the signed number for the arithmetic shift. -/
def exactRight (arith : Bool) (sz : Size) (n : Nat) (d : Long) (x : Bool) : Shifted :=
  let i : Int := if arith then signedOf sz d else d.toNat
  exactShift n (i / 2 ^ n % 2 ^ sz.bits).toNat (decide (i / 2 ^ (n - 1) % 2 = 1)) false x

/-- A number of `w` bits rotated left by `m`. -/
def rotatedLeft (w m v : Nat) : Nat := v * 2 ^ m % 2 ^ w + v / 2 ^ (w - m)

/-- A number of `w` bits rotated right by `m`. -/
def rotatedRight (w m v : Nat) : Nat := v / 2 ^ m + v % 2 ^ m * 2 ^ (w - m)

/-- Rotate: C is the last bit rotated around, X is unchanged (R295, R296). -/
def exactRotate (left : Bool) (sz : Size) (n : Nat) (d : Long) (x : Bool) : Shifted :=
  let r := if left then rotatedLeft sz.bits (n % sz.bits) d.toNat
    else rotatedRight sz.bits (n % sz.bits) d.toNat
  ⟨BitVec.ofNat 32 r, x, false,
    decide (n ≠ 0) && decide ((if left then r % 2 else r / 2 ^ (sz.bits - 1)) = 1)⟩

/-- Rotate through extend: `W` + 1 bits, X at the top; C is the new X (R297, R298). -/
def exactRotateX (left : Bool) (sz : Size) (n : Nat) (d : Long) (x : Bool) : Shifted :=
  let e := x.toNat * 2 ^ sz.bits + d.toNat
  let m := n % (sz.bits + 1)
  let r := if left then rotatedLeft (sz.bits + 1) m e else rotatedRight (sz.bits + 1) m e
  ⟨BitVec.ofNat 32 (r % 2 ^ sz.bits), decide (2 ^ sz.bits ≤ r), false, decide (2 ^ sz.bits ≤ r)⟩

/-- The flags of a shift or rotate (R290). -/
def shiftedCc (sz : Size) (o : Shifted) : CC :=
  ⟨o.x, decide (signedOf sz o.r < 0), decide (o.r = 0), o.v, o.c⟩

/-! ## Bit fields -/

/-- Bit `k` of a byte string, bit 0 being the most significant bit of the first byte (R320). -/
def stringBit (bs : List Byte) (k : Nat) : Bool := (bs.getD (k / 8) 0).getLsbD (7 - k % 8)

/-- The integer of a field of `w` bits read as a signed number. -/
def fieldInt (w : Nat) (x : Long) : Int := if x.getLsbD (w - 1) then x.toNat - 2 ^ w else x.toNat

/-- `x` is the field that `ea` and `f` name, and `put v` is `s` with the field replaced by `v` (R320). In a
register the offset counts modulo 32; in memory the field starts at bit `offset` of the string at the address, the byte
being the floor of the offset by 8; a fifth byte is an access of its own. With `write` the field can be written
as well as read. -/
def FieldAt (write : Bool) (ea : Ea) (f : BitField) (s : State) (x : Long) (put : Long → State) : Prop :=
  let w := s.fieldWidth f
  (∃ r, ea = .dreg r ∧ x = regField32 (s.dreg r) (s.fieldOffset f % 32).toNat w ∧
    ∀ v, put v = s.setD r (putRegField32 (s.dreg r) (s.fieldOffset f % 32).toNat w v)) ∨
  (∃ base, memAddr .b 1 ea s = .ok base s ∧
    let a := base + BitVec.ofInt 32 (s.fieldOffset f / 8)
    let o := (s.fieldOffset f % 8).toNat
    let n := (o + w + 7) / 8
    s.readable (s.eaSpace ea) a (min n 4) ∧ s.readable (s.eaSpace ea) (a + 4) (n - 4) ∧
    (write = true → s.writable (s.eaSpace ea) a (min n 4) ∧ s.writable (s.eaSpace ea) (a + 4) (n - 4)) ∧
    x = memField (s.load (s.eaSpace ea) a n) o w ∧
    ∀ v, put v = s.store (s.eaSpace ea) a (putMemField (s.load (s.eaSpace ea) a n) o w v))

/-! ## Binary-coded decimal -/

/-- Both digits of a byte are 0 to 9. -/
def isDecimal (v : Long) : Bool := decide (v.toNat % 16 ≤ 9 ∧ v.toNat / 16 % 16 ≤ 9)

/-- The number two digits stand for. -/
def decimalOf (v : Long) : Int := v.toNat / 16 % 16 * 10 + v.toNat % 16

/-- The byte of a number modulo 100, as two digits. -/
def digitsOf (i : Int) : Long := BitVec.ofInt 32 (i % 100 / 10 * 16 + i % 10)

/-- What the spec leaves open of a decimal operation: N, V, and for improper digits the byte, C and X (R340). -/
structure DecimalFree where
  n : Bool
  v : Bool
  byte : Byte
  carry : Bool
  x : Bool

/-- The result of a decimal operation that would give `i`, and its flags: X and C tell that `i` is not 0 to 99,
Z is only cleared (R340). -/
def DecimalFree.result (o : DecimalFree) (proper : Bool) (i : Int) (cc : CC) : Long × CC :=
  let r : Long := if proper then digitsOf i else o.byte.setWidth 32
  let c := if proper then decide (i < 0 ∨ 100 ≤ i) else o.carry
  (r, ⟨if proper then c else o.x, o.n, cc.z && decide (r = 0), o.v, c⟩)

/-! ## Operands changed in place -/

/-- A memory alterable mode. -/
def inMemory : Ea → Bool
  | .ind _ | .postinc _ | .predec _ | .disp _ _ | .indexed _ _ | .absW _ | .absL _ => true
  | .dreg _ | .areg _ | .pcDisp _ | .pcIndexed _ | .imm _ => false

/-- `u` is `s` with the operand at `ea` replaced and the flags set as `f` says, the address being computed once. -/
def Changes (sz : Size) (own : Nat) (ea : Ea) (f : Long → CC → Long × CC) (s u : State) : Prop :=
  (∃ r, ea = .dreg r ∧
    u = (s.putD sz r (f (trunc sz (s.dreg r)) s.cc).1).setCc (f (trunc sz (s.dreg r)) s.cc).2) ∨
  (inMemory ea = true ∧ ∃ a t, memAddr sz own ea s = .ok a t ∧
    t.readable t.dataSpace a sz.bytes ∧ t.writable t.dataSpace a sz.bytes ∧
    u = (t.setCc (f (bytesLong (t.load t.dataSpace a sz.bytes)) t.cc).2).store t.dataSpace a
      (longBytes (f (bytesLong (t.load t.dataSpace a sz.bytes)) t.cc).1 sz.bytes))

/-- The register a mode steps. -/
def steppedBy : Ea → List Rn
  | .postinc r | .predec r => [⟨true, r⟩]
  | .dreg _ | .areg _ | .ind _ | .disp _ _ | .indexed _ _ | .absW _ | .absL _ | .pcDisp _
  | .pcIndexed _ | .imm _ => []

/-- The data register an operand is. -/
def dataRegOf : Ea → List Rn
  | .dreg r => [⟨false, r⟩]
  | .areg _ | .ind _ | .postinc _ | .predec _ | .disp _ _ | .indexed _ _ | .absW _ | .absL _
  | .pcDisp _ | .pcIndexed _ | .imm _ => []

/-! ## Frames -/

/-- The stack pointers that are not active. -/
def State.otherStacks (s : State) : List Long :=
  if s.sBit then (if s.mBit then [s.usp, s.isp] else [s.usp, s.msp]) else [s.isp, s.msp]

/-- Every special register, the exception registers, the cache and what external hardware presents are
as before, and so are the SR but for the condition codes, the run state and the platform. -/
def sameSystem (s t : State) : Prop :=
  t.vbr = s.vbr ∧ t.sfc = s.sfc ∧ t.dfc = s.dfc ∧ t.cacr = s.cacr ∧ t.caar = s.caar ∧
  t.cache = s.cache ∧ t.pipe = s.pipe ∧ t.run = s.run ∧ t.srCopy = s.srCopy ∧ t.owed = s.owed ∧
  t.eaTemp = s.eaTemp ∧ t.scanPc = s.scanPc ∧ t.ipl = s.ipl ∧ t.nmi = s.nmi ∧
  t.inputs = s.inputs ∧ t.platform = s.platform ∧ t.sr &&& 0xFFE0 = s.sr &&& 0xFFE0

/-- Every register but those of `rs` is as before. -/
def sameRegs (rs : List Rn) (s t : State) : Prop :=
  (∀ rn, rn ∉ rs → t.getR rn = s.getR rn) ∧ t.otherStacks = s.otherStacks

/-- Every byte of memory is as before. -/
def sameBytes (s t : State) : Prop := ∀ (fc : FC) (b : Long), t.byte fc b = s.byte fc b

/-- Every byte but the `n` at `a` in the memory that answers `fc` is as before: those at other addresses, and
those at the same addresses in a space that another memory answers. -/
def sameBytesBut (fc : FC) (a : Long) (n : Nat) (s t : State) : Prop :=
  ∀ (fc' : FC) (b : Long), s.bank fc' ≠ s.bank fc ∨ n ≤ (b - a).toNat → t.byte fc' b = s.byte fc' b

/-- The instructions that read one operand and write registers only: the operand, and the registers. -/
def readsInto : Instr → Option (Ea × List Rn)
  | .movea _ ea an | .adda _ ea an | .suba _ ea an => some (ea, [⟨true, an⟩])
  | .lea ea an => some (ea, [⟨true, an⟩])
  | .addToReg _ ea dn | .subToReg _ ea dn | .andToReg _ ea dn | .orToReg _ ea dn =>
    some (ea, [⟨false, dn⟩])
  | .muluW ea dn | .mulsW ea dn | .divuW ea dn | .divsW ea dn => some (ea, [⟨false, dn⟩])
  | .mulL ea dl _ _ dh => some (ea, [⟨false, dl⟩, ⟨false, dh⟩])
  | .divL ea dq _ _ dr => some (ea, [⟨false, dq⟩, ⟨false, dr⟩])
  | .cmp _ ea _ | .cmpi _ _ ea | .tst _ ea => some (ea, [])
  | .cmpa _ ea _ => some (ea, [])
  | .cmp2 _ ea _ | .chk2 _ ea _ => some (ea, [])
  | .chk _ ea _ => some (ea, [])
  | .btstDyn _ ea | .btstImm _ ea => some (ea, [])
  | .bftst ea _ => some (ea, [])
  | .bfextu ea _ dn | .bfexts ea _ dn | .bfffo ea _ dn => some (ea, [⟨false, dn⟩])
  | .moveToCcr ea => some (ea, [])
  | _ => none

/-- The instructions that change one operand in place: its size, the words before its extension
words, and the operand. -/
def changesAt : Instr → Option (Size × Nat × Ea)
  | .addToEa sz _ ea | .subToEa sz _ ea | .andToEa sz _ ea | .orToEa sz _ ea | .eor sz _ ea =>
    some (sz, 0, ea)
  | .addi sz v ea | .subi sz v ea | .andi sz v ea | .ori sz v ea | .eori sz v ea =>
    some (sz, v.words, ea)
  | .addq sz _ ea | .subq sz _ ea => if ea.mode = 1 then none else some (sz, 0, ea)
  | .neg sz ea | .negx sz ea | .not sz ea | .clr sz ea => some (sz, 0, ea)
  | .aslMem ea | .asrMem ea | .lslMem ea | .lsrMem ea | .rolMem ea | .rorMem ea | .roxlMem ea
  | .roxrMem ea => some (.w, 0, ea)
  | .bchgDyn _ ea | .bclrDyn _ ea | .bsetDyn _ ea => some (bitSize ea, 0, ea)
  | .bchgImm _ ea | .bclrImm _ ea | .bsetImm _ ea => some (bitSize ea, 1, ea)
  | .nbcd ea | .scc _ ea | .tas ea => some (.b, 0, ea)
  | .moveFromSr ea | .moveFromCcr ea => some (.w, 0, ea)
  | _ => none

/-! ## Exception entry when nothing faults -/

/-- The state after exception entry (R510) with a frame of these bytes. -/
def State.entered (s : State) (vector : Byte) (frame : List Byte) : State :=
  let u := s.beginException
  let a := u.sp - BitVec.ofNat 32 frame.length
  let w := (u.setSp a).store supervisorData a frame
  { w with pc := w.longAt supervisorData (w.vectorAddr vector) }

/-- Exception entry with a frame of `n` bytes meets no bus error. -/
def State.canEnter (s : State) (vector : Byte) (n : Nat) : Prop :=
  s.writable supervisorData (s.beginException.sp - BitVec.ofNat 32 n) n ∧
    s.readable supervisorData (s.vectorAddr vector) 4

end Sys2Proof.Machine
end

