-- ==== Sys2Proof/Certificates/Slice0/Obligations.lean ====
section
/-! DEFINITION. The statements for the provers. -/

open Sys2Proof Sys2Proof.Machine

/-- For every well-formed instruction and whatever words follow it, the decoder reads the words of encode as
that instruction and takes exactly those words. (R110, R112, R113, R116, R118, R120, R122) -/
def Obligations.DecodeOfEncode : Prop :=
  ∀ (i : Instr) (rest : List Word), i.wf = true →
    decode (encode i ++ rest) = .instr i (encode i).length

/-- Twelve instructions of nine families (moves, arithmetic, logic, shift, bit field, decimal, branch, control
register, CAS, cpGEN), their words written out from the encodings the spec gives, decode to the instruction and
operands those words name. It says nothing of the other forms. (R201, R204, R231, R272, R293, R328, R341, R350,
R398, R421, R437, R116) -/
def Obligations.SpecWordsDecode : Prop :=
  decode [0x22C4] = .instr (.move .l (.dreg 4) (.postinc 1)) 1 ∧
  decode [0x48E7, 0xC080] = .instr (.movemToMem .l 0xC080 (.predec 7)) 2 ∧
  decode [0xDA84] = .instr (.addToReg .l (.dreg 4) 5) 1 ∧
  decode [0x0280, 0x0000, 0x00FF] = .instr (.andi .l (.long 0xFF) (.dreg 0)) 3 ∧
  decode [0xE3A8] = .instr (.lslReg .l (.reg 1) 0) 1 ∧
  decode [0xEFD0, 0x110C] = .instr (.bfins 1 (.ind 0) ⟨false, 4, false, 12⟩) 2 ∧
  decode [0xC308] = .instr (.abcd true 0 1) 1 ∧
  decode [0x6600, 0xFFFE] = .instr (.bcc .ne (.word 0xFFFE)) 2 ∧
  decode [0x4E7B, 0x8800] = .instr (.movec true ⟨true, 0⟩ 0x800) 2 ∧
  decode [0x0ED0, 0x0040] = .instr (.cas .l 0 1 (.ind 0)) 2 ∧
  decode [0xF200] = .instr (.cpGen 1 0 0) 1 ∧
  decode [0x2030, 0x1D16, 0x0008] =
    .instr (.move .l (.indexed 0 (.full ⟨⟨false, 1⟩, true, 2⟩ false false .null (.post (.word 8)))) (.dreg 0)) 3

/-- For every full-format extension word with bit 3 set, BD SIZE 00, or a reserved I/IS setting: reading an
indexed operand of any size, on An or on the PC, stops at it as reserved whatever follows, and so do the words
of MOVE.L with that operand. (That these words are stopped on by name, and not executed, is the model's reading
of U21: log 28.) (R116) -/
def Obligations.ReservedFullExtension : Prop :=
  ∀ (w : Word) (rest : List Word), w.getLsbD 8 = true →
    (w.getLsbD 3 = true ∨ w.extractLsb' 4 2 = 0#2 ∨ (w.getLsbD 6 = false ∧ w.extractLsb' 0 3 = 4#3) ∨
      (w.getLsbD 6 = true ∧ w.getLsbD 2 = true)) →
    (∀ (sz : Size) (m r : Reg), m = 6 ∨ (m = 7 ∧ r = 3) →
      ∃ ws, nextEa sz m r (w :: rest) = .error (.reserved .fullExtension) ws) ∧
    (∀ r : Reg, decode ((0x2030 ||| BitVec.ofNat 16 r.val) :: w :: rest) = .none (.reserved .fullExtension)) ∧
    decode (0x203B :: w :: rest) = .none (.reserved .fullExtension)

/-- When nothing comes before the next instruction and the words at the PC decode to an instruction, the step is
exec of it at the sampled state with the cache filled for its words, followed by the pipe update and the trace
at its end; a fault or refusal of exec is the step's own. (That the cache is filled by the words of the decoded
instruction alone, what the pipe keeps, and that all words are fetched before any operand access are the model's
choices: log 17, log 16 and log 43.) (R110, R112, R571) -/
def Obligations.StepRunsInstruction : Prop :=
  ∀ (s : State) (i : Instr) (n : Nat), s.ready →
    decode (s.sample.fetchWords s.pc maxWords) = .instr i n →
    step s = match exec i (s.sample.fillWords s.pc n) with
      | .next t => .next (afterInstr s.sample t)
      | .fault f => .fault f
      | .refused r => .refused r

/-- For a word at an even address whose aligned long word can be read, with nothing old in the pipe. Cache off
or missing: the two bytes at its address in the program space, high-order byte first. Cache hit: the held word
or the one in memory (which, where they differ, is free), and the held word where memory cannot be read. A miss
with E = 1 and F = 0 fills the entry with the aligned long word; a hit, F = 1 or E = 0 fill nothing. A pipe with
old words may give one of those for its address, and nothing else new. After an instruction the pipe holds the
old version of every word, in the program space it goes on in, of the four long words from its own that it
changed and that lies at most eight words ahead, and apart from those only what it held, and that only in the
same space; nothing of the cache. (The free choice, the fill by the words of decoded instructions and what the
pipe keeps are the model's: log 17 and log 16.) (R73, R49, R32, R85, R76, R612) -/
def Obligations.FetchReadsMemory : Prop :=
  ∀ (s : State) (a : Long), a.getLsbD 0 = false →
    let fc := s.progSpace
    let word := fun (u : State) (x : Long) => u.byte fc x ++ u.byte fc (x + 1)
    let entry := s.cache[a.toNat / 4 % 64]'(Nat.mod_lt _ (by decide))
    let half := fun (v : Long) => if a.getLsbD 1 then v.extractLsb' 0 16 else v.extractLsb' 16 16
    let hits := fun (l : CacheLine) => l.fc2 = fc.getLsbD 2 ∧ l.tag = a.extractLsb' 8 24
    (s.pipe = [] → s.readable fc (a &&& 0xFFFFFFFC) 4 →
      (s.cacr.getLsbD 0 = false → s.fetchWord a = .word (word s a) ∧ s.fillWord a = s) ∧
      (s.cacr.getLsbD 0 = true → ∀ l, entry = some l → hits l →
        (s.fetchWord a = .word (half l.data) ∨ s.fetchWord a = .word (word s a)) ∧ s.fillWord a = s) ∧
      (s.cacr.getLsbD 0 = true → (∀ l, entry = some l → ¬ hits l) →
        s.fetchWord a = .word (word s a) ∧
        (s.cacr.getLsbD 1 = true → s.fillWord a = s) ∧
        (s.cacr.getLsbD 1 = false → s.fillWord a = { s with
          cache := s.cache.set (a.toNat / 4 % 64)
            (some ⟨fc.getLsbD 2, a.extractLsb' 8 24, s.longAt fc (a &&& 0xFFFFFFFC)⟩)
            (Nat.mod_lt _ (by decide)) }))) ∧
    (s.pipe = [] → s.cacr.getLsbD 0 = true → s.firstFault fc false (a &&& 0xFFFFFFFC) 4 = some (0, false) →
      a.getLsbD 1 = false →
      (∀ l, entry = some l → hits l → s.fetchWord a = .word (half l.data)) ∧
      ((∀ l, entry = some l → ¬ hits l) → s.fetchWord a = .fault false)) ∧
    (∀ w, s.fetchWord a = .word w →
      (a.toNat, w) ∈ s.pipe ∨ ({ s with pipe := [] } : State).fetchWord a = .word w) ∧
    (∀ t : State, t.platform = s.platform → let fc := t.progSpace
      let word := fun (u : State) (x : Long) => u.byte fc x ++ u.byte fc (x + 1)
      (∀ k < 8, let x := (s.pc &&& 0xFFFFFFFC) + BitVec.ofNat 32 (2 * k)
        s.readable fc (x &&& 0xFFFFFFFC) 4 → word s x ≠ word t x → (x - t.pc).toNat < 16 →
        (x.toNat, word s x) ∈ nextPipe s t) ∧
      ∀ e ∈ nextPipe s t, (BitVec.ofNat 32 e.1 - t.pc).toNat < 16 ∧
        ((s.progSpace = fc ∧ e ∈ s.pipe) ∨ ∃ x : Long, e = (x.toNat, word s x) ∧ word s x ≠ word t x))

/-- When the words at the PC decode to nothing and are not reserved, the step takes the illegal instruction
exception with the saved PC at the operation word; an operation word that is privileged whatever follows takes
the privilege violation in user mode instead. (That the privilege violation comes first whatever follows the
operation word, a reserved extension word or one that cannot be read too, is the model's reading: log 28.)
(R123, R536, R538) -/
def Obligations.StepTakesIllegal : Prop :=
  ∀ (s : State) (why : Stop), s.ready →
    decode (s.sample.fetchWords s.pc maxWords) = .none why →
    (s.sample.violates (s.sample.fetchWords s.pc maxWords) = false → why = .illegal →
      step s = .next (afterInstr s.sample (s.sample.takeException ⟨4, s.pc, .four, .notDone⟩))) ∧
    (s.sample.violates (s.sample.fetchWords s.pc maxWords) = true →
      step s = .next (afterInstr s.sample (s.sample.takeException ⟨8, s.pc, .four, .notDone⟩)))

/-- With S = 0 each of MOVE from SR, MOVE to SR, ANDI, EORI and ORI to SR, MOVE USP, MOVEC, MOVES, RESET, RTE,
STOP, and cpSAVE and cpRESTORE with a nonzero CpID, takes the privilege violation from the unchanged state, with
the saved PC at the instruction. (R390, R538, R446) -/
def Obligations.PrivilegedInUserMode : Prop :=
  ∀ (s : State), s.sBit = false →
    let o := Host.Outcome.next (φ := Fault) (ρ := Refusal) (s.takeException ⟨8, s.pc, .four, .notDone⟩)
    (∀ ea, exec (.moveFromSr ea) s = o) ∧ (∀ ea, exec (.moveToSr ea) s = o) ∧
    (∀ v, exec (.andiToSr v) s = o) ∧ (∀ v, exec (.eoriToSr v) s = o) ∧ (∀ v, exec (.oriToSr v) s = o) ∧
    (∀ b an, exec (.moveUsp b an) s = o) ∧ (∀ b rn code, exec (.movec b rn code) s = o) ∧
    (∀ sz b rn ea, exec (.moves sz b rn ea) s = o) ∧ exec .reset s = o ∧ exec .rte s = o ∧
    (∀ v, exec (.stop v) s = o) ∧ (∀ c m r, c ≠ 0 → exec (.cpSave c m r) s = o) ∧
    (∀ c m r, c ≠ 0 → exec (.cpRestore c m r) s = o)

/-- With the frame written in RAM and the vector readable, taking an exception copies the SR, sets S, clears T1
and T0, lowers the supervisor stack pointer that S = 1 and M select by the size of the frame, leaves there the
old SR, the saved PC, the format and vector offset and (six words) the instruction address, loads the PC from
VBR + 4*vector, and changes no other byte, data register, A0 to A6 or USP. A format error builds the short frame
$A, with FC, FB and DF clear in its special status word, or the frame $0: which is a parameter of the platform
(D10, log 18). (That the vector is read after the frame is written, which shows where it lies in the frame, is
the model's choice: log 30.) (R510, R501, R504, R506, R508, R540) -/
def Obligations.ExceptionFrame : Prop :=
  ∀ (s : State) (x : Exc) (n : Nat) (fmt : BitVec 4), s.mem.wf = true →
    ((x.frame = .four ∧ n = 8 ∧ fmt = 0) ∨ ((∃ ia, x.frame = .six ia) ∧ n = 12 ∧ fmt = 2) ∨
      (x.frame = .formatError ∧ s.platform.formatErrorShort = true ∧ n = 32 ∧ fmt = 0xA) ∨
      (x.frame = .formatError ∧ s.platform.formatErrorShort = false ∧ n = 8 ∧ fmt = 0)) →
    s.canEnter x.vector n →
    let t := s.takeException x
    let f := (if s.mBit then s.msp else s.isp) - BitVec.ofNat 32 n
    t.sr = (s.sr &&& 0x3FFF) ||| 0x2000 ∧ t.srCopy = s.sr ∧ t.sp = f ∧ t.run = .normal ∧ t.ending = x.ending ∧
    (s.inRam supervisorData f n →
      t.load supervisorData f 2 = longBytes (s.sr.setWidth 32) 2 ∧
      t.longAt supervisorData (f + 2) = x.savedPc ∧
      t.wordAt supervisorData (f + 6) = (fmt ++ (x.vector.setWidth 12 <<< 2)).setWidth 32 ∧
      (∀ ia, x.frame = .six ia → t.longAt supervisorData (f + 8) = ia) ∧
      (n = 32 → t.wordAt supervisorData (f + 10) &&& 0xC100 = 0)) ∧
    t.pc = t.longAt supervisorData (s.vbr + BitVec.ofNat 32 (4 * x.vector.toNat)) ∧
    sameBytesBut supervisorData f n s t ∧ t.d = s.d ∧ t.a = s.a ∧ t.usp = s.usp ∧
    (if s.mBit then t.isp = s.isp else t.msp = s.msp) ∧ t.vbr = s.vbr

/-- When the frame can be written and the vector read, clear of the frame, and it is even, the processor goes
on: in RAM the frame on the supervisor stack holds the old SR, the saved PC, format $A or $B with the vector
offset, the special status word and, for a data cycle, the fault address and in the low bits of the data output
buffer the operand being written; for a prefetch the status word has the fault and rerun bits of one stage and
DF = 0; a long frame holds the version number; the PC is the vector's address and no byte outside the frame
changes. An odd vector is a double bus fault: halted. If the frame cannot be written or the vector not read, the
processor is halted, or waits where a cycle never ends. (That a double bus fault leaves the registers as they
were is the model's reading: log 31; so are the size code by the bytes left, the place of the operand in the
buffer and the one stage of a prefetch fault: log 10. That the vector is read after the frame is written, which
shows where it lies in the frame, is the model's choice: log 30.) (What the waiting processor has is the model's
choice: log 49.) (A handler whose first word cannot be fetched is met by the next step and does not halt: that
is the model's choice, log 47.) (R530, R531, R532, R511, R512, R513, R89) -/
def Obligations.BusFaultEntry : Prop :=
  ∀ (s : State) (vector : Byte) (long : Bool) (pc : Long) (f : BusFault), s.mem.wf = true →
    let n : Nat := if long then 92 else 32
    let b := (if s.mBit then s.msp else s.isp) - BitVec.ofNat 32 n
    let va := s.vbr + BitVec.ofNat 32 (4 * vector.toNat)
    let t := s.enterFault vector long pc f
    (s.firstFault supervisorData true b n ≠ none ∨ s.firstFault supervisorData false va 4 ≠ none →
      (t = { s with run := .halted, ending := .notDone } ∨ t = { s with run := .hung, ending := .notDone }) ∧
      ((∀ h ∈ s.platform.holes, h.never = false) → t.run = .halted)) ∧
    (s.writable supervisorData b n → s.readable supervisorData va 4 →
      ((∀ k < 4, n ≤ (va + BitVec.ofNat 32 k - b).toNat) →
        ((s.longAt supervisorData va).getLsbD 0 = false → t.run = .normal) ∧
        ((s.longAt supervisorData va).getLsbD 0 = true → t.run = .halted)) ∧
      (t.run = .halted → t = { s with run := .halted, ending := .notDone, draws := t.draws }) ∧
      (t.run ≠ .halted →
        t.sr = (s.sr &&& 0x3FFF) ||| 0x2000 ∧ t.srCopy = s.sr ∧ t.sp = b ∧ t.ending = .notDone ∧ t.run = .normal ∧
        (s.inRam supervisorData b n →
          t.load supervisorData b 2 = longBytes (s.sr.setWidth 32) 2 ∧
          t.longAt supervisorData (b + 2) = pc ∧
          t.wordAt supervisorData (b + 6) =
            ((if long then 0xB#4 else 0xA#4) ++ (vector.setWidth 12 <<< 2)).setWidth 32 ∧
          (f.fetch = false →
            t.longAt supervisorData (b + 0x10) = f.addr ∧
            t.wordAt supervisorData (b + 0xA) =
              (0x0100 ||| (if f.rmw then 0x80 else 0) ||| (if f.write then 0 else 0x40) |||
                BitVec.ofNat 32 (16 * (if f.left = 1 ∨ f.left = 2 ∨ f.left = 3 then f.left else 0)) |||
                f.fc.setWidth 32) ∧
            (t.longAt supervisorData (b + 0x18)).toNat % 2 ^ (8 * f.out.length) = (bytesLong f.out).toNat) ∧
          (f.fetch = true →
            (t.wordAt supervisorData (b + 0xA)).toNat / 256 = 0xA0 ∨ (t.wordAt supervisorData (b + 0xA)).toNat / 256 = 0x50) ∧
          (long = true →
            (t.wordAt supervisorData (b + 0x36)).extractLsb' 12 4 = s.platform.cpuVersion)) ∧
        t.pc = t.longAt supervisorData va ∧ t.pc.getLsbD 0 = false ∧
        sameBytesBut supervisorData b n s t ∧ t.d = s.d ∧ t.a = s.a ∧ t.usp = s.usp))

/-- An operand of MOVE, ADD, SUB, CMP, AND, OR or TST that cannot be read, or a store of MOVE that cannot be
made, ends the instruction in vector 2 with the long frame and its own address as PC. Each data, address and
stack register and the SR is then the last value or one it held at a point of the instruction (which, is free:
log 8); all else is as the accesses left it. A store leaves the bytes of its earlier bus cycles written and
reports where the failing one begins and what is left (the rising order of the cycles is the model's reading,
log 40, and so is what the frame reports, log 10). A MOVEM load, of any mask, mode and size, leaves just the
registers already loaded changed. A read-modify-write cycle of TAS, CAS or CAS2, which the special status word
tells by RM, leaves the registers the instruction began with, and the accesses made stand, CAS2's first write
too (so that it can run again whole: log 42). Other instructions are not spoken of here. A bus error on the
operation word builds the short frame, on a later word the long one (log 9), before any operand access (log 43).
Where the cycle never ends the processor waits instead. (R530, R200, R204, R513, R89, R423, R553) -/
def Obligations.OperandBusError : Prop :=
  (∀ (l : List State) (t : State) (pc : Long), let p := State.partly l t pc
    p = { t with d := p.d, a := p.a, usp := p.usp, isp := p.isp, msp := p.msp, sr := p.sr, pc := pc,
                 draws := t.draws + 1 } ∧
    (∀ r, p.dreg r ∈ t.dreg r :: l.map (·.dreg r)) ∧
    (∀ i : Fin 7, p.a[i] ∈ t.a[i] :: l.map (·.a[i])) ∧
    p.usp ∈ t.usp :: l.map (·.usp) ∧ p.isp ∈ t.isp :: l.map (·.isp) ∧ p.msp ∈ t.msp :: l.map (·.msp) ∧
    p.sr ∈ t.sr :: l.map (·.sr)) ∧
  ∀ (s t : State) (f : BusFault) (seen : List State) (made : Bool) (sz : Size),
    let cut := fun (l : List State) (u : State) => let p := State.partly l u s.pc
      Host.Outcome.next (φ := Fault) (ρ := Refusal)
        (if f.never then { p with run := .hung, ending := .notDone } else p.enterFault 2 true s.pc f)
    (∀ ea, readEa sz 0 ea s = .error (.bus f seen made) t → let o := cut [s] t
      f.fetch = false ∧ f.write = false ∧ f.rmw = false ∧
      (∀ dst, exec (.move sz ea dst) s = o) ∧ (∀ dn, exec (.addToReg sz ea dn) s = o) ∧
      (∀ dn, exec (.subToReg sz ea dn) s = o) ∧ (∀ dn, exec (.cmp sz ea dn) s = o) ∧
      (∀ dn, exec (.andToReg sz ea dn) s = o) ∧ (∀ dn, exec (.orToReg sz ea dn) s = o) ∧
      exec (.tst sz ea) s = o) ∧
    (∀ src dst v u, readEa sz 0 src s = .ok v u →
      writeEa sz src.words dst v (u.setCc (valueCc sz v u.cc)) = .error (.bus f seen made) t →
      exec (.move sz src dst) s = cut [s, u] t) ∧
    (∀ rmw fc a v, writeMem rmw fc a sz v s = .error (.bus f seen made) t →
      ∃ j < sz.bytes, f = ⟨false, fc, a + BitVec.ofNat 32 j, sz.bytes - j, true, rmw, longBytes v sz.bytes, f.never⟩ ∧
        t = s.store fc a ((longBytes v sz.bytes).take j)) ∧
    (∀ (ws : WL) (mask : Word) (ea : Ea) (a : Long) (k : Nat),
      (memAddr ws.size 1 ea s = .ok a s ∧ steppedBy ea = []) ∨ (∃ r, ea = .postinc r ∧ a = s.areg r) →
      let n := ws.size.bytes
      let file : List Rn := [⟨false, 0⟩, ⟨false, 1⟩, ⟨false, 2⟩, ⟨false, 3⟩, ⟨false, 4⟩, ⟨false, 5⟩, ⟨false, 6⟩,
        ⟨false, 7⟩, ⟨true, 0⟩, ⟨true, 1⟩, ⟨true, 2⟩, ⟨true, 3⟩, ⟨true, 4⟩, ⟨true, 5⟩, ⟨true, 6⟩, ⟨true, 7⟩]
      let regs := (file.zipIdx.filter fun p => mask.getLsbD p.2).map (·.1)
      let place := fun (i : Nat) => a + BitVec.ofNat 32 (n * i)
      k < regs.length → (∀ i < k, s.readable (s.eaSpace ea) (place i) n) →
      readMem false (s.eaSpace ea) (place k) ws.size s = .error (.bus f seen made) t →
      let u := ((regs.take k).zipIdx.foldl (fun (u : State) (p : Rn × Nat) => u.setR p.1 (BitVec.ofInt 32
        (signedOf ws.size (bytesLong (s.load (s.eaSpace ea) (place p.2) n))))) s).used 1
      exec (.movemToReg ws mask ea) s =
        .next (if f.never then { u with run := .hung, ending := .notDone } else u.enterFault 2 true s.pc f)) ∧
    (let bad : Abort := .bus f seen made
      let b : State := { t with d := s.d, a := s.a, usp := s.usp, isp := s.isp, msp := s.msp, sr := s.sr, pc := s.pc,
                                draws := t.draws + 1 }
      let back := Host.Outcome.next (φ := Fault) (ρ := Refusal)
        (if f.never then { b with run := .hung, ending := .notDone } else b.enterFault 2 true s.pc f)
      (∀ fc a, readMem true fc a sz s = .error bad t → f.rmw = true) ∧
      (∀ ea a m, inMemory ea = true → memAddr .b 0 ea s = .ok a m →
        (readMem true m.dataSpace a .b m = .error bad t → exec (.tas ea) s = back) ∧
        (∀ v w, readMem true m.dataSpace a .b m = .ok v w →
          writeMem true m.dataSpace a .b (v ||| 0x80) w = .error bad t → exec (.tas ea) s = back)) ∧
      (∀ dc du ea a m, memAddr sz 1 ea s = .ok a m →
        (readMem true m.dataSpace a sz m = .error bad t → exec (.cas sz dc du ea) s = back) ∧
        (∀ w, readMem true m.dataSpace a sz m = .ok (trunc sz (m.dreg dc)) w →
          writeMem true m.dataSpace a sz (m.dreg du) w = .error bad t → exec (.cas sz dc du ea) s = back)) ∧
      (∀ (ws : WL) (r1 r2 : Rn) (du1 dc1 du2 dc2 : Reg), let i : Instr := .cas2 ws r1 du1 dc1 r2 du2 dc2
        let rd := fun (r : Rn) => readMem true s.dataSpace (s.getR r) ws.size
        let wr := fun (r : Rn) (v : Long) => writeMem true s.dataSpace (s.getR r) ws.size v
        (rd r1 s = .error bad t → exec i s = back) ∧
        (∀ v w, rd r1 s = .ok v w → rd r2 w = .error bad t → exec i s = back) ∧
        (∀ w x, rd r1 s = .ok (trunc ws.size (s.dreg dc1)) w → rd r2 w = .ok (trunc ws.size (s.dreg dc2)) x →
          (wr r1 (s.dreg du1) x = .error bad t → exec i s = back) ∧
          (∀ y, wr r1 (s.dreg du1) x = .ok () y → wr r2 (s.dreg du2) y = .error bad t → exec i s = back)))) ∧
    let ws := s.sample.fetchWords s.pc maxWords
    let a := s.pc + BitVec.ofNat 32 (2 * ws.length)
    (s.ready → decode ws = .none .short → s.sample.violates ws = false → ws.length < maxWords →
      ∃ never, s.sample.fetchWord a = .fault never ∧ step s = .next (afterInstr s.sample
        (if never then { s.sample with run := .hung, ending := .notDone }
          else s.sample.enterFault 2 (decide (ws.length ≠ 0)) s.pc
            ⟨true, s.sample.progSpace, a, 2, false, false, [], false⟩)))

/-- Without RESET a halted processor has no next state (the model's fault for D14), nor has one that waits for a
bus cycle that never ends, and a stopped one takes the interrupt that is recognised or else only lets the inputs
pass. (R581, R582, R566, R89) -/
def Obligations.HaltedAndStopped : Prop :=
  ∀ (s : State), s.input.reset = false →
    (s.run = .halted → step s = .fault .halted) ∧
    (s.run = .hung → step s = .fault .unterminated) ∧
    (s.run = .stopped → s.sample.recognised = true → step s = .next (s.sample.interrupt s.input.ack)) ∧
    (s.run = .stopped → s.sample.recognised = false →
      step s = .next { s with ipl := s.input.ipl, nmi := s.nmi || (s.input.ipl == 7 && s.ipl != 7),
                              inputs := s.inputs.tail })

/-- A running processor with an odd PC, whose stack has RAM for either frame, clear of vector 3, takes the
address error: the frame is of format $A or $B (which, is free) and holds vector 3 and the odd PC; the handler
address is in the PC. An odd handler address halts the processor with memory and SR unchanged. (That the address
error is a step of its own before any interrupt is the model's reading: log 11; that the halt leaves SR and
memory alone rests on log 31.) (A handler whose first word cannot be fetched is met by the next step and does
not halt: that is the model's choice, log 47.) (R531, R75, R570) -/
def Obligations.OddPcAddressError : Prop :=
  ∀ (s : State), s.mem.wf = true → s.input.reset = false → s.run = .normal → s.pc.getLsbD 0 = true →
    let b := if s.mBit then s.msp else s.isp
    let h := s.longAt supervisorData (s.vbr + 12)
    s.writable supervisorData (b - 32) 32 → s.writable supervisorData (b - 92) 92 →
    s.inRam supervisorData (b - 92) 92 → s.readable supervisorData (s.vbr + 12) 4 →
    (∀ k < 4, 92 ≤ (s.vbr + 12 + BitVec.ofNat 32 k - (b - 92)).toNat) →
    (h.getLsbD 0 = true → ∃ t, step s = .next t ∧ t.run = .halted ∧ t.mem = s.mem ∧ t.sr = s.sr) ∧
    (h.getLsbD 0 = false → ∃ t n, step s = .next t ∧ (n = 32 ∨ n = 92) ∧ t.sp = b - n ∧ t.run = .normal ∧
      t.sr = (s.sr &&& 0x3FFF) ||| 0x2000 ∧
      t.longAt supervisorData (b - n + 2) = s.pc ∧
      t.wordAt supervisorData (b - n + 6) = (if n = 32 then 0xA00C else 0xB00C) ∧ t.pc = h)

/-- A running processor with an even PC takes the request exactly when its level exceeds the mask, or it is 7
and a change to 7 has not been answered; the vector is the device's, 24 plus the level for an autovector, or 24.
(That every step of a running processor with an even PC begins at a boundary, also right after the processing of
another exception, is the model's choice: log 50; that a remembered change to 7 counts only while the level is 7
is its reading: log 37; that the level is sampled once, at the start of the step, is log 14.) (R561, R562, R564,
R571) -/
def Obligations.InterruptTaken : Prop :=
  ∀ (s : State),
    (s.sample.recognised = true ↔
      s.iMask < s.input.ipl.val ∨ (s.input.ipl = 7 ∧ (s.nmi = true ∨ s.ipl ≠ 7))) ∧
    (s.input.reset = false → s.run = .normal → s.pc.getLsbD 0 = false → s.sample.recognised = true →
      step s = .next (({ s.sample with nmi := s.sample.nmi && s.input.ipl != 7 } : State).takeInterrupt
        s.input.ipl (match s.input.ack with
          | .vector v => v
          | .autovector => BitVec.ofNat 8 (24 + s.input.ipl.val)
          | .busError => 24)))

/-- With RAM for the frames and a readable vector: the mask becomes the level, S is set, T cleared, M cleared.
With M = 0 one four-word frame goes on the interrupt stack. With M = 1 it goes on the master stack, and a format
$1 frame with the SR as it stood (M still 1) goes on the interrupt stack. The frames do not overlap in the
second case. (That the vector is read after the frames are written, which shows where it lies in one, is the
model's choice: log 30.) (R563, R510, R507) -/
def Obligations.InterruptFrames : Prop :=
  ∀ (s : State) (l : Fin 8) (v : Byte), s.mem.wf = true →
    s.readable supervisorData (s.vbr + BitVec.ofNat 32 (4 * v.toNat)) 4 →
    s.writable supervisorData (s.isp - 8) 8 → s.inRam supervisorData (s.isp - 8) 8 →
    let t := s.takeInterrupt l v
    let sr' := (s.sr &&& 0x38FF) ||| 0x2000 ||| (BitVec.ofNat 16 l.val <<< 8)
    (s.mBit = false →
      t.sr = sr' ∧ t.isp = s.isp - 8 ∧ t.msp = s.msp ∧ t.usp = s.usp ∧ t.srCopy = s.sr ∧
      t.load supervisorData (s.isp - 8) 8 = frameHead 0 s.sr s.pc v ∧
      t.pc = t.longAt supervisorData (s.vbr + BitVec.ofNat 32 (4 * v.toNat)) ∧
      t.run = .normal ∧ sameBytesBut supervisorData (s.isp - 8) 8 s t) ∧
    (s.mBit = true → s.writable supervisorData (s.msp - 8) 8 →
      s.inRam supervisorData (s.msp - 8) 8 →
      8 ≤ (s.isp - s.msp).toNat → 8 ≤ (s.msp - s.isp).toNat →
      t.sr = sr' &&& 0xEFFF ∧ t.isp = s.isp - 8 ∧ t.msp = s.msp - 8 ∧ t.usp = s.usp ∧ t.srCopy = s.sr ∧
      t.load supervisorData (s.msp - 8) 8 = frameHead 0 s.sr s.pc v ∧
      t.load supervisorData (s.isp - 8) 8 = frameHead 1 sr' s.pc v ∧
      t.pc = t.longAt supervisorData (s.vbr + BitVec.ofNat 32 (4 * v.toNat)) ∧ t.run = .normal ∧
      ∀ (fc : FC) (b : Long), s.bank fc ≠ s.bank supervisorData ∨
          (8 ≤ (b - (s.isp - 8)).toNat ∧ 8 ≤ (b - (s.msp - 8)).toNat) →
        t.byte fc b = s.byte fc b)

/-- After an instruction that began in s and left the running state t: with T1, T0 = 10 every completed
instruction takes the trace exception (vector 9, six-word frame, saved PC the next instruction, instruction
address its own); with 01 only one that changed the flow or wrote the SR; with 00 none. A traced trap makes a
trace owed for its address; the RTE that next completes takes it instead. Before an odd PC only the owed trace
is taken. (The address error before the own trace is log 11, the owed trace at an odd PC log 13, the RTE that
reruns an instruction log 42.) (R545, R546, R547) -/
def Obligations.TraceRules : Prop :=
  ∀ (s t : State), t.run = .normal →
    let u : State := { t with pipe := pipeAfter s t, draws := t.draws + 1 }
    let own := if t.pc.getLsbD 0 then u else u.takeException ⟨9, t.pc, .six s.pc, .flow⟩
    (s.t1 = true → s.t0 = false → (t.ending = .sequential ∨ t.ending = .wroteSr ∨ t.ending = .flow) →
      afterInstr s t = own) ∧
    (s.t1 = false → s.t0 = true → t.ending = .sequential → afterInstr s t = u) ∧
    (s.t1 = false → s.t0 = true → (t.ending = .wroteSr ∨ t.ending = .flow) → afterInstr s t = own) ∧
    (s.t1 = false → s.t0 = false → t.ending ≠ .returned → afterInstr s t = u) ∧
    (t.ending = .notDone ∨ t.ending = .rerun → afterInstr s t = u) ∧
    (s.t1 ≠ s.t0 → t.ending = .trapped → t.owed = none →
      afterInstr s t = { u with owed := some ⟨s.pc, true⟩ }) ∧
    (∀ a, t.ending = .returned → t.owed = some ⟨a, true⟩ →
      afterInstr s t = ({ u with owed := none, draws := t.draws + 2 } : State).takeException
        ⟨9, t.pc, .six a, .flow⟩) ∧
    (t.ending = .returned → t.owed = none → s.t1 ≠ s.t0 → afterInstr s t = own) ∧
    (t.ending = .returned → t.owed = none → s.t1 = false → s.t0 = false → afterInstr s t = u)

/-- Whatever the processor was doing, RESET sets S and mask 7, clears T1, T0, M, VBR, CACR, the cache, the pipe,
the owed trace and pending interrupt, loads ISP and PC from 0 and 4 of supervisor program space, and keeps all
other state; a vector that cannot be read or an odd initial PC halts it (or it waits, where the cycle never
ends) with memory and the registers RESET does not touch unchanged. (That the sampled level counts as 0 is log
45; what a halted reset leaves is log 31.) (What the waiting processor has is the model's choice: log 49.) (An
initial PC whose first word cannot be fetched is met by the next step and does not halt: that is the model's
choice, log 47.) (R600, R604, R50, R520, R89) -/
def Obligations.ResetException : Prop :=
  ∀ (s : State), s.input.reset = true →
    (s.readable supervisorProgram 0 4 → s.readable supervisorProgram 4 4 →
      (s.longAt supervisorProgram 4).getLsbD 0 = false →
      step s = .next { s with
        sr := (s.sr &&& 0x001F) ||| 0x2700, vbr := 0, cacr := 0, cache := Vector.replicate 64 none, pipe := [],
        run := .normal, owed := none, ending := .sequential, eaTemp := none, scanPc := none, ipl := 0,
        nmi := false, inputs := s.inputs.tail, isp := s.longAt supervisorProgram 0,
        pc := s.longAt supervisorProgram 4 }) ∧
    ((s.firstFault supervisorProgram false 0 4 ≠ none ∨ s.firstFault supervisorProgram false 4 4 ≠ none ∨
        (s.readable supervisorProgram 4 4 ∧ (s.longAt supervisorProgram 4).getLsbD 0 = true)) →
      ∃ t, step s = .next t ∧ (t.run = .halted ∨ t.run = .hung) ∧
        ((∀ h ∈ s.platform.holes, h.never = false) → t.run = .halted) ∧
        t.mem = s.mem ∧ t.d = s.d ∧ t.a = s.a ∧ t.usp = s.usp ∧ t.msp = s.msp)

/-- The reset state has SR upper byte $27, VBR 0, CACR 0, an empty cache, is running with nothing owed or
pending, and meets the invariant. (That ISP and PC are 0 is the model's choice for unlisted memory: log 1 and
log 3.) (R50, R600, R26, R32) -/
def Obligations.ResetState : Prop :=
  State.reset.Inv ∧ State.reset.sr &&& 0xFF00 = 0x2700 ∧ State.reset.vbr = 0 ∧ State.reset.cacr = 0 ∧
  State.reset.cache = Vector.replicate 64 none ∧ State.reset.pipe = [] ∧ State.reset.run = .normal ∧
  State.reset.owed = none ∧ State.reset.nmi = false ∧ State.reset.ipl = 0 ∧ State.reset.eaTemp = none ∧
  State.reset.scanPc = none ∧ State.reset.isp = State.reset.longAt supervisorProgram 0 ∧
  State.reset.pc = State.reset.longAt supervisorProgram 4

/-- From every state in which memory is canonical and the unimplemented bits of SR, of the SR copy and of CACR
are 0, every step that has a next state leads to such a state. (R26, R32, R391, R37) -/
def Obligations.StepKeepsInv : Prop :=
  ∀ (s t : State), s.Inv → step s = .next t → t.Inv

/-- Executing any instruction with S = 0 leaves VBR, SFC, DFC, CACR, CAAR and the cache unchanged, and while S
stays 0 also ISP, MSP and the upper byte of SR. A next state with S = 1 is one of exception entry: M as before,
T1 and T0 clear, the instruction trapped or not done, and, where the processor goes on, the stack M selects
lowered by a frame (or by the one that met a bus error and a bus fault frame) and the PC one of the vectors,
unless a device answers for a vector. (That the vector is read from memory after the frame is written, and that
the stack pointer is past the whole of a frame that met a bus error, is the model's choice: log 30.) (R575,
R576, R577, R390) -/
def Obligations.UserModeContained : Prop :=
  ∀ (i : Instr) (s t : State), s.sBit = false → exec i s = .next t →
    t.vbr = s.vbr ∧ t.sfc = s.sfc ∧ t.dfc = s.dfc ∧ t.cacr = s.cacr ∧ t.caar = s.caar ∧ t.cache = s.cache ∧
    (t.sBit = false → t.isp = s.isp ∧ t.msp = s.msp ∧ t.sr &&& 0xFFE0 = s.sr &&& 0xFFE0) ∧
    (t.sBit = true → t.mBit = s.mBit ∧ t.t1 = false ∧ t.t0 = false ∧
      (t.ending = .trapped ∨ t.ending = .notDone) ∧ t.run ≠ .stopped ∧
      (t.run = .normal →
        (∃ n, 8 ≤ n ∧ n ≤ 124 ∧ t.sp = (if s.mBit then s.msp else s.isp) - BitVec.ofNat 32 n) ∧
        ((∀ v : Byte, t.onDevice supervisorData (s.vbr + BitVec.ofNat 32 (4 * v.toNat)) 4 = false) →
          ∃ v : Byte, t.pc = t.longAt supervisorData (s.vbr + BitVec.ofNat 32 (4 * v.toNat)))))

/-- Executing any instruction other than MOVEC to a control register leaves VBR, SFC, DFC, CACR, CAAR and every
cache entry as they were, in any mode and whatever exception it takes; no instruction changes what external
hardware presents, the sampled request, the EA temporary register, ScanPC or the owed trace. (That no
instruction reaches the EA temporary register and ScanPC rests on log 39, what the inputs are on log 14.) (R30,
R31, R32, R33, R86, R398) -/
def Obligations.OnlyMovecWritesControl : Prop :=
  ∀ (i : Instr) (s t : State), exec i s = .next t →
    ((∀ rn code, i ≠ .movec true rn code) →
      t.vbr = s.vbr ∧ t.sfc = s.sfc ∧ t.dfc = s.dfc ∧ t.cacr = s.cacr ∧ t.caar = s.caar ∧
      t.cache = s.cache) ∧
    t.inputs = s.inputs ∧ t.ipl = s.ipl ∧ t.nmi = s.nmi ∧ t.eaTemp = s.eaTemp ∧ t.scanPc = s.scanPc ∧
    t.owed = s.owed ∧ t.platform = s.platform

/-- Each simple mode gives the address of R114: (An), (An)+ with the step applied after, -(An) with it applied
before, (d16,An), absolute short sign-extended, absolute long, (d16,PC) from the address of the extension word;
the step is the size, but 2 for a byte through A7. (R114) -/
def Obligations.SimpleAddresses : Prop :=
  ∀ (s : State) (sz : Size) (own : Nat) (r : Reg) (d16 : Word) (a : Long),
    let k : Long := if r = 7 ∧ sz = .b then 2 else BitVec.ofNat 32 sz.bytes
    memAddr sz own (.ind r) s = .ok (s.areg r) s ∧
    memAddr sz own (.postinc r) s = .ok (s.areg r) (s.setA r (s.areg r + k)) ∧
    memAddr sz own (.predec r) s = .ok (s.areg r - k) (s.setA r (s.areg r - k)) ∧
    memAddr sz own (.disp r d16) s = .ok (s.areg r + BitVec.ofInt 32 d16.toInt) s ∧
    memAddr sz own (.absW d16) s = .ok (BitVec.ofInt 32 d16.toInt) s ∧
    memAddr sz own (.absL a) s = .ok a s ∧
    memAddr sz own (.pcDisp d16) s =
      .ok (s.pc + 2 + BitVec.ofNat 32 (2 * own) + BitVec.ofInt 32 d16.toInt) s

/-- The index is the register, or its sign-extended low word, times 1, 2, 4 or 8. Brief: base + d8 + index.
Full: with the base and index suppressed where asked, no indirection gives base + bd + index; preindexed reads
the pointer at base + bd + index and adds od; postindexed reads it at base + bd and adds index and od. The base
is An, with pointers in data space, or the address of the extension word, with pointers in program space. (R115,
R116) -/
def Obligations.IndexedAddresses : Prop :=
  ∀ (s : State) (sz : Size) (own : Nat) (r : Reg) (ix : Index) (d8 : Byte) (bs is : Bool) (bd od : Disp),
    let x : Long := BitVec.ofInt 32 ((if ix.long then (s.getR ix.reg).toInt else signedOf .w (s.getR ix.reg)) *
      2 ^ ix.scale.val)
    let disp : Disp → Long := fun
      | .null => 0
      | .word v => BitVec.ofInt 32 v.toInt
      | .long v => v
    let i : Long := if is then 0 else x
    ∀ (ea : IndexExt → Ea) (base : Long) (space : FC),
      ((∀ e, ea e = .indexed r e) ∧ base = s.areg r ∧ space = s.dataSpace ∨
        (∀ e, ea e = .pcIndexed e) ∧ base = s.pc + 2 + BitVec.ofNat 32 (2 * own) ∧ space = s.progSpace) →
      let b : Long := (if bs then 0 else base) + disp bd
      memAddr sz own (ea (.brief ix d8)) s = .ok (base + BitVec.ofInt 32 d8.toInt + x) s ∧
      memAddr sz own (ea (.full ix bs is bd .none)) s = .ok (b + i) s ∧
      (s.readable space (b + i) 4 →
        memAddr sz own (ea (.full ix bs is bd (.pre od))) s = .ok (s.longAt space (b + i) + disp od) s) ∧
      (s.readable space b 4 →
        memAddr sz own (ea (.full ix bs is bd (.post od))) s = .ok (s.longAt space b + i + disp od) s)

/-- A register operand is its low bits, a byte immediate the low byte of its word; a memory operand is the bytes
at its address, the highest-order first, from program space for a PC-relative mode. Nothing changes but the
register a mode steps. (R73, R114, R21, R22) -/
def Obligations.OperandRead : Prop :=
  ∀ (s t : State) (sz : Size) (own : Nat) (ea : Ea) (v : Long),
    (∀ r, readEa sz own (.dreg r) s = .ok (BitVec.ofNat 32 ((s.dreg r).toNat % 2 ^ sz.bits)) s) ∧
    (∀ r, readEa sz own (.areg r) s = .ok (BitVec.ofNat 32 ((s.areg r).toNat % 2 ^ sz.bits)) s) ∧
    (∀ w : Word, readEa sz own (.imm (.word w)) s = .ok (BitVec.ofNat 32 (w.toNat % 2 ^ sz.bits)) s) ∧
    (∀ w : Long, readEa .l own (.imm (.long w)) s = .ok w s) ∧
    (∀ a, memAddr sz own ea s = .ok a t → t.readable (s.eaSpace ea) a sz.bytes →
      ∃ v, readEa sz own ea s = .ok v t ∧
        v.toNat = (List.range sz.bytes).foldl (fun n k => n * 256 + (s.byte (s.eaSpace ea) (a + BitVec.ofNat 32 k)).toNat) 0) ∧
    (readEa sz own ea s = .ok v t → sameBytes s t ∧ sameRegs (steppedBy ea) s t ∧ sameSystem s t ∧
      t.sr = s.sr ∧ t.pc = s.pc ∧ v.toNat < 2 ^ sz.bits)

/-- Writing an operand to a memory alterable mode stores its bytes from the address upward, the most significant
first, wrapping at the top; every other byte is as before, those at the same addresses in a space that another
memory answers too. A byte that is not RAM keeps what it holds. A write to a data register replaces its low bits
only. Any byte string stored in RAM reads back, and no other byte changes. A read that a device answers
completes, with that device's bytes free, the others those of memory. (What a device answers, and that it takes
writes without effect, is the model's choice: log 41.) (R73, R94, R7) -/
def Obligations.StoredBytes : Prop :=
  ∀ (s t : State) (sz : Size) (own : Nat) (ea : Ea) (a v : Long), s.mem.wf = true →
    (inMemory ea = true → memAddr sz own ea s = .ok a t → t.writable t.dataSpace a sz.bytes →
      ∃ u, writeEa sz own ea v s = .ok () u ∧ sameBytesBut s.dataSpace a sz.bytes s u ∧
        sameRegs (steppedBy ea) s u ∧ sameSystem s u ∧ u.sr = s.sr ∧
        ∀ k < sz.bytes, u.byte t.dataSpace (a + BitVec.ofNat 32 k) =
          if s.area t.dataSpace (a + BitVec.ofNat 32 k) = none then
            BitVec.ofNat 8 (v.toNat / 256 ^ (sz.bytes - 1 - k))
          else s.byte t.dataSpace (a + BitVec.ofNat 32 k)) ∧
    (∀ r, ∃ u, writeEa sz own (.dreg r) v s = .ok () u ∧ sameBytes s u ∧ sameRegs [⟨false, r⟩] s u ∧
      sameSystem s u ∧ u.sr = s.sr ∧
      (u.dreg r).toNat = (s.dreg r).toNat / 2 ^ sz.bits * 2 ^ sz.bits + v.toNat % 2 ^ sz.bits) ∧
    (∀ (fc : FC) (bs : List Byte), bs.length ≤ 2 ^ 32 →
      (s.inRam fc a bs.length → (s.store fc a bs).load fc a bs.length = bs) ∧
      sameBytesBut fc a bs.length s (s.store fc a bs)) ∧
    (∀ (fc : FC) (n : Nat), s.firstFault fc false a n = none → s.onDevice fc a n = true →
      ∃ bs, busRead false fc a n s = .ok bs (s.used 1) ∧ bs.length = n ∧
        ∀ k < n, s.area fc (a + BitVec.ofNat 32 k) ≠ some .device →
          bs[k]? = some (s.byte fc (a + BitVec.ofNat 32 k)))

/-- With the flags CMP sets from destination d and source v: HI, LS, CC, CS are the unsigned orders, GE, LT, GT,
LE the signed ones, EQ and NE equality; T is always and F never true, and VC, VS, PL, MI are V and N. (R121,
R237) -/
def Obligations.ConditionsCompare : Prop :=
  ∀ (sz : Size) (v d : Long) (old : CC), v.toNat < 2 ^ sz.bits → d.toNat < 2 ^ sz.bits →
    let f := cmpCc sz (exactSub sz v d false) old
    compareCc sz (subAlu sz v d false) old = f ∧
    (condTrue .hi f = true ↔ v.toNat < d.toNat) ∧ (condTrue .ls f = true ↔ d.toNat ≤ v.toNat) ∧
    (condTrue .cc f = true ↔ v.toNat ≤ d.toNat) ∧ (condTrue .cs f = true ↔ d.toNat < v.toNat) ∧
    (condTrue .ne f = true ↔ d ≠ v) ∧ (condTrue .eq f = true ↔ d = v) ∧
    (condTrue .ge f = true ↔ signedOf sz v ≤ signedOf sz d) ∧
    (condTrue .lt f = true ↔ signedOf sz d < signedOf sz v) ∧
    (condTrue .gt f = true ↔ signedOf sz v < signedOf sz d) ∧
    (condTrue .le f = true ↔ signedOf sz d ≤ signedOf sz v) ∧
    (∀ g : CC, condTrue .t g = true ∧ condTrue .f g = false ∧ condTrue .vc g = !g.v ∧ condTrue .vs g = g.v ∧
      condTrue .pl g = !g.n ∧ condTrue .mi g = g.n)

/-- When the source reads as v and the destination can be written, MOVE writes v there, sets N and Z from v,
clears V and C, keeps X, and changes nothing else but the registers the modes step. The destination address is
computed after the source was read; a data register keeps its upper bits. (R201, R200, R114, R73) -/
def Obligations.MoveResult : Prop :=
  ∀ (s t u : State) (sz : Size) (src dst : Ea) (v : Long), s.mem.wf = true →
    readEa sz 0 src s = .ok v t → writeEa sz src.words dst v (t.setCc (valueCc sz v t.cc)) = .ok () u →
    exec (.move sz src dst) s = .next (u.goOn (s.npc (1 + src.words + dst.words))) ∧
    u.cc = valueCc sz v s.cc ∧ sameSystem s u ∧
    (∀ r, dst = .dreg r → sameBytes s u ∧ sameRegs (⟨false, r⟩ :: steppedBy src) s u ∧
      (u.dreg r).toNat = (s.dreg r).toNat / 2 ^ sz.bits * 2 ^ sz.bits + v.toNat) ∧
    (∀ a x, memAddr sz src.words dst (t.setCc (valueCc sz v t.cc)) = .ok a x →
      sameBytesBut s.dataSpace a sz.bytes s u ∧ sameRegs (steppedBy src ++ steppedBy dst) s u ∧
      (s.inRam s.dataSpace a sz.bytes → u.load s.dataSpace a sz.bytes = longBytes v sz.bytes))

/-- MOVEA loads An with the sign-extended operand; LEA loads the address itself; EXG exchanges 32 bits; ADDA and
SUBA add to and subtract from all of An the sign-extended operand, ADDQ and SUBQ the numbers 1 to 8; none of
them changes a flag. CMPA compares all of An with the sign-extended operand. (R202, R206, R210, R232, R250,
R234, R252, R238) -/
def Obligations.AddressResults : Prop :=
  ∀ (s t : State) (sz : WL) (ea : Ea) (an : Reg) (v : Long),
    (readEa sz.size 0 ea s = .ok v t →
      let x := BitVec.ofInt 32 (signedOf sz.size v)
      exec (.movea sz ea an) s = .next ((t.setA an x).goOn (s.npc (1 + ea.words))) ∧
      exec (.adda sz ea an) s = .next ((t.setA an (t.areg an + x)).goOn (s.npc (1 + ea.words))) ∧
      exec (.suba sz ea an) s = .next ((t.setA an (t.areg an - x)).goOn (s.npc (1 + ea.words))) ∧
      exec (.cmpa sz ea an) s =
        .next ((t.setCc (cmpCc .l (exactSub .l x (t.areg an) false) t.cc)).goOn (s.npc (1 + ea.words)))) ∧
    (∀ a, memAddr .l 0 ea s = .ok a t →
      exec (.lea ea an) s = .next ((t.setA an a).goOn (s.npc (1 + ea.words)))) ∧
    (∀ (size : Size) (data : Reg), let q := BitVec.ofNat 32 (if data = 0 then 8 else data.val)
      exec (.addq size data (.areg an)) s = .next ((s.setA an (s.areg an + q)).goOn (s.npc 1)) ∧
      exec (.subq size data (.areg an)) s = .next ((s.setA an (s.areg an - q)).goOn (s.npc 1))) ∧
    (∀ rx ry : Reg,
      exec (.exg .dd rx ry) s = .next (((s.setD rx (s.dreg ry)).setD ry (s.dreg rx)).goOn (s.npc 1)) ∧
      exec (.exg .aa rx ry) s = .next (((s.setA rx (s.areg ry)).setA ry (s.areg rx)).goOn (s.npc 1)) ∧
      exec (.exg .da rx ry) s = .next (((s.setD rx (s.areg ry)).setA ry (s.dreg rx)).goOn (s.npc 1)))

/-- The words 0111 rrr 0 dddddddd, $4880, $49C0, $48C0 and $4840 plus the register decode to MOVEQ, EXT.W,
EXTB.L, EXT.L and SWAP. MOVEQ loads the sign-extended byte; EXT.W extends the byte to the low word and keeps the
upper word; EXT.L and EXTB.L extend to the register; SWAP exchanges the halves. N and Z come from the result at
its size, V and C are 0, X is unchanged, and the next instruction follows. (R203, R244, R300) -/
def Obligations.QuickExtendSwap : Prop :=
  ∀ (s : State) (dn : Reg) (data : Byte),
    let d := s.dreg dn
    let low := BitVec.ofInt 32 (signedOf .b d)
    let half := BitVec.ofInt 32 (signedOf .w d)
    let imm := BitVec.ofInt 32 data.toInt
    let swapped := BitVec.ofNat 32 (d.toNat % 65536 * 65536 + d.toNat / 65536)
    decode [0x7000 ||| (BitVec.ofNat 16 dn.val <<< 9) ||| data.setWidth 16] = .instr (.moveq dn data) 1 ∧
    decode [0x4880 ||| BitVec.ofNat 16 dn.val] = .instr (.extW dn) 1 ∧
    decode [0x48C0 ||| BitVec.ofNat 16 dn.val] = .instr (.extL dn) 1 ∧
    decode [0x49C0 ||| BitVec.ofNat 16 dn.val] = .instr (.extbL dn) 1 ∧
    decode [0x4840 ||| BitVec.ofNat 16 dn.val] = .instr (.swap dn) 1 ∧
    exec (.moveq dn data) s = .next (((s.setD dn imm).setCc (valueCc .l imm s.cc)).goOn (s.pc + 2)) ∧
    exec (.extW dn) s = .next (((s.setD dn (BitVec.ofNat 32 (d.toNat / 65536 * 65536 + low.toNat % 65536))).setCc
      ⟨s.cc.x, decide (signedOf .b d < 0), decide (signedOf .b d = 0), false, false⟩).goOn (s.pc + 2)) ∧
    exec (.extL dn) s = .next (((s.setD dn half).setCc (valueCc .l half s.cc)).goOn (s.pc + 2)) ∧
    exec (.extbL dn) s = .next (((s.setD dn low).setCc (valueCc .l low s.cc)).goOn (s.pc + 2)) ∧
    exec (.swap dn) s = .next (((s.setD dn swapped).setCc (valueCc .l swapped s.cc)).goOn (s.pc + 2))

/-- To a control alterable mode the registers of the mask are stored from the address upward, D0 first, bit 0 of
the mask naming D0 and bit 15 A7. With -(An) they are stored downward, A7 first, bit 0 naming A7 and bit 15 D0;
An itself is stored as its initial value less the size, and ends at the last address. No flag changes and no
byte outside the block. (R204, R200, R73) -/
def Obligations.MovemStores : Prop :=
  ∀ (s : State) (sz : WL) (mask : Word), s.mem.wf = true →
    let n := sz.size.bytes
    let file : List Rn := [⟨false, 0⟩, ⟨false, 1⟩, ⟨false, 2⟩, ⟨false, 3⟩, ⟨false, 4⟩, ⟨false, 5⟩, ⟨false, 6⟩, ⟨false, 7⟩,
      ⟨true, 0⟩, ⟨true, 1⟩, ⟨true, 2⟩, ⟨true, 3⟩, ⟨true, 4⟩, ⟨true, 5⟩, ⟨true, 6⟩, ⟨true, 7⟩]
    let named := fun (l : List Rn) => (l.zipIdx.filter fun p => mask.getLsbD p.2).map (·.1)
    (∀ ea a, memAddr sz.size 1 ea s = .ok a s → inMemory ea = true → steppedBy ea = [] →
      let regs := named file
      (∀ k < regs.length, s.writable s.dataSpace (a + BitVec.ofNat 32 (n * k)) n) →
      let u := regs.zipIdx.foldl (fun (u : State) (p : Rn × Nat) =>
        u.store s.dataSpace (a + BitVec.ofNat 32 (n * p.2)) (longBytes (s.getR p.1) n)) s
      exec (.movemToMem sz mask ea) s = .next (u.goOn (s.npc (2 + ea.words))) ∧
      sameBytesBut s.dataSpace a (n * regs.length) s u) ∧
    (∀ r, let regs := named file.reverse
      let end_ := s.areg r - BitVec.ofNat 32 (n * regs.length)
      (∀ k < regs.length, s.writable s.dataSpace (end_ + BitVec.ofNat 32 (n * k)) n) →
      let u := regs.zipIdx.foldl (fun (u : State) (p : Rn × Nat) =>
        u.store s.dataSpace (s.areg r - BitVec.ofNat 32 (n * (p.2 + 1)))
          (longBytes (if p.1 = ⟨true, r⟩ then s.areg r - BitVec.ofNat 32 n else s.getR p.1) n)) s
      exec (.movemToMem sz mask (.predec r)) s = .next ((u.setA r end_).goOn (s.npc 2)) ∧
      sameBytesBut s.dataSpace end_ (n * regs.length) s u)

/-- The registers of the mask are loaded from the address upward, D0 first, bit 0 of the mask naming D0 and bit
15 A7, words sign-extended to 32 bits, from program space for a PC-relative mode. With (An)+ the final An is the
address after the last operand even where An is in the mask. No flag and no memory changes. (R204, R200) -/
def Obligations.MovemLoads : Prop :=
  ∀ (s : State) (sz : WL) (mask : Word),
    let n := sz.size.bytes
    let file : List Rn := [⟨false, 0⟩, ⟨false, 1⟩, ⟨false, 2⟩, ⟨false, 3⟩, ⟨false, 4⟩, ⟨false, 5⟩, ⟨false, 6⟩, ⟨false, 7⟩,
      ⟨true, 0⟩, ⟨true, 1⟩, ⟨true, 2⟩, ⟨true, 3⟩, ⟨true, 4⟩, ⟨true, 5⟩, ⟨true, 6⟩, ⟨true, 7⟩]
    let regs := (file.zipIdx.filter fun p => mask.getLsbD p.2).map (·.1)
    let load := fun (space : FC) (a : Long) => regs.zipIdx.foldl (fun (u : State) (p : Rn × Nat) =>
      u.setR p.1 (BitVec.ofInt 32
        (signedOf sz.size (bytesLong (s.load space (a + BitVec.ofNat 32 (n * p.2)) n))))) s
    (∀ ea a, memAddr sz.size 1 ea s = .ok a s → steppedBy ea = [] →
      (∀ k < regs.length, s.readable (s.eaSpace ea) (a + BitVec.ofNat 32 (n * k)) n) →
      exec (.movemToReg sz mask ea) s = .next ((load (s.eaSpace ea) a).goOn (s.npc (2 + ea.words)))) ∧
    (∀ r, (∀ k < regs.length, s.readable s.dataSpace (s.areg r + BitVec.ofNat 32 (n * k)) n) →
      exec (.movemToReg sz mask (.postinc r)) s = .next
        (((load s.dataSpace (s.areg r)).setA r (s.areg r + BitVec.ofNat 32 (n * regs.length))).goOn (s.npc 2)))

/-- Storing writes the bytes of the low word or of the long word of Dx, the highest first, at (d16,Ay), +2, +4,
+6 and leaves every other byte alone; loading reads them into the low word or the whole of Dx. No flag changes.
(R205, R200) -/
def Obligations.MovepResult : Prop :=
  ∀ (s : State) (sz : WL) (dx ay : Reg) (d16 : Word), s.mem.wf = true →
    let n := sz.size.bytes
    let place := fun (k : Nat) => s.areg ay + BitVec.ofInt 32 d16.toInt + BitVec.ofNat 32 (2 * k)
    ((∀ k < n, s.writable s.dataSpace (place k) 1) →
      ∃ u : State, exec (.movep true sz dx ay d16) s = .next (u.goOn (s.npc 2)) ∧
        u = { s with mem := u.mem } ∧
        (∀ k < n, s.area s.dataSpace (place k) = none → u.byte s.dataSpace (place k) =
          BitVec.ofNat 8 ((s.dreg dx).toNat / 256 ^ (n - 1 - k))) ∧
        ∀ (fc : FC) (b : Long), (∀ k < n, b ≠ place k) → u.byte fc b = s.byte fc b) ∧
    ((∀ k < n, s.readable s.dataSpace (place k) 1) →
      exec (.movep false sz dx ay d16) s = .next ((s.putD sz.size dx
        (bytesLong ((List.range n).map fun k => s.byte s.dataSpace (place k)))).goOn (s.npc 2)))

/-- PEA pushes the address; JSR and BSR push the address of the next instruction and go to the target; LINK
pushes An, sets it to the new SP and adds the displacement to SP; UNLK undoes it; RTS, RTR and RTD pop the PC,
RTR after the condition codes, RTD then adding its displacement to SP. LINK and UNLK with A7 are refused by
name, as the spec asks. (R207, R208, R209, R352, R356, R357, R358, R359) -/
def Obligations.StackResults : Prop :=
  ∀ (s : State),
    let sd := s.dataSpace
    let f := s.sp - 4
    (∀ ea a t, memAddr .l 0 ea s = .ok a t → t.writable sd (t.sp - 4) 4 →
      exec (.pea ea) s =
        .next (((t.setSp (t.sp - 4)).store sd (t.sp - 4) (longBytes a 4)).goOn (s.npc (1 + ea.words))) ∧
      exec (.jsr ea) s =
        .next (((t.setSp (t.sp - 4)).store sd (t.sp - 4) (longBytes (s.npc (1 + ea.words)) 4)).flowTo a)) ∧
    (s.writable sd f 4 →
      (∀ d, exec (.bsr d) s = .next (((s.setSp f).store sd f (longBytes (s.npc (1 + d.words)) 4)).flowTo
        (s.pc + 2 + BitVec.ofInt 32 (distance d)))) ∧
      (∀ an d, an ≠ 7 → exec (.linkW an d) s = .next (((((s.setSp f).store sd f (longBytes (s.areg an) 4)).setA an
        f).setSp (f + BitVec.ofInt 32 d.toInt)).goOn (s.npc 2))) ∧
      (∀ an d, an ≠ 7 → exec (.linkL an d) s = .next (((((s.setSp f).store sd f (longBytes (s.areg an) 4)).setA an
        f).setSp (f + d)).goOn (s.npc 3)))) ∧
    (∀ an, an ≠ 7 → s.readable sd (s.areg an) 4 → exec (.unlk an) s =
      .next (((s.setSp (s.areg an + 4)).setA an (s.longAt sd (s.areg an))).goOn (s.npc 1))) ∧
    (∀ d, exec (.linkW 7 d) s = .refused .linkA7) ∧ (∀ d, exec (.linkL 7 d) s = .refused .linkA7) ∧
    exec (.unlk 7) s = .refused .unlkA7 ∧
    (s.readable sd s.sp 4 →
      exec .rts s = .next ((s.setSp (s.sp + 4)).flowTo (s.longAt sd s.sp)) ∧
      ∀ d : Word, exec (.rtd d) s =
        .next ((s.setSp (s.sp + 4 + BitVec.ofInt 32 d.toInt)).flowTo (s.longAt sd s.sp))) ∧
    (s.readable sd s.sp 2 → s.readable sd (s.sp + 2) 4 → exec .rtr s =
      .next (((s.setCc (CC.ofBits ((s.wordAt sd s.sp).setWidth 16))).setSp (s.sp + 6)).flowTo
        (s.longAt sd (s.sp + 2))))

/-- With source v and destination d the result is d + v or d - v modulo the size; C tells that the unsigned
result does not fit, V that the signed one does not, N and Z are of the result, X is C for ADD and SUB and
unchanged for the compares, which write nothing. The register keeps its bits above the size. (R230, R231, R249,
R237, R239, R240, R278) -/
def Obligations.ArithToRegister : Prop :=
  ∀ (s t u : State) (sz : Size) (ea : Ea) (dn : Reg) (v d : Long) (x : Imm),
    (readEa sz 0 ea s = .ok v t →
      let e := trunc sz (t.dreg dn)
      let sum := exactAdd sz v e false
      let dif := exactSub sz v e false
      exec (.addToReg sz ea dn) s = .next (((t.putD sz dn sum.r).setCc (sumCc sz sum)).goOn (s.npc (1 + ea.words))) ∧
      exec (.subToReg sz ea dn) s = .next (((t.putD sz dn dif.r).setCc (sumCc sz dif)).goOn (s.npc (1 + ea.words))) ∧
      exec (.cmp sz ea dn) s = .next ((t.setCc (cmpCc sz dif t.cc)).goOn (s.npc (1 + ea.words))) ∧
      exec (.tst sz ea) s = .next ((t.setCc (valueCc sz v t.cc)).goOn (s.npc (1 + ea.words)))) ∧
    (readEa sz x.words ea s = .ok d t →
      exec (.cmpi sz x ea) s = .next ((t.setCc (cmpCc sz (exactSub sz (immValue sz x) d false) t.cc)).goOn
        (s.npc (1 + x.words + ea.words)))) ∧
    (∀ ay ax, readEa sz 0 (.postinc ay) s = .ok v t → readEa sz 0 (.postinc ax) t = .ok d u →
      exec (.cmpm sz ay ax) s = .next ((u.setCc (cmpCc sz (exactSub sz v d false) u.cc)).goOn (s.npc 1)))

/-- The operand d, read once and written back to the same place, becomes d + v, d - v or 0 - d modulo the size,
with C and X the unsigned overflow or borrow, V the signed overflow, N and Z of the result; v is Dn, the
immediate, or 1 to 8. (R230, R231, R233, R234, R247, R249, R251, R252) -/
def Obligations.ArithInPlace : Prop :=
  ∀ (s u : State) (sz : Size) (ea : Ea) (dn data : Reg) (x : Imm),
    let add := fun (v d : Long) (_ : CC) => ((exactAdd sz v d false).r, sumCc sz (exactAdd sz v d false))
    let sub := fun (v d : Long) (_ : CC) => ((exactSub sz v d false).r, sumCc sz (exactSub sz v d false))
    let q : Long := BitVec.ofNat 32 (if data = 0 then 8 else data.val)
    (Changes sz 0 ea (add (trunc sz (s.dreg dn))) s u →
      exec (.addToEa sz dn ea) s = .next (u.goOn (s.npc (1 + ea.words)))) ∧
    (Changes sz 0 ea (sub (trunc sz (s.dreg dn))) s u →
      exec (.subToEa sz dn ea) s = .next (u.goOn (s.npc (1 + ea.words)))) ∧
    (Changes sz x.words ea (add (immValue sz x)) s u →
      exec (.addi sz x ea) s = .next (u.goOn (s.npc (1 + x.words + ea.words)))) ∧
    (Changes sz x.words ea (sub (immValue sz x)) s u →
      exec (.subi sz x ea) s = .next (u.goOn (s.npc (1 + x.words + ea.words)))) ∧
    (Changes sz 0 ea (add q) s u → exec (.addq sz data ea) s = .next (u.goOn (s.npc (1 + ea.words)))) ∧
    (Changes sz 0 ea (sub q) s u → exec (.subq sz data ea) s = .next (u.goOn (s.npc (1 + ea.words)))) ∧
    (Changes sz 0 ea (fun d _ => ((exactSub sz d 0 false).r, sumCc sz (exactSub sz d 0 false))) s u →
      exec (.neg sz ea) s = .next (u.goOn (s.npc (1 + ea.words))))

/-- The result is d + v + X, d - v - X or 0 - d - X with the flags of ADD or SUB, but Z is cleared by a nonzero
result and otherwise unchanged. The memory forms predecrement the source register first, then the destination
register. (R235, R248, R253) -/
def Obligations.ExtendedArith : Prop :=
  ∀ (s t u : State) (sz : Size) (ry rx : Reg) (ea : Ea) (v : Long),
    let add := fun (v d : Long) (cc : CC) => ((exactAdd sz v d cc.x).r, stickyCc sz (exactAdd sz v d cc.x) cc)
    let sub := fun (v d : Long) (cc : CC) => ((exactSub sz v d cc.x).r, stickyCc sz (exactSub sz v d cc.x) cc)
    (Changes sz 0 (.dreg rx) (add (trunc sz (s.dreg ry))) s u →
      exec (.addx sz false ry rx) s = .next (u.goOn (s.npc 1))) ∧
    (Changes sz 0 (.dreg rx) (sub (trunc sz (s.dreg ry))) s u →
      exec (.subx sz false ry rx) s = .next (u.goOn (s.npc 1))) ∧
    (readEa sz 0 (.predec ry) s = .ok v t → Changes sz 0 (.predec rx) (add v) t u →
      exec (.addx sz true ry rx) s = .next (u.goOn (s.npc 1))) ∧
    (readEa sz 0 (.predec ry) s = .ok v t → Changes sz 0 (.predec rx) (sub v) t u →
      exec (.subx sz true ry rx) s = .next (u.goOn (s.npc 1))) ∧
    (Changes sz 0 ea (fun d cc => sub d 0 cc) s u →
      exec (.negx sz ea) s = .next (u.goOn (s.npc (1 + ea.words))))

/-- The result is the bitwise operation at the size; N and Z are of the result, V and C are 0, X is unchanged.
(R270, R271, R272, R273, R274, R275, R276, R277) -/
def Obligations.LogicResults : Prop :=
  ∀ (s t u : State) (sz : Size) (ea : Ea) (dn : Reg) (v : Long) (x : Imm),
    let by_ := fun (op : Long → Long → Long) (v d : Long) (cc : CC) => (op d v, valueCc sz (op d v) cc)
    let go := fun (w : Nat) => Host.Outcome.next (φ := Fault) (ρ := Refusal) (u.goOn (s.npc (w + ea.words)))
    (readEa sz 0 ea s = .ok v t →
      let a := trunc sz (t.dreg dn) &&& v
      let o := trunc sz (t.dreg dn) ||| v
      exec (.andToReg sz ea dn) s = .next (((t.putD sz dn a).setCc (valueCc sz a t.cc)).goOn (s.npc (1 + ea.words))) ∧
      exec (.orToReg sz ea dn) s = .next (((t.putD sz dn o).setCc (valueCc sz o t.cc)).goOn (s.npc (1 + ea.words)))) ∧
    (Changes sz 0 ea (by_ (· &&& ·) (trunc sz (s.dreg dn))) s u → exec (.andToEa sz dn ea) s = go 1) ∧
    (Changes sz 0 ea (by_ (· ||| ·) (trunc sz (s.dreg dn))) s u → exec (.orToEa sz dn ea) s = go 1) ∧
    (Changes sz 0 ea (by_ (· ^^^ ·) (trunc sz (s.dreg dn))) s u → exec (.eor sz dn ea) s = go 1) ∧
    (Changes sz x.words ea (by_ (· &&& ·) (immValue sz x)) s u → exec (.andi sz x ea) s = go (1 + x.words)) ∧
    (Changes sz x.words ea (by_ (· ||| ·) (immValue sz x)) s u → exec (.ori sz x ea) s = go (1 + x.words)) ∧
    (Changes sz x.words ea (by_ (· ^^^ ·) (immValue sz x)) s u → exec (.eori sz x ea) s = go (1 + x.words)) ∧
    (Changes sz 0 ea (fun d cc => (sizeMask sz - d, valueCc sz (sizeMask sz - d) cc)) s u →
      exec (.not sz ea) s = go 1)

/-- CLR writes 0 and sets Z, clears N, V and C; Scc writes all ones or zeros by the condition; MOVE from SR
(supervisor) writes the SR; MOVE from CCR writes the five flags zero-extended. Only CLR changes flags, and X
never. (R236, R354, R392, R400) -/
def Obligations.WritesOnly : Prop :=
  ∀ (s u : State) (sz : Size) (ea : Ea) (c : Cond),
    (writeEa sz 0 ea 0 (s.setCc ⟨s.cc.x, false, true, false, false⟩) = .ok () u →
      exec (.clr sz ea) s = .next (u.goOn (s.npc (1 + ea.words)))) ∧
    (writeEa .b 0 ea (if condTrue c s.cc then 255 else 0) s = .ok () u →
      exec (.scc c ea) s = .next (u.goOn (s.npc (1 + ea.words)))) ∧
    (s.sBit = true → writeEa .w 0 ea (BitVec.ofNat 32 s.sr.toNat) s = .ok () u →
      exec (.moveFromSr ea) s = .next (u.goOn (s.npc (1 + ea.words)))) ∧
    (writeEa .w 0 ea (BitVec.ofNat 32 (s.sr.toNat % 32)) s = .ok () u →
      exec (.moveFromCcr ea) s = .next (u.goOn (s.npc (1 + ea.words))))

/-- Z tells that the register equals a bound. Where the lower bound is not above the upper as signed numbers, or
as unsigned ones, C tells that the register is outside them in that order; X is unchanged. For an address
register 32 bits are compared with the sign-extended bounds. N and V are free, and C for bounds in neither
order. CHK2 then traps (vector 6) when C is set; CMP2 never does. (That N and V are free is log 34; that bounds
in neither order leave C free and still fix Z, instead of the refusal of U24, is log 25.) (R241, R384, R533) -/
def Obligations.BoundsCompared : Prop :=
  ∀ (s t : State) (sz : Size) (ea : Ea) (rn : Rn) (a : Long), memAddr sz 1 ea s = .ok a t →
    t.readable (t.eaSpace ea) a sz.bytes →
    t.readable (t.eaSpace ea) (a + BitVec.ofNat 32 sz.bytes) sz.bytes →
    let m1 := bytesLong (t.load (t.eaSpace ea) a sz.bytes)
    let m2 := bytesLong (t.load (t.eaSpace ea) (a + BitVec.ofNat 32 sz.bytes) sz.bytes)
    let wc : Size := if rn.isAddr then .l else sz
    let lo : Long := if rn.isAddr then BitVec.ofInt 32 (signedOf sz m1) else m1
    let hi : Long := if rn.isAddr then BitVec.ofInt 32 (signedOf sz m2) else m2
    let v := trunc wc (t.getR rn)
    ∃ n o c : Bool,
      (∀ sg, numberOf sg wc lo ≤ numberOf sg wc hi →
        (c = true ↔ numberOf sg wc v < numberOf sg wc lo ∨ numberOf sg wc hi < numberOf sg wc v)) ∧
      let u := (t.used 1).setCc ⟨t.cc.x, n, decide (v = lo ∨ v = hi), o, c⟩
      exec (.cmp2 sz ea rn) s = .next (u.goOn (s.npc (2 + ea.words))) ∧
      exec (.chk2 sz ea rn) s = (if c then
        .next (u.takeException ⟨6, s.npc (2 + ea.words), .six s.pc, .trapped⟩)
        else .next (u.goOn (s.npc (2 + ea.words))))

/-- With a nonzero divisor and the quotient q and remainder r of the 32-bit dividend: if q fits 16 bits, Dn is r
: q, N and Z are of q, V and C are 0; if not, Dn is unchanged, V is 1, C is 0 and N and Z are free. A zero
divisor takes vector 5 with C = 0 and N, Z, V free. X is unchanged. (R230, R242, R535) -/
def Obligations.DivideWord : Prop :=
  ∀ (s t : State) (ea : Ea) (dn : Reg) (v : Long) (sg : Bool), readEa .w 0 ea s = .ok v t →
    let i : Instr := if sg then .divsW ea dn else .divuW ea dn
    let n := numberOf sg .l (t.dreg dn)
    let d := numberOf sg .w v
    let out := fun (u : State) => Host.Outcome.next (φ := Fault) (ρ := Refusal) (u.goOn (s.npc (1 + ea.words)))
    (d = 0 → ∃ n z o, exec i s = .next (((t.used 1).setCc ⟨t.cc.x, n, z, o, false⟩).takeException
      ⟨5, s.npc (1 + ea.words), .six s.pc, .trapped⟩)) ∧
    ∀ q r, d ≠ 0 → Divides n d q r →
      (inRange sg 16 q → exec i s = out ((t.setD dn (BitVec.ofInt 16 r ++ BitVec.ofInt 16 q)).setCc
        (valueCc .w (BitVec.ofInt 32 (q % 65536)) t.cc))) ∧
      (¬ inRange sg 16 q → ∃ n z, exec i s = out ((t.used 1).setCc ⟨t.cc.x, n, z, true, false⟩))

/-- The dividend is Dq, or Dr : Dq for the 64-bit form. If the quotient fits 32 bits it goes to Dq and the
remainder to Dr where Dr is another register, with N and Z of the quotient and V, C 0; with Dr = Dq the 32-bit
form keeps the quotient and the 64-bit form leaves a free value. Overflow changes no register and sets V; a zero
divisor takes vector 5. (R230, R243, R535) -/
def Obligations.DivideLong : Prop :=
  ∀ (s t : State) (ea : Ea) (dq dr : Reg) (v : Long) (sg wide : Bool), readEa .l 1 ea s = .ok v t →
    let i : Instr := .divL ea dq sg wide dr
    let n := if wide then
        (if sg then (t.dreg dr).toInt else (t.dreg dr).toNat) * 2 ^ 32 + (t.dreg dq).toNat
      else numberOf sg .l (t.dreg dq)
    let d := numberOf sg .l v
    let out := fun (u : State) => Host.Outcome.next (φ := Fault) (ρ := Refusal) (u.goOn (s.npc (2 + ea.words)))
    (d = 0 → ∃ n z o, exec i s = .next (((t.used 1).setCc ⟨t.cc.x, n, z, o, false⟩).takeException
      ⟨5, s.npc (2 + ea.words), .six s.pc, .trapped⟩)) ∧
    ∀ q r, d ≠ 0 → Divides n d q r →
      (inRange sg 32 q →
        let u := t.setCc (valueCc .l (BitVec.ofInt 32 q) t.cc)
        (dr ≠ dq → exec i s = out ((u.setD dr (BitVec.ofInt 32 r)).setD dq (BitVec.ofInt 32 q))) ∧
        (dr = dq → wide = false → exec i s = out (u.setD dq (BitVec.ofInt 32 q))) ∧
        (dr = dq → wide = true → ∃ x, exec i s = out ((u.used 1).setD dq x))) ∧
      (¬ inRange sg 32 q → ∃ n z, exec i s = out ((t.used 1).setCc ⟨t.cc.x, n, z, true, false⟩))

/-- The word forms leave the exact 32-bit product. The long form keeps the low 32 bits and sets V when the
product does not fit; the 64-bit form leaves both halves, V = 0 (with Dh = Dl the register is free). N and Z are
of the result, C is 0, X is unchanged. (R230, R245, R246) -/
def Obligations.Products : Prop :=
  ∀ (s t : State) (ea : Ea) (dn dh : Reg) (v : Long) (sg : Bool),
    (readEa .w 0 ea s = .ok v t →
      let p := BitVec.ofInt 32 (numberOf sg .w (trunc .w (t.dreg dn)) * numberOf sg .w v)
      exec (if sg then .mulsW ea dn else .muluW ea dn) s =
        .next (((t.setD dn p).setCc (valueCc .l p t.cc)).goOn (s.npc (1 + ea.words)))) ∧
    (readEa .l 1 ea s = .ok v t →
      let p := numberOf sg .l (t.dreg dn) * numberOf sg .l v
      let lo := BitVec.ofInt 32 p
      let out := fun (u : State) => Host.Outcome.next (φ := Fault) (ρ := Refusal) (u.goOn (s.npc (2 + ea.words)))
      (∀ o : Bool, (o = true ↔ ¬ inRange sg 32 p) → exec (.mulL ea dn sg false dh) s =
        out ((t.setD dn lo).setCc ⟨t.cc.x, decide (signedOf .l lo < 0), decide (lo = 0), o, false⟩)) ∧
      (let u := t.setCc ⟨t.cc.x, decide (2 ^ 63 ≤ p % 2 ^ 64), decide (p = 0), false, false⟩;
        (dh ≠ dn → exec (.mulL ea dn sg true dh) s =
          out ((u.setD dh (BitVec.ofInt 32 (p / 2 ^ 32))).setD dn lo)) ∧
        (dh = dn → ∃ x, exec (.mulL ea dn sg true dh) s = out ((u.used 1).setD dn x))))

/-- Register forms shift the operand by the immediate 1 to 8 or by a register modulo 64, memory forms a word by
one: left is the product and right the floor of the quotient by a power of two; C and X are the last bit shifted
out, for a count of 0 C is 0 and X unchanged; V tells for ASL that the signed product does not fit and is else
0. (R290, R291, R292, R293, R294, R299) -/
def Obligations.Shifts : Prop :=
  ∀ (s u : State) (sz : Size) (c : ShiftCount) (dn : Reg) (ea : Ea),
    let n : Nat := match c with
      | .imm k => if k = 0 then 8 else k.val
      | .reg r => (s.dreg r).toNat % 64
    let reg := fun (o : Shifted) => Host.Outcome.next (φ := Fault) (ρ := Refusal)
      (((s.putD sz dn o.r).setCc (shiftedCc sz o)).goOn (s.npc 1))
    let mem := fun (f : Size → Nat → Long → Bool → Shifted) =>
      Changes .w 0 ea (fun d cc => ((f .w 1 d cc.x).r, shiftedCc .w (f .w 1 d cc.x))) s u
    let out := Host.Outcome.next (φ := Fault) (ρ := Refusal) (u.goOn (s.npc (1 + ea.words)))
    let d := trunc sz (s.dreg dn)
    exec (.aslReg sz c dn) s = reg (exactLeft true sz n d s.cc.x) ∧
    exec (.lslReg sz c dn) s = reg (exactLeft false sz n d s.cc.x) ∧
    exec (.asrReg sz c dn) s = reg (exactRight true sz n d s.cc.x) ∧
    exec (.lsrReg sz c dn) s = reg (exactRight false sz n d s.cc.x) ∧
    (mem (exactLeft true) → exec (.aslMem ea) s = out) ∧
    (mem (exactLeft false) → exec (.lslMem ea) s = out) ∧
    (mem (exactRight true) → exec (.asrMem ea) s = out) ∧
    (mem (exactRight false) → exec (.lsrMem ea) s = out)

/-- ROL and ROR rotate the operand, C is the last bit rotated around (0 for a count of 0) and X is unchanged;
ROXL and ROXR rotate it with X on top, and C and X are the new X. V is 0, N and Z are of the result; memory
forms rotate a word by one. (R290, R295, R296, R297, R298, R299) -/
def Obligations.Rotates : Prop :=
  ∀ (s u : State) (sz : Size) (c : ShiftCount) (dn : Reg) (ea : Ea),
    let n : Nat := match c with
      | .imm k => if k = 0 then 8 else k.val
      | .reg r => (s.dreg r).toNat % 64
    let reg := fun (o : Shifted) => Host.Outcome.next (φ := Fault) (ρ := Refusal)
      (((s.putD sz dn o.r).setCc (shiftedCc sz o)).goOn (s.npc 1))
    let mem := fun (f : Size → Nat → Long → Bool → Shifted) =>
      Changes .w 0 ea (fun d cc => ((f .w 1 d cc.x).r, shiftedCc .w (f .w 1 d cc.x))) s u
    let out := Host.Outcome.next (φ := Fault) (ρ := Refusal) (u.goOn (s.npc (1 + ea.words)))
    let d := trunc sz (s.dreg dn)
    exec (.rolReg sz c dn) s = reg (exactRotate true sz n d s.cc.x) ∧
    exec (.rorReg sz c dn) s = reg (exactRotate false sz n d s.cc.x) ∧
    exec (.roxlReg sz c dn) s = reg (exactRotateX true sz n d s.cc.x) ∧
    exec (.roxrReg sz c dn) s = reg (exactRotateX false sz n d s.cc.x) ∧
    (mem (exactRotate true) → exec (.rolMem ea) s = out) ∧
    (mem (exactRotate false) → exec (.rorMem ea) s = out) ∧
    (mem (exactRotateX true) → exec (.roxlMem ea) s = out) ∧
    (mem (exactRotateX false) → exec (.roxrMem ea) s = out)

/-- The bit number counts modulo 32 in a data register and modulo 8 in a memory byte; Z tells that the bit was
0; BCHG inverts it, BCLR clears it, BSET sets it; no other bit of the operand and no other flag changes. The
number is a data register or the low byte of the extension word. (R310, R311, R312, R313, R314) -/
def Obligations.SingleBits : Prop :=
  ∀ (s t u : State) (ea : Ea) (dn : Reg) (x : Word) (v : Long),
    let sz := bitSize ea
    let forms : List (Nat × Nat × Instr × Instr × Instr × Instr) :=
      [(0, (s.dreg dn).toNat, .btstDyn dn ea, .bchgDyn dn ea, .bclrDyn dn ea, .bsetDyn dn ea),
       (1, x.toNat % 256, .btstImm x ea, .bchgImm x ea, .bclrImm x ea, .bsetImm x ea)]
    ∀ p ∈ forms, match p with
      | (own, n, tst, chg, clr, set) =>
        let k := n % sz.bits
        let out := fun (u : State) => Host.Outcome.next (φ := Fault) (ρ := Refusal)
          (u.goOn (s.npc (1 + own + ea.words)))
        let act := fun (f : Bool → Bool) => Changes sz own ea (fun d cc =>
          ((if f (d.getLsbD k) then d ||| BitVec.twoPow 32 k else d &&& ~~~ BitVec.twoPow 32 k),
            { cc with z := !d.getLsbD k })) s u
        (readEa sz own ea s = .ok v t → exec tst s = out (t.setCc { t.cc with z := !v.getLsbD k })) ∧
        (act (fun old => !old) → exec chg s = out u) ∧
        (act (fun _ => false) → exec clr s = out u) ∧
        (act (fun _ => true) → exec set s = out u)

/-- Bit i of a field, counted from its most significant bit, is bit offset + i of the register counted from bit
31 and wrapping, or of the byte string counted from the most significant bit of the first byte. Replacing the
field writes exactly those bits. (R320) -/
def Obligations.FieldBits : Prop :=
  ∀ (d v : Long) (off w : Nat) (bs : List Byte), 1 ≤ w → w ≤ 32 →
    (off < 32 →
      (regField32 d off w).toNat < 2 ^ w ∧
      (∀ i < w, (regField32 d off w).getLsbD (w - 1 - i) = d.getLsbD (31 - (off + i) % 32)) ∧
      ∀ j < 32, let i := (j + 32 - off) % 32
        (putRegField32 d off w v).getLsbD (31 - j) =
          if i < w then v.getLsbD (w - 1 - i) else d.getLsbD (31 - j)) ∧
    (off + w ≤ 8 * bs.length →
      (memField bs off w).toNat < 2 ^ w ∧
      (∀ i < w, (memField bs off w).getLsbD (w - 1 - i) = stringBit bs (off + i)) ∧
      (putMemField bs off w v).length = bs.length ∧
      ∀ j < 8 * bs.length, stringBit (putMemField bs off w v) j =
        if off ≤ j ∧ j < off + w then v.getLsbD (w - 1 - (j - off)) else stringBit bs j)

/-- The offset is the number in the extension word or a data register read as a signed number; the width is the
number there or in a data register modulo 32, 0 meaning 32. N is the field's most significant bit, Z tells that
it is 0, V and C are 0, X unchanged, taken before the change, but for BFINS from the inserted value. BFEXTU and
BFEXTS load the field, BFFFO the offset plus the number of leading zeros, BFCHG, BFCLR, BFSET and BFINS replace
it by its complement, zeros, ones or the low bits of Dn. (That BFFFO of a register with an offset register
outside 0 to 31 has a free choice is the model's reading of U26: log 26; that a fifth byte of a field in memory
is an access of its own is log 40.) (R320, R321, R322, R323, R324, R325, R326, R327, R328) -/
def Obligations.FieldInstructions : Prop :=
  (∀ (s : State) (f : BitField),
    s.fieldOffset f = (if f.offReg then (s.dreg ⟨f.off.toNat % 8, Nat.mod_lt _ (by decide)⟩).toInt
      else (f.off.toNat : Int)) ∧
    1 ≤ s.fieldWidth f ∧ s.fieldWidth f ≤ 32 ∧
    s.fieldWidth f % 32 = (if f.widReg then (s.dreg ⟨f.wid.toNat % 8, Nat.mod_lt _ (by decide)⟩).toNat
      else f.wid.toNat) % 32) ∧
  ∀ (s : State) (ea : Ea) (f : BitField) (dn : Reg) (write : Bool) (x : Long) (put : Long → State),
    FieldAt write ea f s x put →
    let w := s.fieldWidth f
    let flags := fun (y : Long) => (⟨s.cc.x, y.getLsbD (w - 1), decide (y = 0), false, false⟩ : CC)
    let out := fun (u : State) (y : Long) => Host.Outcome.next (φ := Fault) (ρ := Refusal)
      ((u.setCc (flags y)).goOn (s.npc (2 + ea.words)))
    exec (.bftst ea f) s = out s x ∧
    exec (.bfextu ea f dn) s = out (s.setD dn x) x ∧
    exec (.bfexts ea f dn) s = out (s.setD dn (BitVec.ofInt 32 (fieldInt w x))) x ∧
    (∀ k ≤ w, (∀ i < k, x.getLsbD (w - 1 - i) = false) → (k = w ∨ x.getLsbD (w - 1 - k) = true) →
      (((∃ a, memAddr .b 1 ea s = .ok a s) ∨ (0 ≤ s.fieldOffset f ∧ s.fieldOffset f < 32)) →
        exec (.bfffo ea f dn) s = out (s.setD dn (BitVec.ofInt 32 (s.fieldOffset f + k))) x) ∧
      ∃ o m, (o = s.fieldOffset f ∨ o = s.fieldOffset f % 32) ∧
        exec (.bfffo ea f dn) s = out ((s.used m).setD dn (BitVec.ofInt 32 (o + k))) x) ∧
    (write = true →
      exec (.bfchg ea f) s = out (put (~~~x)) x ∧
      exec (.bfclr ea f) s = out (put 0) x ∧
      exec (.bfset ea f) s = out (put 0xFFFFFFFF) x ∧
      (let v := BitVec.ofNat 32 ((s.dreg dn).toNat % 2 ^ w);
        exec (.bfins dn ea f) s = out (put v) v))

/-- For every state there are free bits with which the three instructions complete, on registers always and in
memory where the bytes can be read and written. For proper digits the result is the sum d + v + X or the
difference d - v - X (for NBCD 0 - d - X) modulo 100 as two digits; C and X tell that it left 0 to 99; Z is
cleared by a nonzero result and otherwise unchanged; N and V are free (log 34). With improper digits the byte, C
and X are free, each on its own (log 35). (R340, R341, R342, R343) -/
def Obligations.Decimal : Prop :=
  ∀ s : State, ∃ free : DecimalFree,
    let add := fun (v d : Long) (cc : CC) =>
      free.result (isDecimal v && isDecimal d) (decimalOf d + decimalOf v + cc.x.toNat) cc
    let sub := fun (v d : Long) (cc : CC) =>
      free.result (isDecimal v && isDecimal d) (decimalOf d - decimalOf v - cc.x.toNat) cc
    (∀ ry rx : Reg,
      (∃ u, Changes .b 0 (.dreg rx) (add (trunc .b (s.dreg ry))) (s.used 1) u ∧
        exec (.abcd false ry rx) s = .next (u.goOn (s.npc 1))) ∧
      (∃ u, Changes .b 0 (.dreg rx) (sub (trunc .b (s.dreg ry))) (s.used 1) u ∧
        exec (.sbcd false ry rx) s = .next (u.goOn (s.npc 1))) ∧
      (∃ u, Changes .b 0 (.dreg rx) (fun d cc => sub d 0 cc) (s.used 1) u ∧
        exec (.nbcd (.dreg rx)) s = .next (u.goOn (s.npc 1)))) ∧
    (∀ (ry rx : Reg) (v : Long) (t : State), readEa .b 0 (.predec ry) (s.used 1) = .ok v t →
      let a := t.areg rx - (if rx = 7 then 2 else 1)
      t.readable t.dataSpace a 1 → t.writable t.dataSpace a 1 →
      (∃ u, Changes .b 0 (.predec rx) (add v) t u ∧ exec (.abcd true ry rx) s = .next (u.goOn (s.npc 1))) ∧
      (∃ u, Changes .b 0 (.predec rx) (sub v) t u ∧ exec (.sbcd true ry rx) s = .next (u.goOn (s.npc 1)))) ∧
    (∀ (ea : Ea) (a : Long) (t : State), inMemory ea = true → memAddr .b 0 ea (s.used 1) = .ok a t →
      t.readable t.dataSpace a 1 → t.writable t.dataSpace a 1 →
      ∃ u, Changes .b 0 ea (fun d cc => sub d 0 cc) (s.used 1) u ∧
        exec (.nbcd ea) s = .next (u.goOn (s.npc (1 + ea.words))))

/-- PACK adds the adjustment to the 16-bit source and keeps the low digits of its two bytes; UNPK spreads the
digits of a byte into two bytes and adds the adjustment. The memory forms step their address register before
every byte, by 1 (for A7 by 1 or 2, which is free), low-order byte first. No flag changes. (That A7 is stepped
by 1 or 2, instead of the refusal R344 asks for U27, is the model's reading: log 22.) (R344, R345) -/
def Obligations.PackUnpack : Prop :=
  ∀ (s : State) (ry rx : Reg) (adj : Word),
    let packed := fun (n : Nat) => let m := (n + adj.toNat) % 65536; m / 256 % 16 * 16 + m % 16
    let spread := fun (n : Nat) => (n / 16 % 16 * 256 + n % 16 + adj.toNat) % 65536
    let sd := s.dataSpace
    exec (.pack false ry rx adj) s =
      .next ((s.putD .b rx (BitVec.ofNat 32 (packed ((s.dreg ry).toNat % 65536)))).goOn (s.npc 2)) ∧
    exec (.unpk false ry rx adj) s =
      .next ((s.putD .w rx (BitVec.ofNat 32 (spread ((s.dreg ry).toNat % 256)))).goOn (s.npc 2)) ∧
    ∃ (sy sx : Long) (k : Nat), (sy = 1 ∨ ry = 7 ∧ sy = 2) ∧ (sx = 1 ∨ rx = 7 ∧ sx = 2) ∧
      (let lo := s.areg ry - sy
        let t := s.setA ry (lo - sy)
        let u := t.setA rx (t.areg rx - sx)
        s.readable sd lo 1 → s.readable sd (lo - sy) 1 → s.writable sd (t.areg rx - sx) 1 →
        exec (.pack true ry rx adj) s = .next (((u.used k).store sd (t.areg rx - sx)
          [BitVec.ofNat 8 (packed ((s.byte sd (lo - sy)).toNat * 256 + (s.byte sd lo).toNat))]).goOn (s.npc 2))) ∧
      (let t := s.setA ry (s.areg ry - sy)
        let a := t.areg rx - sx
        let w := spread (s.byte sd (s.areg ry - sy)).toNat
        s.readable sd (s.areg ry - sy) 1 → s.writable sd a 1 → s.writable sd (a - sx) 1 →
        exec (.unpk true ry rx adj) s = .next (((((t.setA rx (a - sx)).used k).store sd a
          [BitVec.ofNat 8 w]).store sd (a - sx) [BitVec.ofNat 8 (w / 256)]).goOn (s.npc 2)))

/-- A taken branch goes to the instruction's address plus 2 plus the displacement. DBcc, when its condition is
false, decrements the low word of Dn and branches unless it passed from 0 to -1. JMP goes to the effective
address. NOP changes nothing. No flag changes. (R350, R351, R353, R355, R360) -/
def Obligations.Branches : Prop :=
  ∀ (s : State) (c : Cond) (d : BrDisp) (dn : Reg) (d16 : Word),
    let target := s.pc + 2 + BitVec.ofInt 32 (distance d)
    (exec (.bcc c d) s = if condTrue c s.cc then .next (s.flowTo target) else .next (s.goOn (s.npc (1 + d.words)))) ∧
    exec (.bra d) s = .next (s.flowTo target) ∧
    (let n := (s.dreg dn).toNat % 65536
      let u := s.putD .w dn (BitVec.ofNat 32 ((n + 65535) % 65536))
      exec (.dbcc c dn d16) s =
        if condTrue c s.cc then .next (s.goOn (s.pc + 4))
        else if n = 0 then .next (u.goOn (s.pc + 4))
        else .next (u.flowTo (s.pc + 2 + BitVec.ofInt 32 d16.toInt))) ∧
    (∀ ea a t, memAddr .l 0 ea s = .ok a t → exec (.jmp ea) s = .next (t.flowTo a)) ∧
    exec .nop s = .next (s.goOn (s.pc + 2))

/-- CALLM of a type $00 descriptor, read in the space of its addressing mode, pushes the 24-byte frame (its
access level byte and reserved word free), loads the module data pointer into the register the entry word names
and goes on after the entry word; RTM restores flags, register, PC and SP and drops the argument count. Improper
opt or type takes the format error. Type $01, and an entry word with bits 11:0 set, are refused by name. (The
free parts of the frame and the stops are log 27, the space of the entry word log 38, the order of its six
writes log 44.) (R361, R362, R364, R365, R540, R70) -/
def Obligations.Modules : Prop :=
  ∀ (s : State), let sd := s.dataSpace
    (∀ argc ea m, let ds := s.eaSpace ea
      memAddr .l 1 ea s = .ok m s → s.readable ds m 4 →
      let head : Word := (s.wordAt ds m).setWidth 16
      let o := head.toNat / 8192
      let ty := head.toNat / 256 % 32
      let entry := s.longAt ds (m + 4)
      let ew := (s.wordAt sd entry).toNat
      let f := s.sp - 24
      (o ≠ 0 ∧ o ≠ 4 ∨ ty ≠ 0 ∧ ty ≠ 1 →
        exec (.callm argc ea) s = .next (s.takeException ⟨14, s.pc, .formatError, .notDone⟩)) ∧
      ((o = 0 ∨ o = 4) → ty = 1 → exec (.callm argc ea) s = .refused .moduleAccessLevel) ∧
      ((o = 0 ∨ o = 4) → ty = 0 → s.readable ds (m + 4) 4 → s.readable sd entry 2 →
        (ew % 4096 ≠ 0 → exec (.callm argc ea) s = .refused .moduleEntryWord) ∧
        (ew % 4096 = 0 → s.readable ds (m + 8) 4 → (∀ k < 6, s.writable sd (f + BitVec.ofNat 32 (4 * k)) 4) →
          ∃ (x : Byte) (y : Word), let rn := rnOf (ew / 4096)
            let u := ((s.used 1).setSp f).store sd f
              ([BitVec.ofNat 8 (head.toNat / 256), x, 0, BitVec.ofNat 8 (s.sr.toNat % 32), 0, argc] ++
                longBytes (y.setWidth 32) 2 ++ longBytes m 4 ++ longBytes (s.npc (2 + ea.words)) 4 ++
                longBytes (s.getR rn) 4 ++ longBytes s.sp 4)
            exec (.callm argc ea) s = .next ((u.setR rn (u.longAt ds (m + 8))).flowTo (entry + 2))))) ∧
    (∀ rn, s.readable sd s.sp 2 →
      let head := (s.wordAt sd s.sp).toNat
      let o := head / 8192
      let ty := head / 256 % 32
      (o ≠ 0 ∧ o ≠ 4 ∨ ty ≠ 0 ∧ ty ≠ 1 →
        exec (.rtm rn) s = .next (s.takeException ⟨14, s.pc, .formatError, .notDone⟩)) ∧
      ((o = 0 ∨ o = 4) → ty = 1 → exec (.rtm rn) s = .refused .moduleAccessLevel) ∧
      ((o = 0 ∨ o = 4) → ty = 0 → s.readable sd (s.sp + 2) 2 → s.readable sd (s.sp + 4) 2 →
        s.readable sd (s.sp + 12) 4 → s.readable sd (s.sp + 16) 4 →
        exec (.rtm rn) s = .next ((((s.setCc (CC.ofBits ((s.wordAt sd (s.sp + 2)).setWidth 16))).setR rn
          (s.longAt sd (s.sp + 16))).setSp
            (s.sp + 24 + BitVec.ofNat 32 ((s.wordAt sd (s.sp + 4)).toNat % 256))).flowTo (s.longAt sd (s.sp + 12)))))

/-- TRAP #v takes vector 32 + v with the four-word frame and the next address saved. TRAPcc on a true condition
and TRAPV with V take vector 7, CHK of a value below 0 or above the bound vector 6, with the six-word frame;
otherwise they go on. CHK sets N for a negative value, clears it for a large one; its other flags, and N without
a trap, are free; X is unchanged. (R380, R381, R382, R383, R533, R534, R508) -/
def Obligations.Traps : Prop :=
  ∀ (s : State),
    (∀ v : Fin 16, exec (.trap v) s =
      .next (s.takeException ⟨BitVec.ofNat 8 (32 + v.val), s.pc + 2, .four, .trapped⟩)) ∧
    (∀ c op, exec (.trapcc c op) s = if condTrue c s.cc then
        .next (s.takeException ⟨7, s.npc (1 + op.words), .six s.pc, .trapped⟩)
      else .next (s.goOn (s.npc (1 + op.words)))) ∧
    (exec .trapv s = if s.cc.v then .next (s.takeException ⟨7, s.pc + 2, .six s.pc, .trapped⟩)
      else .next (s.goOn (s.pc + 2))) ∧
    ∀ (sz : WL) (ea : Ea) (dn : Reg) (b : Long) (t : State), readEa sz.size 0 ea s = .ok b t →
      let v := signedOf sz.size (t.dreg dn)
      let bound := signedOf sz.size b
      ∃ n z o c : Bool, let u := (t.used 1).setCc ⟨t.cc.x, n, z, o, c⟩
        (v < 0 → n = true) ∧ (0 ≤ v → bound < v → n = false) ∧
        exec (.chk sz ea dn) s =
          if v < 0 ∨ bound < v then .next (u.takeException ⟨6, s.npc (1 + ea.words), .six s.pc, .trapped⟩)
          else .next (u.goOn (s.npc (1 + ea.words)))

/-- ILLEGAL and BKPT take vector 4; every word of line 1010 takes vector 10; with no coprocessor every word of
line 1111, of a defined type or not, takes vector 11, after the privilege check of cpSAVE and cpRESTORE; the
saved PC is the instruction's address in a four-word frame. (R385, R386, R435, R446, R537) -/
def Obligations.EmulatorLines : Prop :=
  ∀ (s : State) (c m r : Reg),
    let takes := fun (v : Byte) =>
      Host.Outcome.next (φ := Fault) (ρ := Refusal) (s.takeException ⟨v, s.pc, .four, .notDone⟩)
    exec .illegal s = takes 4 ∧ exec (.bkpt r) s = takes 4 ∧ (∀ v, exec (.aLine v) s = takes 10) ∧
    exec (.cpGen c m r) s = takes 11 ∧ exec (.cpScc c m r) s = takes 11 ∧ exec (.cpDbcc c r) s = takes 11 ∧
    exec (.cpTrapcc c r) s = takes 11 ∧ (∀ long cond, exec (.cpBcc c long cond) s = takes 11) ∧
    (s.sBit = true ∨ c = 0 → exec (.cpSave c m r) s = takes 11 ∧ exec (.cpRestore c m r) s = takes 11) ∧
    (∀ v : BitVec 12, let ty := v.toNat / 64 % 8
      exec (.fLine v) s =
        if (ty = 4 ∨ ty = 5) ∧ s.sBit = false ∧ v.toNat / 512 ≠ 0 then takes 8 else takes 11)

/-- In supervisor state RTE reads SR, PC and the format from the active stack. Format $1 reloads SR, drops 8 and
goes on with the frame on the stack that SR selects, any number of times. Formats $0 and $2 restore SR and PC
and drop 8 or 12 bytes. An improper format, or a $B frame of another processor version, takes the format error
from the state before the RTE. A $B frame with DF and RM set is removed, SR and PC are restored and the
instruction runs again as the next step. A $9 or $A frame, or another $B frame, is refused by name. A part of an
internal frame that cannot be read halts the processor, or it waits where the cycle never ends. A chain of
throwaway frames longer than all values of the stack pointers and the SR is endless. (That a $B frame's version
and special status word are read before the rest of a frame, and that the lowest-addressed bad cycle decides
between halted and waiting, is the model's choice: log 30; that a format error goes back to the state before the
RTE, and the bound, are log 19, the state of the halt log 31, the rerun log 42.) (What the waiting processor has
is the model's choice: log 49.) (R388, R541, R550, R552, R553, R532, R89) -/
def Obligations.RteResult : Prop :=
  ∀ (s : State), s.sBit = true →
    let sd := supervisorData
    let fmt := fun (t : State) => (t.wordAt sd (t.sp + 6)).toNat / 4096
    let sr := fun (t : State) => (t.wordAt sd t.sp).setWidth 16 &&& 0xF71F
    let drop := fun (n : Nat) (t : State) => { (t.setSp (t.sp + BitVec.ofNat 32 n)) with sr := sr t }
    let back := fun (t : State) (n : Nat) => { drop n t with pc := t.longAt sd (t.sp + 2), ending := .returned }
    let head := fun (t : State) => t.readable sd t.sp 2 ∧ t.readable sd (t.sp + 2) 4 ∧ t.readable sd (t.sp + 6) 2
    let after := fun (k : Nat) => (drop 8)^[k] s
    let next := fun (t : State) => Host.Outcome.next (φ := Fault) (ρ := Refusal) t
    let stuck := fun (p : Nat × Bool) => if p.2 then
        next { s with run := .hung, ending := .notDone, draws := s.draws + 1 }
      else next { s with run := .halted, ending := .notDone }
    let improper := next (s.takeException ⟨14, s.pc, .formatError, .notDone⟩)
    (∀ n < 2 ^ 112, (∀ k < n, head (after k) ∧ fmt (after k) = 1) → head (after n) →
      let t := after n
      let inner := fun (size : Nat) => match t.firstFault sd false t.sp size with
        | none => Host.Outcome.refused (φ := Fault) (σ := State) .rteInternalFrame
        | some p => stuck p
      (fmt t = 0 → exec .rte s = next (back t 8)) ∧
      (fmt t = 2 → exec .rte s = next (back t 12)) ∧
      (fmt t ∈ [3, 4, 5, 6, 7, 8, 12, 13, 14, 15] → exec .rte s = improper) ∧
      (fmt t = 9 → exec .rte s = inner 20) ∧ (fmt t = 10 → exec .rte s = inner 32) ∧
      (fmt t = 11 →
        (∀ p, t.firstFault sd false (t.sp + 0x36) 2 = some p → exec .rte s = stuck p) ∧
        (t.readable sd (t.sp + 0x36) 2 →
          if (t.wordAt sd (t.sp + 0x36)).toNat / 4096 ≠ s.platform.cpuVersion.toNat then exec .rte s = improper
          else
            (∀ p, t.firstFault sd false (t.sp + 0xA) 2 = some p → exec .rte s = stuck p) ∧
            (t.readable sd (t.sp + 0xA) 2 →
              let ssw := t.wordAt sd (t.sp + 0xA)
              if ssw.getLsbD 8 = true ∧ ssw.getLsbD 7 = true then
                (∀ p, t.firstFault sd false t.sp 92 = some p → exec .rte s = stuck p) ∧
                (t.readable sd t.sp 92 → exec .rte s = next { back t 92 with ending := .rerun })
              else exec .rte s = inner 92)))) ∧
    ((∀ k < 2 ^ 112, head (after k) ∧ fmt (after k) = 1) → exec .rte s = .fault .rteEndless)

/-- In supervisor state MOVE to SR, ANDI, EORI and ORI to SR write T1 T0 S M, the mask and the flags and no
other bit; STOP does so and enters the stopped state, or with T1 T0 = 10 before it goes on to its trace; RESET
changes only the PC. (With T1, T0 = 11, which U20 asks to refuse, the values are written as given, and whether
STOP stops is free: log 7.) (R387, R389, R391, R393, R394, R395, R396, R548) -/
def Obligations.SystemResults : Prop :=
  ∀ (s : State), s.sBit = true →
    let wrote := fun (t : State) (v : Word) (n : Nat) => Host.Outcome.next (φ := Fault) (ρ := Refusal)
      { t with sr := v &&& 0xF71F, pc := s.npc n, ending := .wroteSr }
    (∀ ea v t, readEa .w 0 ea s = .ok v t → exec (.moveToSr ea) s = wrote t (v.setWidth 16) (1 + ea.words)) ∧
    (∀ v, exec (.andiToSr v) s = wrote s (s.sr &&& v) 2) ∧
    (∀ v, exec (.eoriToSr v) s = wrote s (s.sr ^^^ v) 2) ∧
    (∀ v, exec (.oriToSr v) s = wrote s (s.sr ||| v) 2) ∧
    (∀ v, ∃ r, exec (.stop v) s =
        .next { s with sr := v &&& 0xF71F, pc := s.pc + 4, ending := .sequential, run := r } ∧
      (s.t1 = false → r = .stopped) ∧ (s.t1 = true → s.t0 = false → r = .normal) ∧
      (r = .stopped ∨ r = .normal)) ∧
    exec .reset s = .next (s.goOn (s.pc + 2))

/-- The words $023C, $0A3C and $003C followed by a word whose low byte is the immediate decode to the three
instructions; they and, exclusive-or and or bits 4:0 of the immediate into the condition codes, and change no
other bit of the SR and nothing else but the PC. (R402, R403, R404) -/
def Obligations.CcrImmediates : Prop :=
  ∀ (s : State) (b : Byte),
    let imm : Word := b.setWidth 16
    let out := fun (ccr : Word) => Host.Outcome.next (φ := Fault) (ρ := Refusal)
      { s with sr := (s.sr &&& 0xFFE0) ||| (ccr &&& 0x001F), pc := s.pc + 4, ending := .sequential }
    decode [0x023C, imm] = .instr (.andiToCcr imm) 2 ∧ exec (.andiToCcr imm) s = out (s.sr &&& imm) ∧
    decode [0x0A3C, imm] = .instr (.eoriToCcr imm) 2 ∧ exec (.eoriToCcr imm) s = out (s.sr ^^^ imm) ∧
    decode [0x003C, imm] = .instr (.oriToCcr imm) 2 ∧ exec (.oriToCcr imm) s = out (s.sr ||| imm)

/-- MOVEC reads SFC, DFC and CACR zero-extended and USP, VBR, CAAR, MSP, ISP whole; writes keep the implemented
bits; a CACR write with C invalidates every cache entry, with CE the entry CAAR names; any other code is illegal
in supervisor state. MOVE USP moves it either way. MOVE to CCR takes bits 4:0 of the operand. (R30, R31, R32,
R33, R86, R397, R398, R401, R536) -/
def Obligations.ControlRegisters : Prop :=
  ∀ (s : State), (∀ ea v t, readEa .w 0 ea s = .ok v t → exec (.moveToCcr ea) s =
      .next ((t.setCc (CC.ofBits (v.setWidth 16))).goOn (s.npc (1 + ea.words)))) ∧
    (s.sBit = true →
    let out := fun (u : State) (n : Nat) => Host.Outcome.next (φ := Fault) (ρ := Refusal) (u.goOn (s.npc n))
    (∀ an, exec (.moveUsp true an) s = out (s.setA an s.usp) 1 ∧
      exec (.moveUsp false an) s = out { s with usp := s.areg an } 1) ∧
    ∀ rn, let v := s.getR rn
      (∀ p ∈ [(0x000#12, s.sfc.setWidth 32), (0x001#12, s.dfc.setWidth 32), (0x002#12, s.cacr &&& 3#32),
          (0x800#12, s.usp), (0x801#12, s.vbr), (0x802#12, s.caar), (0x803#12, s.msp), (0x804#12, s.isp)],
        exec (.movec false rn p.1) s = out (s.setR rn p.2) 2) ∧
      exec (.movec true rn 0x000) s = out { s with sfc := v.setWidth 3 } 2 ∧
      exec (.movec true rn 0x001) s = out { s with dfc := v.setWidth 3 } 2 ∧
      exec (.movec true rn 0x002) s = out { s with
        cacr := v &&& 3
        cache := if v.getLsbD 3 then Vector.replicate 64 none
          else if v.getLsbD 2 then s.cache.set (s.caar.toNat / 4 % 64) none (Nat.mod_lt _ (by decide))
          else s.cache } 2 ∧
      exec (.movec true rn 0x800) s = out { s with usp := v } 2 ∧
      exec (.movec true rn 0x801) s = out { s with vbr := v } 2 ∧
      exec (.movec true rn 0x802) s = out { s with caar := v } 2 ∧
      exec (.movec true rn 0x803) s = out { s with msp := v } 2 ∧
      exec (.movec true rn 0x804) s = out { s with isp := v } 2 ∧
      ∀ b, ∀ code : BitVec 12, 3 ≤ code.toNat % 2048 → code.toNat ∉ [0x803, 0x804] →
        exec (.movec b rn code) s = .next (s.takeException ⟨4, s.pc, .four, .notDone⟩))

/-- In supervisor state MOVES stores the low bits of Rn through the space of DFC, or loads Rn through that of
SFC: an address register gets the sign-extended operand, a data register only its low bits. No flag changes.
Where the mode steps the register stored, the value stored is free. (That R399's case of U30 stores a free value
instead of being refused, and that a load into the stepped register wins, is log 23.) (R399, R70, R72) -/
def Obligations.MovesResult : Prop :=
  ∀ (s t : State) (sz : Size) (rn : Rn) (ea : Ea) (a : Long), s.sBit = true → memAddr sz 1 ea s = .ok a t →
    let out := fun (u : State) => Host.Outcome.next (φ := Fault) (ρ := Refusal) (u.goOn (s.npc (2 + ea.words)))
    (t.writable s.dfc a sz.bytes → ∃ v, (rn ∉ steppedBy ea → v = s.getR rn) ∧
      exec (.moves sz true rn ea) s = out ((t.used 1).store s.dfc a (longBytes v sz.bytes))) ∧
    (t.readable s.sfc a sz.bytes →
      let v := bytesLong (t.load s.sfc a sz.bytes)
      exec (.moves sz false rn ea) s =
        out (if rn.isAddr then t.setA rn.num (BitVec.ofInt 32 (signedOf sz v)) else t.putD sz rn.num v))

/-- TAS sets the flags from the byte and sets its bit 7. CAS compares the operand with Dc: equal, it stores Du;
else Dc takes the operand and nothing is written, so the operand need not be writable; the flags are those of
operand - Dc. CAS2 compares two operands and stores both update operands only if both are equal, else both
compare registers take the operands; the flags are those of the first comparison that differs. (With one
register for both comparisons, which U31 asks to refuse, it takes either operand, freely: log 24.) (R420, R421,
R422) -/
def Obligations.ReadModifyWrite : Prop :=
  ∀ (s t u : State) (sz : Size) (ws : WL) (ea : Ea) (dc du : Reg) (a : Long),
    (Changes .b 0 ea (fun d cc => (d ||| 0x80, valueCc .b d cc)) s u →
      exec (.tas ea) s = .next (u.goOn (s.npc (1 + ea.words)))) ∧
    (memAddr sz 1 ea s = .ok a t → t.readable t.dataSpace a sz.bytes →
      let v := bytesLong (t.load t.dataSpace a sz.bytes)
      let c := trunc sz (t.dreg dc)
      let x := t.setCc (cmpCc sz (exactSub sz c v false) t.cc)
      (v = c → t.writable t.dataSpace a sz.bytes → exec (.cas sz dc du ea) s =
        .next ((x.store t.dataSpace a (longBytes (t.dreg du) sz.bytes)).goOn (s.npc (2 + ea.words)))) ∧
      (v ≠ c → exec (.cas sz dc du ea) s = .next ((x.putD sz dc v).goOn (s.npc (2 + ea.words))))) ∧
    ∀ (r1 r2 : Rn) (dc2 du2 : Reg), let n := ws.size.bytes
      let sd := s.dataSpace
      s.readable sd (s.getR r1) n → s.readable sd (s.getR r2) n →
      let v1 := bytesLong (s.load sd (s.getR r1) n)
      let v2 := bytesLong (s.load sd (s.getR r2) n)
      let c1 := trunc ws.size (s.dreg dc)
      let c2 := trunc ws.size (s.dreg dc2)
      let x := s.setCc (cmpCc ws.size
        (if v1 = c1 then exactSub ws.size c2 v2 false else exactSub ws.size c1 v1 false) s.cc)
      let i : Instr := .cas2 ws r1 du dc r2 du2 dc2
      (v1 = c1 ∧ v2 = c2 → s.writable sd (s.getR r1) n → s.writable sd (s.getR r2) n → exec i s = .next (((x.store sd (s.getR r1) (longBytes (s.dreg du) n)).store sd
        (s.getR r2) (longBytes (s.dreg du2) n)).goOn (s.npc 3))) ∧
      (¬ (v1 = c1 ∧ v2 = c2) → dc ≠ dc2 →
        exec i s = .next (((x.putD ws.size dc v1).putD ws.size dc2 v2).goOn (s.npc 3))) ∧
      (¬ (v1 = c1 ∧ v2 = c2) → dc = dc2 → ∃ v, (v = v1 ∨ v = v2) ∧
        exec i s = .next (((x.used 1).putD ws.size dc v).goOn (s.npc 3)))

/-- MOVEA, ADDA, SUBA, LEA, ADD, SUB, AND, OR to a register, MUL, DIV, the compares, TST, CMP2, CHK2, CHK, BTST,
BFTST, BFEXTU, BFEXTS, BFFFO and MOVE to CCR, when they complete, change no byte of memory, no register but
their destinations and a stepped address register, and of the SR only the condition codes. (R200, R114) -/
def Obligations.ReadFrame : Prop :=
  ∀ (i : Instr) (ea : Ea) (rs : List Rn) (s t : State), readsInto i = some (ea, rs) →
    exec i s = .next t → t.ending = .sequential →
    sameBytes s t ∧ sameRegs (rs ++ steppedBy ea) s t ∧ sameSystem s t

/-- ADD, SUB, AND, OR, EOR to an operand, their immediate and quick forms, NEG, NEGX, NOT, CLR, the memory
shifts and rotates, BCHG, BCLR, BSET, NBCD, Scc, TAS and MOVE from SR or CCR, when they complete, change only
the operand's bytes at its address, or their data register, a stepped address register, and the condition codes.
(NBCD computes its address after its free value is drawn, which counts where a device answers a pointer.) (R200,
R114, R21) -/
def Obligations.ChangeFrame : Prop :=
  ∀ (i : Instr) (sz : Size) (own : Nat) (ea : Ea) (s t : State), s.mem.wf = true →
    changesAt i = some (sz, own, ea) → exec i s = .next t → t.ending = .sequential →
    sameSystem s t ∧ sameRegs (dataRegOf ea ++ steppedBy ea) s t ∧
    (inMemory ea = false → sameBytes s t) ∧
    (∀ a u, memAddr sz own ea (if i = .nbcd ea then s.used 1 else s) = .ok a u → sameBytesBut s.dataSpace a sz.bytes s t)
end

