-- ==== Sys2Proof/Laws/Flags.lean ====
section
/-! SUPPORT. Operands as numbers, and the flag formulas of R230 as exact arithmetic. -/

namespace Sys2Proof.Machine

theorem trunc_toNat (sz : Size) (v : Long) : (trunc sz v).toNat = v.toNat % 2 ^ sz.bits := by
  have h := v.isLt
  cases sz
  · exact Nat.and_two_pow_sub_one_eq_mod v.toNat 8
  · exact Nat.and_two_pow_sub_one_eq_mod v.toNat 16
  · exact Nat.and_two_pow_sub_one_eq_mod v.toNat 32

theorem trunc_lt (sz : Size) (v : Long) : (trunc sz v).toNat < 2 ^ sz.bits := by
  rw [trunc_toNat]
  exact Nat.mod_lt _ (Nat.two_pow_pos _)

/-- A value that fits the size is its own truncation. -/
theorem trunc_of_lt {sz : Size} {v : Long} (h : v.toNat < 2 ^ sz.bits) : trunc sz v = v :=
  BitVec.eq_of_toNat_eq (by rw [trunc_toNat, Nat.mod_eq_of_lt h])

@[simp] theorem trunc_trunc (sz : Size) (v : Long) : trunc sz (trunc sz v) = trunc sz v :=
  trunc_of_lt (trunc_lt sz v)

/-- The sign bit of an operand and its value as a signed number. -/
theorem signed_cases (sz : Size) (v : Long) :
    (msb sz v = false ∧ v.toNat % 2 ^ sz.bits < 2 ^ (sz.bits - 1) ∧
      signedOf sz v = (v.toNat % 2 ^ sz.bits : Nat)) ∨
    (msb sz v = true ∧ 2 ^ (sz.bits - 1) ≤ v.toNat % 2 ^ sz.bits ∧
      signedOf sz v = (v.toNat % 2 ^ sz.bits : Nat) - 2 ^ sz.bits) := by
  have h := v.isLt
  have hm : msb sz v = true ↔ 2 ^ (sz.bits - 1) ≤ v.toNat % 2 ^ sz.bits := by
    simp only [msb, ← BitVec.testBit_toNat, Nat.testBit_eq_decide_div_mod_eq, decide_eq_true_eq]
    cases sz <;> simp only [Size.bits] <;> omega
  have hs : signedOf sz v = (v.toNat % 2 ^ sz.bits : Nat) ∧ v.toNat % 2 ^ sz.bits < 2 ^ (sz.bits - 1) ∨
      signedOf sz v = (v.toNat % 2 ^ sz.bits : Nat) - 2 ^ sz.bits ∧
        2 ^ (sz.bits - 1) ≤ v.toNat % 2 ^ sz.bits := by
    cases sz
    · simp only [signedOf, sext, Size.bits]
      rw [BitVec.toInt_signExtend_of_le (by decide), BitVec.toInt_eq_toNat_cond, BitVec.toNat_setWidth]
      split <;> omega
    · simp only [signedOf, sext, Size.bits]
      rw [BitVec.toInt_signExtend_of_le (by decide), BitVec.toInt_eq_toNat_cond, BitVec.toNat_setWidth]
      split <;> omega
    · simp only [signedOf, sext, Size.bits]
      rw [BitVec.toInt_eq_toNat_cond]
      split <;> omega
  cases hb : msb sz v
  · have := mt hm.mpr (by simp [hb]); exact .inl ⟨rfl, by omega, by omega⟩
  · have := hm.mp hb; exact .inr ⟨rfl, this, by omega⟩

theorem msb_signedOf (sz : Size) (v : Long) : msb sz v = decide (signedOf sz v < 0) := by
  have h : v.toNat % 2 ^ sz.bits < 2 ^ sz.bits := Nat.mod_lt _ (Nat.two_pow_pos _)
  rcases signed_cases sz v with ⟨h1, h2, h3⟩ | ⟨h1, h2, h3⟩ <;> rw [h1, h3, eq_comm]
  · rw [decide_eq_false_iff_not]; omega
  · rw [decide_eq_true_eq]; clear h1 h3; cases sz <;> simp only [Size.bits] at * <;> omega

theorem flagLong_toNat (b : Bool) : (flagLong b).toNat = b.toNat := by cases b <;> rfl

theorem ofInt_toNat_of_lt {n : Nat} {i : Int} (h0 : 0 ≤ i) (h : i < 2 ^ n) :
    (BitVec.ofInt n i).toNat = i.toNat := by
  rw [BitVec.toNat_ofInt, Int.emod_eq_of_lt h0 (by exact_mod_cast h)]

theorem exactAlu_r_toNat (sz : Size) (u i : Int) :
    ((exactAlu sz u i).r.toNat : Int) = u % 2 ^ sz.bits := by
  have h0 : (0 : Int) ≤ u % 2 ^ sz.bits := Int.emod_nonneg _ (by positivity)
  have h1 : u % 2 ^ sz.bits < 2 ^ sz.bits := Int.emod_lt_of_pos _ (by positivity)
  have h2 : (2 : Int) ^ sz.bits ≤ 2 ^ 32 := by cases sz <;> simp [Size.bits]
  simp only [exactAlu]
  rw [ofInt_toNat_of_lt h0 (by omega)]
  omega

/-- ADD and ADDX: the formulas of R230 say whether the exact sums fit. -/
theorem addAlu_exact (sz : Size) (v d : Long) (x : Bool) (hv : v.toNat < 2 ^ sz.bits)
    (hd : d.toNat < 2 ^ sz.bits) : addAlu sz v d x = exactAdd sz v d x := by
  have hx : x.toNat ≤ 1 := by cases x <;> decide
  have hr : (addAlu sz v d x).r = (exactAdd sz v d x).r := by
    apply BitVec.eq_of_toNat_eq
    have h2 := exactAlu_r_toNat sz (d.toNat + v.toNat + x.toNat) (signedOf sz d + signedOf sz v + x.toNat)
    simp only [addAlu, exactAdd, trunc_toNat, BitVec.toNat_add, flagLong_toNat] at *
    cases sz <;> simp only [Size.bits] at * <;> omega
  have hrn : (addAlu sz v d x).r.toNat = (v.toNat + d.toNat + x.toNat) % 2 ^ sz.bits := by
    simp only [addAlu, trunc_toNat, BitVec.toNat_add, flagLong_toNat]
    cases sz <;> simp only [Size.bits] at * <;> omega
  have key : ∀ a b : Alu, a.r = b.r → a.v = b.v → a.c = b.c → a = b := by
    rintro ⟨⟩ ⟨⟩ h1 h2 h3; simp_all
  have ev : (addAlu sz v d x).v = ((msb sz v && msb sz d && !msb sz (addAlu sz v d x).r) ||
        (!msb sz v && !msb sz d && msb sz (addAlu sz v d x).r)) := rfl
  have ec : (addAlu sz v d x).c = ((msb sz v && msb sz d) || (!msb sz (addAlu sz v d x).r && msb sz d) ||
        (msb sz v && !msb sz (addAlu sz v d x).r)) := rfl
  have hrl := (addAlu sz v d x).r.isLt
  refine key _ _ hr ?_ ?_
  · rw [ev]
    simp only [exactAdd, exactAlu]
    rcases signed_cases sz v with ⟨v1, v2, v3⟩ | ⟨v1, v2, v3⟩ <;>
      rcases signed_cases sz d with ⟨d1, d2, d3⟩ | ⟨d1, d2, d3⟩ <;>
      rcases signed_cases sz (addAlu sz v d x).r with ⟨r1, r2, r3⟩ | ⟨r1, r2, r3⟩ <;>
      simp only [v1, d1, r1, v3, d3, Bool.and_true, Bool.and_false, Bool.or_false, Bool.or_true,
        Bool.not_true, Bool.not_false, eq_comm (a := true), eq_comm (a := false), decide_eq_true_eq,
        decide_eq_false_iff_not] <;>
      clear ev ec v1 d1 r1 v3 d3 r3 hr key <;> cases sz <;> simp only [Size.bits] at * <;> omega
  · rw [ec]
    simp only [exactAdd, exactAlu]
    rcases signed_cases sz v with ⟨v1, v2, v3⟩ | ⟨v1, v2, v3⟩ <;>
      rcases signed_cases sz d with ⟨d1, d2, d3⟩ | ⟨d1, d2, d3⟩ <;>
      rcases signed_cases sz (addAlu sz v d x).r with ⟨r1, r2, r3⟩ | ⟨r1, r2, r3⟩ <;>
      simp only [v1, d1, r1, Bool.and_true, Bool.and_false, Bool.or_false, Bool.or_true,
        Bool.not_true, Bool.not_false, eq_comm (a := true), eq_comm (a := false), decide_eq_true_eq,
        decide_eq_false_iff_not] <;>
      clear ev ec v1 d1 r1 v3 d3 r3 hr key <;> cases sz <;> simp only [Size.bits] at * <;> omega

/-- SUB, SUBX and the comparisons. -/
theorem subAlu_exact (sz : Size) (v d : Long) (x : Bool) (hv : v.toNat < 2 ^ sz.bits)
    (hd : d.toNat < 2 ^ sz.bits) : subAlu sz v d x = exactSub sz v d x := by
  have hx : x.toNat ≤ 1 := by cases x <;> decide
  have hrn : ((subAlu sz v d x).r.toNat : Int) = ((d.toNat : Int) - v.toNat - x.toNat) % 2 ^ sz.bits := by
    simp only [subAlu, trunc_toNat, BitVec.toNat_sub, flagLong_toNat]
    cases sz <;> simp only [Size.bits] at * <;> omega
  have hr : (subAlu sz v d x).r = (exactSub sz v d x).r := by
    apply BitVec.eq_of_toNat_eq
    have h2 := exactAlu_r_toNat sz (d.toNat - v.toNat - x.toNat) (signedOf sz d - signedOf sz v - x.toNat)
    simp only [exactSub] at *
    omega
  have key : ∀ a b : Alu, a.r = b.r → a.v = b.v → a.c = b.c → a = b := by
    rintro ⟨⟩ ⟨⟩ h1 h2 h3; simp_all
  have ev : (subAlu sz v d x).v = ((!msb sz v && msb sz d && !msb sz (subAlu sz v d x).r) ||
        (msb sz v && !msb sz d && msb sz (subAlu sz v d x).r)) := rfl
  have ec : (subAlu sz v d x).c = ((msb sz v && !msb sz d) || (msb sz (subAlu sz v d x).r && !msb sz d) ||
        (msb sz v && msb sz (subAlu sz v d x).r)) := rfl
  have hrl := (subAlu sz v d x).r.isLt
  refine key _ _ hr ?_ ?_
  · rw [ev]
    simp only [exactSub, exactAlu]
    rcases signed_cases sz v with ⟨v1, v2, v3⟩ | ⟨v1, v2, v3⟩ <;>
      rcases signed_cases sz d with ⟨d1, d2, d3⟩ | ⟨d1, d2, d3⟩ <;>
      rcases signed_cases sz (subAlu sz v d x).r with ⟨r1, r2, r3⟩ | ⟨r1, r2, r3⟩ <;>
      simp only [v1, d1, r1, v3, d3, Bool.and_true, Bool.and_false, Bool.or_false, Bool.or_true,
        Bool.not_true, Bool.not_false, eq_comm (a := true), eq_comm (a := false), decide_eq_true_eq,
        decide_eq_false_iff_not] <;>
      clear ev ec v1 d1 r1 v3 d3 r3 hr key <;> cases sz <;> simp only [Size.bits] at * <;> omega
  · rw [ec]
    simp only [exactSub, exactAlu]
    rcases signed_cases sz v with ⟨v1, v2, v3⟩ | ⟨v1, v2, v3⟩ <;>
      rcases signed_cases sz d with ⟨d1, d2, d3⟩ | ⟨d1, d2, d3⟩ <;>
      rcases signed_cases sz (subAlu sz v d x).r with ⟨r1, r2, r3⟩ | ⟨r1, r2, r3⟩ <;>
      simp only [v1, d1, r1, Bool.and_true, Bool.and_false, Bool.or_false, Bool.or_true,
        Bool.not_true, Bool.not_false, eq_comm (a := true), eq_comm (a := false), decide_eq_true_eq,
        decide_eq_false_iff_not] <;>
      clear ev ec v1 d1 r1 v3 d3 r3 hr key <;> cases sz <;> simp only [Size.bits] at * <;> omega

theorem arithCc_eq (sz : Size) (o : Alu) (old : CC) : arithCc sz o old = sumCc sz o := by
  simp only [arithCc, sumCc, msb_signedOf, beq_eq_decide]

theorem compareCc_eq (sz : Size) (o : Alu) (old : CC) : compareCc sz o old = cmpCc sz o old := by
  simp only [compareCc, cmpCc, sumCc, msb_signedOf, beq_eq_decide]

theorem extendCc_eq (sz : Size) (o : Alu) (old : CC) : extendCc sz o old = stickyCc sz o old := by
  simp only [extendCc, stickyCc, sumCc, msb_signedOf, beq_eq_decide]

theorem logicCc_eq (sz : Size) (r : Long) (old : CC) : logicCc sz r old = valueCc sz r old := by
  simp only [logicCc, valueCc, msb_signedOf, beq_eq_decide]

theorem sext_eq (sz : Size) (v : Long) : sext sz v = BitVec.ofInt 32 (signedOf sz v) := by
  simp [signedOf]

theorem msb_eq (sz : Size) (v : Long) : msb sz v = decide (2 ^ (sz.bits - 1) ≤ v.toNat % 2 ^ sz.bits) := by
  rcases signed_cases sz v with ⟨h1, h2, -⟩ | ⟨h1, h2, -⟩ <;> rw [h1, eq_comm]
  · rw [decide_eq_false_iff_not]; omega
  · rw [decide_eq_true_eq]; exact h2

/-- NEG is the subtraction from 0. -/
theorem negAlu_exact (sz : Size) (d : Long) (hd : d.toNat < 2 ^ sz.bits) :
    negAlu sz d = exactSub sz d 0 false := by
  rw [← subAlu_exact sz d 0 false hd (by simp)]
  have h0 : msb sz 0#32 = false := by cases sz <;> rfl
  have hc : (trunc sz (-d) != 0#32) = (msb sz d || msb sz (trunc sz (-d))) := by
    have hr : (trunc sz (-d)).toNat = (2 ^ sz.bits - d.toNat) % 2 ^ sz.bits := by
      rw [trunc_toNat, BitVec.toNat_neg]
      cases sz <;> simp only [Size.bits] at * <;> omega
    have hz : (trunc sz (-d) != 0#32) = decide ((trunc sz (-d)).toNat ≠ 0) := by
      rw [bne, beq_eq_decide, ← decide_not]
      congr 1
      rw [← BitVec.toNat_inj]; rfl
    rw [hz, msb_eq, msb_eq, hr, Bool.eq_iff_iff]
    simp only [Bool.or_eq_true, decide_eq_true_eq]
    cases sz <;> simp only [Size.bits] at * <;> omega
  have hb : ∀ a b : Bool, (a || b) = (a || b || a && b) := by decide
  simp [negAlu, subAlu, flagLong, h0, hc, ← hb]

/-- NEGX is the subtraction from 0 with X. -/
theorem negxAlu_exact (sz : Size) (d : Long) (x : Bool) (hd : d.toNat < 2 ^ sz.bits) :
    negxAlu sz d x = exactSub sz d 0 x := by
  rw [← subAlu_exact sz d 0 x hd (by simp)]
  have h0 : msb sz 0#32 = false := by cases sz <;> rfl
  have hb : ∀ a b : Bool, (a || b) = (a || b || a && b) := by decide
  simp [negxAlu, subAlu, h0, ← hb]

/-- The complement at a size. -/
theorem not_exact (sz : Size) (d : Long) (hd : d.toNat < 2 ^ sz.bits) :
    trunc sz (~~~d) = sizeMask sz - d := by
  apply BitVec.eq_of_toNat_eq
  have h := d.isLt
  rw [trunc_toNat, BitVec.toNat_not, BitVec.toNat_sub]
  cases sz <;> simp only [Size.bits, sizeMask] at * <;> simp <;> omega

end Sys2Proof.Machine
end

