-- ==== Sys2Proof/Laws/Memory.lean ====
section
/-! SUPPORT. The laws of memory: reading after writing, and the canonical form under every operation. -/

namespace Sys2Proof.Machine

theorem Memory.byteAt_consByte (n : Nat) (v : Byte) (m : Memory) (k : Nat)
    (h : ∀ c ∈ m, n < c.1) :
    (Memory.consByte n v m).byteAt k = if k = n then v else m.byteAt k := by
  unfold Memory.consByte
  by_cases hv : v = Memory.unlisted
  · rw [if_pos hv]
    split
    · next hk =>
      subst hk hv
      cases m with
      | nil => rfl
      | cons c rest => simp [Memory.byteAt, h c (by simp)]
    · rfl
  · rw [if_neg hv]
    simp only [Memory.byteAt]
    by_cases hk : k = n
    · simp [hk]
    · simp only [if_neg hk]
      by_cases hlt : k < n
      · rw [if_pos hlt]
        cases m with
        | nil => rfl
        | cons c rest =>
          have := h c (by simp)
          simp [Memory.byteAt, show k < c.1 by omega]
      · rw [if_neg hlt]

theorem Memory.wf_cons {k : Nat} {b : Byte} {m : Memory} :
    Memory.wf ((k, b) :: m) = true ↔
      b ≠ Memory.unlisted ∧ (∀ c ∈ m, k < c.1) ∧ m.wf = true := by
  simp [Memory.wf, List.all_eq_true, and_assoc]

/-- A read after a write: the written byte at its key, every other byte as before (R37). -/
theorem Memory.byteAt_setByte (m : Memory) (n : Nat) (v : Byte) (k : Nat) (h : m.wf = true) :
    (m.setByte n v).byteAt k = if k = n then v else m.byteAt k := by
  induction m with
  | nil => exact Memory.byteAt_consByte n v [] k (by simp)
  | cons c rest ih =>
    obtain ⟨p, b⟩ := c
    obtain ⟨-, hgt, hr⟩ := Memory.wf_cons.mp h
    simp only [Memory.setByte]
    split
    · next hlt =>
      refine Memory.byteAt_consByte n v _ k ?_
      rintro c (hc | ⟨_, hc⟩)
      · exact hlt
      · exact Nat.lt_trans hlt (hgt c hc)
    · split
      · next hnp =>
        subst hnp
        rw [Memory.byteAt_consByte n v rest k hgt]
        by_cases hk : k = n
        · simp [hk]
        · rw [if_neg hk, if_neg hk]
          simp only [Memory.byteAt, if_neg hk]
          split
          · next hlt =>
            cases rest with
            | nil => rfl
            | cons d r =>
              have := hgt d (by simp)
              simp [Memory.byteAt, show k < d.1 by omega]
          · rfl
      · next hnlt hne =>
        simp only [Memory.byteAt]
        rw [ih hr]
        split
        · rw [if_neg (by omega)]
        · split
          · rw [if_neg (by omega)]
          · rfl

theorem Memory.wf_consByte (n : Nat) (v : Byte) (m : Memory) (hm : m.wf = true)
    (h : ∀ c ∈ m, n < c.1) : (Memory.consByte n v m).wf = true := by
  unfold Memory.consByte
  split
  · exact hm
  · next hv => exact Memory.wf_cons.mpr ⟨hv, h, hm⟩

theorem Memory.mem_setByte {m : Memory} {n : Nat} {v : Byte} {c : Host.Cell}
    (h : c ∈ m.setByte n v) : c.1 = n ∨ c ∈ m := by
  have hcons : ∀ {l : Memory}, c ∈ Memory.consByte n v l → c.1 = n ∨ c ∈ l := by
    intro l hc
    unfold Memory.consByte at hc
    split at hc
    · exact .inr hc
    · rcases List.mem_cons.mp hc with rfl | hc
      · exact .inl rfl
      · exact .inr hc
  induction m with
  | nil => exact hcons h
  | cons d rest ih =>
    obtain ⟨p, b⟩ := d
    simp only [Memory.setByte] at h
    split at h
    · exact hcons h
    · split at h
      · exact (hcons h).imp_right (List.mem_cons_of_mem _)
      · rcases List.mem_cons.mp h with rfl | h
        · exact .inr (by simp)
        · exact (ih h).imp_right (List.mem_cons_of_mem _)

/-- Writing a byte keeps the canonical form. -/
theorem Memory.wf_setByte (m : Memory) (n : Nat) (v : Byte) (h : m.wf = true) :
    (m.setByte n v).wf = true := by
  induction m with
  | nil => exact Memory.wf_consByte n v [] rfl (by simp)
  | cons c rest ih =>
    obtain ⟨p, b⟩ := c
    obtain ⟨hb, hgt, hr⟩ := Memory.wf_cons.mp h
    simp only [Memory.setByte]
    split
    · next hlt =>
      refine Memory.wf_consByte n v _ h ?_
      rintro c (hc | ⟨_, hc⟩)
      · exact hlt
      · exact Nat.lt_trans hlt (hgt c hc)
    · split
      · next hnp => subst hnp; exact Memory.wf_consByte _ _ _ hr hgt
      · refine Memory.wf_cons.mpr ⟨hb, ?_, ih hr⟩
        intro c hc
        rcases Memory.mem_setByte hc with h1 | h1
        · omega
        · exact hgt c h1

/-- Storing bytes keeps the canonical form. -/
theorem Memory.wf_store (m : Memory) (bank : Fin 8) (a : Long) (bs : List Byte)
    (h : m.wf = true) : (m.store bank a bs).wf = true := by
  induction bs generalizing m a with
  | nil => exact h
  | cons b rest ih => exact ih _ _ (Memory.wf_setByte m _ b h)

/-- Storing some of the bytes keeps the canonical form. -/
theorem Memory.wf_storeWhere (sel : Nat → Bool) (m : Memory) (bank : Fin 8) (a : Long) (i : Nat)
    (bs : List Byte) (h : m.wf = true) : (m.storeWhere sel bank a i bs).wf = true := by
  induction bs generalizing m a i with
  | nil => exact h
  | cons b rest ih =>
    refine ih _ _ _ ?_
    split
    · exact Memory.wf_setByte m _ b h
    · exact h

/-- Two keys are one only for one bank and one address. -/
theorem Memory.key_inj {b c : Fin 8} {x y : Long} (h : Memory.key b x = Memory.key c y) :
    b = c ∧ x = y := by
  have hx := x.isLt
  have hy := y.isLt
  unfold Memory.key at h
  have h1 : b.val = c.val := by omega
  exact ⟨Fin.ext h1, BitVec.eq_of_toNat_eq (by omega)⟩

/-- A byte outside the stored bytes is as before. -/
theorem Memory.byteAt_store_of_ne (m : Memory) (bank : Fin 8) (a : Long) (bs : List Byte) (k : Nat)
    (h : m.wf = true) (hk : ∀ i < bs.length, k ≠ Memory.key bank (a + BitVec.ofNat 32 i)) :
    (m.store bank a bs).byteAt k = m.byteAt k := by
  induction bs generalizing m a with
  | nil => rfl
  | cons b rest ih =>
    have h0 := hk 0 (by simp)
    simp only [BitVec.add_zero] at h0
    rw [Memory.store, ih _ _ (Memory.wf_setByte m _ b h), Memory.byteAt_setByte m _ b k h, if_neg h0]
    intro i hi
    have := hk (i + 1) (by simpa using hi)
    rwa [show a + 1 + BitVec.ofNat 32 i = a + BitVec.ofNat 32 (i + 1) by
      rw [BitVec.add_assoc, Nat.add_comm i 1, BitVec.ofNat_add]; rfl]

/-- Loading what was just stored gives it back, up to 2^32 bytes. -/
theorem Memory.load_store (m : Memory) (bank : Fin 8) (a : Long) (bs : List Byte)
    (h : m.wf = true) (hl : bs.length ≤ 2 ^ 32) :
    (m.store bank a bs).load bank a bs.length = bs := by
  induction bs generalizing m a with
  | nil => rfl
  | cons b rest ih =>
    have hw := Memory.wf_setByte m (Memory.key bank a) b h
    simp only [List.length_cons] at hl
    simp only [Memory.store, List.length_cons, Memory.load]
    rw [ih _ _ hw (by omega)]
    congr 1
    rw [Memory.byteAt_store_of_ne _ _ _ _ _ hw, Memory.byteAt_setByte m _ b _ h, if_pos rfl]
    intro i hi heq
    have := congrArg BitVec.toNat (Memory.key_inj heq).2
    have ha := a.isLt
    have h1 : i < 2 ^ 32 := by omega
    simp only [BitVec.toNat_add, BitVec.toNat_ofNat] at this
    simp at this
    omega

theorem Memory.load_length (m : Memory) (bank : Fin 8) (a : Long) (n : Nat) :
    (m.load bank a n).length = n := by
  induction n generalizing a with
  | zero => rfl
  | succ n ih => simp [Memory.load, ih]

theorem longBytes_length (v : Long) (n : Nat) : (longBytes v n).length = n := by
  induction n with
  | zero => rfl
  | succ n ih => simp [longBytes, ih]

/-- Bytes outside a store read as before. -/
theorem Memory.load_store_of_ne (m : Memory) (bank : Fin 8) (a : Long) (bs : List Byte) (h : m.wf = true)
    (c : Fin 8) (x : Long) (n : Nat)
    (hx : ∀ k < n, bs.length ≤ (x + BitVec.ofNat 32 k - a).toNat) :
    (m.store bank a bs).load c x n = m.load c x n := by
  induction n generalizing x with
  | zero => rfl
  | succ n ih =>
    simp only [Memory.load]
    congr 1
    · refine Memory.byteAt_store_of_ne m bank a bs _ h fun i hi hk => ?_
      have hxi := (Memory.key_inj hk).2
      have h0 := hx 0 (by omega)
      rw [hxi, show a + BitVec.ofNat 32 i + BitVec.ofNat 32 0 - a = BitVec.ofNat 32 i by
        rw [BitVec.add_zero, BitVec.add_comm, BitVec.add_sub_cancel]] at h0
      rw [BitVec.toNat_ofNat] at h0
      have := Nat.mod_le i (2 ^ 32)
      omega
    · refine ih (x + 1) fun k hk => ?_
      have := hx (k + 1) (by omega)
      rwa [show x + 1 + BitVec.ofNat 32 k = x + BitVec.ofNat 32 (k + 1) by
        rw [BitVec.add_assoc, Nat.add_comm k 1, BitVec.ofNat_add]; rfl]

/-- Storing every byte is a store. -/
theorem Memory.storeWhere_eq_store (sel : Nat → Bool) (m : Memory) (bank : Fin 8) (a : Long) (i : Nat)
    (bs : List Byte) (h : ∀ k < bs.length, sel (i + k) = true) :
    m.storeWhere sel bank a i bs = m.store bank a bs := by
  induction bs generalizing m a i with
  | nil => rfl
  | cons b rest ih =>
    rw [Memory.storeWhere, show sel i = true from h 0 (by simp), if_pos rfl]
    refine ih _ _ _ fun k hk => ?_
    rw [Nat.add_assoc, Nat.add_comm 1 k]
    exact h (k + 1) (by simpa using hk)

/-- A byte outside the stored bytes is as before, whichever of them are stored. -/
theorem Memory.byteAt_storeWhere_of_ne (sel : Nat → Bool) (m : Memory) (bank : Fin 8) (a : Long) (i : Nat)
    (bs : List Byte) (k : Nat) (h : m.wf = true)
    (hk : ∀ j < bs.length, k ≠ Memory.key bank (a + BitVec.ofNat 32 j)) :
    (m.storeWhere sel bank a i bs).byteAt k = m.byteAt k := by
  induction bs generalizing m a i with
  | nil => rfl
  | cons b rest ih =>
    have h0 := hk 0 (by simp)
    simp only [BitVec.add_zero] at h0
    have step : (if sel i then m.setByte (Memory.key bank a) b else m).byteAt k = m.byteAt k := by
      split
      · rw [Memory.byteAt_setByte m _ b k h, if_neg h0]
      · rfl
    rw [Memory.storeWhere, ih _ _ _ ?_ ?_, step]
    · split
      · exact Memory.wf_setByte m _ b h
      · exact h
    · intro j hj
      have := hk (j + 1) (by simpa using hj)
      rwa [show a + 1 + BitVec.ofNat 32 j = a + BitVec.ofNat 32 (j + 1) by
        rw [BitVec.add_assoc, Nat.add_comm j 1, BitVec.ofNat_add]; rfl]

theorem Memory.storeWhere_append (sel : Nat → Bool) (m : Memory) (bank : Fin 8) (a : Long) (i : Nat)
    (xs ys : List Byte) :
    m.storeWhere sel bank a i (xs ++ ys) =
      (m.storeWhere sel bank a i xs).storeWhere sel bank (a + BitVec.ofNat 32 xs.length) (i + xs.length) ys := by
  induction xs generalizing m a i with
  | nil => simp [Memory.storeWhere]
  | cons x rest ih =>
    simp only [List.cons_append, Memory.storeWhere, List.length_cons]
    rw [ih, show a + 1 + BitVec.ofNat 32 rest.length = a + BitVec.ofNat 32 (rest.length + 1) by
      rw [BitVec.add_assoc, Nat.add_comm rest.length 1, BitVec.ofNat_add]; rfl,
      Nat.add_assoc, Nat.add_comm 1]

/-- Counting from another index. -/
theorem Memory.storeWhere_shift (sel : Nat → Bool) (m : Memory) (bank : Fin 8) (a : Long) (i k : Nat)
    (bs : List Byte) :
    m.storeWhere sel bank a (k + i) bs = m.storeWhere (fun j => sel (k + j)) bank a i bs := by
  induction bs generalizing m a i with
  | nil => rfl
  | cons b rest ih => simp only [Memory.storeWhere, Nat.add_assoc, ih]

/-- Memory after reset is in canonical form. -/
theorem Memory.wf_reset : State.reset.mem.wf = true := rfl

theorem bytesLong_snoc (xs : List Byte) (b : Byte) :
    bytesLong (xs ++ [b]) = bytesLong xs <<< 8 ||| b.setWidth 32 := by
  simp [bytesLong, List.foldl_append]

/-- The value of up to four bytes fits them. -/
theorem bytesLong_lt (bs : List Byte) (h : bs.length ≤ 4) : (bytesLong bs).toNat < 2 ^ (8 * bs.length) := by
  induction bs using List.reverseRecOn with
  | nil => simp [bytesLong]
  | append_singleton xs b ih =>
    rw [List.length_append, List.length_singleton] at *
    have hx := ih (by omega)
    have hb := b.isLt
    have e : 2 ^ (8 * (xs.length + 1)) = 2 ^ (8 * xs.length) * 256 := by
      rw [show 8 * (xs.length + 1) = 8 * xs.length + 8 by ring, pow_add]; norm_num
    have hp : 1 ≤ 2 ^ (8 * xs.length) := Nat.one_le_two_pow
    rw [bytesLong_snoc]
    simp only [BitVec.toNat_or, BitVec.toNat_shiftLeft, BitVec.toNat_setWidth]
    apply Nat.or_lt_two_pow
    · refine lt_of_le_of_lt (Nat.mod_le _ _) ?_
      rw [Nat.shiftLeft_eq, e]; omega
    · rw [e]; omega

end Sys2Proof.Machine
end

