-- ==== Sys2Proof/Laws/State.lean ====
section
/-! SUPPORT. One lemma a field for each update of the state, and what the accessors read after it. -/

namespace Sys2Proof.Machine

@[simp] theorem State.setD_a (s : State) (r : Reg) (v : Long) : (s.setD r v).a = s.a := rfl
@[simp] theorem State.setD_usp (s : State) (r : Reg) (v : Long) : (s.setD r v).usp = s.usp := rfl
@[simp] theorem State.setD_isp (s : State) (r : Reg) (v : Long) : (s.setD r v).isp = s.isp := rfl
@[simp] theorem State.setD_msp (s : State) (r : Reg) (v : Long) : (s.setD r v).msp = s.msp := rfl
@[simp] theorem State.setD_pc (s : State) (r : Reg) (v : Long) : (s.setD r v).pc = s.pc := rfl
@[simp] theorem State.setD_sr (s : State) (r : Reg) (v : Long) : (s.setD r v).sr = s.sr := rfl
@[simp] theorem State.setD_vbr (s : State) (r : Reg) (v : Long) : (s.setD r v).vbr = s.vbr := rfl
@[simp] theorem State.setD_sfc (s : State) (r : Reg) (v : Long) : (s.setD r v).sfc = s.sfc := rfl
@[simp] theorem State.setD_dfc (s : State) (r : Reg) (v : Long) : (s.setD r v).dfc = s.dfc := rfl
@[simp] theorem State.setD_cacr (s : State) (r : Reg) (v : Long) : (s.setD r v).cacr = s.cacr := rfl
@[simp] theorem State.setD_caar (s : State) (r : Reg) (v : Long) : (s.setD r v).caar = s.caar := rfl
@[simp] theorem State.setD_mem (s : State) (r : Reg) (v : Long) : (s.setD r v).mem = s.mem := rfl
@[simp] theorem State.setD_cache (s : State) (r : Reg) (v : Long) : (s.setD r v).cache = s.cache := rfl
@[simp] theorem State.setD_pipe (s : State) (r : Reg) (v : Long) : (s.setD r v).pipe = s.pipe := rfl
@[simp] theorem State.setD_run (s : State) (r : Reg) (v : Long) : (s.setD r v).run = s.run := rfl
@[simp] theorem State.setD_srCopy (s : State) (r : Reg) (v : Long) : (s.setD r v).srCopy = s.srCopy := rfl
@[simp] theorem State.setD_owed (s : State) (r : Reg) (v : Long) : (s.setD r v).owed = s.owed := rfl
@[simp] theorem State.setD_ending (s : State) (r : Reg) (v : Long) : (s.setD r v).ending = s.ending := rfl
@[simp] theorem State.setD_eaTemp (s : State) (r : Reg) (v : Long) : (s.setD r v).eaTemp = s.eaTemp := rfl
@[simp] theorem State.setD_scanPc (s : State) (r : Reg) (v : Long) : (s.setD r v).scanPc = s.scanPc := rfl
@[simp] theorem State.setD_ipl (s : State) (r : Reg) (v : Long) : (s.setD r v).ipl = s.ipl := rfl
@[simp] theorem State.setD_nmi (s : State) (r : Reg) (v : Long) : (s.setD r v).nmi = s.nmi := rfl
@[simp] theorem State.setD_inputs (s : State) (r : Reg) (v : Long) : (s.setD r v).inputs = s.inputs := rfl
@[simp] theorem State.setD_platform (s : State) (r : Reg) (v : Long) : (s.setD r v).platform = s.platform := rfl
@[simp] theorem State.setD_draws (s : State) (r : Reg) (v : Long) : (s.setD r v).draws = s.draws := rfl

@[simp] theorem State.putD_a (s : State) (sz : Size) (r : Reg) (v : Long) : (s.putD sz r v).a = s.a := rfl
@[simp] theorem State.putD_usp (s : State) (sz : Size) (r : Reg) (v : Long) : (s.putD sz r v).usp = s.usp := rfl
@[simp] theorem State.putD_isp (s : State) (sz : Size) (r : Reg) (v : Long) : (s.putD sz r v).isp = s.isp := rfl
@[simp] theorem State.putD_msp (s : State) (sz : Size) (r : Reg) (v : Long) : (s.putD sz r v).msp = s.msp := rfl
@[simp] theorem State.putD_pc (s : State) (sz : Size) (r : Reg) (v : Long) : (s.putD sz r v).pc = s.pc := rfl
@[simp] theorem State.putD_sr (s : State) (sz : Size) (r : Reg) (v : Long) : (s.putD sz r v).sr = s.sr := rfl
@[simp] theorem State.putD_vbr (s : State) (sz : Size) (r : Reg) (v : Long) : (s.putD sz r v).vbr = s.vbr := rfl
@[simp] theorem State.putD_sfc (s : State) (sz : Size) (r : Reg) (v : Long) : (s.putD sz r v).sfc = s.sfc := rfl
@[simp] theorem State.putD_dfc (s : State) (sz : Size) (r : Reg) (v : Long) : (s.putD sz r v).dfc = s.dfc := rfl
@[simp] theorem State.putD_cacr (s : State) (sz : Size) (r : Reg) (v : Long) : (s.putD sz r v).cacr = s.cacr := rfl
@[simp] theorem State.putD_caar (s : State) (sz : Size) (r : Reg) (v : Long) : (s.putD sz r v).caar = s.caar := rfl
@[simp] theorem State.putD_mem (s : State) (sz : Size) (r : Reg) (v : Long) : (s.putD sz r v).mem = s.mem := rfl
@[simp] theorem State.putD_cache (s : State) (sz : Size) (r : Reg) (v : Long) : (s.putD sz r v).cache = s.cache := rfl
@[simp] theorem State.putD_pipe (s : State) (sz : Size) (r : Reg) (v : Long) : (s.putD sz r v).pipe = s.pipe := rfl
@[simp] theorem State.putD_run (s : State) (sz : Size) (r : Reg) (v : Long) : (s.putD sz r v).run = s.run := rfl
@[simp] theorem State.putD_srCopy (s : State) (sz : Size) (r : Reg) (v : Long) : (s.putD sz r v).srCopy = s.srCopy := rfl
@[simp] theorem State.putD_owed (s : State) (sz : Size) (r : Reg) (v : Long) : (s.putD sz r v).owed = s.owed := rfl
@[simp] theorem State.putD_ending (s : State) (sz : Size) (r : Reg) (v : Long) : (s.putD sz r v).ending = s.ending := rfl
@[simp] theorem State.putD_eaTemp (s : State) (sz : Size) (r : Reg) (v : Long) : (s.putD sz r v).eaTemp = s.eaTemp := rfl
@[simp] theorem State.putD_scanPc (s : State) (sz : Size) (r : Reg) (v : Long) : (s.putD sz r v).scanPc = s.scanPc := rfl
@[simp] theorem State.putD_ipl (s : State) (sz : Size) (r : Reg) (v : Long) : (s.putD sz r v).ipl = s.ipl := rfl
@[simp] theorem State.putD_nmi (s : State) (sz : Size) (r : Reg) (v : Long) : (s.putD sz r v).nmi = s.nmi := rfl
@[simp] theorem State.putD_inputs (s : State) (sz : Size) (r : Reg) (v : Long) : (s.putD sz r v).inputs = s.inputs := rfl
@[simp] theorem State.putD_platform (s : State) (sz : Size) (r : Reg) (v : Long) : (s.putD sz r v).platform = s.platform := rfl
@[simp] theorem State.putD_draws (s : State) (sz : Size) (r : Reg) (v : Long) : (s.putD sz r v).draws = s.draws := rfl

@[simp] theorem State.setCc_d (s : State) (f : CC) : (s.setCc f).d = s.d := rfl
@[simp] theorem State.setCc_a (s : State) (f : CC) : (s.setCc f).a = s.a := rfl
@[simp] theorem State.setCc_usp (s : State) (f : CC) : (s.setCc f).usp = s.usp := rfl
@[simp] theorem State.setCc_isp (s : State) (f : CC) : (s.setCc f).isp = s.isp := rfl
@[simp] theorem State.setCc_msp (s : State) (f : CC) : (s.setCc f).msp = s.msp := rfl
@[simp] theorem State.setCc_pc (s : State) (f : CC) : (s.setCc f).pc = s.pc := rfl
@[simp] theorem State.setCc_vbr (s : State) (f : CC) : (s.setCc f).vbr = s.vbr := rfl
@[simp] theorem State.setCc_sfc (s : State) (f : CC) : (s.setCc f).sfc = s.sfc := rfl
@[simp] theorem State.setCc_dfc (s : State) (f : CC) : (s.setCc f).dfc = s.dfc := rfl
@[simp] theorem State.setCc_cacr (s : State) (f : CC) : (s.setCc f).cacr = s.cacr := rfl
@[simp] theorem State.setCc_caar (s : State) (f : CC) : (s.setCc f).caar = s.caar := rfl
@[simp] theorem State.setCc_mem (s : State) (f : CC) : (s.setCc f).mem = s.mem := rfl
@[simp] theorem State.setCc_cache (s : State) (f : CC) : (s.setCc f).cache = s.cache := rfl
@[simp] theorem State.setCc_pipe (s : State) (f : CC) : (s.setCc f).pipe = s.pipe := rfl
@[simp] theorem State.setCc_run (s : State) (f : CC) : (s.setCc f).run = s.run := rfl
@[simp] theorem State.setCc_srCopy (s : State) (f : CC) : (s.setCc f).srCopy = s.srCopy := rfl
@[simp] theorem State.setCc_owed (s : State) (f : CC) : (s.setCc f).owed = s.owed := rfl
@[simp] theorem State.setCc_ending (s : State) (f : CC) : (s.setCc f).ending = s.ending := rfl
@[simp] theorem State.setCc_eaTemp (s : State) (f : CC) : (s.setCc f).eaTemp = s.eaTemp := rfl
@[simp] theorem State.setCc_scanPc (s : State) (f : CC) : (s.setCc f).scanPc = s.scanPc := rfl
@[simp] theorem State.setCc_ipl (s : State) (f : CC) : (s.setCc f).ipl = s.ipl := rfl
@[simp] theorem State.setCc_nmi (s : State) (f : CC) : (s.setCc f).nmi = s.nmi := rfl
@[simp] theorem State.setCc_inputs (s : State) (f : CC) : (s.setCc f).inputs = s.inputs := rfl
@[simp] theorem State.setCc_platform (s : State) (f : CC) : (s.setCc f).platform = s.platform := rfl
@[simp] theorem State.setCc_draws (s : State) (f : CC) : (s.setCc f).draws = s.draws := rfl

@[simp] theorem State.setSr_d (s : State) (v : Word) : (s.setSr v).d = s.d := rfl
@[simp] theorem State.setSr_a (s : State) (v : Word) : (s.setSr v).a = s.a := rfl
@[simp] theorem State.setSr_usp (s : State) (v : Word) : (s.setSr v).usp = s.usp := rfl
@[simp] theorem State.setSr_isp (s : State) (v : Word) : (s.setSr v).isp = s.isp := rfl
@[simp] theorem State.setSr_msp (s : State) (v : Word) : (s.setSr v).msp = s.msp := rfl
@[simp] theorem State.setSr_pc (s : State) (v : Word) : (s.setSr v).pc = s.pc := rfl
@[simp] theorem State.setSr_vbr (s : State) (v : Word) : (s.setSr v).vbr = s.vbr := rfl
@[simp] theorem State.setSr_sfc (s : State) (v : Word) : (s.setSr v).sfc = s.sfc := rfl
@[simp] theorem State.setSr_dfc (s : State) (v : Word) : (s.setSr v).dfc = s.dfc := rfl
@[simp] theorem State.setSr_cacr (s : State) (v : Word) : (s.setSr v).cacr = s.cacr := rfl
@[simp] theorem State.setSr_caar (s : State) (v : Word) : (s.setSr v).caar = s.caar := rfl
@[simp] theorem State.setSr_mem (s : State) (v : Word) : (s.setSr v).mem = s.mem := rfl
@[simp] theorem State.setSr_cache (s : State) (v : Word) : (s.setSr v).cache = s.cache := rfl
@[simp] theorem State.setSr_pipe (s : State) (v : Word) : (s.setSr v).pipe = s.pipe := rfl
@[simp] theorem State.setSr_run (s : State) (v : Word) : (s.setSr v).run = s.run := rfl
@[simp] theorem State.setSr_srCopy (s : State) (v : Word) : (s.setSr v).srCopy = s.srCopy := rfl
@[simp] theorem State.setSr_owed (s : State) (v : Word) : (s.setSr v).owed = s.owed := rfl
@[simp] theorem State.setSr_ending (s : State) (v : Word) : (s.setSr v).ending = s.ending := rfl
@[simp] theorem State.setSr_eaTemp (s : State) (v : Word) : (s.setSr v).eaTemp = s.eaTemp := rfl
@[simp] theorem State.setSr_scanPc (s : State) (v : Word) : (s.setSr v).scanPc = s.scanPc := rfl
@[simp] theorem State.setSr_ipl (s : State) (v : Word) : (s.setSr v).ipl = s.ipl := rfl
@[simp] theorem State.setSr_nmi (s : State) (v : Word) : (s.setSr v).nmi = s.nmi := rfl
@[simp] theorem State.setSr_inputs (s : State) (v : Word) : (s.setSr v).inputs = s.inputs := rfl
@[simp] theorem State.setSr_platform (s : State) (v : Word) : (s.setSr v).platform = s.platform := rfl
@[simp] theorem State.setSr_draws (s : State) (v : Word) : (s.setSr v).draws = s.draws := rfl

@[simp] theorem State.used_d (s : State) (k : Nat) : (s.used k).d = s.d := rfl
@[simp] theorem State.used_a (s : State) (k : Nat) : (s.used k).a = s.a := rfl
@[simp] theorem State.used_usp (s : State) (k : Nat) : (s.used k).usp = s.usp := rfl
@[simp] theorem State.used_isp (s : State) (k : Nat) : (s.used k).isp = s.isp := rfl
@[simp] theorem State.used_msp (s : State) (k : Nat) : (s.used k).msp = s.msp := rfl
@[simp] theorem State.used_pc (s : State) (k : Nat) : (s.used k).pc = s.pc := rfl
@[simp] theorem State.used_sr (s : State) (k : Nat) : (s.used k).sr = s.sr := rfl
@[simp] theorem State.used_vbr (s : State) (k : Nat) : (s.used k).vbr = s.vbr := rfl
@[simp] theorem State.used_sfc (s : State) (k : Nat) : (s.used k).sfc = s.sfc := rfl
@[simp] theorem State.used_dfc (s : State) (k : Nat) : (s.used k).dfc = s.dfc := rfl
@[simp] theorem State.used_cacr (s : State) (k : Nat) : (s.used k).cacr = s.cacr := rfl
@[simp] theorem State.used_caar (s : State) (k : Nat) : (s.used k).caar = s.caar := rfl
@[simp] theorem State.used_mem (s : State) (k : Nat) : (s.used k).mem = s.mem := rfl
@[simp] theorem State.used_cache (s : State) (k : Nat) : (s.used k).cache = s.cache := rfl
@[simp] theorem State.used_pipe (s : State) (k : Nat) : (s.used k).pipe = s.pipe := rfl
@[simp] theorem State.used_run (s : State) (k : Nat) : (s.used k).run = s.run := rfl
@[simp] theorem State.used_srCopy (s : State) (k : Nat) : (s.used k).srCopy = s.srCopy := rfl
@[simp] theorem State.used_owed (s : State) (k : Nat) : (s.used k).owed = s.owed := rfl
@[simp] theorem State.used_ending (s : State) (k : Nat) : (s.used k).ending = s.ending := rfl
@[simp] theorem State.used_eaTemp (s : State) (k : Nat) : (s.used k).eaTemp = s.eaTemp := rfl
@[simp] theorem State.used_scanPc (s : State) (k : Nat) : (s.used k).scanPc = s.scanPc := rfl
@[simp] theorem State.used_ipl (s : State) (k : Nat) : (s.used k).ipl = s.ipl := rfl
@[simp] theorem State.used_nmi (s : State) (k : Nat) : (s.used k).nmi = s.nmi := rfl
@[simp] theorem State.used_inputs (s : State) (k : Nat) : (s.used k).inputs = s.inputs := rfl
@[simp] theorem State.used_platform (s : State) (k : Nat) : (s.used k).platform = s.platform := rfl

@[simp] theorem State.store_d (s : State) (fc : FC) (x : Long) (bs : List Byte) : (s.store fc x bs).d = s.d := rfl
@[simp] theorem State.store_a (s : State) (fc : FC) (x : Long) (bs : List Byte) : (s.store fc x bs).a = s.a := rfl
@[simp] theorem State.store_usp (s : State) (fc : FC) (x : Long) (bs : List Byte) : (s.store fc x bs).usp = s.usp := rfl
@[simp] theorem State.store_isp (s : State) (fc : FC) (x : Long) (bs : List Byte) : (s.store fc x bs).isp = s.isp := rfl
@[simp] theorem State.store_msp (s : State) (fc : FC) (x : Long) (bs : List Byte) : (s.store fc x bs).msp = s.msp := rfl
@[simp] theorem State.store_pc (s : State) (fc : FC) (x : Long) (bs : List Byte) : (s.store fc x bs).pc = s.pc := rfl
@[simp] theorem State.store_sr (s : State) (fc : FC) (x : Long) (bs : List Byte) : (s.store fc x bs).sr = s.sr := rfl
@[simp] theorem State.store_vbr (s : State) (fc : FC) (x : Long) (bs : List Byte) : (s.store fc x bs).vbr = s.vbr := rfl
@[simp] theorem State.store_sfc (s : State) (fc : FC) (x : Long) (bs : List Byte) : (s.store fc x bs).sfc = s.sfc := rfl
@[simp] theorem State.store_dfc (s : State) (fc : FC) (x : Long) (bs : List Byte) : (s.store fc x bs).dfc = s.dfc := rfl
@[simp] theorem State.store_cacr (s : State) (fc : FC) (x : Long) (bs : List Byte) : (s.store fc x bs).cacr = s.cacr := rfl
@[simp] theorem State.store_caar (s : State) (fc : FC) (x : Long) (bs : List Byte) : (s.store fc x bs).caar = s.caar := rfl
@[simp] theorem State.store_cache (s : State) (fc : FC) (x : Long) (bs : List Byte) : (s.store fc x bs).cache = s.cache := rfl
@[simp] theorem State.store_pipe (s : State) (fc : FC) (x : Long) (bs : List Byte) : (s.store fc x bs).pipe = s.pipe := rfl
@[simp] theorem State.store_run (s : State) (fc : FC) (x : Long) (bs : List Byte) : (s.store fc x bs).run = s.run := rfl
@[simp] theorem State.store_srCopy (s : State) (fc : FC) (x : Long) (bs : List Byte) : (s.store fc x bs).srCopy = s.srCopy := rfl
@[simp] theorem State.store_owed (s : State) (fc : FC) (x : Long) (bs : List Byte) : (s.store fc x bs).owed = s.owed := rfl
@[simp] theorem State.store_ending (s : State) (fc : FC) (x : Long) (bs : List Byte) : (s.store fc x bs).ending = s.ending := rfl
@[simp] theorem State.store_eaTemp (s : State) (fc : FC) (x : Long) (bs : List Byte) : (s.store fc x bs).eaTemp = s.eaTemp := rfl
@[simp] theorem State.store_scanPc (s : State) (fc : FC) (x : Long) (bs : List Byte) : (s.store fc x bs).scanPc = s.scanPc := rfl
@[simp] theorem State.store_ipl (s : State) (fc : FC) (x : Long) (bs : List Byte) : (s.store fc x bs).ipl = s.ipl := rfl
@[simp] theorem State.store_nmi (s : State) (fc : FC) (x : Long) (bs : List Byte) : (s.store fc x bs).nmi = s.nmi := rfl
@[simp] theorem State.store_inputs (s : State) (fc : FC) (x : Long) (bs : List Byte) : (s.store fc x bs).inputs = s.inputs := rfl
@[simp] theorem State.store_platform (s : State) (fc : FC) (x : Long) (bs : List Byte) : (s.store fc x bs).platform = s.platform := rfl
@[simp] theorem State.store_draws (s : State) (fc : FC) (x : Long) (bs : List Byte) : (s.store fc x bs).draws = s.draws := rfl

@[simp] theorem State.setSp_d (s : State) (v : Long) : (s.setSp v).d = s.d := by
  unfold State.setSp; split <;> (try split) <;> rfl
@[simp] theorem State.setSp_a (s : State) (v : Long) : (s.setSp v).a = s.a := by
  unfold State.setSp; split <;> (try split) <;> rfl
@[simp] theorem State.setSp_pc (s : State) (v : Long) : (s.setSp v).pc = s.pc := by
  unfold State.setSp; split <;> (try split) <;> rfl
@[simp] theorem State.setSp_sr (s : State) (v : Long) : (s.setSp v).sr = s.sr := by
  unfold State.setSp; split <;> (try split) <;> rfl
@[simp] theorem State.setSp_vbr (s : State) (v : Long) : (s.setSp v).vbr = s.vbr := by
  unfold State.setSp; split <;> (try split) <;> rfl
@[simp] theorem State.setSp_sfc (s : State) (v : Long) : (s.setSp v).sfc = s.sfc := by
  unfold State.setSp; split <;> (try split) <;> rfl
@[simp] theorem State.setSp_dfc (s : State) (v : Long) : (s.setSp v).dfc = s.dfc := by
  unfold State.setSp; split <;> (try split) <;> rfl
@[simp] theorem State.setSp_cacr (s : State) (v : Long) : (s.setSp v).cacr = s.cacr := by
  unfold State.setSp; split <;> (try split) <;> rfl
@[simp] theorem State.setSp_caar (s : State) (v : Long) : (s.setSp v).caar = s.caar := by
  unfold State.setSp; split <;> (try split) <;> rfl
@[simp] theorem State.setSp_mem (s : State) (v : Long) : (s.setSp v).mem = s.mem := by
  unfold State.setSp; split <;> (try split) <;> rfl
@[simp] theorem State.setSp_cache (s : State) (v : Long) : (s.setSp v).cache = s.cache := by
  unfold State.setSp; split <;> (try split) <;> rfl
@[simp] theorem State.setSp_pipe (s : State) (v : Long) : (s.setSp v).pipe = s.pipe := by
  unfold State.setSp; split <;> (try split) <;> rfl
@[simp] theorem State.setSp_run (s : State) (v : Long) : (s.setSp v).run = s.run := by
  unfold State.setSp; split <;> (try split) <;> rfl
@[simp] theorem State.setSp_srCopy (s : State) (v : Long) : (s.setSp v).srCopy = s.srCopy := by
  unfold State.setSp; split <;> (try split) <;> rfl
@[simp] theorem State.setSp_owed (s : State) (v : Long) : (s.setSp v).owed = s.owed := by
  unfold State.setSp; split <;> (try split) <;> rfl
@[simp] theorem State.setSp_ending (s : State) (v : Long) : (s.setSp v).ending = s.ending := by
  unfold State.setSp; split <;> (try split) <;> rfl
@[simp] theorem State.setSp_eaTemp (s : State) (v : Long) : (s.setSp v).eaTemp = s.eaTemp := by
  unfold State.setSp; split <;> (try split) <;> rfl
@[simp] theorem State.setSp_scanPc (s : State) (v : Long) : (s.setSp v).scanPc = s.scanPc := by
  unfold State.setSp; split <;> (try split) <;> rfl
@[simp] theorem State.setSp_ipl (s : State) (v : Long) : (s.setSp v).ipl = s.ipl := by
  unfold State.setSp; split <;> (try split) <;> rfl
@[simp] theorem State.setSp_nmi (s : State) (v : Long) : (s.setSp v).nmi = s.nmi := by
  unfold State.setSp; split <;> (try split) <;> rfl
@[simp] theorem State.setSp_inputs (s : State) (v : Long) : (s.setSp v).inputs = s.inputs := by
  unfold State.setSp; split <;> (try split) <;> rfl
@[simp] theorem State.setSp_platform (s : State) (v : Long) : (s.setSp v).platform = s.platform := by
  unfold State.setSp; split <;> (try split) <;> rfl
@[simp] theorem State.setSp_draws (s : State) (v : Long) : (s.setSp v).draws = s.draws := by
  unfold State.setSp; split <;> (try split) <;> rfl

@[simp] theorem State.setA_d (s : State) (r : Reg) (v : Long) : (s.setA r v).d = s.d := by
  unfold State.setA; split <;> simp
@[simp] theorem State.setA_pc (s : State) (r : Reg) (v : Long) : (s.setA r v).pc = s.pc := by
  unfold State.setA; split <;> simp
@[simp] theorem State.setA_sr (s : State) (r : Reg) (v : Long) : (s.setA r v).sr = s.sr := by
  unfold State.setA; split <;> simp
@[simp] theorem State.setA_vbr (s : State) (r : Reg) (v : Long) : (s.setA r v).vbr = s.vbr := by
  unfold State.setA; split <;> simp
@[simp] theorem State.setA_sfc (s : State) (r : Reg) (v : Long) : (s.setA r v).sfc = s.sfc := by
  unfold State.setA; split <;> simp
@[simp] theorem State.setA_dfc (s : State) (r : Reg) (v : Long) : (s.setA r v).dfc = s.dfc := by
  unfold State.setA; split <;> simp
@[simp] theorem State.setA_cacr (s : State) (r : Reg) (v : Long) : (s.setA r v).cacr = s.cacr := by
  unfold State.setA; split <;> simp
@[simp] theorem State.setA_caar (s : State) (r : Reg) (v : Long) : (s.setA r v).caar = s.caar := by
  unfold State.setA; split <;> simp
@[simp] theorem State.setA_mem (s : State) (r : Reg) (v : Long) : (s.setA r v).mem = s.mem := by
  unfold State.setA; split <;> simp
@[simp] theorem State.setA_cache (s : State) (r : Reg) (v : Long) : (s.setA r v).cache = s.cache := by
  unfold State.setA; split <;> simp
@[simp] theorem State.setA_pipe (s : State) (r : Reg) (v : Long) : (s.setA r v).pipe = s.pipe := by
  unfold State.setA; split <;> simp
@[simp] theorem State.setA_run (s : State) (r : Reg) (v : Long) : (s.setA r v).run = s.run := by
  unfold State.setA; split <;> simp
@[simp] theorem State.setA_srCopy (s : State) (r : Reg) (v : Long) : (s.setA r v).srCopy = s.srCopy := by
  unfold State.setA; split <;> simp
@[simp] theorem State.setA_owed (s : State) (r : Reg) (v : Long) : (s.setA r v).owed = s.owed := by
  unfold State.setA; split <;> simp
@[simp] theorem State.setA_ending (s : State) (r : Reg) (v : Long) : (s.setA r v).ending = s.ending := by
  unfold State.setA; split <;> simp
@[simp] theorem State.setA_eaTemp (s : State) (r : Reg) (v : Long) : (s.setA r v).eaTemp = s.eaTemp := by
  unfold State.setA; split <;> simp
@[simp] theorem State.setA_scanPc (s : State) (r : Reg) (v : Long) : (s.setA r v).scanPc = s.scanPc := by
  unfold State.setA; split <;> simp
@[simp] theorem State.setA_ipl (s : State) (r : Reg) (v : Long) : (s.setA r v).ipl = s.ipl := by
  unfold State.setA; split <;> simp
@[simp] theorem State.setA_nmi (s : State) (r : Reg) (v : Long) : (s.setA r v).nmi = s.nmi := by
  unfold State.setA; split <;> simp
@[simp] theorem State.setA_inputs (s : State) (r : Reg) (v : Long) : (s.setA r v).inputs = s.inputs := by
  unfold State.setA; split <;> simp
@[simp] theorem State.setA_platform (s : State) (r : Reg) (v : Long) : (s.setA r v).platform = s.platform := by
  unfold State.setA; split <;> simp
@[simp] theorem State.setA_draws (s : State) (r : Reg) (v : Long) : (s.setA r v).draws = s.draws := by
  unfold State.setA; split <;> simp

@[simp] theorem State.setR_pc (s : State) (rn : Rn) (v : Long) : (s.setR rn v).pc = s.pc := by
  unfold State.setR; split <;> simp
@[simp] theorem State.setR_sr (s : State) (rn : Rn) (v : Long) : (s.setR rn v).sr = s.sr := by
  unfold State.setR; split <;> simp
@[simp] theorem State.setR_vbr (s : State) (rn : Rn) (v : Long) : (s.setR rn v).vbr = s.vbr := by
  unfold State.setR; split <;> simp
@[simp] theorem State.setR_sfc (s : State) (rn : Rn) (v : Long) : (s.setR rn v).sfc = s.sfc := by
  unfold State.setR; split <;> simp
@[simp] theorem State.setR_dfc (s : State) (rn : Rn) (v : Long) : (s.setR rn v).dfc = s.dfc := by
  unfold State.setR; split <;> simp
@[simp] theorem State.setR_cacr (s : State) (rn : Rn) (v : Long) : (s.setR rn v).cacr = s.cacr := by
  unfold State.setR; split <;> simp
@[simp] theorem State.setR_caar (s : State) (rn : Rn) (v : Long) : (s.setR rn v).caar = s.caar := by
  unfold State.setR; split <;> simp
@[simp] theorem State.setR_mem (s : State) (rn : Rn) (v : Long) : (s.setR rn v).mem = s.mem := by
  unfold State.setR; split <;> simp
@[simp] theorem State.setR_cache (s : State) (rn : Rn) (v : Long) : (s.setR rn v).cache = s.cache := by
  unfold State.setR; split <;> simp
@[simp] theorem State.setR_pipe (s : State) (rn : Rn) (v : Long) : (s.setR rn v).pipe = s.pipe := by
  unfold State.setR; split <;> simp
@[simp] theorem State.setR_run (s : State) (rn : Rn) (v : Long) : (s.setR rn v).run = s.run := by
  unfold State.setR; split <;> simp
@[simp] theorem State.setR_srCopy (s : State) (rn : Rn) (v : Long) : (s.setR rn v).srCopy = s.srCopy := by
  unfold State.setR; split <;> simp
@[simp] theorem State.setR_owed (s : State) (rn : Rn) (v : Long) : (s.setR rn v).owed = s.owed := by
  unfold State.setR; split <;> simp
@[simp] theorem State.setR_ending (s : State) (rn : Rn) (v : Long) : (s.setR rn v).ending = s.ending := by
  unfold State.setR; split <;> simp
@[simp] theorem State.setR_eaTemp (s : State) (rn : Rn) (v : Long) : (s.setR rn v).eaTemp = s.eaTemp := by
  unfold State.setR; split <;> simp
@[simp] theorem State.setR_scanPc (s : State) (rn : Rn) (v : Long) : (s.setR rn v).scanPc = s.scanPc := by
  unfold State.setR; split <;> simp
@[simp] theorem State.setR_ipl (s : State) (rn : Rn) (v : Long) : (s.setR rn v).ipl = s.ipl := by
  unfold State.setR; split <;> simp
@[simp] theorem State.setR_nmi (s : State) (rn : Rn) (v : Long) : (s.setR rn v).nmi = s.nmi := by
  unfold State.setR; split <;> simp
@[simp] theorem State.setR_inputs (s : State) (rn : Rn) (v : Long) : (s.setR rn v).inputs = s.inputs := by
  unfold State.setR; split <;> simp
@[simp] theorem State.setR_platform (s : State) (rn : Rn) (v : Long) : (s.setR rn v).platform = s.platform := by
  unfold State.setR; split <;> simp
@[simp] theorem State.setR_draws (s : State) (rn : Rn) (v : Long) : (s.setR rn v).draws = s.draws := by
  unfold State.setR; split <;> simp

/-! ## What the accessors read after an update -/

@[simp] theorem State.dreg_setD_self (s : State) (r : Reg) (v : Long) : (s.setD r v).dreg r = v := by
  simp [State.dreg, State.setD]

theorem State.dreg_setD_of_ne (s : State) {r q : Reg} (v : Long) (h : q ≠ r) :
    (s.setD r v).dreg q = s.dreg q := by
  have : r.val ≠ q.val := fun e => h (Fin.ext e.symm)
  simp [State.dreg, State.setD, Vector.getElem_set_ne, this]

@[simp] theorem State.dreg_setA (s : State) (r q : Reg) (v : Long) : (s.setA r v).dreg q = s.dreg q := by
  simp [State.dreg]
@[simp] theorem State.dreg_setSp (s : State) (q : Reg) (v : Long) : (s.setSp v).dreg q = s.dreg q := by
  simp [State.dreg]
@[simp] theorem State.dreg_setCc (s : State) (f : CC) (q : Reg) : (s.setCc f).dreg q = s.dreg q := rfl
@[simp] theorem State.dreg_setSr (s : State) (v : Word) (q : Reg) : (s.setSr v).dreg q = s.dreg q := rfl
@[simp] theorem State.dreg_used (s : State) (k : Nat) (q : Reg) : (s.used k).dreg q = s.dreg q := rfl
@[simp] theorem State.dreg_store (s : State) (fc : FC) (x : Long) (bs : List Byte) (q : Reg) :
    (s.store fc x bs).dreg q = s.dreg q := rfl

theorem CC.bits_getLsbD_high (f : CC) (i : Nat) (h : 5 ≤ i) : f.bits.getLsbD i = false := by
  obtain ⟨x, n, z, v, c⟩ := f
  by_cases hi : i < 16
  · interval_cases i <;> cases x <;> cases n <;> cases z <;> cases v <;> cases c <;> rfl
  · exact BitVec.getLsbD_of_ge _ _ (by omega)

/-- Bits 15:5 of the SR survive a write of the condition codes. -/
theorem State.setCc_high (s : State) (f : CC) (i : Nat) (h : 5 ≤ i) (h' : i < 16) :
    (s.setCc f).sr.getLsbD i = s.sr.getLsbD i := by
  have hm : (0xFFE0#16).getLsbD i = true := by interval_cases i <;> rfl
  simp [State.setCc, CC.bits_getLsbD_high f i h, hm]

@[simp] theorem State.sBit_setCc (s : State) (f : CC) : (s.setCc f).sBit = s.sBit :=
  s.setCc_high f 13 (by decide) (by decide)
@[simp] theorem State.mBit_setCc (s : State) (f : CC) : (s.setCc f).mBit = s.mBit :=
  s.setCc_high f 12 (by decide) (by decide)

/-- The condition codes read back as written. -/
@[simp] theorem State.cc_setCc (s : State) (f : CC) : (s.setCc f).cc = f := by
  obtain ⟨x, n, z, v, c⟩ := f
  have key : ∀ i < 5, (s.setCc ⟨x, n, z, v, c⟩).sr.getLsbD i = (CC.bits ⟨x, n, z, v, c⟩).getLsbD i := by
    intro i hi
    have hm : (0xFFE0#16).getLsbD i = false := by interval_cases i <;> rfl
    simp [State.setCc, hm]
  simp only [State.cc, CC.ofBits]
  rw [key 0 (by decide), key 1 (by decide), key 2 (by decide), key 3 (by decide), key 4 (by decide)]
  cases x <;> cases n <;> cases z <;> cases v <;> cases c <;> rfl

@[simp] theorem State.setCc_setCc (s : State) (f g : CC) : (s.setCc f).setCc g = s.setCc g := by
  have : ((s.sr &&& 0xFFE0#16 ||| f.bits) &&& 0xFFE0#16) = s.sr &&& 0xFFE0#16 := by
    apply BitVec.eq_of_getLsbD_eq
    intro i hi
    by_cases h5 : 5 ≤ i
    · simp [CC.bits_getLsbD_high f i h5]
    · have hm : (0xFFE0#16).getLsbD i = false := by interval_cases i <;> rfl
      simp [hm]
  simp [State.setCc, this]

@[simp] theorem State.sBit_setD (s : State) (r : Reg) (v : Long) : (s.setD r v).sBit = s.sBit := by
  simp [State.sBit]
@[simp] theorem State.mBit_setD (s : State) (r : Reg) (v : Long) : (s.setD r v).mBit = s.mBit := by
  simp [State.mBit]
@[simp] theorem State.cc_setD (s : State) (r : Reg) (v : Long) : (s.setD r v).cc = s.cc := by
  simp [State.cc]

@[simp] theorem State.sBit_putD (s : State) (sz : Size) (r : Reg) (v : Long) : (s.putD sz r v).sBit = s.sBit := by
  simp [State.sBit]
@[simp] theorem State.mBit_putD (s : State) (sz : Size) (r : Reg) (v : Long) : (s.putD sz r v).mBit = s.mBit := by
  simp [State.mBit]
@[simp] theorem State.cc_putD (s : State) (sz : Size) (r : Reg) (v : Long) : (s.putD sz r v).cc = s.cc := by
  simp [State.cc]

@[simp] theorem State.sBit_used (s : State) (k : Nat) : (s.used k).sBit = s.sBit := by
  simp [State.sBit]
@[simp] theorem State.mBit_used (s : State) (k : Nat) : (s.used k).mBit = s.mBit := by
  simp [State.mBit]
@[simp] theorem State.cc_used (s : State) (k : Nat) : (s.used k).cc = s.cc := by
  simp [State.cc]

@[simp] theorem State.sBit_store (s : State) (fc : FC) (x : Long) (bs : List Byte) : (s.store fc x bs).sBit = s.sBit := by
  simp [State.sBit]
@[simp] theorem State.mBit_store (s : State) (fc : FC) (x : Long) (bs : List Byte) : (s.store fc x bs).mBit = s.mBit := by
  simp [State.mBit]
@[simp] theorem State.cc_store (s : State) (fc : FC) (x : Long) (bs : List Byte) : (s.store fc x bs).cc = s.cc := by
  simp [State.cc]

@[simp] theorem State.sBit_setSp (s : State) (v : Long) : (s.setSp v).sBit = s.sBit := by
  simp [State.sBit]
@[simp] theorem State.mBit_setSp (s : State) (v : Long) : (s.setSp v).mBit = s.mBit := by
  simp [State.mBit]
@[simp] theorem State.cc_setSp (s : State) (v : Long) : (s.setSp v).cc = s.cc := by
  simp [State.cc]

@[simp] theorem State.sBit_setA (s : State) (r : Reg) (v : Long) : (s.setA r v).sBit = s.sBit := by
  simp [State.sBit]
@[simp] theorem State.mBit_setA (s : State) (r : Reg) (v : Long) : (s.setA r v).mBit = s.mBit := by
  simp [State.mBit]
@[simp] theorem State.cc_setA (s : State) (r : Reg) (v : Long) : (s.setA r v).cc = s.cc := by
  simp [State.cc]

@[simp] theorem State.sBit_setR (s : State) (rn : Rn) (v : Long) : (s.setR rn v).sBit = s.sBit := by
  simp [State.sBit]
@[simp] theorem State.mBit_setR (s : State) (rn : Rn) (v : Long) : (s.setR rn v).mBit = s.mBit := by
  simp [State.mBit]
@[simp] theorem State.cc_setR (s : State) (rn : Rn) (v : Long) : (s.setR rn v).cc = s.cc := by
  simp [State.cc]

@[simp] theorem State.dataSpace_setD (s : State) (r : Reg) (v : Long) : (s.setD r v).dataSpace = s.dataSpace := by
  simp [State.dataSpace]
@[simp] theorem State.progSpace_setD (s : State) (r : Reg) (v : Long) : (s.setD r v).progSpace = s.progSpace := by
  simp [State.progSpace]

@[simp] theorem State.dataSpace_putD (s : State) (sz : Size) (r : Reg) (v : Long) : (s.putD sz r v).dataSpace = s.dataSpace := by
  simp [State.dataSpace]
@[simp] theorem State.progSpace_putD (s : State) (sz : Size) (r : Reg) (v : Long) : (s.putD sz r v).progSpace = s.progSpace := by
  simp [State.progSpace]

@[simp] theorem State.dataSpace_setCc (s : State) (f : CC) : (s.setCc f).dataSpace = s.dataSpace := by
  simp [State.dataSpace]
@[simp] theorem State.progSpace_setCc (s : State) (f : CC) : (s.setCc f).progSpace = s.progSpace := by
  simp [State.progSpace]

@[simp] theorem State.dataSpace_used (s : State) (k : Nat) : (s.used k).dataSpace = s.dataSpace := by
  simp [State.dataSpace]
@[simp] theorem State.progSpace_used (s : State) (k : Nat) : (s.used k).progSpace = s.progSpace := by
  simp [State.progSpace]

@[simp] theorem State.dataSpace_store (s : State) (fc : FC) (x : Long) (bs : List Byte) : (s.store fc x bs).dataSpace = s.dataSpace := by
  simp [State.dataSpace]
@[simp] theorem State.progSpace_store (s : State) (fc : FC) (x : Long) (bs : List Byte) : (s.store fc x bs).progSpace = s.progSpace := by
  simp [State.progSpace]

@[simp] theorem State.dataSpace_setSp (s : State) (v : Long) : (s.setSp v).dataSpace = s.dataSpace := by
  simp [State.dataSpace]
@[simp] theorem State.progSpace_setSp (s : State) (v : Long) : (s.setSp v).progSpace = s.progSpace := by
  simp [State.progSpace]

@[simp] theorem State.dataSpace_setA (s : State) (r : Reg) (v : Long) : (s.setA r v).dataSpace = s.dataSpace := by
  simp [State.dataSpace]
@[simp] theorem State.progSpace_setA (s : State) (r : Reg) (v : Long) : (s.setA r v).progSpace = s.progSpace := by
  simp [State.progSpace]

@[simp] theorem State.dataSpace_setR (s : State) (rn : Rn) (v : Long) : (s.setR rn v).dataSpace = s.dataSpace := by
  simp [State.dataSpace]
@[simp] theorem State.progSpace_setR (s : State) (rn : Rn) (v : Long) : (s.setR rn v).progSpace = s.progSpace := by
  simp [State.progSpace]

@[simp] theorem State.bank_setD (s : State) (r : Reg) (v : Long) (q : FC) : (s.setD r v).bank q = s.bank q := by
  simp [State.bank]
@[simp] theorem State.bank_putD (s : State) (sz : Size) (r : Reg) (v : Long) (q : FC) : (s.putD sz r v).bank q = s.bank q := by
  simp [State.bank]
@[simp] theorem State.bank_setCc (s : State) (f : CC) (q : FC) : (s.setCc f).bank q = s.bank q := by
  simp [State.bank]
@[simp] theorem State.bank_setSr (s : State) (v : Word) (q : FC) : (s.setSr v).bank q = s.bank q := by
  simp [State.bank]
@[simp] theorem State.bank_used (s : State) (k : Nat) (q : FC) : (s.used k).bank q = s.bank q := by
  simp [State.bank]
@[simp] theorem State.bank_store (s : State) (fc : FC) (x : Long) (bs : List Byte) (q : FC) : (s.store fc x bs).bank q = s.bank q := by
  simp [State.bank]
@[simp] theorem State.bank_setSp (s : State) (v : Long) (q : FC) : (s.setSp v).bank q = s.bank q := by
  simp [State.bank]
@[simp] theorem State.bank_setA (s : State) (r : Reg) (v : Long) (q : FC) : (s.setA r v).bank q = s.bank q := by
  simp [State.bank]
@[simp] theorem State.bank_setR (s : State) (rn : Rn) (v : Long) (q : FC) : (s.setR rn v).bank q = s.bank q := by
  simp [State.bank]

@[simp] theorem State.sp_setSp (s : State) (v : Long) : (s.setSp v).sp = v := by
  unfold State.sp
  simp only [State.sBit_setSp, State.mBit_setSp]
  unfold State.setSp
  split <;> (try split) <;> simp_all

@[simp] theorem State.areg_setA_self (s : State) (r : Reg) (v : Long) : (s.setA r v).areg r = v := by
  unfold State.areg State.setA
  split
  · simp
  · simp

theorem State.areg_setA_of_ne (s : State) {r q : Reg} (v : Long) (h : q ≠ r) :
    (s.setA r v).areg q = s.areg q := by
  have hv : r.val ≠ q.val := fun e => h (Fin.ext e.symm)
  unfold State.areg State.setA
  by_cases hr : r.val < 7
  · by_cases hq : q.val < 7
    · simp [hr, hq, Vector.getElem_set_ne, hv]
    · simp [hr, hq, State.sp, State.sBit, State.mBit]
  · by_cases hq : q.val < 7
    · simp [hr, hq]
    · omega

@[simp] theorem State.areg_setD (s : State) (r q : Reg) (v : Long) : (s.setD r v).areg q = s.areg q := rfl
@[simp] theorem State.areg_setCc (s : State) (f : CC) (q : Reg) : (s.setCc f).areg q = s.areg q := by
  simp [State.areg, State.sp]
@[simp] theorem State.sp_setCc (s : State) (f : CC) : (s.setCc f).sp = s.sp := by
  simp [State.sp]
@[simp] theorem State.areg_used (s : State) (k : Nat) (q : Reg) : (s.used k).areg q = s.areg q := rfl
@[simp] theorem State.areg_store (s : State) (fc : FC) (x : Long) (bs : List Byte) (q : Reg) :
    (s.store fc x bs).areg q = s.areg q := rfl
@[simp] theorem State.sp_store (s : State) (fc : FC) (x : Long) (bs : List Byte) :
    (s.store fc x bs).sp = s.sp := rfl

/-! ## The address after an instruction depends on the PC alone -/

@[simp] theorem State.npc_setD (s : State) (r : Reg) (v : Long) (n : Nat) : (s.setD r v).npc n = s.npc n := rfl
@[simp] theorem State.npc_putD (s : State) (sz : Size) (r : Reg) (v : Long) (n : Nat) :
    (s.putD sz r v).npc n = s.npc n := rfl
@[simp] theorem State.npc_setCc (s : State) (f : CC) (n : Nat) : (s.setCc f).npc n = s.npc n := rfl
@[simp] theorem State.npc_setSr (s : State) (v : Word) (n : Nat) : (s.setSr v).npc n = s.npc n := rfl
@[simp] theorem State.npc_used (s : State) (k n : Nat) : (s.used k).npc n = s.npc n := rfl
@[simp] theorem State.npc_store (s : State) (fc : FC) (x : Long) (bs : List Byte) (n : Nat) :
    (s.store fc x bs).npc n = s.npc n := rfl
@[simp] theorem State.npc_setSp (s : State) (v : Long) (n : Nat) : (s.setSp v).npc n = s.npc n := by
  simp [State.npc]
@[simp] theorem State.npc_setA (s : State) (r : Reg) (v : Long) (n : Nat) : (s.setA r v).npc n = s.npc n := by
  simp [State.npc]
@[simp] theorem State.npc_setR (s : State) (rn : Rn) (v : Long) (n : Nat) : (s.setR rn v).npc n = s.npc n := by
  simp [State.npc]

end Sys2Proof.Machine
end

