-- ==== Sys2Proof/Laws/Ops.lean ====
section
/-! SUPPORT. What each shared operation does, said once: the steps of a body, bus accesses, memory
operands, the stack, exception entry. -/

namespace Sys2Proof.Machine

/-! ## The steps of a body -/

variable {ε : Type}

theorem M.bind_ok {α β : Type} {x : EStateM ε State α} {f : α → EStateM ε State β} {s t : State} {a : α}
    (h : x s = .ok a t) : (x >>= f) s = f a t := by
  show EStateM.bind x f s = _
  simp [EStateM.bind, h]

theorem M.bind_error {α β : Type} {x : EStateM ε State α} {f : α → EStateM ε State β} {s t : State}
    {e : ε} (h : x s = .error e t) : (x >>= f) s = .error e t := by
  show EStateM.bind x f s = _
  simp [EStateM.bind, h]

/-- A sequence answers exactly when its two parts do. -/
theorem M.bind_eq_ok {α β : Type} {x : EStateM ε State α} {f : α → EStateM ε State β} {s u : State}
    {b : β} : (x >>= f) s = .ok b u ↔ ∃ a t, x s = .ok a t ∧ f a t = .ok b u := by
  constructor
  · intro h
    cases hx : x s with
    | ok a t => exact ⟨a, t, rfl, by rwa [M.bind_ok hx] at h⟩
    | error e t => rw [M.bind_error hx] at h; cases h
  · rintro ⟨a, t, h1, h2⟩
    rw [M.bind_ok h1, h2]

@[simp] theorem M.pure_bind' {α β : Type} (a : α) (f : α → EStateM ε State β) (s : State) :
    ((pure a : EStateM ε State α) >>= f) s = f a s := rfl
@[simp] theorem M.get_bind {β : Type} (f : State → EStateM ε State β) (s : State) :
    ((get : EStateM ε State State) >>= f) s = f s s := rfl
@[simp] theorem M.set_bind {β : Type} (t : State) (f : PUnit → EStateM ε State β) (s : State) :
    ((set t : EStateM ε State PUnit) >>= f) s = f ⟨⟩ t := rfl
@[simp] theorem M.modify_bind {β : Type} (g : State → State) (f : PUnit → EStateM ε State β) (s : State) :
    ((modify g : EStateM ε State PUnit) >>= f) s = f ⟨⟩ (g s) := rfl
@[simp] theorem M.pure_run {α : Type} (a : α) (s : State) :
    (pure a : EStateM ε State α) s = .ok a s := rfl
@[simp] theorem M.set_run (t s : State) : (set t : EStateM ε State PUnit) s = .ok ⟨⟩ t := rfl
@[simp] theorem M.modify_run (g : State → State) (s : State) :
    (modify g : EStateM ε State PUnit) s = .ok ⟨⟩ (g s) := rfl
@[simp] theorem M.draw_run (s : State) : draw s = .ok (Config.freeLong s.draws) (s.used 1) := rfl
@[simp] theorem M.raised_run {α : Type} (x : Exc) (s : State) :
    (raised x : M α) s = .error (.raised x) s := rfl
@[simp] theorem M.refuse_run {α : Type} (r : Refusal) (s : State) :
    (refuse r : M α) s = .error (.refuse r) s := rfl
@[simp] theorem M.raiseIllegal_run {α : Type} (s : State) :
    (raiseIllegal : M α) s = .error (.raised s.illegalExc) s := rfl
@[simp] theorem M.advance_run (n : Nat) (s : State) : advance n s = .ok () (s.goOn (s.npc n)) := rfl
@[simp] theorem M.jump_run (a : Long) (s : State) : jump a s = .ok () (s.flowTo a) := rfl

theorem runInstr_ok {body : M Unit} {s t : State} (h : body s = .ok () t) :
    runInstr body s = .next t := by
  simp [runInstr, h]

theorem runInstr_raised {body : M Unit} {s t : State} {x : Exc} (h : body s = .error (.raised x) t) :
    runInstr body s = .next (t.takeException x) := by
  simp [runInstr, h]

theorem runInstr_bus {body : M Unit} {s t : State} {f : BusFault} {seen : List State} {made : Bool}
    (h : body s = .error (.bus f seen made) t) : runInstr body s = .next (s.cutShort t f seen made) := by
  simp [runInstr, h]

theorem runInstr_refuse {body : M Unit} {s t : State} {r : Refusal} (h : body s = .error (.refuse r) t) :
    runInstr body s = .refused r := by
  simp [runInstr, h]

/-- A checkpoint is seen only by a bus error. -/
@[simp] theorem checkpoint_eq_ok {α : Type} {x : M α} {s t : State} {a : α} :
    checkpoint x s = .ok a t ↔ x s = .ok a t := by
  unfold checkpoint
  split <;> simp_all

@[simp] theorem afterMade_eq_ok {α : Type} {x : M α} {s t : State} {a : α} :
    afterMade x s = .ok a t ↔ x s = .ok a t := by
  unfold afterMade
  split <;> simp_all

theorem privileged_super {body : M Unit} {s : State} (h : s.sBit = true) : privileged body s = body s := by
  unfold privileged
  rw [M.get_bind, if_pos h]

theorem privileged_user {body : M Unit} {s : State} (h : s.sBit = false) :
    privileged body s = .error (.raised s.privilegeExc) s := by
  unfold privileged
  rw [M.get_bind, if_neg (by simp [h])]
  rfl

/-! ## Bus accesses -/

theorem State.cycleStart_le (s : State) (a : Long) (i : Nat) : s.cycleStart a i ≤ i := Nat.sub_le ..

/-- An operand of at most four bytes is one part: the size of its cycle is all that is left of it. -/
theorem cycleLeft_operand {n j : Nat} (hn : n ≤ 4) (hj : j < 4) : cycleLeft n j = n - j := by
  unfold cycleLeft
  omega

/-- How an access ends depends on the platform alone. -/
theorem State.byteEnd_congr {s t : State} (h : t.platform = s.platform) (fc : FC) (w : Bool) (a : Long)
    (n i : Nat) : t.byteEnd fc w a n i = s.byteEnd fc w a n i := by
  simp [State.byteEnd, State.badEnd, State.area, State.cycleStart, State.portBytes, h]

theorem State.firstFault_congr {s t : State} (h : t.platform = s.platform) (fc : FC) (w : Bool) (a : Long)
    (n : Nat) : t.firstFault fc w a n = s.firstFault fc w a n := by
  simp [State.firstFault, State.byteEnd_congr h]

theorem State.lands_congr {s t : State} (h : t.platform = s.platform) (fc : FC) (a : Long) :
    t.lands fc a = s.lands fc a := by
  funext i
  simp [State.lands, State.area, h]

theorem State.onDevice_congr {s t : State} (h : t.platform = s.platform) (fc : FC) (a : Long) (n : Nat) :
    t.onDevice fc a n = s.onDevice fc a n := by
  simp [State.onDevice, State.area, h]

theorem State.readable_congr {s t : State} (h : t.platform = s.platform) (fc : FC) (a : Long) (n : Nat) :
    t.readable fc a n ↔ s.readable fc a n := by
  simp [State.readable, State.firstFault_congr h, State.onDevice_congr h]

theorem State.writable_congr {s t : State} (h : t.platform = s.platform) (fc : FC) (a : Long) (n : Nat) :
    t.writable fc a n ↔ s.writable fc a n := by
  simp [State.writable, State.firstFault_congr h]

theorem State.inRam_congr {s t : State} (h : t.platform = s.platform) (fc : FC) (a : Long) (n : Nat) :
    t.inRam fc a n ↔ s.inRam fc a n := by
  simp [State.inRam, State.lands_congr h]

theorem State.bank_congr {s t : State} (h : t.platform = s.platform) (fc : FC) : t.bank fc = s.bank fc := by
  simp [State.bank, h]

/-- What an access reads depends on memory and the platform alone. -/
theorem State.load_congr {s t : State} (h : t.platform = s.platform) (hm : t.mem = s.mem) (fc : FC)
    (a : Long) (n : Nat) : t.load fc a n = s.load fc a n := by
  simp [State.load, State.bank_congr h, hm]

/-- What is stored in RAM is read back (R37). -/
theorem State.load_store {s : State} {fc : FC} {a : Long} {bs : List Byte} (hw : s.mem.wf = true)
    (hl : bs.length ≤ 2 ^ 32) (hr : s.inRam fc a bs.length) :
    (s.store fc a bs).load fc a bs.length = bs := by
  have hr' : ∀ k < bs.length, s.lands fc a (0 + k) = true := fun k hk => by
    rw [Nat.zero_add]
    exact List.all_eq_true.mp hr k (List.mem_range.mpr hk)
  show Memory.load (Memory.storeWhere _ _ _ _ _ _) _ _ _ = _
  rw [Memory.storeWhere_eq_store _ _ _ _ _ _ hr']
  exact Memory.load_store _ _ _ _ hw hl

/-- A byte at an address outside a store reads as before. -/
theorem State.byte_store_of_ne {s : State} {fc fc' : FC} {a b : Long} {bs : List Byte} (hw : s.mem.wf = true)
    (hb : bs.length ≤ (b - a).toNat) : (s.store fc a bs).byte fc' b = s.byte fc' b := by
  refine Memory.byteAt_storeWhere_of_ne _ _ _ _ _ _ _ hw fun j hj hk => ?_
  rw [(Memory.key_inj hk).2, BitVec.add_comm, BitVec.add_sub_cancel, BitVec.toNat_ofNat] at hb
  have := Nat.mod_le j (2 ^ 32)
  omega

/-- A store leaves every space that another memory answers. -/
theorem State.byte_store_of_bank_ne {s : State} {fc fc' : FC} {a b : Long} {bs : List Byte} (hw : s.mem.wf = true)
    (hb : s.bank fc' ≠ s.bank fc) : (s.store fc a bs).byte fc' b = s.byte fc' b :=
  Memory.byteAt_storeWhere_of_ne _ _ _ _ _ _ _ hw fun _ _ hk => hb (Memory.key_inj hk).1

/-- What a store leaves alone. -/
theorem State.sameBytesBut_store {s : State} {fc : FC} {a : Long} {bs : List Byte} (hw : s.mem.wf = true) :
    sameBytesBut fc a bs.length s (s.store fc a bs) := fun _ _ h =>
  h.elim (State.byte_store_of_bank_ne hw) (State.byte_store_of_ne hw)

/-- Bytes at addresses outside a store read as before. -/
theorem State.load_store_of_ne {s : State} {fc fc' : FC} {a x : Long} {bs : List Byte} {n : Nat}
    (hw : s.mem.wf = true) (hx : ∀ k < n, bs.length ≤ (x + BitVec.ofNat 32 k - a).toNat) :
    (s.store fc a bs).load fc' x n = s.load fc' x n := by
  have key : ∀ n x, (∀ k < n, bs.length ≤ (x + BitVec.ofNat 32 k - a).toNat) →
      Memory.load (s.store fc a bs).mem (s.bank fc') x n = Memory.load s.mem (s.bank fc') x n := by
    intro n
    induction n with
    | zero => intro x _; rfl
    | succ n ih =>
      intro x hx
      simp only [Memory.load]
      congr 1
      · exact State.byte_store_of_ne (fc' := fc') hw (by simpa using hx 0 (by omega))
      · refine ih (x + 1) fun k hk => ?_
        have := hx (k + 1) (by omega)
        rwa [show x + 1 + BitVec.ofNat 32 k = x + BitVec.ofNat 32 (k + 1) by
          rw [BitVec.add_assoc, Nat.add_comm k 1, BitVec.ofNat_add]; rfl]
  exact key n x hx

theorem State.wf_store {s : State} (fc : FC) (a : Long) (bs : List Byte) (hw : s.mem.wf = true) :
    (s.store fc a bs).mem.wf = true := Memory.wf_storeWhere _ _ _ _ _ _ hw

/-- Two stores one after the other are one. -/
theorem State.store_append (s : State) (fc : FC) (a : Long) (xs ys : List Byte) :
    s.store fc a (xs ++ ys) = (s.store fc a xs).store fc (a + BitVec.ofNat 32 xs.length) ys := by
  have h : (s.store fc a xs).lands fc (a + BitVec.ofNat 32 xs.length) =
      fun j => s.lands fc a (xs.length + j) := by
    funext j
    simp [State.lands, State.area, State.store, BitVec.ofNat_add, BitVec.add_assoc]
  have hm : (s.store fc a (xs ++ ys)).mem =
      ((s.store fc a xs).store fc (a + BitVec.ofNat 32 xs.length) ys).mem := by
    show _ = Memory.storeWhere _ _ _ _ _ _
    rw [h]
    show Memory.storeWhere _ _ _ _ _ _ = _
    rw [Memory.storeWhere_append, Nat.zero_add]
    exact Memory.storeWhere_shift _ _ _ _ 0 xs.length _
  exact congrArg (fun m => { s with mem := m }) hm

theorem State.used_used (s : State) (j k : Nat) : (s.used j).used k = s.used (j + k) := by
  simp [State.used, Nat.add_assoc]

theorem State.afterRead_used (s : State) (fc : FC) (a : Long) (n : Nat) :
    ∃ k, s.afterRead fc a n = s.used k := by
  unfold State.afterRead
  split
  · exact ⟨1, rfl⟩
  · exact ⟨0, rfl⟩

theorem State.readable_iff {s : State} {fc : FC} {a : Long} {n : Nat} :
    s.readable fc a n ↔ s.firstFault fc false a n = none ∧ s.onDevice fc a n = false := by
  simp [State.readable]

/-- A read answers what answers at the address and counts a draw for a device, or ends in a bus error. -/
theorem busRead_eq_ok {rmw : Bool} {fc : FC} {a : Long} {n : Nat} {s t : State} {bs : List Byte} :
    busRead rmw fc a n s = .ok bs t ↔ s.firstFault fc false a n = none ∧
      bs = (if s.onDevice fc a n then s.answer fc a n else s.load fc a n) ∧ t = s.afterRead fc a n := by
  unfold busRead
  split
  · next h =>
    refine ⟨fun e => ?_, fun ⟨_, e1, e2⟩ => by rw [e1, e2]⟩
    cases e
    exact ⟨h, rfl, rfl⟩
  · next h => exact ⟨fun e => (nomatch e), fun e => by rw [h] at e; exact (nomatch e.1)⟩

/-- A read of memory answers the bytes and changes nothing. -/
theorem busRead_ok {rmw : Bool} {fc : FC} {a : Long} {n : Nat} {s : State} (h : s.readable fc a n) :
    busRead rmw fc a n s = .ok (s.load fc a n) s := by
  obtain ⟨h1, h2⟩ := State.readable_iff.mp h
  simp [busRead_eq_ok, State.afterRead, h1, h2]

theorem readMem_ok {rmw : Bool} {fc : FC} {a : Long} {sz : Size} {s : State}
    (h : s.readable fc a sz.bytes) :
    readMem rmw fc a sz s = .ok (bytesLong (s.load fc a sz.bytes)) s := by
  unfold readMem
  refine M.bind_ok (a := s.load fc a sz.bytes) (t := s) ?_
  simp [liftBus, busRead_ok h]

theorem readMem_eq_ok {rmw : Bool} {fc : FC} {a : Long} {sz : Size} {s t : State} {v : Long} :
    readMem rmw fc a sz s = .ok v t ↔ s.firstFault fc false a sz.bytes = none ∧
      v = bytesLong (if s.onDevice fc a sz.bytes then s.answer fc a sz.bytes else s.load fc a sz.bytes) ∧
      t = s.afterRead fc a sz.bytes := by
  unfold readMem
  rw [M.bind_eq_ok]
  simp only [liftBus]
  constructor
  · rintro ⟨bs, u, h1, h2⟩
    split at h1
    · next bs' u' hb =>
      cases h1
      cases h2
      obtain ⟨h3, rfl, rfl⟩ := busRead_eq_ok.mp hb
      exact ⟨h3, rfl, rfl⟩
    · cases h1
  · rintro ⟨h, rfl, rfl⟩
    exact ⟨_, _, by rw [busRead_eq_ok.mpr ⟨h, rfl, rfl⟩], rfl⟩

/-- A write stores the bytes, or ends in a bus error. -/
theorem writeMem_ok {rmw : Bool} {fc : FC} {a : Long} {sz : Size} {v : Long} {s : State}
    (h : s.writable fc a sz.bytes) :
    writeMem rmw fc a sz v s = .ok () (s.store fc a (longBytes v sz.bytes)) := by
  simp only [State.writable] at h
  simp [writeMem, liftBus, busWrite, longBytes_length, h]

theorem writeMem_eq_ok {rmw : Bool} {fc : FC} {a : Long} {sz : Size} {v : Long} {s t : State} {u : Unit} :
    writeMem rmw fc a sz v s = .ok u t ↔
      s.writable fc a sz.bytes ∧ t = s.store fc a (longBytes v sz.bytes) := by
  constructor
  · intro h
    by_cases hw : s.writable fc a sz.bytes
    · rw [writeMem_ok hw] at h
      cases h
      exact ⟨hw, rfl⟩
    · simp only [State.writable] at hw
      obtain ⟨i, hi⟩ := Option.ne_none_iff_exists'.mp hw
      simp [writeMem, liftBus, busWrite, longBytes_length, hi] at h
  · rintro ⟨h, rfl⟩
    exact writeMem_ok h

/-- A read that fails: the state is as it was. -/
theorem readMem_eq_error {rmw : Bool} {fc : FC} {a : Long} {sz : Size} {s t : State} {e : Abort} :
    readMem rmw fc a sz s = .error e t ↔ t = s ∧ ∃ i, s.firstFault fc false a sz.bytes = some i ∧
      e = .bus (s.accessFault fc false rmw a sz.bytes i []) [] false := by
  unfold readMem
  cases h : s.firstFault fc false a sz.bytes with
  | none =>
    rw [M.bind_ok (x := liftBus (busRead rmw fc a sz.bytes)) (by simp [liftBus, busRead, h]; exact ⟨rfl, rfl⟩)]
    simp [pure, EStateM.pure]
  | some i =>
    rw [M.bind_error (x := liftBus (busRead rmw fc a sz.bytes)) (by simp [liftBus, busRead, h]; exact ⟨rfl, rfl⟩)]
    simp [eq_comm, and_comm]

/-- A write that fails: the bytes of its earlier bus cycles are written (R74). -/
theorem writeMem_eq_error {rmw : Bool} {fc : FC} {a : Long} {sz : Size} {v : Long} {s t : State} {e : Abort} :
    writeMem rmw fc a sz v s = .error e t ↔ ∃ i, s.firstFault fc true a sz.bytes = some i ∧
      t = s.store fc a ((longBytes v sz.bytes).take (s.cycleStart a i.1)) ∧
      e = .bus (s.accessFault fc true rmw a sz.bytes i (longBytes v sz.bytes)) [] false := by
  unfold writeMem liftBus busWrite
  rw [longBytes_length]
  cases h : s.firstFault fc true a sz.bytes <;> simp [eq_comm, and_comm]
theorem readData_ok {a : Long} {sz : Size} {s : State} (h : s.readable s.dataSpace a sz.bytes) :
    readData a sz s = .ok (bytesLong (s.load s.dataSpace a sz.bytes)) s := by
  unfold readData
  rw [M.get_bind, readMem_ok h]

theorem writeData_ok {a : Long} {sz : Size} {v : Long} {s : State}
    (h : s.writable s.dataSpace a sz.bytes) :
    writeData a sz v s = .ok () (s.store s.dataSpace a (longBytes v sz.bytes)) := by
  unfold writeData
  rw [M.get_bind, writeMem_ok h]

/-- `push_4` (R12). -/
theorem pushLong_ok {v : Long} {s : State} (h : s.writable s.dataSpace (s.sp - 4) 4) :
    pushLong v s = .ok () ((s.setSp (s.sp - 4)).store s.dataSpace (s.sp - 4) (longBytes v 4)) := by
  unfold pushLong
  rw [M.modify_bind, M.get_bind, State.sp_setSp]
  have := writeData_ok (s := s.setSp (s.sp - 4)) (a := s.sp - 4) (sz := .l) (v := v)
    (by simpa [Size.bytes] using
      (State.writable_congr (t := s.setSp (s.sp - 4)) (by simp) _ _ _).mpr h)
  simpa [Size.bytes] using this

/-- `pop_4` (R12). -/
theorem popLong_ok {s : State} (h : s.readable s.dataSpace s.sp 4) :
    popLong s = .ok (s.longAt s.dataSpace s.sp) (s.setSp (s.sp + 4)) := by
  unfold popLong
  rw [M.get_bind, M.bind_ok (readData_ok (sz := .l) h), M.modify_bind]
  rfl

/-! ## Effective addresses -/

/-- The state an address computation leaves: only a stepped address register changes (R114). -/
def afterAddr (sz : Size) (ea : Ea) (s : State) : State :=
  match ea with
  | .postinc r => s.setA r (s.areg r + stepOf sz r)
  | .predec r => s.setA r (s.areg r - stepOf sz r)
  | .dreg _ | .areg _ | .ind _ | .disp _ _ | .indexed _ _ | .absW _ | .absL _ | .pcDisp _
  | .pcIndexed _ | .imm _ => s

theorem indexedAddr_state {fc : FC} {base : Long} {e : IndexExt} {s t : State} {a : Long}
    (h : indexedAddr fc base e s = .ok a t) : ∃ k, t = s.used k := by
  unfold indexedAddr at h
  rw [M.get_bind] at h
  cases e with
  | brief ix d8 => simp at h; exact ⟨0, h.2.symm⟩
  | full ix bs is bd ind =>
    cases ind with
    | none => simp at h; exact ⟨0, h.2.symm⟩
    | pre od =>
      obtain ⟨p, u, h1, h2⟩ := M.bind_eq_ok.mp h
      obtain ⟨-, -, rfl⟩ := readMem_eq_ok.mp h1
      simp at h2; rw [← h2.2]; exact s.afterRead_used _ _ _
    | post od =>
      obtain ⟨p, u, h1, h2⟩ := M.bind_eq_ok.mp h
      obtain ⟨-, -, rfl⟩ := readMem_eq_ok.mp h1
      simp at h2; rw [← h2.2]; exact s.afterRead_used _ _ _

/-- An address computation that answers leaves nothing else changed but the draws of a device's pointer. -/
theorem memAddr_state {sz : Size} {own : Nat} {ea : Ea} {s t : State} {a : Long}
    (h : memAddr sz own ea s = .ok a t) : ∃ k, t = (afterAddr sz ea s).used k := by
  unfold memAddr at h
  rw [M.get_bind] at h
  cases ea with
  | dreg r => simp at h
  | areg r => simp at h
  | imm v => simp at h
  | ind r => simp at h; exact ⟨0, h.2.symm⟩
  | postinc r => simp at h; exact ⟨0, h.2.symm⟩
  | predec r => simp at h; exact ⟨0, h.2.symm⟩
  | disp r d => simp at h; exact ⟨0, h.2.symm⟩
  | indexed r e => exact indexedAddr_state h
  | absW x => simp at h; exact ⟨0, h.2.symm⟩
  | absL x => simp at h; exact ⟨0, h.2.symm⟩
  | pcDisp d => simp at h; exact ⟨0, h.2.symm⟩
  | pcIndexed e => exact indexedAddr_state h

theorem afterAddr_mem (sz : Size) (ea : Ea) (s : State) : (afterAddr sz ea s).mem = s.mem := by
  cases ea <;> simp [afterAddr]
theorem afterAddr_platform (sz : Size) (ea : Ea) (s : State) :
    (afterAddr sz ea s).platform = s.platform := by
  cases ea <;> simp [afterAddr]
theorem afterAddr_sr (sz : Size) (ea : Ea) (s : State) : (afterAddr sz ea s).sr = s.sr := by
  cases ea <;> simp [afterAddr]
theorem afterAddr_pc (sz : Size) (ea : Ea) (s : State) : (afterAddr sz ea s).pc = s.pc := by
  cases ea <;> simp [afterAddr]

/-! ## Operands -/

/-- A memory operand is read at its address. -/
theorem readEa_mem {sz : Size} {own : Nat} {ea : Ea} {s t : State} {a : Long}
    (ha : memAddr sz own ea s = .ok a t) (h : t.readable (s.eaSpace ea) a sz.bytes) :
    readEa sz own ea s = .ok (bytesLong (t.load (s.eaSpace ea) a sz.bytes)) t := by
  have key : (memAddr sz own ea >>= fun a => readMem false (s.eaSpace ea) a sz) s =
      .ok (bytesLong (t.load (s.eaSpace ea) a sz.bytes)) t := by
    rw [M.bind_ok ha, readMem_ok h]
  cases ea with
  | dreg r => cases ha
  | areg r => cases ha
  | imm v => cases ha
  | _ => exact key

/-- Reading an operand leaves nothing changed but a stepped address register and the draws of devices. -/
theorem readEa_state {sz : Size} {own : Nat} {ea : Ea} {s t : State} {v : Long}
    (h : readEa sz own ea s = .ok v t) : ∃ k, t = (afterAddr sz ea s).used k := by
  unfold readEa at h
  rw [M.get_bind] at h
  have key : ∀ e, (memAddr sz own e >>= fun a => readMem false (s.eaSpace e) a sz) s = .ok v t →
      ∃ k, t = (afterAddr sz e s).used k := by
    intro e he
    obtain ⟨a, u, h1, h2⟩ := M.bind_eq_ok.mp he
    obtain ⟨-, -, rfl⟩ := readMem_eq_ok.mp h2
    obtain ⟨k, rfl⟩ := memAddr_state h1
    obtain ⟨j, hj⟩ := State.afterRead_used ((afterAddr sz e s).used k) (s.eaSpace e) a sz.bytes
    exact ⟨k + j, by rw [hj, State.used_used]⟩
  cases ea with
  | dreg r => simp at h; exact ⟨0, h.2.symm⟩
  | areg r => simp at h; exact ⟨0, h.2.symm⟩
  | imm x => simp at h; exact ⟨0, h.2.symm⟩
  | _ => exact key _ h

/-- A change in place that meets no bus error. -/
theorem modifyEa_ok {sz : Size} {own : Nat} {ea : Ea} {f : Long → CC → Long × CC} {s u : State}
    (h : Changes sz own ea f s u) : modifyEa sz own ea f s = .ok () u := by
  rcases h with ⟨r, rfl, rfl⟩ | ⟨hm, a, t, ha, hr, hw, rfl⟩
  · rfl
  · have key : (memAddr sz own ea >>= fun a => do
        let d ← readData a sz
        let s ← get
        let (v, cc) := f d s.cc
        set (s.setCc cc)
        writeData a sz v) s = .ok () ((t.setCc (f (bytesLong (t.load t.dataSpace a sz.bytes)) t.cc).2).store
          t.dataSpace a (longBytes (f (bytesLong (t.load t.dataSpace a sz.bytes)) t.cc).1 sz.bytes)) := by
      rw [M.bind_ok ha, M.bind_ok (readData_ok hr), M.get_bind]
      show ((set _ : M PUnit) >>= fun _ => writeData a sz _) t = _
      rw [M.set_bind, writeData_ok]
      · simp
      · simpa using (State.writable_congr (by simp) _ _ _).mpr hw
    cases ea with
    | dreg r => cases hm
    | areg r => cases hm
    | pcDisp r => cases hm
    | pcIndexed r => cases hm
    | imm v => cases hm
    | _ => exact key

/-- What a change in place can do when it answers, an operand of a device included. -/
theorem modifyEa_cases {sz : Size} {own : Nat} {ea : Ea} {f : Long → CC → Long × CC} {s u : State}
    (h : modifyEa sz own ea f s = .ok () u) :
    (∃ r, ea = .dreg r ∧
      u = (s.putD sz r (f (trunc sz (s.dreg r)) s.cc).1).setCc (f (trunc sz (s.dreg r)) s.cc).2) ∨
    (inMemory ea = true ∧ ∃ a t d t', memAddr sz own ea s = .ok a t ∧
      readMem false t.dataSpace a sz t = .ok d t' ∧ t'.writable t'.dataSpace a sz.bytes ∧
      u = (t'.setCc (f d t'.cc).2).store t'.dataSpace a (longBytes (f d t'.cc).1 sz.bytes)) := by
  have key : ∀ e, inMemory e = true → (memAddr sz own e >>= fun a => do
        let d ← readData a sz
        let s ← get
        let (v, cc) := f d s.cc
        set (s.setCc cc)
        writeData a sz v) s = .ok () u → inMemory e = true ∧ ∃ a t d t', memAddr sz own e s = .ok a t ∧
      readMem false t.dataSpace a sz t = .ok d t' ∧ t'.writable t'.dataSpace a sz.bytes ∧
      u = (t'.setCc (f d t'.cc).2).store t'.dataSpace a (longBytes (f d t'.cc).1 sz.bytes) := by
    intro e he h
    obtain ⟨a, t, ha, h⟩ := M.bind_eq_ok.mp h
    obtain ⟨d, t', hd, h⟩ := M.bind_eq_ok.mp h
    unfold readData at hd
    rw [M.get_bind] at hd
    rw [M.get_bind] at h
    change ((set _ : M PUnit) >>= fun _ => writeData a sz _) t' = _ at h
    rw [M.set_bind] at h
    unfold writeData at h
    rw [M.get_bind] at h
    obtain ⟨hw, rfl⟩ := writeMem_eq_ok.mp h
    rw [State.dataSpace_setCc] at hw ⊢
    exact ⟨he, a, t, d, t', ha, hd, (State.writable_congr (State.setCc_platform _ _) _ _ _).mp hw, rfl⟩
  cases ea with
  | dreg r => cases h; exact .inl ⟨r, rfl, rfl⟩
  | areg r => cases h
  | pcDisp r => cases h
  | pcIndexed r => cases h
  | imm v => cases h
  | _ => exact .inr (key _ rfl h)

/-- A write to an operand answers exactly when it is a data register, or its bytes can be written. -/
theorem writeEa_eq_ok {sz : Size} {own : Nat} {ea : Ea} {v : Long} {s u : State} :
    writeEa sz own ea v s = .ok () u ↔
      (∃ r, ea = .dreg r ∧ u = s.putD sz r v) ∨
      (inMemory ea = true ∧ ∃ a t, memAddr sz own ea s = .ok a t ∧ t.writable t.dataSpace a sz.bytes ∧
        u = t.store t.dataSpace a (longBytes v sz.bytes)) := by
  have key : ∀ e, (memAddr sz own e >>= fun a => writeData a sz v) s = .ok () u ↔
      ∃ a t, memAddr sz own e s = .ok a t ∧ t.writable t.dataSpace a sz.bytes ∧
        u = t.store t.dataSpace a (longBytes v sz.bytes) := by
    intro e
    rw [M.bind_eq_ok]
    refine exists_congr fun a => exists_congr fun t => and_congr_right fun _ => ?_
    unfold writeData
    rw [M.get_bind]
    exact writeMem_eq_ok
  cases ea with
  | dreg r =>
    refine ⟨fun h => .inl ⟨r, rfl, ?_⟩, ?_⟩
    · cases h; rfl
    · rintro (⟨q, h, rfl⟩ | ⟨h, -⟩)
      · cases h; rfl
      · cases h
  | areg r => simp [writeEa, inMemory]
  | pcDisp r => simp [writeEa, inMemory]
  | pcIndexed r => simp [writeEa, inMemory]
  | imm v => simp [writeEa, inMemory]
  | _ =>
    simp only [reduceCtorEq, false_and, exists_false, inMemory, true_and, false_or]
    exact key _

theorem afterAddr_npc (sz : Size) (ea : Ea) (s : State) (n : Nat) : (afterAddr sz ea s).npc n = s.npc n := by
  simp [State.npc, afterAddr_pc]

theorem readEa_npc {sz : Size} {own : Nat} {ea : Ea} {s t : State} {v : Long}
    (h : readEa sz own ea s = .ok v t) (n : Nat) : t.npc n = s.npc n := by
  obtain ⟨k, rfl⟩ := readEa_state h
  rw [State.npc_used, afterAddr_npc]

theorem memAddr_npc {sz : Size} {own : Nat} {ea : Ea} {s t : State} {a : Long}
    (h : memAddr sz own ea s = .ok a t) (n : Nat) : t.npc n = s.npc n := by
  obtain ⟨k, rfl⟩ := memAddr_state h
  rw [State.npc_used, afterAddr_npc]

theorem Changes.npc {sz : Size} {own : Nat} {ea : Ea} {f : Long → CC → Long × CC} {s u : State}
    (h : Changes sz own ea f s u) (n : Nat) : u.npc n = s.npc n := by
  rcases h with ⟨r, -, rfl⟩ | ⟨-, a, t, ha, -, -, rfl⟩
  · simp
  · simp [memAddr_npc ha]

/-- What memory holds for an operand fits its size. -/
theorem State.load_lt (s : State) (fc : FC) (a : Long) (sz : Size) :
    (bytesLong (s.load fc a sz.bytes)).toNat < 2 ^ sz.bits := by
  have hl : (s.load fc a sz.bytes).length = sz.bytes := Memory.load_length _ _ _ _
  have h := bytesLong_lt (s.load fc a sz.bytes) (by rw [hl]; cases sz <;> decide)
  rwa [hl, show 8 * sz.bytes = sz.bits by cases sz <;> rfl] at h

/-- What a read answers fits the operand's size. -/
theorem readMem_lt {rmw : Bool} {fc : FC} {a : Long} {sz : Size} {s t : State} {v : Long}
    (h : readMem rmw fc a sz s = .ok v t) : v.toNat < 2 ^ sz.bits := by
  obtain ⟨-, rfl, -⟩ := readMem_eq_ok.mp h
  split
  · have hl : (s.answer fc a sz.bytes).length = sz.bytes := by simp [State.answer]
    have h := bytesLong_lt (s.answer fc a sz.bytes) (by rw [hl]; cases sz <;> decide)
    rwa [hl, show 8 * sz.bytes = sz.bits by cases sz <;> rfl] at h
  · exact s.load_lt _ _ _

theorem immValue_lt (sz : Size) (x : Imm) : (immValue sz x).toNat < 2 ^ sz.bits := by
  cases x <;> exact trunc_lt _ _

/-- An operand that was read fits its size. -/
theorem readEa_lt {sz : Size} {own : Nat} {ea : Ea} {s t : State} {v : Long}
    (h : readEa sz own ea s = .ok v t) : v.toNat < 2 ^ sz.bits := by
  unfold readEa at h
  rw [M.get_bind] at h
  have key : ∀ e, (memAddr sz own e >>= fun a => readMem false (s.eaSpace e) a sz) s = .ok v t →
      v.toNat < 2 ^ sz.bits := by
    intro e he
    obtain ⟨a, u, h1, h2⟩ := M.bind_eq_ok.mp he
    exact readMem_lt h2
  cases ea with
  | dreg r => simp at h; rw [← h.1]; exact trunc_lt _ _
  | areg r => simp at h; rw [← h.1]; exact trunc_lt _ _
  | imm x => simp at h; rw [← h.1]; exact immValue_lt _ _
  | _ => exact key _ h

/-- Functions that agree on operands of the size make the same change. -/
theorem Changes.congr {sz : Size} {own : Nat} {ea : Ea} {f g : Long → CC → Long × CC} {s u : State}
    (h : Changes sz own ea f s u) (hfg : ∀ d cc, d.toNat < 2 ^ sz.bits → f d cc = g d cc) :
    Changes sz own ea g s u := by
  rcases h with ⟨r, h1, h2⟩ | ⟨hm, a, t, h1, h2, h3, h4⟩
  · exact .inl ⟨r, h1, by rw [h2, hfg _ _ (trunc_lt _ _)]⟩
  · exact .inr ⟨hm, a, t, h1, h2, h3, by rw [h4, hfg _ _ (State.load_lt _ _ _ _)]⟩

/-- An instruction that changes its operand and goes on. -/
theorem runInstr_modifyEa {sz : Size} {own k : Nat} {ea : Ea} {f g : Long → CC → Long × CC} {s u : State}
    (h : Changes sz own ea g s u) (hfg : ∀ d cc, d.toNat < 2 ^ sz.bits → g d cc = f d cc) :
    runInstr (do modifyEa sz own ea f; advance k) s = .next (u.goOn (s.npc k)) := by
  refine runInstr_ok ?_
  rw [M.bind_ok (modifyEa_ok (h.congr hfg)), M.advance_run, h.npc]

/-! ## Exception entry -/

theorem pushFrame_ok {bs : List Byte} {s : State}
    (h : s.writable supervisorData (s.sp - BitVec.ofNat 32 bs.length) bs.length) :
    pushFrame bs s = .ok () ((s.setSp (s.sp - BitVec.ofNat 32 bs.length)).store supervisorData
      (s.sp - BitVec.ofNat 32 bs.length) bs) := by
  have h' := (State.writable_congr (t := s.setSp (s.sp - BitVec.ofNat 32 bs.length)) (s := s) (by simp)
    supervisorData (s.sp - BitVec.ofNat 32 bs.length) bs.length).mpr h
  simp only [State.writable] at h'
  simp [pushFrame, h']

/-- Exception entry that meets no bus error (R510). -/
theorem takeException_ok {s : State} {x : Exc}
    (h : s.canEnter x.vector (x.frameBytes s.platform s.sr s.draws).length) :
    s.takeException x =
      { ((s.used x.draws).entered x.vector (x.frameBytes s.platform s.sr s.draws)) with
        ending := x.ending } := by
  obtain ⟨hw, hr⟩ := h
  have hsp : (s.beginException.used x.draws).sp = s.beginException.sp := rfl
  have hpush := pushFrame_ok (s := s.beginException.used x.draws)
    (bs := x.frameBytes s.platform s.sr s.draws)
    (by rw [hsp]; exact (State.writable_congr (s := s) (t := s.beginException.used x.draws) rfl _ _ _).mpr hw)
  have hload : ∀ t : State, t.platform = s.platform → t.vbr = s.vbr →
      loadVector x.vector t = .ok () { t with pc := t.longAt supervisorData (t.vectorAddr x.vector) } := by
    intro t ht hv
    have hr' : t.readable supervisorData (t.vectorAddr x.vector) 4 := by
      rw [State.readable_congr ht, show t.vectorAddr x.vector = s.vectorAddr x.vector by
        simp [State.vectorAddr, hv]]
      exact hr
    unfold loadVector
    rw [M.get_bind, M.bind_ok (busRead_ok hr')]
    rfl
  unfold State.takeException
  dsimp only
  have hb : (do pushFrame (x.frameBytes s.platform s.sr s.draws); loadVector x.vector : Bus Unit)
      (s.beginException.used x.draws) = .ok () ((s.used x.draws).entered x.vector
        (x.frameBytes s.platform s.sr s.draws)) := by
    rw [M.bind_ok hpush, hload _ (by simp; rfl) (by simp; rfl)]
    rfl
  rw [hb]

/-- A run of free words is two bytes a word. -/
theorem freeWords_length (n k : Nat) : (freeWords n k).length = 2 * k := by
  simp [freeWords, List.length_flatMap, longBytes_length, Nat.mul_comm]

/-- A short bus fault frame is 32 bytes and a long one 92 (R511, R512). -/
theorem faultFrame_length (n : Nat) (vector : Byte) (long : Bool) (version : BitVec 4) (sr : Word) (pc : Long)
    (f : BusFault) : (faultFrame n vector long version sr pc f).length = if long then 92 else 32 := by
  cases long <;>
    simp only [faultFrame, frameHead, shortTail, longTail, List.length_append, longBytes_length,
      freeWords_length, List.length_nil, Bool.false_eq_true, if_true, if_false]

/-! ## The pipe -/

/-- Memory held `w` and holds it no longer. -/
theorem overwritten_eq_some {fc : FC} {s t : State} {a : Long} {w : Word} :
    overwritten fc s t a = some w ↔ s.storedWord fc a = some w ∧ t.storedWord fc a ≠ some w := by
  simp [overwritten, Option.filter_eq_some_iff]

/-- All that the pipe holds after an instruction. -/
theorem mem_nextPipe {s t : State} {e : Nat × Word} :
    e ∈ nextPipe s t ↔ aheadOf t.pc e.1 = true ∧
      ((∃ a ∈ pipeWindow s.pc, ∃ w, overwritten t.progSpace s t a = some w ∧ (a.toNat, w) = e) ∨
        (s.progSpace = t.progSpace ∧ e ∈ s.pipe)) := by
  unfold nextPipe
  by_cases h : s.progSpace = t.progSpace <;> simp [h, and_or_left, and_comm]

end Sys2Proof.Machine
end

