-- ==== Sys2Proof/Tests/Slice0.lean ====
section
/-! SUPPORT. Tests: what WellFormed refuses, every constructor decoded from a word written out from its rule, one step
of each instruction with the results of 95_test_vectors or of hand calculation from its rule, and a witness for the
hypotheses of every obligation. -/

namespace Sys2Proof.Machine

/-- Refused: a MOVE destination is data alterable (R201). -/
theorem test_wf_move_destination :
    ([.move .w (.dreg 0) (.areg 1), .move .w (.dreg 0) (.pcDisp 4), .move .w (.dreg 0) (.imm (.word 1))] : List Instr).map Instr.wf =
      [false, false, false] := by decide

/-- Refused: no byte operand in an address register (R114). -/
theorem test_wf_byte_from_address_register :
    ([.move .b (.areg 0) (.dreg 1), .addToReg .b (.areg 0) 1, .addq .b 1 (.areg 0), .tst .b (.areg 0)] : List Instr).map Instr.wf =
      [false, false, false, false] := by decide

/-- Refused: a long immediate is two words, a byte or word one (R114). -/
theorem test_wf_immediate_shape :
    ([.addi .l (.word 1) (.dreg 0), .addi .b (.long 1) (.dreg 0), .move .w (.imm (.long 1)) (.dreg 0), .chk .w (.imm (.long 1)) 0] : List Instr).map Instr.wf =
      [false, false, false, false] := by decide

/-- Refused: immediate arithmetic and logic write a data alterable operand (R233, R272). -/
theorem test_wf_immediate_destination :
    ([.addi .w (.word 1) (.areg 0), .andi .w (.word 1) (.pcDisp 2), .eori .w (.word 1) (.imm (.word 2))] : List Instr).map Instr.wf =
      [false, false, false] := by decide

/-- Refused: the Dn,<ea> forms and memory shifts need memory (R231, R290). -/
theorem test_wf_memory_alterable :
    ([.addToEa .w 0 (.dreg 1), .orToEa .w 0 (.pcDisp 1), .aslMem (.dreg 0), .roxrMem (.areg 0), .moves .w true ⟨false, 0⟩ (.dreg 0), .cas .w 0 1 (.dreg 2)] : List Instr).map Instr.wf =
      [false, false, false, false, false, false] := by decide

/-- Refused: LEA, PEA, JMP, JSR, CALLM and CMP2 need a control mode (R206, R355, R361, R241). -/
theorem test_wf_control :
    ([.lea (.dreg 0) 1, .pea (.postinc 0), .jmp (.predec 0), .jsr (.imm (.word 1)), .callm 0 (.areg 0), .cmp2 .w (.postinc 0) ⟨false, 0⟩, .chk2 .w (.dreg 0) ⟨false, 0⟩] : List Instr).map Instr.wf =
      [false, false, false, false, false, false, false] := by decide

/-- Refused: MOVEM stores never increment and loads never decrement (R204). -/
theorem test_wf_movem_modes :
    ([.movemToMem .w 1 (.postinc 0), .movemToMem .w 1 (.pcDisp 0), .movemToReg .w 1 (.predec 0), .movemToReg .w 1 (.dreg 0)] : List Instr).map Instr.wf =
      [false, false, false, false] := by decide

/-- Refused: no address register for AND, OR, MUL, DIV and CHK (R271, R242). -/
theorem test_wf_data_source :
    ([.andToReg .w (.areg 0) 1, .orToReg .l (.areg 0) 1, .muluW (.areg 0) 1, .divL (.areg 0) 1 false false 2, .chk .l (.areg 0) 1, .moveToSr (.areg 0)] : List Instr).map Instr.wf =
      [false, false, false, false, false, false] := by decide

/-- Refused: CLR, NEG, Scc, TAS, NBCD and the bit changes write (R236, R310). -/
theorem test_wf_data_alterable :
    ([.clr .w (.areg 0), .neg .w (.pcDisp 0), .scc .t (.areg 0), .tas (.imm (.word 0)), .nbcd (.areg 0), .bchgImm 1 (.pcDisp 0), .bsetDyn 1 (.areg 0), .moveFromSr (.pcDisp 1)] : List Instr).map Instr.wf =
      [false, false, false, false, false, false, false, false] := by decide

/-- Refused: BTST #n has no immediate operand (R311). -/
theorem test_wf_bit_test :
    ([.btstImm 1 (.imm (.word 1)), .btstDyn 1 (.areg 0), .cmpi .w (.word 1) (.imm (.word 2))] : List Instr).map Instr.wf =
      [false, false, false] := by decide

/-- Refused: a bit field is in Dn or at a control address (R320). -/
theorem test_wf_field_modes :
    ([.bftst (.postinc 0) ⟨false, 0, false, 1⟩, .bfchg (.pcDisp 0) ⟨false, 0, false, 1⟩, .bfins 0 (.areg 0) ⟨false, 0, false, 1⟩] : List Instr).map Instr.wf =
      [false, false, false] := by decide

/-- Refused: with Do = 1 bits 10:9 are 0 (R320). -/
theorem test_wf_field_offset_register :
    ([.bftst (.dreg 0) ⟨true, 8, false, 1⟩] : List Instr).map Instr.wf =
      [false] := by decide

/-- Refused: the 8-bit displacements $00 and $FF select the longer forms (R120). -/
theorem test_wf_branch_displacement :
    ([.bra (.byte 0), .bsr (.byte 0xFF), .bcc .ne (.byte 0)] : List Instr).map Instr.wf =
      [false, false, false] := by decide

/-- Refused: Bcc with the codes of T and F is BRA and BSR (R121). -/
theorem test_wf_branch_condition :
    ([.bcc .t (.byte 2), .bcc .f (.byte 2)] : List Instr).map Instr.wf =
      [false, false] := by decide

/-- Refused: with the index suppressed there is no postindexed form (R116). -/
theorem test_wf_no_postindex_without_index :
    ([.lea (.indexed 0 (.full ⟨⟨false, 0⟩, false, 0⟩ false true .null (.post .null))) 1] : List Instr).map Instr.wf =
      [false] := by decide

/-- Refused: the effective addresses of the coprocessor rows (R432). -/
theorem test_wf_coprocessor_modes :
    ([.cpScc 1 1 0, .cpGen 1 7 5, .cpTrapcc 1 5, .cpSave 1 3 0, .cpRestore 1 4 0] : List Instr).map Instr.wf =
      [false, false, false, false, false] := by decide

/-- Refused: an F-line word of a coprocessor row is that row (R432). -/
theorem test_wf_f_line_only_the_rest :
    ([.fLine 0x200, .fLine 0x080, .fLine 0x110] : List Instr).map Instr.wf =
      [false, false, false] := by decide

/-! ## Words written out from the encodings of the rules -/

theorem test_decode_data_movement_1 :
    decode [0x22C4] = .instr (.move .l (.dreg 4) (.postinc 1)) 1 ∧
    decode [0x303C, 0x8000] = .instr (.move .w (.imm (.word 0x8000)) (.dreg 0)) 2 ∧
    decode [0x3040] = .instr (.movea .w (.dreg 0) 0) 1 ∧
    decode [0x70FF] = .instr (.moveq 0 0xFF) 1 ∧
    decode [0x48E7, 0xC080] = .instr (.movemToMem .l 0xC080 (.predec 7)) 2 ∧
    decode [0x4C98, 0x0001] = .instr (.movemToReg .w 1 (.postinc 0)) 2 ∧
    decode [0x0188, 0x0002] = .instr (.movep true .w 0 0 2) 2 ∧
    decode [0x0348, 0x0000] = .instr (.movep false .l 1 0 0) 2 ∧
    decode [0x43E8, 0x0004] = .instr (.lea (.disp 0 4) 1) 2 := by decide

theorem test_decode_data_movement_2 :
    decode [0x4850] = .instr (.pea (.ind 0)) 1 ∧
    decode [0x4E56, 0xFFF8] = .instr (.linkW 6 0xFFF8) 2 ∧
    decode [0x480E, 0xFFFF, 0xFFF8] = .instr (.linkL 6 0xFFFFFFF8) 3 ∧
    decode [0x4E5E] = .instr (.unlk 6) 1 ∧
    decode [0xC141] = .instr (.exg .dd 0 1) 1 ∧
    decode [0xC149] = .instr (.exg .aa 0 1) 1 ∧
    decode [0xC189] = .instr (.exg .da 0 1) 1 := by decide

theorem test_decode_arithmetic_1 :
    decode [0xDA84] = .instr (.addToReg .l (.dreg 4) 5) 1 ∧
    decode [0xD150] = .instr (.addToEa .w 0 (.ind 0)) 1 ∧
    decode [0xD0C0] = .instr (.adda .w (.dreg 0) 0) 1 ∧
    decode [0x0680, 0x0000, 0x0001] = .instr (.addi .l (.long 1) (.dreg 0)) 3 ∧
    decode [0x5080] = .instr (.addq .l 0 (.dreg 0)) 1 ∧
    decode [0xD380] = .instr (.addx .l false 0 1) 1 ∧
    decode [0x4280] = .instr (.clr .l (.dreg 0)) 1 ∧
    decode [0xB280] = .instr (.cmp .l (.dreg 0) 1) 1 ∧
    decode [0xB3C8] = .instr (.cmpa .l (.areg 0) 1) 1 := by decide

theorem test_decode_arithmetic_2 :
    decode [0x0C40, 0x0005] = .instr (.cmpi .w (.word 5) (.dreg 0)) 2 ∧
    decode [0xB308] = .instr (.cmpm .b 0 1) 1 ∧
    decode [0x02D0, 0x0000] = .instr (.cmp2 .w (.ind 0) ⟨false, 0⟩) 2 ∧
    decode [0x80C1] = .instr (.divuW (.dreg 1) 0) 1 ∧
    decode [0x81C1] = .instr (.divsW (.dreg 1) 0) 1 ∧
    decode [0x4C41, 0x0C02] = .instr (.divL (.dreg 1) 0 true true 2) 2 ∧
    decode [0x4880] = .instr (.extW 0) 1 ∧
    decode [0x48C0] = .instr (.extL 0) 1 ∧
    decode [0x49C0] = .instr (.extbL 0) 1 := by decide

theorem test_decode_arithmetic_3 :
    decode [0xC0C1] = .instr (.muluW (.dreg 1) 0) 1 ∧
    decode [0xC1C1] = .instr (.mulsW (.dreg 1) 0) 1 ∧
    decode [0x4C01, 0x0C02] = .instr (.mulL (.dreg 1) 0 true true 2) 2 ∧
    decode [0x4480] = .instr (.neg .l (.dreg 0)) 1 ∧
    decode [0x4080] = .instr (.negx .l (.dreg 0)) 1 ∧
    decode [0x9280] = .instr (.subToReg .l (.dreg 0) 1) 1 ∧
    decode [0x9150] = .instr (.subToEa .w 0 (.ind 0)) 1 ∧
    decode [0x91C0] = .instr (.suba .l (.dreg 0) 0) 1 ∧
    decode [0x0480, 0x0000, 0x0001] = .instr (.subi .l (.long 1) (.dreg 0)) 3 := by decide

theorem test_decode_arithmetic_4 :
    decode [0x5380] = .instr (.subq .l 1 (.dreg 0)) 1 ∧
    decode [0x9380] = .instr (.subx .l false 0 1) 1 := by decide

theorem test_decode_logical_1 :
    decode [0xC250] = .instr (.andToReg .w (.ind 0) 1) 1 ∧
    decode [0xC110] = .instr (.andToEa .b 0 (.ind 0)) 1 ∧
    decode [0x0280, 0x0000, 0x00FF] = .instr (.andi .l (.long 0xFF) (.dreg 0)) 3 ∧
    decode [0x8280] = .instr (.orToReg .l (.dreg 0) 1) 1 ∧
    decode [0x8110] = .instr (.orToEa .b 0 (.ind 0)) 1 ∧
    decode [0x0000, 0x0001] = .instr (.ori .b (.word 1) (.dreg 0)) 2 ∧
    decode [0xB181] = .instr (.eor .l 0 (.dreg 1)) 1 ∧
    decode [0x0A40, 0xFFFF] = .instr (.eori .w (.word 0xFFFF) (.dreg 0)) 2 ∧
    decode [0x4680] = .instr (.not .l (.dreg 0)) 1 := by decide

theorem test_decode_logical_2 :
    decode [0x4A50] = .instr (.tst .w (.ind 0)) 1 := by decide

theorem test_decode_shift_rotate_1 :
    decode [0xE380] = .instr (.aslReg .l (.imm 1) 0) 1 ∧
    decode [0xE1D0] = .instr (.aslMem (.ind 0)) 1 ∧
    decode [0xE280] = .instr (.asrReg .l (.imm 1) 0) 1 ∧
    decode [0xE0D0] = .instr (.asrMem (.ind 0)) 1 ∧
    decode [0xE3A8] = .instr (.lslReg .l (.reg 1) 0) 1 ∧
    decode [0xE3D0] = .instr (.lslMem (.ind 0)) 1 ∧
    decode [0xE088] = .instr (.lsrReg .l (.imm 0) 0) 1 ∧
    decode [0xE2D0] = .instr (.lsrMem (.ind 0)) 1 ∧
    decode [0xE398] = .instr (.rolReg .l (.imm 1) 0) 1 := by decide

theorem test_decode_shift_rotate_2 :
    decode [0xE7D0] = .instr (.rolMem (.ind 0)) 1 ∧
    decode [0xE298] = .instr (.rorReg .l (.imm 1) 0) 1 ∧
    decode [0xE6D0] = .instr (.rorMem (.ind 0)) 1 ∧
    decode [0xE390] = .instr (.roxlReg .l (.imm 1) 0) 1 ∧
    decode [0xE5D0] = .instr (.roxlMem (.ind 0)) 1 ∧
    decode [0xE290] = .instr (.roxrReg .l (.imm 1) 0) 1 ∧
    decode [0xE4D0] = .instr (.roxrMem (.ind 0)) 1 ∧
    decode [0x4840] = .instr (.swap 0) 1 := by decide

theorem test_decode_bits_1 :
    decode [0x0300] = .instr (.btstDyn 1 (.dreg 0)) 1 ∧
    decode [0x0800, 0x0000] = .instr (.btstImm 0 (.dreg 0)) 2 ∧
    decode [0x0350] = .instr (.bchgDyn 1 (.ind 0)) 1 ∧
    decode [0x0850, 0x0001] = .instr (.bchgImm 1 (.ind 0)) 2 ∧
    decode [0x0380] = .instr (.bclrDyn 1 (.dreg 0)) 1 ∧
    decode [0x0890, 0x0007] = .instr (.bclrImm 7 (.ind 0)) 2 ∧
    decode [0x03C0] = .instr (.bsetDyn 1 (.dreg 0)) 1 ∧
    decode [0x08C0, 0x0003] = .instr (.bsetImm 3 (.dreg 0)) 2 ∧
    decode [0xE8C0, 0x0001] = .instr (.bftst (.dreg 0) ⟨false, 0, false, 1⟩) 2 := by decide

theorem test_decode_bits_2 :
    decode [0xE9C0, 0x1208] = .instr (.bfextu (.dreg 0) ⟨false, 8, false, 8⟩ 1) 2 ∧
    decode [0xEAC0, 0x0004] = .instr (.bfchg (.dreg 0) ⟨false, 0, false, 4⟩) 2 ∧
    decode [0xEBC0, 0x1208] = .instr (.bfexts (.dreg 0) ⟨false, 8, false, 8⟩ 1) 2 ∧
    decode [0xECD0, 0x0108] = .instr (.bfclr (.ind 0) ⟨false, 4, false, 8⟩) 2 ∧
    decode [0xEDC0, 0x1000] = .instr (.bfffo (.dreg 0) ⟨false, 0, false, 0⟩ 1) 2 ∧
    decode [0xEED0, 0x08A2] = .instr (.bfset (.ind 0) ⟨true, 2, true, 2⟩) 2 ∧
    decode [0xEFD0, 0x110C] = .instr (.bfins 1 (.ind 0) ⟨false, 4, false, 12⟩) 2 := by decide

theorem test_decode_decimal_1 :
    decode [0xC300] = .instr (.abcd false 0 1) 1 ∧
    decode [0x8308] = .instr (.sbcd true 0 1) 1 ∧
    decode [0x4800] = .instr (.nbcd (.dreg 0)) 1 ∧
    decode [0x8340, 0x0001] = .instr (.pack false 0 1 1) 2 ∧
    decode [0x8388, 0x3030] = .instr (.unpk true 0 1 0x3030) 2 := by decide

theorem test_decode_program_control_1 :
    decode [0x6704] = .instr (.bcc .eq (.byte 4)) 1 ∧
    decode [0x6600, 0xFFFE] = .instr (.bcc .ne (.word 0xFFFE)) 2 ∧
    decode [0x60FF, 0x0001, 0x0000] = .instr (.bra (.long 0x10000)) 3 ∧
    decode [0x6108] = .instr (.bsr (.byte 8)) 1 ∧
    decode [0x51C8, 0xFFFC] = .instr (.dbcc .f 0 0xFFFC) 2 ∧
    decode [0x57C0] = .instr (.scc .eq (.dreg 0)) 1 ∧
    decode [0x4EF9, 0x0000, 0x1001] = .instr (.jmp (.absL 0x1001)) 3 ∧
    decode [0x4E90] = .instr (.jsr (.ind 0)) 1 ∧
    decode [0x4E75] = .instr (.rts) 1 := by decide

theorem test_decode_program_control_2 :
    decode [0x4E77] = .instr (.rtr) 1 ∧
    decode [0x4E74, 0x0008] = .instr (.rtd 8) 2 ∧
    decode [0x4E71] = .instr (.nop) 1 ∧
    decode [0x06D0, 0x0004] = .instr (.callm 4 (.ind 0)) 2 ∧
    decode [0x06C9] = .instr (.rtm ⟨true, 1⟩) 1 := by decide

theorem test_decode_system_1 :
    decode [0x4E43] = .instr (.trap 3) 1 ∧
    decode [0x50FA, 0x1234] = .instr (.trapcc .t (.word 0x1234)) 2 ∧
    decode [0x51FC] = .instr (.trapcc .f .none) 1 ∧
    decode [0x4E76] = .instr (.trapv) 1 ∧
    decode [0x4181] = .instr (.chk .w (.dreg 1) 0) 1 ∧
    decode [0x02D0, 0x0800] = .instr (.chk2 .w (.ind 0) ⟨false, 0⟩) 2 ∧
    decode [0x4AFC] = .instr (.illegal) 1 ∧
    decode [0x484B] = .instr (.bkpt 3) 1 ∧
    decode [0x4E72, 0x2000] = .instr (.stop 0x2000) 2 := by decide

theorem test_decode_system_2 :
    decode [0x4E73] = .instr (.rte) 1 ∧
    decode [0x4E70] = .instr (.reset) 1 ∧
    decode [0x40C0] = .instr (.moveFromSr (.dreg 0)) 1 ∧
    decode [0x46FC, 0xFFFF] = .instr (.moveToSr (.imm (.word 0xFFFF))) 2 ∧
    decode [0x027C, 0xF8FF] = .instr (.andiToSr 0xF8FF) 2 ∧
    decode [0x0A7C, 0x2000] = .instr (.eoriToSr 0x2000) 2 ∧
    decode [0x007C, 0x0700] = .instr (.oriToSr 0x700) 2 ∧
    decode [0x4E60] = .instr (.moveUsp false 0) 1 ∧
    decode [0x4E68] = .instr (.moveUsp true 0) 1 := by decide

theorem test_decode_system_3 :
    decode [0x4E7B, 0x8801] = .instr (.movec true ⟨true, 0⟩ 0x801) 2 ∧
    decode [0x4E7A, 0x0801] = .instr (.movec false ⟨false, 0⟩ 0x801) 2 ∧
    decode [0x0E90, 0x0800] = .instr (.moves .l true ⟨false, 0⟩ (.ind 0)) 2 ∧
    decode [0x42C0] = .instr (.moveFromCcr (.dreg 0)) 1 ∧
    decode [0x44FC, 0x001F] = .instr (.moveToCcr (.imm (.word 0x1F))) 2 ∧
    decode [0x023C, 0x00EF] = .instr (.andiToCcr 0xEF) 2 ∧
    decode [0x0A3C, 0x0001] = .instr (.eoriToCcr 1) 2 ∧
    decode [0x003C, 0x0010] = .instr (.oriToCcr 0x10) 2 := by decide

theorem test_decode_multi_and_lines_1 :
    decode [0x4AD0] = .instr (.tas (.ind 0)) 1 ∧
    decode [0x0CD0, 0x0040] = .instr (.cas .w 0 1 (.ind 0)) 2 ∧
    decode [0x0EFC, 0x8080, 0x90C1] = .instr (.cas2 .l ⟨true, 0⟩ 2 0 ⟨true, 1⟩ 3 1) 3 ∧
    decode [0xF210] = .instr (.cpGen 1 2 0) 1 ∧
    decode [0xF250] = .instr (.cpScc 1 2 0) 1 ∧
    decode [0xF24B] = .instr (.cpDbcc 1 3) 1 ∧
    decode [0xF27C] = .instr (.cpTrapcc 1 4) 1 ∧
    decode [0xF28E] = .instr (.cpBcc 1 false 14) 1 ∧
    decode [0xF2CE] = .instr (.cpBcc 1 true 14) 1 := by decide

theorem test_decode_multi_and_lines_2 :
    decode [0xF310] = .instr (.cpSave 1 2 0) 1 ∧
    decode [0xF358] = .instr (.cpRestore 1 3 0) 1 ∧
    decode [0xFFFF] = .instr (.fLine 0xFFF) 1 ∧
    decode [0xA123] = .instr (.aLine 0x123) 1 := by decide

/-- The words of an instruction stored where the step fetches decode to it, whatever the table's bit order (bit 0 of the
first word is bit 0). -/
theorem test_decode_table_word :
    decodeTableWord 16 0x22C4 = some (.move .l (.dreg 4) (.postinc 1)) ∧
    decodeTableWord 32 (0xC080 * 65536 + 0x48E7) = some (.movemToMem .l 0xC080 (.predec 7)) ∧
    decodeTableWord 16 0x4ABD = none := by decide

/-! ## One step -/

/-- A state with code at $1000, registers, and bytes in memory. -/
def given (code : List Byte) (d a : List Long) (m : List (Long × List Byte)) : State :=
  m.foldl (fun s p => s.store 5 p.1 p.2)
    ({ State.reset with
        pc := 0x1000, isp := 0x4000
        d := Vector.ofFn fun i => d.getD i.val 0
        a := Vector.ofFn fun i => a.getD i.val 0 }.store 6 0x1000 code)

/-- The next state of a step passes a check. -/
def gives (s : State) (p : State → Bool) : Bool :=
  match step s with
  | .next t => p t
  | .fault _ => false
  | .refused _ => false

theorem test_move_1 : gives (given [0x20, 0x10] [] [0xFFFFFFFE] [(0xFFFFFFFE, [0x12, 0x34]), (0x0, [0x56, 0x78])])
    (fun t => t.dreg 0 == 0x12345678) = true := by decide

theorem test_move_2 : gives { given [0x1F, 0x00] [0xAB] [] [] with isp := 0x2000 }
    (fun t => t.isp == 0x1FFE && t.load 5 0x1FFE 1 == [0xAB] && t.load 5 0x1FFF 1 == [0x00] && t.sr &&& 0x1F == 0x08) = true := by decide

theorem test_illegal_word_1 : gives (given [0x10, 0x08] [] [] [(0x10, [0x00, 0x00, 0x20, 0x00])])
    (fun t => t.pc == 0x2000 && t.isp == 0x3FF8 && t.load 5 0x3FF8 8 == [0x27, 0x00, 0x00, 0x00, 0x10, 0x00, 0x00, 0x10]) = true := by decide

theorem test_illegal_word_2 : gives (given [0x4A, 0xBD] [] [] [(0x10, [0x00, 0x00, 0x20, 0x00])])
    (fun t => t.pc == 0x2000 && t.isp == 0x3FF8) = true := by decide

theorem test_movea_1 : gives (given [0x30, 0x40] [0xFFFE] [] [])
    (fun t => t.areg 0 == 0xFFFFFFFE && t.sr &&& 0x1F == 0x00) = true := by decide

theorem test_moveq_1 : gives (given [0x70, 0xFF] [] [] [])
    (fun t => t.dreg 0 == 0xFFFFFFFF && t.sr &&& 0x1F == 0x08) = true := by decide

theorem test_moveq_2 : gives (given [0x76, 0x00] [0, 0, 0, 0xDEADBEEF] [] [])
    (fun t => t.dreg 3 == 0x0 && t.sr &&& 0x1F == 0x04) = true := by decide

theorem test_movemToMem_1 : gives { given [0x48, 0xE7, 0xC0, 0x80] [0x1, 0x2] [0x3] [] with isp := 0x2000 }
    (fun t => t.load 5 0x1FF4 12 == [0x00, 0x00, 0x00, 0x01, 0x00, 0x00, 0x00, 0x02, 0x00, 0x00, 0x00, 0x03] && t.isp == 0x1FF4) = true := by decide

theorem test_movemToReg_1 : gives { given [0x4C, 0xDF, 0x01, 0x03] [] [] [(0x1FF4, [0x00, 0x00, 0x00, 0x01, 0x00, 0x00, 0x00, 0x02, 0x00, 0x00, 0x00, 0x03])] with isp := 0x1FF4 }
    (fun t => t.isp == 0x2000 && t.dreg 0 == 0x1 && t.dreg 1 == 0x2 && t.areg 0 == 0x3) = true := by decide

theorem test_movemToReg_2 : gives (given [0x4C, 0x98, 0x00, 0x01] [] [0x2000] [(0x2000, [0x80, 0x00])])
    (fun t => t.dreg 0 == 0xFFFF8000 && t.areg 0 == 0x2002) = true := by decide

theorem test_movemToMem_2 : gives (given [0x48, 0xE0, 0x00, 0x00] [] [0x2000] [])
    (fun t => t.areg 0 == 0x2000 && t.pc == 0x1004) = true := by decide

theorem test_movep_1 : gives (given [0x01, 0x88, 0x00, 0x02] [0x1234] [0x2000] [(0x2003, [0x77])])
    (fun t => t.load 5 0x2002 3 == [0x12, 0x77, 0x34]) = true := by decide

theorem test_movep_2 : gives (given [0x03, 0x48, 0x00, 0x00] [] [0x2000] [(0x2000, [0x11, 0x00, 0x22, 0x00, 0x33, 0x00, 0x44])])
    (fun t => t.dreg 1 == 0x11223344) = true := by decide

theorem test_lea_1 : gives (given [0x43, 0xE8, 0x00, 0x04] [] [0x1000] [])
    (fun t => t.areg 1 == 0x1004) = true := by decide

theorem test_pea_1 : gives { given [0x48, 0x50] [] [0x12345678] [] with isp := 0x2000 }
    (fun t => t.isp == 0x1FFC && t.load 5 0x1FFC 4 == [0x12, 0x34, 0x56, 0x78]) = true := by decide

theorem test_linkW_1 : gives { given [0x4E, 0x56, 0xFF, 0xF8] [] [0, 0, 0, 0, 0, 0, 0xAAAA0000] [] with isp := 0x2000 }
    (fun t => t.load 5 0x1FFC 4 == [0xAA, 0xAA, 0x00, 0x00] && t.areg 6 == 0x1FFC && t.isp == 0x1FF4) = true := by decide

theorem test_unlk_1 : gives (given [0x4E, 0x5E] [] [0, 0, 0, 0, 0, 0, 0x1FFC] [(0x1FFC, [0xAA, 0xAA, 0x00, 0x00])])
    (fun t => t.isp == 0x2000 && t.areg 6 == 0xAAAA0000) = true := by decide

theorem test_exg_1 : gives (given [0xC1, 0x41] [0x1, 0x2] [] [])
    (fun t => t.dreg 0 == 0x2 && t.dreg 1 == 0x1) = true := by decide

theorem test_exg_2 : gives (given [0xC1, 0x89] [0x1] [0, 0x2000] [])
    (fun t => t.dreg 0 == 0x2000 && t.areg 1 == 0x1) = true := by decide

theorem test_addToReg_1 : gives { given [0xDA, 0x84] [0, 0, 0, 0, 0x5, 0x7] [] [] with sr := 0x271F }
    (fun t => t.dreg 5 == 0xC && t.sr &&& 0x1F == 0x00) = true := by decide

theorem test_addToReg_2 : gives (given [0xD2, 0x80] [0x1, 0x7FFFFFFF] [] [])
    (fun t => t.dreg 1 == 0x80000000 && t.sr &&& 0x1F == 0x0A) = true := by decide

theorem test_adda_1 : gives (given [0xD0, 0xC0] [0xFFFE] [0x1000] [])
    (fun t => t.areg 0 == 0xFFE && t.sr &&& 0x1F == 0x00) = true := by decide

theorem test_addi_1 : gives (given [0x06, 0x80, 0x00, 0x00, 0x00, 0x01] [0xFFFFFFFF] [] [])
    (fun t => t.dreg 0 == 0x0 && t.sr &&& 0x1F == 0x15) = true := by decide

theorem test_addq_1 : gives (given [0x50, 0x80] [] [] [])
    (fun t => t.dreg 0 == 0x8 && t.sr &&& 0x1F == 0x00) = true := by decide

theorem test_addq_2 : gives (given [0x52, 0x48] [] [0xFFFF] [])
    (fun t => t.areg 0 == 0x10000 && t.sr &&& 0x1F == 0x00) = true := by decide

theorem test_addx_1 : gives { given [0xD3, 0x80] [0, 0xFFFFFFFF] [] [] with sr := 0x2714 }
    (fun t => t.dreg 1 == 0x0 && t.sr &&& 0x1F == 0x15) = true := by decide

theorem test_addx_2 : gives (given [0xD3, 0x80] [] [] [])
    (fun t => t.dreg 1 == 0x0 && t.sr &&& 0x1F == 0x00) = true := by decide

theorem test_clr_1 : gives { given [0x42, 0x80] [0x12345678] [] [] with sr := 0x2710 }
    (fun t => t.dreg 0 == 0x0 && t.sr &&& 0x1F == 0x14) = true := by decide

theorem test_cmp_1 : gives (given [0xB2, 0x80] [0x5, 0x3] [] [])
    (fun t => t.sr &&& 0x1F == 0x09 && t.dreg 1 == 0x3) = true := by decide

theorem test_cmpa_1 : gives (given [0xB3, 0xC8] [] [0x2000, 0x2000] [])
    (fun t => t.sr &&& 0x1F == 0x04) = true := by decide

theorem test_cmpi_1 : gives (given [0x0C, 0x40, 0x00, 0x05] [0xFFFF0005] [] [])
    (fun t => t.sr &&& 0x1F == 0x04) = true := by decide

theorem test_cmpm_1 : gives (given [0xB3, 0x08] [] [0x2000, 0x3000] [(0x2000, [0x01]), (0x3000, [0x01])])
    (fun t => t.areg 0 == 0x2001 && t.areg 1 == 0x3001 && t.sr &&& 0x1F == 0x04) = true := by decide

theorem test_cmp2_1 : gives (given [0x02, 0xD0, 0x00, 0x00] [0x14] [0x2000] [(0x2000, [0x00, 0x0A, 0x00, 0x14])])
    (fun t => t.pc == 0x1004) = true := by decide

theorem test_cmp2_2 : gives (given [0x02, 0xD0, 0x00, 0x00] [0x15] [0x2000] [(0x2000, [0x00, 0x0A, 0x00, 0x14])])
    (fun t => t.pc == 0x1004) = true := by decide

theorem test_divuW_1 : gives (given [0x80, 0xC1] [0x00010003, 0x2] [] [])
    (fun t => t.dreg 0 == 0x00018001 && t.sr &&& 0x1F == 0x08) = true := by decide

theorem test_divuW_2 : gives (given [0x80, 0xC1] [0x00020000, 0x1] [] [])
    (fun t => t.dreg 0 == 0x00020000) = true := by decide

theorem test_divsW_1 : gives (given [0x81, 0xC1] [0xFFFFFFF9, 0x2] [] [])
    (fun t => t.dreg 0 == 0xFFFFFFFD && t.sr &&& 0x1F == 0x08) = true := by decide

theorem test_divsW_2 : gives (given [0x81, 0xC1] [0xFFFF8000, 0x1] [] [])
    (fun t => t.dreg 0 == 0x00008000 && t.sr &&& 0x1F == 0x08) = true := by decide

theorem test_divL_1 : gives (given [0x4C, 0x41, 0x00, 0x02] [0x7, 0x2] [] [])
    (fun t => t.dreg 0 == 0x3 && t.dreg 2 == 0x1 && t.sr &&& 0x1F == 0x00) = true := by decide

theorem test_divL_2 : gives (given [0x4C, 0x41, 0x0C, 0x02] [0, 0x10, 0x1] [] [])
    (fun t => t.dreg 0 == 0x10000000 && t.dreg 2 == 0x0 && t.sr &&& 0x1F == 0x00) = true := by decide

theorem test_extW_1 : gives (given [0x48, 0x80] [0x123400FF] [] [])
    (fun t => t.dreg 0 == 0x1234FFFF && t.sr &&& 0x1F == 0x08) = true := by decide

theorem test_extL_1 : gives (given [0x48, 0xC0] [0x8000] [] [])
    (fun t => t.dreg 0 == 0xFFFF8000 && t.sr &&& 0x1F == 0x08) = true := by decide

theorem test_extbL_1 : gives (given [0x49, 0xC0] [0x12345680] [] [])
    (fun t => t.dreg 0 == 0xFFFFFF80 && t.sr &&& 0x1F == 0x08) = true := by decide

theorem test_muluW_1 : gives (given [0xC0, 0xC1] [0xFFFF, 0xFFFF] [] [])
    (fun t => t.dreg 0 == 0xFFFE0001 && t.sr &&& 0x1F == 0x08) = true := by decide

theorem test_mulsW_1 : gives (given [0xC1, 0xC1] [0xFFFF, 0xFFFF] [] [])
    (fun t => t.dreg 0 == 0x1 && t.sr &&& 0x1F == 0x00) = true := by decide

theorem test_mulL_1 : gives (given [0x4C, 0x01, 0x00, 0x00] [0x10000, 0x10000] [] [])
    (fun t => t.dreg 0 == 0x0 && t.sr &&& 0x1F == 0x06) = true := by decide

theorem test_mulL_2 : gives (given [0x4C, 0x01, 0x0C, 0x02] [0xFFFFFFFF, 0x2] [] [])
    (fun t => t.dreg 2 == 0xFFFFFFFF && t.dreg 0 == 0xFFFFFFFE && t.sr &&& 0x1F == 0x08) = true := by decide

theorem test_neg_1 : gives (given [0x44, 0x80] [0x1] [] [])
    (fun t => t.dreg 0 == 0xFFFFFFFF && t.sr &&& 0x1F == 0x19) = true := by decide

theorem test_neg_2 : gives (given [0x44, 0x80] [] [] [])
    (fun t => t.dreg 0 == 0x0 && t.sr &&& 0x1F == 0x04) = true := by decide

theorem test_negx_1 : gives { given [0x40, 0x80] [] [] [] with sr := 0x2714 }
    (fun t => t.dreg 0 == 0xFFFFFFFF && t.sr &&& 0x1F == 0x19) = true := by decide

theorem test_negx_2 : gives { given [0x40, 0x80] [] [] [] with sr := 0x2704 }
    (fun t => t.dreg 0 == 0x0 && t.sr &&& 0x1F == 0x04) = true := by decide

theorem test_subToReg_1 : gives (given [0x92, 0x80] [0x5, 0x3] [] [])
    (fun t => t.dreg 1 == 0xFFFFFFFE && t.sr &&& 0x1F == 0x19) = true := by decide

theorem test_suba_1 : gives (given [0x91, 0xC0] [0x1] [] [])
    (fun t => t.areg 0 == 0xFFFFFFFF && t.sr &&& 0x1F == 0x00) = true := by decide

theorem test_subi_1 : gives (given [0x04, 0x80, 0x00, 0x00, 0x00, 0x01] [0x80000000] [] [])
    (fun t => t.dreg 0 == 0x7FFFFFFF && t.sr &&& 0x1F == 0x02) = true := by decide

theorem test_subq_1 : gives (given [0x53, 0x80] [] [] [])
    (fun t => t.dreg 0 == 0xFFFFFFFF && t.sr &&& 0x1F == 0x19) = true := by decide

theorem test_subx_1 : gives { given [0x93, 0x80] [] [] [] with sr := 0x2714 }
    (fun t => t.dreg 1 == 0xFFFFFFFF && t.sr &&& 0x1F == 0x19) = true := by decide

theorem test_andToReg_1 : gives (given [0xC2, 0x80] [0x0F0F0F0F, 0xFFFF0000] [] [])
    (fun t => t.dreg 1 == 0x0F0F0000 && t.sr &&& 0x1F == 0x00) = true := by decide

theorem test_andToReg_2 : gives (given [0xC2, 0x50] [0, 0xFFFFFFFF] [0x2000] [(0x2000, [0x80, 0x01])])
    (fun t => t.dreg 1 == 0xFFFF8001 && t.sr &&& 0x1F == 0x08) = true := by decide

theorem test_andi_1 : gives (given [0x02, 0x80, 0x00, 0x00, 0x00, 0xFF] [0x12345600] [] [])
    (fun t => t.dreg 0 == 0x0 && t.sr &&& 0x1F == 0x04) = true := by decide

theorem test_orToReg_1 : gives (given [0x82, 0x80] [0x80000000, 0x1] [] [])
    (fun t => t.dreg 1 == 0x80000001 && t.sr &&& 0x1F == 0x08) = true := by decide

theorem test_ori_1 : gives (given [0x00, 0x00, 0x00, 0x01] [0xFFFFFF00] [] [])
    (fun t => t.dreg 0 == 0xFFFFFF01 && t.sr &&& 0x1F == 0x00) = true := by decide

theorem test_eor_1 : gives (given [0xB1, 0x81] [0xA5A5A5A5, 0xA5A5A5A5] [] [])
    (fun t => t.dreg 1 == 0x0 && t.sr &&& 0x1F == 0x04) = true := by decide

theorem test_eori_1 : gives (given [0x0A, 0x40, 0xFF, 0xFF] [0x12340000] [] [])
    (fun t => t.dreg 0 == 0x1234FFFF && t.sr &&& 0x1F == 0x08) = true := by decide

theorem test_not_1 : gives (given [0x46, 0x80] [] [] [])
    (fun t => t.dreg 0 == 0xFFFFFFFF && t.sr &&& 0x1F == 0x08) = true := by decide

theorem test_tst_1 : gives (given [0x4A, 0x80] [0x80000000] [] [])
    (fun t => t.sr &&& 0x1F == 0x08) = true := by decide

theorem test_tst_2 : gives (given [0x4A, 0x50] [] [0x2000] [])
    (fun t => t.sr &&& 0x1F == 0x04) = true := by decide

theorem test_aslReg_1 : gives (given [0xE3, 0x80] [0x40000000] [] [])
    (fun t => t.dreg 0 == 0x80000000 && t.sr &&& 0x1F == 0x0A) = true := by decide

theorem test_aslReg_2 : gives (given [0xE3, 0x80] [0x80000000] [] [])
    (fun t => t.dreg 0 == 0x0 && t.sr &&& 0x1F == 0x17) = true := by decide

theorem test_asrReg_1 : gives (given [0xE2, 0x80] [0x80000001] [] [])
    (fun t => t.dreg 0 == 0xC0000000 && t.sr &&& 0x1F == 0x19) = true := by decide

theorem test_lslReg_1 : gives (given [0xE3, 0xA8] [0x1, 0x20] [] [])
    (fun t => t.dreg 0 == 0x0 && t.sr &&& 0x1F == 0x15) = true := by decide

theorem test_lslReg_2 : gives (given [0xE3, 0xA8] [0x1, 0x21] [] [])
    (fun t => t.dreg 0 == 0x0 && t.sr &&& 0x1F == 0x04) = true := by decide

theorem test_lsrReg_1 : gives (given [0xE0, 0x88] [0x12345680] [] [])
    (fun t => t.dreg 0 == 0x00123456 && t.sr &&& 0x1F == 0x11) = true := by decide

theorem test_rolReg_1 : gives (given [0xE3, 0x98] [0x80000000] [] [])
    (fun t => t.dreg 0 == 0x1 && t.sr &&& 0x1F == 0x01) = true := by decide

theorem test_rorReg_1 : gives (given [0xE2, 0x98] [0x1] [] [])
    (fun t => t.dreg 0 == 0x80000000 && t.sr &&& 0x1F == 0x09) = true := by decide

theorem test_roxlReg_1 : gives (given [0xE3, 0x90] [0x80000000] [] [])
    (fun t => t.dreg 0 == 0x0 && t.sr &&& 0x1F == 0x15) = true := by decide

theorem test_roxrReg_1 : gives (given [0xE2, 0x90] [0x1] [] [])
    (fun t => t.dreg 0 == 0x0 && t.sr &&& 0x1F == 0x15) = true := by decide

theorem test_roxrReg_2 : gives { given [0xE2, 0x90] [] [] [] with sr := 0x2710 }
    (fun t => t.dreg 0 == 0x80000000 && t.sr &&& 0x1F == 0x08) = true := by decide

theorem test_aslMem_1 : gives (given [0xE1, 0xD0] [] [0x2000] [(0x2000, [0x40, 0x00])])
    (fun t => t.load 5 0x2000 2 == [0x80, 0x00] && t.sr &&& 0x1F == 0x0A) = true := by decide

theorem test_lsrMem_1 : gives (given [0xE2, 0xD0] [] [0x2000] [(0x2000, [0x00, 0x01])])
    (fun t => t.load 5 0x2000 2 == [0x00, 0x00] && t.sr &&& 0x1F == 0x15) = true := by decide

theorem test_swap_1 : gives (given [0x48, 0x40] [0x12345678] [] [])
    (fun t => t.dreg 0 == 0x56781234 && t.sr &&& 0x1F == 0x00) = true := by decide

theorem test_btstImm_1 : gives { given [0x08, 0x00, 0x00, 0x00] [0x1] [] [] with sr := 0x271F }
    (fun t => t.sr &&& 0x1F == 0x1B) = true := by decide

theorem test_btstDyn_1 : gives { given [0x03, 0x00] [0x1, 0x20] [] [] with sr := 0x271F }
    (fun t => t.sr &&& 0x1F == 0x1B) = true := by decide

theorem test_bchgDyn_1 : gives (given [0x03, 0x50] [0, 0x9] [0x2000] [])
    (fun t => t.load 5 0x2000 1 == [0x02] && t.sr &&& 0x1F == 0x04) = true := by decide

theorem test_bclrImm_1 : gives { given [0x08, 0x90, 0x00, 0x07] [] [0x2000] [(0x2000, [0x80])] with sr := 0x2704 }
    (fun t => t.load 5 0x2000 1 == [0x00] && t.sr &&& 0x1F == 0x00) = true := by decide

theorem test_bsetDyn_1 : gives (given [0x03, 0xC0] [0, 0x21] [] [])
    (fun t => t.dreg 0 == 0x2 && t.sr &&& 0x1F == 0x04) = true := by decide

theorem test_bftst_1 : gives (given [0xE8, 0xC0, 0x00, 0x01] [0x80000000] [] [])
    (fun t => t.sr &&& 0x1F == 0x08) = true := by decide

theorem test_bfextu_1 : gives (given [0xE9, 0xC0, 0x12, 0x08] [0x12345678] [] [])
    (fun t => t.dreg 1 == 0x34 && t.sr &&& 0x1F == 0x00) = true := by decide

theorem test_bfexts_1 : gives (given [0xEB, 0xC0, 0x12, 0x08] [0x12F45678] [] [])
    (fun t => t.dreg 1 == 0xFFFFFFF4 && t.sr &&& 0x1F == 0x08) = true := by decide

theorem test_bfffo_1 : gives (given [0xED, 0xC0, 0x10, 0x00] [0x10000] [] [])
    (fun t => t.dreg 1 == 0xF && t.sr &&& 0x1F == 0x00) = true := by decide

theorem test_bfffo_2 : gives (given [0xED, 0xC0, 0x10, 0x00] [] [] [])
    (fun t => t.dreg 1 == 0x20 && t.sr &&& 0x1F == 0x04) = true := by decide

theorem test_bfchg_1 : gives (given [0xEA, 0xC0, 0x00, 0x04] [0xA0000000] [] [])
    (fun t => t.dreg 0 == 0x50000000 && t.sr &&& 0x1F == 0x08) = true := by decide

theorem test_bfclr_1 : gives (given [0xEC, 0xD0, 0x01, 0x08] [] [0x2000] [(0x2000, [0xFF, 0xFF])])
    (fun t => t.load 5 0x2000 2 == [0xF0, 0x0F] && t.sr &&& 0x1F == 0x08) = true := by decide

theorem test_bfset_1 : gives (given [0xEE, 0xC0, 0x07, 0x08] [] [] [])
    (fun t => t.dreg 0 == 0xF000000F && t.sr &&& 0x1F == 0x04) = true := by decide

theorem test_bfins_1 : gives (given [0xEF, 0xD0, 0x11, 0x0C] [0, 0xABC] [0x2000] [])
    (fun t => t.load 5 0x2000 2 == [0x0A, 0xBC] && t.sr &&& 0x1F == 0x08) = true := by decide

theorem test_abcd_1 : gives (given [0xC3, 0x00] [0x19, 0x28] [] [])
    (fun t => t.dreg 1 == 0x47) = true := by decide

theorem test_abcd_2 : gives { given [0xC3, 0x00] [0x01, 0x99] [] [] with sr := 0x2704 }
    (fun t => t.dreg 1 == 0x0) = true := by decide

theorem test_sbcd_1 : gives (given [0x83, 0x00] [0x1, 0x20] [] [])
    (fun t => t.dreg 1 == 0x19) = true := by decide

theorem test_sbcd_2 : gives (given [0x83, 0x00] [0x1, 0x0] [] [])
    (fun t => t.dreg 1 == 0x99) = true := by decide

theorem test_nbcd_1 : gives (given [0x48, 0x00] [0x1] [] [])
    (fun t => t.dreg 0 == 0x99) = true := by decide

theorem test_nbcd_2 : gives { given [0x48, 0x00] [] [] [] with sr := 0x2704 }
    (fun t => t.dreg 0 == 0x0) = true := by decide

theorem test_pack_1 : gives (given [0x83, 0x40, 0x00, 0x00] [0x305, 0xFFFFFF00] [] [])
    (fun t => t.dreg 1 == 0xFFFFFF35 && t.sr &&& 0x1F == 0x00) = true := by decide

theorem test_pack_2 : gives (given [0x83, 0x40, 0x00, 0x00] [0x3335] [] [])
    (fun t => t.dreg 1 == 0x35) = true := by decide

theorem test_unpk_1 : gives (given [0x83, 0x80, 0x30, 0x30] [0x35, 0xFFFF0000] [] [])
    (fun t => t.dreg 1 == 0xFFFF3335 && t.sr &&& 0x1F == 0x00) = true := by decide

theorem test_bcc_1 : gives { given [0x67, 0x04] [] [] [] with sr := 0x2704 }
    (fun t => t.pc == 0x1006) = true := by decide

theorem test_bcc_2 : gives (given [0x67, 0x04] [] [] [])
    (fun t => t.pc == 0x1002) = true := by decide

theorem test_bra_1 : gives (given [0x60, 0x02] [] [] [])
    (fun t => t.pc == 0x1004) = true := by decide

theorem test_bsr_1 : gives { given [0x61, 0x08] [] [] [] with isp := 0x2000 }
    (fun t => t.load 5 0x1FFC 4 == [0x00, 0x00, 0x10, 0x02] && t.isp == 0x1FFC && t.pc == 0x100A) = true := by decide

theorem test_dbcc_1 : gives { given [0x51, 0xC8, 0xFF, 0xFC] [0xABCD0001] [] [(0x1004, [0x51, 0xC8, 0xFF, 0xFC])] with pc := 0x1004 }
    (fun t => t.dreg 0 == 0xABCD0000 && t.pc == 0x1002) = true := by decide

theorem test_dbcc_2 : gives { given [0x51, 0xC8, 0xFF, 0xFC] [0xABCD0000] [] [(0x1004, [0x51, 0xC8, 0xFF, 0xFC])] with pc := 0x1004 }
    (fun t => t.dreg 0 == 0xABCDFFFF && t.pc == 0x1008) = true := by decide

theorem test_scc_1 : gives (given [0x57, 0xC0] [0x123456FF] [] [])
    (fun t => t.dreg 0 == 0x12345600) = true := by decide

theorem test_scc_2 : gives (given [0x50, 0xC0] [] [] [])
    (fun t => t.dreg 0 == 0xFF && t.sr &&& 0x1F == 0x00) = true := by decide

theorem test_jmp_1 : gives { given [0x4E, 0xF8, 0x10, 0x00] [] [] [(0x2000, [0x4E, 0xF8, 0x10, 0x00])] with pc := 0x2000 }
    (fun t => t.pc == 0x1000) = true := by decide

theorem test_jmp_2 : gives (given [0x4E, 0xF9, 0x00, 0x00, 0x10, 0x01] [] [] [])
    (fun t => t.pc == 0x1001) = true := by decide

theorem test_jsr_1 : gives { given [0x4E, 0x90] [] [0x3000] [] with isp := 0x2000 }
    (fun t => t.load 5 0x1FFC 4 == [0x00, 0x00, 0x10, 0x02] && t.isp == 0x1FFC && t.pc == 0x3000) = true := by decide

theorem test_rts_1 : gives { given [0x4E, 0x75] [] [] [(0x1FFC, [0x00, 0x00, 0x10, 0x02])] with isp := 0x1FFC }
    (fun t => t.pc == 0x1002 && t.isp == 0x2000) = true := by decide

theorem test_rtr_1 : gives { given [0x4E, 0x77] [] [] [(0x1FFA, [0xFF, 0x1F, 0x00, 0x00, 0x10, 0x02])] with isp := 0x1FFA }
    (fun t => t.sr == 0x271F && t.pc == 0x1002 && t.isp == 0x2000) = true := by decide

theorem test_rtd_1 : gives { given [0x4E, 0x74, 0x00, 0x08] [] [] [(0x1FFC, [0x00, 0x00, 0x10, 0x02])] with isp := 0x1FFC }
    (fun t => t.pc == 0x1002 && t.isp == 0x2008) = true := by decide

theorem test_nop_1 : gives (given [0x4E, 0x71] [] [] [])
    (fun t => t.pc == 0x1002) = true := by decide

theorem test_moveFromSr_1 : gives (given [0x40, 0xC0] [0xFFFFFFFF] [] [])
    (fun t => t.dreg 0 == 0xFFFF2700) = true := by decide

theorem test_moveFromSr_2 : gives { given [0x40, 0xC0] [] [] [(0x20, [0x00, 0x00, 0x20, 0x00])] with sr := 0x0 }
    (fun t => t.pc == 0x2000 && t.isp == 0x3FF8 && t.sr == 0x2000 && t.load 5 0x3FF8 8 == [0x00, 0x00, 0x00, 0x00, 0x10, 0x00, 0x00, 0x20]) = true := by decide

theorem test_moveToSr_1 : gives { given [0x46, 0xFC, 0x00, 0x00] [] [] [] with usp := 0x5000 }
    (fun t => t.sr == 0x0 && t.isp == 0x4000 && t.usp == 0x5000) = true := by decide

theorem test_andiToSr_1 : gives { given [0x02, 0x7C, 0xF8, 0xFF] [] [] [] with sr := 0x2704 }
    (fun t => t.sr == 0x2004) = true := by decide

theorem test_oriToSr_1 : gives { given [0x00, 0x7C, 0x07, 0x00] [] [] [] with sr := 0x2000 }
    (fun t => t.sr == 0x2700) = true := by decide

theorem test_eoriToSr_1 : gives { given [0x0A, 0x7C, 0x20, 0x00] [] [] [] with sr := 0x2000 }
    (fun t => t.sr == 0x0) = true := by decide

theorem test_moveToSr_2 : gives (given [0x46, 0xFC, 0xFF, 0xFF] [] [] [])
    (fun t => t.sr == 0xF71F) = true := by decide

theorem test_moveFromCcr_1 : gives { given [0x42, 0xC0] [0xFFFFFFFF] [] [] with sr := 0x271F }
    (fun t => t.dreg 0 == 0xFFFF001F) = true := by decide

theorem test_moveToCcr_1 : gives (given [0x44, 0xFC, 0x00, 0x1F] [] [] [])
    (fun t => t.sr == 0x271F) = true := by decide

theorem test_andiToCcr_1 : gives { given [0x02, 0x3C, 0x00, 0xEF] [] [] [] with sr := 0x271F }
    (fun t => t.sr == 0x270F) = true := by decide

theorem test_oriToCcr_1 : gives (given [0x00, 0x3C, 0x00, 0x10] [] [] [])
    (fun t => t.sr == 0x2710) = true := by decide

theorem test_eoriToCcr_1 : gives { given [0x0A, 0x3C, 0x00, 0x01] [] [] [] with sr := 0x2701 }
    (fun t => t.sr == 0x2700) = true := by decide

theorem test_moveUsp_1 : gives (given [0x4E, 0x60] [] [0x5000] [])
    (fun t => t.usp == 0x5000) = true := by decide

theorem test_moveUsp_2 : gives { given [0x4E, 0x68] [] [] [] with usp := 0x5000 }
    (fun t => t.areg 0 == 0x5000) = true := by decide

theorem test_movec_1 : gives (given [0x4E, 0x7B, 0x08, 0x01] [0x10000] [] [])
    (fun t => t.vbr == 0x10000) = true := by decide

theorem test_movec_2 : gives { given [0x4E, 0x7A, 0x08, 0x01] [] [] [] with vbr := 0x10000 }
    (fun t => t.dreg 0 == 0x10000) = true := by decide

theorem test_moves_1 : gives { given [0x0E, 0x90, 0x08, 0x00] [0xCAFEF00D] [0x2000] [] with dfc := 0x1 }
    (fun t => t.load 5 0x2000 4 == [0xCA, 0xFE, 0xF0, 0x0D]) = true := by decide

theorem test_trap_1 : gives (given [0x4E, 0x43] [] [] [(0x8C, [0x00, 0x00, 0x20, 0x00])])
    (fun t => t.pc == 0x2000 && t.isp == 0x3FF8 && t.load 5 0x3FF8 8 == [0x27, 0x00, 0x00, 0x00, 0x10, 0x02, 0x00, 0x8C]) = true := by decide

theorem test_trapv_1 : gives (given [0x4E, 0x76] [] [] [])
    (fun t => t.pc == 0x1002) = true := by decide

theorem test_trapv_2 : gives { given [0x4E, 0x76] [] [] [(0x1C, [0x00, 0x00, 0x20, 0x00])] with sr := 0x2702 }
    (fun t => t.pc == 0x2000 && t.isp == 0x3FF4 && t.load 5 0x3FF4 12 == [0x27, 0x02, 0x00, 0x00, 0x10, 0x02, 0x20, 0x1C, 0x00, 0x00, 0x10, 0x00]) = true := by decide

theorem test_trapcc_1 : gives (given [0x50, 0xFA, 0x12, 0x34] [] [] [(0x1C, [0x00, 0x00, 0x20, 0x00])])
    (fun t => t.pc == 0x2000 && t.load 5 0x3FF6 4 == [0x00, 0x00, 0x10, 0x04] && t.load 5 0x3FFC 4 == [0x00, 0x00, 0x10, 0x00]) = true := by decide

theorem test_trapcc_2 : gives (given [0x51, 0xFC] [] [] [])
    (fun t => t.pc == 0x1002) = true := by decide

theorem test_chk_1 : gives (given [0x41, 0x81] [0x5, 0xA] [] [])
    (fun t => t.pc == 0x1002) = true := by decide

theorem test_illegal_1 : gives (given [0x4A, 0xFC] [] [] [(0x10, [0x00, 0x00, 0x20, 0x00])])
    (fun t => t.pc == 0x2000 && t.load 5 0x3FF8 8 == [0x27, 0x00, 0x00, 0x00, 0x10, 0x00, 0x00, 0x10]) = true := by decide

theorem test_bkpt_1 : gives (given [0x48, 0x48] [] [] [(0x10, [0x00, 0x00, 0x20, 0x00])])
    (fun t => t.pc == 0x2000 && t.load 5 0x3FF8 8 == [0x27, 0x00, 0x00, 0x00, 0x10, 0x00, 0x00, 0x10]) = true := by decide

theorem test_stop_1 : gives (given [0x4E, 0x72, 0x20, 0x00] [] [] [])
    (fun t => t.sr == 0x2000 && t.pc == 0x1004 && t.run == .stopped) = true := by decide

theorem test_reset_1 : gives (given [0x4E, 0x70] [] [] [])
    (fun t => t.pc == 0x1002) = true := by decide

theorem test_rte_1 : gives { given [0x4E, 0x73] [] [] [(0x3FF8, [0x00, 0x00, 0x00, 0x00, 0x10, 0x02, 0x00, 0x80])] with isp := 0x3FF8, usp := 0x8000 }
    (fun t => t.sr == 0x0 && t.pc == 0x1002 && t.isp == 0x4000) = true := by decide

theorem test_tas_1 : gives (given [0x4A, 0xD0] [] [0x2000] [])
    (fun t => t.load 5 0x2000 1 == [0x80] && t.sr &&& 0x1F == 0x04) = true := by decide

theorem test_tas_2 : gives (given [0x4A, 0xD0] [] [0x2000] [(0x2000, [0x80])])
    (fun t => t.load 5 0x2000 1 == [0x80] && t.sr &&& 0x1F == 0x08) = true := by decide

theorem test_cas_1 : gives (given [0x0E, 0xD0, 0x00, 0x40] [0x5, 0x9] [0x2000] [(0x2000, [0x00, 0x00, 0x00, 0x05])])
    (fun t => t.load 5 0x2000 4 == [0x00, 0x00, 0x00, 0x09] && t.sr &&& 0x1F == 0x04) = true := by decide

theorem test_cas_2 : gives (given [0x0E, 0xD0, 0x00, 0x40] [0x5, 0x9] [0x2000] [(0x2000, [0x00, 0x00, 0x00, 0x06])])
    (fun t => t.dreg 0 == 0x6 && t.load 5 0x2000 4 == [0x00, 0x00, 0x00, 0x06] && t.sr &&& 0x1F == 0x00) = true := by decide

theorem test_cas2_1 : gives (given [0x0E, 0xFC, 0x80, 0x80, 0x90, 0xC1] [0x1, 0x2, 0x7, 0x8] [0x2000, 0x3000] [(0x2000, [0x00, 0x00, 0x00, 0x01]), (0x3000, [0x00, 0x00, 0x00, 0x02])])
    (fun t => t.load 5 0x2000 4 == [0x00, 0x00, 0x00, 0x07] && t.load 5 0x3000 4 == [0x00, 0x00, 0x00, 0x08] && t.sr &&& 0x1F == 0x04) = true := by decide

theorem test_cas2_2 : gives (given [0x0E, 0xFC, 0x80, 0x80, 0x90, 0xC1] [0x1, 0x2, 0x7, 0x8] [0x2000, 0x3000] [(0x2000, [0x00, 0x00, 0x00, 0x01]), (0x3000, [0x00, 0x00, 0x00, 0x03])])
    (fun t => t.load 5 0x2000 4 == [0x00, 0x00, 0x00, 0x01] && t.load 5 0x3000 4 == [0x00, 0x00, 0x00, 0x03] && t.dreg 0 == 0x1 && t.dreg 1 == 0x3 && t.sr &&& 0x1F == 0x00) = true := by decide

theorem test_aLine_1 : gives (given [0xA0, 0x00] [] [] [(0x28, [0x00, 0x00, 0x20, 0x00])])
    (fun t => t.pc == 0x2000 && t.load 5 0x3FF8 8 == [0x27, 0x00, 0x00, 0x00, 0x10, 0x00, 0x00, 0x28]) = true := by decide

theorem test_cpGen_1 : gives (given [0xF2, 0x00] [] [] [(0x2C, [0x00, 0x00, 0x20, 0x00])])
    (fun t => t.pc == 0x2000 && t.load 5 0x3FF8 8 == [0x27, 0x00, 0x00, 0x00, 0x10, 0x00, 0x00, 0x2C]) = true := by decide

theorem test_fLine_1 : gives { given [0xF3, 0x40] [] [] [(0x20, [0x00, 0x00, 0x20, 0x00])] with sr := 0x0 }
    (fun t => t.pc == 0x2000 && t.isp == 0x3FF8 && t.load 5 0x3FF8 8 == [0x00, 0x00, 0x00, 0x00, 0x10, 0x00, 0x00, 0x20]) = true := by decide

theorem test_fLine_2 : gives { given [0xF1, 0x40] [] [] [(0x2C, [0x00, 0x00, 0x20, 0x00])] with sr := 0x0 }
    (fun t => t.pc == 0x2000 && t.isp == 0x3FF8 && t.load 5 0x3FF8 8 == [0x00, 0x00, 0x00, 0x00, 0x10, 0x00, 0x00, 0x2C]) = true := by decide

theorem test_boundary_1 : gives { given [0x4E, 0x71] [] [] [(0x24, [0x00, 0x00, 0x20, 0x00])] with sr := 0xA700 }
    (fun t => t.pc == 0x2000 && t.isp == 0x3FF4 && t.load 5 0x3FF4 12 == [0xA7, 0x00, 0x00, 0x00, 0x10, 0x02, 0x20, 0x24, 0x00, 0x00, 0x10, 0x00] && t.sr == 0x2700) = true := by decide

theorem test_stop_2 : gives { given [0x4E, 0x72, 0x27, 0x00] [] [] [(0x20, [0x00, 0x00, 0x20, 0x00])] with sr := 0x0 }
    (fun t => t.load 5 0x3FF8 8 == [0x00, 0x00, 0x00, 0x00, 0x10, 0x00, 0x00, 0x20] && t.sr == 0x2000) = true := by decide

theorem test_boundary_2 : gives { given [0x4E, 0x71] [] [] [(0x74, [0x00, 0x00, 0x20, 0x00])] with sr := 0x2000, inputs := [⟨false, 5, .autovector⟩] }
    (fun t => t.pc == 0x2000 && t.load 5 0x3FF8 8 == [0x20, 0x00, 0x00, 0x00, 0x10, 0x00, 0x00, 0x74] && t.sr == 0x2500) = true := by decide

theorem test_boundary_3 : gives { given [0x4E, 0x71] [] [] [(0x74, [0x00, 0x00, 0x20, 0x00])] with sr := 0x3000, inputs := [⟨false, 5, .autovector⟩], msp := 0x6000 }
    (fun t => t.pc == 0x2000 && t.load 5 0x5FF8 8 == [0x30, 0x00, 0x00, 0x00, 0x10, 0x00, 0x00, 0x74] && t.load 5 0x3FF8 8 == [0x35, 0x00, 0x00, 0x00, 0x10, 0x00, 0x10, 0x74] && t.sr == 0x2500 && t.msp == 0x5FF8 && t.isp == 0x3FF8) = true := by decide

theorem test_stop_traced_1 : gives { given [0x4E, 0x72, 0x20, 0x00] [] [] [(0x24, [0x00, 0x00, 0x30, 0x00])] with sr := 0xA700 }
    (fun t => t.pc == 0x3000 && t.isp == 0x3FF4 && t.load 5 0x3FF4 12 == [0x20, 0x00, 0x00, 0x00, 0x10, 0x04, 0x20, 0x24, 0x00, 0x00, 0x10, 0x00] && t.sr == 0x2000 && t.run == .normal) = true := by decide

theorem test_callm_1 : gives (given [0x06, 0xD0, 0x00, 0x00] [] [0x2000, 0, 0, 0, 0, 0x12345678] [(0x2000, [0x00, 0x00, 0x00, 0x00, 0x00, 0x00, 0x30, 0x00, 0x0B, 0xAD, 0xF0, 0x0D]), (0x3000, [0xD0, 0x00, 0x4E, 0x71])])
    (fun t => t.pc == 0x3002 && t.isp == 0x3FE8) = true := by decide +kernel

theorem test_rtm_1 : gives { given [0x06, 0xC0] [] [] [(0x3FE8, [0x00, 0x00, 0x00, 0x1F, 0x00, 0x04, 0x00, 0x00, 0x00, 0x00, 0x20, 0x00, 0x00, 0x00, 0x10, 0x04, 0x12, 0x34, 0x56, 0x78, 0x00, 0x00, 0x40, 0x00])] with isp := 0x3FE8 }
    (fun t => t.dreg 0 == 0x12345678 && t.pc == 0x1004 && t.isp == 0x4004 && t.sr == 0x271F) = true := by decide

theorem test_linkL_1 : gives { given [0x48, 0x0E, 0xFF, 0xFF, 0xFF, 0xF8] [] [0, 0, 0, 0, 0, 0, 0xAAAA0000] [] with isp := 0x2000 }
    (fun t => t.load 5 0x1FFC 4 == [0xAA, 0xAA, 0x00, 0x00] && t.areg 6 == 0x1FFC && t.isp == 0x1FF4 && t.pc == 0x1006) = true := by decide

theorem test_addToEa_1 : gives (given [0xD1, 0x50] [0x1] [0x2000] [(0x2000, [0xFF, 0xFF])])
    (fun t => t.load 5 0x2000 2 == [0x00, 0x00] && t.sr &&& 0x1F == 0x15) = true := by decide

theorem test_subToEa_1 : gives (given [0x91, 0x50] [0x1] [0x2000] [])
    (fun t => t.load 5 0x2000 2 == [0xFF, 0xFF] && t.sr &&& 0x1F == 0x19) = true := by decide

theorem test_orToEa_1 : gives (given [0x81, 0x10] [0xF] [0x2000] [(0x2000, [0xF0])])
    (fun t => t.load 5 0x2000 1 == [0xFF] && t.sr &&& 0x1F == 0x08) = true := by decide

theorem test_andToEa_1 : gives (given [0xC1, 0x10] [0xF] [0x2000] [(0x2000, [0xF3])])
    (fun t => t.load 5 0x2000 1 == [0x03] && t.sr &&& 0x1F == 0x00) = true := by decide

theorem test_asrMem_1 : gives (given [0xE0, 0xD0] [] [0x2000] [(0x2000, [0x80, 0x01])])
    (fun t => t.load 5 0x2000 2 == [0xC0, 0x00] && t.sr &&& 0x1F == 0x19) = true := by decide

theorem test_lslMem_1 : gives (given [0xE3, 0xD0] [] [0x2000] [(0x2000, [0x80, 0x00])])
    (fun t => t.load 5 0x2000 2 == [0x00, 0x00] && t.sr &&& 0x1F == 0x15) = true := by decide

theorem test_rolMem_1 : gives (given [0xE7, 0xD0] [] [0x2000] [(0x2000, [0x80, 0x01])])
    (fun t => t.load 5 0x2000 2 == [0x00, 0x03] && t.sr &&& 0x1F == 0x01) = true := by decide

theorem test_rorMem_1 : gives (given [0xE6, 0xD0] [] [0x2000] [(0x2000, [0x00, 0x01])])
    (fun t => t.load 5 0x2000 2 == [0x80, 0x00] && t.sr &&& 0x1F == 0x09) = true := by decide

theorem test_roxlMem_1 : gives { given [0xE5, 0xD0] [] [0x2000] [] with sr := 0x2710 }
    (fun t => t.load 5 0x2000 2 == [0x00, 0x01] && t.sr &&& 0x1F == 0x00) = true := by decide

theorem test_roxrMem_1 : gives { given [0xE4, 0xD0] [] [0x2000] [] with sr := 0x2710 }
    (fun t => t.load 5 0x2000 2 == [0x80, 0x00] && t.sr &&& 0x1F == 0x08) = true := by decide

theorem test_bchgImm_1 : gives (given [0x08, 0x50, 0x00, 0x01] [] [0x2000] [])
    (fun t => t.load 5 0x2000 1 == [0x02] && t.sr &&& 0x1F == 0x04) = true := by decide

theorem test_bclrDyn_1 : gives (given [0x03, 0x80] [0x1, 0x20] [] [])
    (fun t => t.dreg 0 == 0x0 && t.sr &&& 0x1F == 0x00) = true := by decide

theorem test_bsetImm_1 : gives (given [0x08, 0xC0, 0x00, 0x03] [] [] [])
    (fun t => t.dreg 0 == 0x8 && t.sr &&& 0x1F == 0x04) = true := by decide

theorem test_cpScc_1 : gives (given [0xF2, 0x40] [] [] [(0x2C, [0x00, 0x00, 0x20, 0x00])])
    (fun t => t.pc == 0x2000 && t.load 5 0x3FF8 8 == [0x27, 0x00, 0x00, 0x00, 0x10, 0x00, 0x00, 0x2C]) = true := by decide

theorem test_cpDbcc_1 : gives (given [0xF2, 0x48] [] [] [(0x2C, [0x00, 0x00, 0x20, 0x00])])
    (fun t => t.pc == 0x2000 && t.load 5 0x3FF8 8 == [0x27, 0x00, 0x00, 0x00, 0x10, 0x00, 0x00, 0x2C]) = true := by decide

theorem test_cpTrapcc_1 : gives (given [0xF2, 0x7C] [] [] [(0x2C, [0x00, 0x00, 0x20, 0x00])])
    (fun t => t.pc == 0x2000 && t.load 5 0x3FF8 8 == [0x27, 0x00, 0x00, 0x00, 0x10, 0x00, 0x00, 0x2C]) = true := by decide

theorem test_cpBcc_1 : gives (given [0xF2, 0x80] [] [] [(0x2C, [0x00, 0x00, 0x20, 0x00])])
    (fun t => t.pc == 0x2000 && t.load 5 0x3FF8 8 == [0x27, 0x00, 0x00, 0x00, 0x10, 0x00, 0x00, 0x2C]) = true := by decide

theorem test_cpSave_1 : gives (given [0xF3, 0x10] [] [] [(0x2C, [0x00, 0x00, 0x20, 0x00])])
    (fun t => t.pc == 0x2000 && t.load 5 0x3FF8 8 == [0x27, 0x00, 0x00, 0x00, 0x10, 0x00, 0x00, 0x2C]) = true := by decide

theorem test_cpRestore_1 : gives (given [0xF3, 0x50] [] [] [(0x2C, [0x00, 0x00, 0x20, 0x00])])
    (fun t => t.pc == 0x2000 && t.load 5 0x3FF8 8 == [0x27, 0x00, 0x00, 0x00, 0x10, 0x00, 0x00, 0x2C]) = true := by decide

theorem test_chk2_1 : gives (given [0x02, 0xD0, 0x08, 0x00] [0xA] [0x2000] [(0x2000, [0x00, 0x0A, 0x00, 0x14])])
    (fun t => t.pc == 0x1004) = true := by decide

theorem test_withFetchWord : gives (State.reset.withFetchWord 16 0x7005) (fun t => t.dreg 0 == 5 && t.pc == 2) = true := by
  decide

/-! ## The parts of a result that stand beside a free value (R241, R340, R540) -/

theorem test_cmp2_bounds :
    boundsOrdered .w 0x000A 0x0014 = true ∧ inBounds .w 0x000A 0x0014 0x0014 = true ∧
    inBounds .w 0x000A 0x0014 0x0015 = false ∧ boundsOrdered .w 0x8000 0x7FFF = true ∧
    inBounds .w 0xFFF0 0x0010 0x0000 = true ∧ inBounds .w 0xFFF0 0x0010 0x0011 = false := by decide

theorem test_decimal_carry :
    abcdOut 0x19 0x28 false = (0x47, false) ∧ abcdOut 0x01 0x99 false = (0, true) ∧
    sbcdOut 0x01 0x20 false = (0x19, false) ∧ sbcdOut 0x01 0 false = (0x99, true) := by decide

theorem test_module_word :
    moduleWordOk 0x0000 = true ∧ moduleWordOk 0x8100 = true ∧ moduleWordOk 0x2000 = false ∧
    moduleWordOk 0x0200 = false := by decide

/-! ## Witnesses: states and operands that meet the hypotheses of each obligation, clause by clause -/

/-- Supervisor state, NOP at $1000, D0 = 5, A0 = $2000, some data. -/
def w0 : State :=
  given [0x4E, 0x71] [5, 7, 3] [0x2000, 0x2010, 0x2020] [(0x2000, [0, 0, 0, 5, 0, 0, 0, 9])]
/-- The same in user state. -/
def wUser : State := { w0 with sr := 0 }
/-- The same where the addresses $5000 to $5FFF end in bus errors. -/
def wHole : State :=
  { w0 with platform := { Platform.default with holes := [⟨0x5000, 0x5FFF, 0xFF, 0xF, true, true, false⟩] } }

/-- The longest instruction, eleven words (R110). -/
theorem witness_DecodeOfEncode :
    (Instr.move .l (.indexed 0 (.full ⟨⟨true, 7⟩, true, 3⟩ false false (.long 1) (.post (.long 2))))
      (.indexed 1 (.full ⟨⟨false, 7⟩, false, 0⟩ true true (.long 1) (.pre (.long 2))))).wf = true := by decide

theorem witness_ReservedFullExtension :
    (0x0118#16).getLsbD 8 = true ∧ (0x0118#16).getLsbD 3 = true ∧
    (0x0100#16).getLsbD 8 = true ∧ (0x0100#16).extractLsb' 4 2 = 0#2 ∧
    (0x0114#16).getLsbD 8 = true ∧ (0x0114#16).getLsbD 6 = false ∧ (0x0114#16).extractLsb' 0 3 = 4#3 ∧
    (0x0154#16).getLsbD 8 = true ∧ (0x0154#16).getLsbD 6 = true ∧ (0x0154#16).getLsbD 2 = true := by decide

theorem witness_StepRunsInstruction :
    w0.ready ∧ decode (w0.sample.fetchWords w0.pc maxWords) = .instr .nop 1 :=
  ⟨⟨rfl, rfl, rfl, rfl⟩, by decide⟩

/-- The cache on, with the entry of $1000 held and other entries not. -/
def wCache : State :=
  { w0 with cacr := 1, cache := (Vector.replicate 64 none).set 0 (some ⟨true, 0x10, 0x12345678⟩) }

/-- Cache off, hit, miss, frozen, unreadable, with an old word in the pipe, and a word ahead that changed. -/
theorem witness_FetchReadsMemory :
    ((0x1002#32).getLsbD 0 = false ∧ w0.pipe = [] ∧ w0.cacr.getLsbD 0 = false ∧
      w0.readable w0.progSpace (0x1002 &&& 0xFFFFFFFC) 4) ∧
    (wCache.pipe = [] ∧ wCache.cacr.getLsbD 0 = true ∧ wCache.readable wCache.progSpace (0x1002 &&& 0xFFFFFFFC) 4 ∧
      (∃ l, wCache.cache[(0x1002#32).toNat / 4 % 64] = some l ∧
        l.fc2 = wCache.progSpace.getLsbD 2 ∧ l.tag = (0x1002#32).extractLsb' 8 24) ∧
      wCache.cache[(0x1004#32).toNat / 4 % 64] = none ∧ wCache.cacr.getLsbD 1 = false) ∧
    ({ wHole with cacr := 3 } : State).firstFault wHole.progSpace false (0x5000 &&& 0xFFFFFFFC) 4 = some (0, false) ∧
    (∃ w, ({ w0 with pipe := [(0x2000, 1)] } : State).fetchWord 0x1000 = .word w) ∧
    (let t := ({ w0 with pc := 0x1002 } : State).store 6 0x1004 [1];
      t.progSpace = w0.progSpace ∧ t.platform = w0.platform ∧ w0.readable 6 ((0x1004#32) &&& 0xFFFFFFFC) 4 ∧
        w0.byte 6 0x1004 ++ w0.byte 6 (0x1004 + 1) ≠ t.byte 6 0x1004 ++ t.byte 6 (0x1004 + 1) ∧
        (0x1004 - t.pc).toNat < 16) := by
  refine ⟨⟨rfl, rfl, rfl, rfl⟩, ⟨rfl, rfl, rfl, ⟨_, rfl, rfl, rfl⟩, rfl, rfl⟩, by decide, ⟨0x4E71, by decide⟩, rfl, rfl, rfl, ?_⟩
  decide

/-- $4ABD is no instruction. -/
def wIllegal : State := given [0x4A, 0xBD] [] [] []
/-- MOVES with a nonzero reserved bit, in user state. -/
def wViolation : State := { given [0x0E, 0x90, 0x00, 0x01] [] [] [] with sr := 0 }

theorem witness_StepTakesIllegal :
    (wIllegal.ready ∧ decode (wIllegal.sample.fetchWords wIllegal.pc maxWords) = .none .illegal ∧
      wIllegal.sample.violates (wIllegal.sample.fetchWords wIllegal.pc maxWords) = false) ∧
    (wViolation.ready ∧
      decode (wViolation.sample.fetchWords wViolation.pc maxWords) = .none (.reserved .extensionBits) ∧
      wViolation.sample.violates (wViolation.sample.fetchWords wViolation.pc maxWords) = true) :=
  ⟨⟨⟨rfl, rfl, rfl, rfl⟩, by decide, by decide⟩, ⟨rfl, rfl, rfl, rfl⟩, by decide, by decide⟩

theorem witness_PrivilegedInUserMode : wUser.sBit = false ∧ (1 : Reg) ≠ 0 := by decide

/-- Vectors 0 and 255, the four- and six-word frames, and both frames of a format error. -/
theorem witness_ExceptionFrame :
    (w0.mem.wf = true ∧ w0.canEnter 0 8 ∧ w0.canEnter 255 8 ∧ w0.canEnter 0 12 ∧ w0.canEnter 255 12 ∧
      w0.inRam supervisorData (0x4000 - 12) 12) ∧
    (w0.platform.formatErrorShort = true ∧ w0.canEnter 14 32 ∧ w0.inRam supervisorData (0x4000 - 32) 32) ∧
    ({ w0 with platform := { Platform.default with formatErrorShort := false } } : State).canEnter 14 8 :=
  ⟨⟨by decide, ⟨rfl, rfl⟩, ⟨rfl, rfl⟩, ⟨rfl, rfl⟩, ⟨rfl, rfl⟩, rfl⟩, ⟨rfl, ⟨rfl, rfl⟩, rfl⟩, rfl, rfl⟩

/-- Both frames, in RAM and clear of vectors 2 and 3, with an even and an odd handler address. -/
theorem witness_BusFaultEntry :
    w0.mem.wf = true ∧ w0.writable supervisorData (0x4000 - 92) 92 ∧ w0.writable supervisorData (0x4000 - 32) 32 ∧
    w0.readable supervisorData 8 4 ∧ w0.inRam supervisorData (0x4000 - 92) 92 ∧
    (∀ k < 4, 92 ≤ ((8 : Long) + BitVec.ofNat 32 k - (0x4000 - 92)).toNat) ∧
    (w0.longAt supervisorData 8).getLsbD 0 = false ∧
    ((w0.store 5 11 [1]).longAt supervisorData 8).getLsbD 0 = true :=
  ⟨by decide, rfl, rfl, rfl, rfl, by decide, by decide, by decide⟩

/-- The entry of `w0` goes on: its last clause speaks of it. -/
theorem witness_BusFaultEntry_runs (f : BusFault) (long : Bool) (pc : Long) :
    (w0.enterFault 2 long pc f).run ≠ .halted := by
  have hlen := faultFrame_length w0.draws 2 long w0.platform.cpuVersion w0.sr pc f
  have hf : ∀ (s : State) fc w a n, s.platform = Platform.default → fc ≠ cpuSpace → s.firstFault fc w a n = none := by
    intro s fc w a n hs hfc
    simp [State.firstFault, State.byteEnd, State.badEnd, State.area, hs, Platform.default, hfc]
  have hd : ∀ (s : State) fc a n, s.platform = Platform.default → s.onDevice fc a n = false := by
    intro s fc a n hs
    simp [State.onDevice, State.area, hs, Platform.default]
  unfold State.enterFault
  dsimp only
  rw [hf _ _ _ _ _ rfl (by decide)]
  dsimp only
  have hp : ∀ a bs, ((w0.beginException.setSp a).store supervisorData a bs).platform = Platform.default :=
    fun a bs => by simp only [State.store_platform, State.setSp_platform]; rfl
  have hv : ∀ a bs, ((w0.beginException.setSp a).store supervisorData a bs).vectorAddr 2 = 8 := by
    intro a bs
    rw [State.vectorAddr, State.store_vbr, State.setSp_vbr]
    decide
  have hl : ∀ a bs, (∀ k < 4, bs.length ≤ ((8 : Long) + BitVec.ofNat 32 k - a).toNat) →
      ((w0.beginException.setSp a).store supervisorData a bs).load supervisorData 8 4 = [0, 0, 0, 0] := by
    intro a bs h
    rw [State.load_store_of_ne (by rw [State.setSp_mem]; decide) h]
    rw [State.load_congr (s := w0) (by rw [State.setSp_platform]; rfl)
      (by rw [State.setSp_mem]; simp only [State.beginException])]
    decide
  have ho : ∀ a bs, (∀ k < 4, bs.length ≤ ((8 : Long) + BitVec.ofNat 32 k - a).toNat) →
      loadVector 2 ((w0.beginException.setSp a).store supervisorData a bs) =
        .ok () { (w0.beginException.setSp a).store supervisorData a bs with pc := 0 } := by
    intro a bs h
    unfold loadVector
    rw [M.get_bind, hv, M.bind_ok (busRead_ok (State.readable_iff.mpr
      ⟨hf _ _ _ _ _ (hp a bs) (by decide), hd _ _ _ _ (hp a bs)⟩)), hl a bs h]
    rfl
  rw [ho _ _ (fun k hk => ?_)]
  · dsimp only
    rw [if_neg (by decide)]
    simp only [State.used_run, State.store_run, State.setSp_run, State.beginException]
    decide
  · rw [hlen, show w0.beginException.sp = 0x4000 from rfl]
    cases long <;> (interval_cases k <;> decide)

/-- A supervisor stack whose frame falls in a hole; one whose cycles never end. -/
theorem witness_BusFaultEntry_halt :
    ({ wHole with isp := 0x5010 } : State).mem.wf = true ∧
    ({ wHole with isp := 0x5010 } : State).firstFault supervisorData true (0x5010 - 32) 32 ≠ none ∧
    (∀ h ∈ wHole.platform.holes, h.never = false) := by decide

/-- An operand in a hole; a store of MOVE to it; an odd store that crosses into it; the second register of a
MOVEM there; an instruction whose second word is there. -/
theorem witness_OperandBusError :
    (∃ f t, readEa .l 0 (.postinc 0) { wHole with a := #v[0x5000, 0, 0, 0, 0, 0, 0] } =
      .error (.bus f [] false) t) ∧
    (∃ v u f t, readEa .l 0 (.postinc 0) wHole = .ok v u ∧
      writeEa .l 0 (.absL 0x5000) v (u.setCc (valueCc .l v u.cc)) = .error (.bus f [] false) t) ∧
    (∃ f t, writeMem false 5 0x4FFE .l 7 wHole = .error (.bus f [] false) t) ∧
    (∃ v f t, readMem false 5 0x4FFC .l wHole = .ok v wHole ∧
      readMem false 5 (0x4FFC + 4) .l wHole = .error (.bus f [] false) t) ∧
    (let s := ({ wHole with pc := 0x4FFE } : State).store 6 0x4FFE [0x0C, 0x40];
      s.ready ∧ decode (s.sample.fetchWords s.pc maxWords) = .none .short ∧
        s.sample.violates (s.sample.fetchWords s.pc maxWords) = false ∧
        (s.sample.fetchWords s.pc maxWords).length < maxWords) := by
  refine ⟨⟨_, _, rfl⟩, ⟨_, _, _, _, rfl, rfl⟩, ⟨_, _, rfl⟩, ⟨_, _, _, rfl, rfl⟩, ⟨rfl, rfl, rfl, rfl⟩, ?_, ?_, ?_⟩ <;> decide

/-- The addresses $5000 to $5FFF, which can be read and not written. -/
def wNoWrite : State :=
  { w0 with
    d := #v[0, 1, 2, 0, 0, 0, 0, 0], a := #v[0x4FF8, 0x4FFC, 0x5000, 0, 0, 0, 0]
    platform := { Platform.default with holes := [⟨0x5000, 0x5FFF, 0xFF, 0xF, false, true, false⟩] } }

/-- MOVEM with the register it loads from in the mask, A1 after D0; reads and writes that fail in TAS, CAS and
CAS2, the second write of CAS2 after the first among them. -/
theorem witness_OperandBusError_more :
    ((0x0201#16).getLsbD 0 = true ∧ (0x0201#16).getLsbD 9 = true ∧
      wHole.readable (wHole.eaSpace (.postinc 1)) 0x4FFC 4 ∧
      ∃ f t, readMem false 5 (0x4FFC + 4) .l wHole = .error (.bus f [] false) t) ∧
    (∃ m f t, memAddr .b 0 (.absL 0x5000) wHole = .ok 0x5000 m ∧
      readMem true m.dataSpace 0x5000 .b m = .error (.bus f [] false) t) ∧
    (∃ m v w f t, memAddr .b 0 (.ind 2) wNoWrite = .ok 0x5000 m ∧ readMem true m.dataSpace 0x5000 .b m = .ok v w ∧
      writeMem true m.dataSpace 0x5000 .b (v ||| 0x80) w = .error (.bus f [] false) t) ∧
    (∃ m w f t, memAddr .l 1 (.ind 2) wNoWrite = .ok 0x5000 m ∧
      readMem true m.dataSpace 0x5000 .l m = .ok (trunc .l (m.dreg 0)) w ∧
      writeMem true m.dataSpace 0x5000 .l (m.dreg 1) w = .error (.bus f [] false) t) ∧
    ∃ w x y f t, readMem true 5 0x4FFC .l wNoWrite = .ok (trunc .l (wNoWrite.dreg 0)) w ∧
      readMem true 5 0x5000 .l w = .ok (trunc .l (wNoWrite.dreg 3)) x ∧
      writeMem true 5 0x4FFC .l 1 x = .ok () y ∧ writeMem true 5 0x5000 .l 2 y = .error (.bus f [] false) t :=
  ⟨⟨by decide, by decide, rfl, _, _, rfl⟩, ⟨_, _, _, rfl, rfl⟩, ⟨_, _, _, _, _, rfl, rfl, rfl⟩,
    ⟨_, _, _, _, rfl, rfl, rfl⟩, _, _, _, _, _, rfl, rfl, rfl, rfl⟩

/-- The first CIR access is one the register map of R84 allows. -/
theorem test_first_cir_access :
    (∀ t : Reg, if (firstCir t).2 then (firstCir t).1.writes = true else (firstCir t).1.reads = true) ∧
    Cir.control.width = 16 ∧ Cir.control.usedBits = 2 ∧ Cir.operand.width = 32 := by decide

/-- Every row of R83's table: the address of a cycle has the cycle's type and field. -/
theorem test_cpu_space_addresses :
    (∀ n, cpuCycle (breakpointAddress n) = some (.breakpoint n)) ∧
    (∀ o, cpuCycle (accessLevelAddress o) = some (.accessLevel o)) ∧
    (∀ c, cpuCycle (cirAddress c .operandAddress) = some (.coprocessor c 0x1C)) ∧
    (∀ l, cpuCycle (acknowledgeAddress l) = some (.interrupt l)) ∧
    accessLevelAddress 0x7F = 0x0001007F ∧ cpuCycle 0x00030000 = none := by decide

theorem witness_HaltedAndStopped :
    (({ w0 with run := .halted } : State).input.reset = false ∧ ({ w0 with run := .hung } : State).input.reset = false) ∧
    (({ w0 with run := .stopped, sr := 0x2600, inputs := [⟨false, 7, .autovector⟩] } : State).input.reset = false ∧
      ({ w0 with run := .stopped, sr := 0x2600, inputs := [⟨false, 7, .autovector⟩] } : State).sample.recognised =
        true) ∧
    ({ w0 with run := .stopped } : State).sample.recognised = false := by decide

/-- An odd PC, with an even and an odd handler address. -/
theorem witness_OddPcAddressError :
    (w0.mem.wf = true ∧ (w0.writable supervisorData (0x4000 - 32) 32 ∧ w0.writable supervisorData (0x4000 - 92) 92 ∧
        w0.inRam supervisorData (0x4000 - 92) 92) ∧ w0.readable supervisorData (w0.vbr + 12) 4 ∧
      (∀ k < 4, 92 ≤ (w0.vbr + 12 + BitVec.ofNat 32 k - (0x4000 - 92)).toNat) ∧
      ({ w0 with pc := 0x1001 } : State).pc.getLsbD 0 = true ∧
      (w0.longAt supervisorData (w0.vbr + 12)).getLsbD 0 = false) ∧
    ((w0.store 5 15 [1]).longAt supervisorData (w0.vbr + 12)).getLsbD 0 = true :=
  ⟨⟨by decide, ⟨rfl, rfl, rfl⟩, rfl, by decide, by decide, by decide⟩, by decide⟩

/-- Level 1 above mask 0, and a change to level 7 under mask 7. -/
theorem witness_InterruptTaken :
    (({ w0 with sr := 0x2000, inputs := [⟨false, 1, .autovector⟩] } : State).input.reset = false ∧
      ({ w0 with sr := 0x2000, inputs := [⟨false, 1, .autovector⟩] } : State).pc.getLsbD 0 = false ∧
      ({ w0 with sr := 0x2000, inputs := [⟨false, 1, .autovector⟩] } : State).sample.recognised = true) ∧
    ({ w0 with inputs := [⟨false, 7, .vector 0x40⟩] } : State).sample.recognised = true ∧
    ({ w0 with sr := 0x2100, inputs := [⟨false, 1, .autovector⟩] } : State).sample.recognised = false := by decide

/-- With M = 1 the two frames may touch: the stack pointers are 8 apart. -/
theorem witness_InterruptFrames :
    (w0.mem.wf = true ∧ w0.mBit = false ∧ w0.readable supervisorData (w0.vbr + BitVec.ofNat 32 (4 * 24)) 4 ∧
      w0.writable supervisorData (w0.isp - 8) 8 ∧ w0.inRam supervisorData (w0.isp - 8) 8) ∧
    (({ w0 with sr := 0x3000, msp := 0x3FF8 } : State).mBit = true ∧
      ({ w0 with sr := 0x3000, msp := 0x3FF8 } : State).inRam supervisorData (0x3FF8 - 8) 8 ∧
      ({ w0 with sr := 0x3000, msp := 0x3FF8 } : State).writable supervisorData (0x3FF8 - 8) 8 ∧
      8 ≤ (0x4000 - 0x3FF8 : Long).toNat ∧ 8 ≤ (0x3FF8 - 0x4000 : Long).toNat) :=
  ⟨⟨by decide, rfl, rfl, rfl, rfl⟩, rfl, rfl, rfl, by decide, by decide⟩

/-- Every pair of trace bits and every ending. -/
theorem witness_TraceRules :
    (w0.run = .normal ∧ ({ w0 with pc := 0x1001 } : State).run = .normal ∧ w0.owed = none) ∧
    (({ w0 with sr := 0xA700 } : State).t1 = true ∧ ({ w0 with sr := 0xA700 } : State).t0 = false) ∧
    (({ w0 with sr := 0x6700 } : State).t1 = false ∧ ({ w0 with sr := 0x6700 } : State).t0 = true) ∧
    (w0.t1 = false ∧ w0.t0 = false) ∧
    (∀ e : Ending, ({ w0 with ending := e } : State).ending = e) ∧
    ({ w0 with owed := some ⟨0x1234, true⟩ } : State).owed = some ⟨0x1234, true⟩ :=
  ⟨⟨rfl, rfl, rfl⟩, ⟨rfl, rfl⟩, ⟨rfl, rfl⟩, ⟨rfl, rfl⟩, fun _ => rfl, rfl⟩

theorem witness_ResetException :
    (({ w0 with inputs := [⟨true, 0, .autovector⟩] } : State).input.reset = true ∧
      w0.readable supervisorProgram 0 4 ∧ w0.readable supervisorProgram 4 4 ∧
      (w0.longAt supervisorProgram 4).getLsbD 0 = false) ∧
    ({ w0 with platform := { Platform.default with holes := [⟨4, 7, 0xFF, 0xF, true, true, false⟩] } } : State).firstFault
        supervisorProgram false 4 4 ≠ none ∧
    ((w0.store 5 7 [1]).longAt supervisorProgram 4).getLsbD 0 = true :=
  ⟨⟨by decide, rfl, rfl, by decide⟩, by decide, by decide⟩

/-- A bus error on a long word at $2001 alone (R7 `bus_fault`), and nothing at $3001 (92 D4). -/
def wCycle : State :=
  { w0 with platform := { Platform.default with
      holes := [⟨0x2001, 0x2001, 0xFF, 1, true, true, false⟩], areas := [⟨0x3001, 0x3001, 0xFF, .nothing⟩] } }

theorem test_bus_fault_by_cycle :
    wCycle.firstFault 5 false 0x2001 4 = some (0, false) ∧ wCycle.firstFault 5 false 0x2000 4 = none ∧
    wCycle.firstFault 5 false 0x2001 2 = none ∧ wCycle.firstFault 5 false 0x3000 4 = some (1, false) ∧
    wCycle.firstFault 5 true 0x3002 4 = none := by decide

theorem witness_StepKeepsInv : State.reset.Inv ∧ ∃ t, step State.reset = .next t :=
  ⟨⟨by decide, by decide, by decide, by decide⟩, _, rfl⟩

/-- A next state in user mode, and one in supervisor mode. -/
theorem witness_UserModeContained :
    wUser.sBit = false ∧ (∃ t, exec .nop wUser = .next t ∧ t.sBit = false) ∧
    (∃ t, exec (.trap 0) wUser = .next t ∧ t.sBit = true ∧ t.run = .normal ∧
      ∀ v : Byte, t.onDevice supervisorData (wUser.vbr + BitVec.ofNat 32 (4 * v.toNat)) 4 = false) :=
  ⟨rfl, ⟨_, rfl, by decide⟩, _, rfl, by decide, by decide, fun v =>
    (show ∀ (s : State) fc a n, s.platform.areas = [] → s.onDevice fc a n = false by
      intro s fc a n h; simp [State.onDevice, State.area, h]) _ _ _ _ rfl⟩

theorem witness_OnlyMovecWritesControl :
    (∃ t, exec .nop w0 = .next t) ∧ ∀ rn code, Instr.nop ≠ .movec true rn code :=
  ⟨⟨_, rfl⟩, by intro rn code h; cases h⟩

/-- Both bases of the indexed modes, with readable pointers. -/
theorem witness_IndexedAddresses :
    w0.readable w0.dataSpace (w0.areg 0 + 4 + 5) 4 ∧ w0.readable w0.dataSpace (w0.areg 0) 4 ∧
    w0.readable w0.progSpace (w0.pc + 2 + 5) 4 ∧ w0.readable w0.progSpace 0 4 := ⟨rfl, rfl, rfl, rfl⟩

theorem witness_OperandRead :
    (∃ a t, memAddr .b 0 (.predec 7) w0 = .ok a t ∧ t.readable (w0.eaSpace (.predec 7)) a 1) ∧
    (∃ a t, memAddr .l 2 (.pcDisp 0x8000) w0 = .ok a t ∧ t.readable (w0.eaSpace (.pcDisp 0x8000)) a 4) ∧
    ∃ v t, readEa .l 0 (.postinc 0) w0 = .ok v t :=
  ⟨⟨_, _, rfl, rfl⟩, ⟨_, _, rfl, rfl⟩, _, _, rfl⟩

/-- Areas that are not RAM: ROM from $5000, a device from $6000. -/
def wAreas : State :=
  { w0 with platform := { Platform.default with
      areas := [⟨0x5000, 0x5FFF, 0xFF, .rom⟩, ⟨0x6000, 0x6FFF, 0xFF, .device⟩] } }

/-- The store that wraps at the top of the address space, the longest that fits, and a device that is read. -/
theorem witness_StoredBytes :
    w0.mem.wf = true ∧ inMemory (.absL 0xFFFFFFFE) = true ∧
    (∃ t, memAddr .l 0 (.absL 0xFFFFFFFE) w0 = .ok 0xFFFFFFFE t ∧ t.writable t.dataSpace 0xFFFFFFFE 4) ∧
    (List.replicate (2 ^ 32) (0 : Byte)).length ≤ 2 ^ 32 ∧ w0.inRam 5 0xFFFFFFFE 4 ∧
    (wAreas.area 5 0x5FFF = some .rom ∧ wAreas.firstFault 5 false 0x5FFE 4 = none ∧
      wAreas.onDevice 5 0x5FFE 4 = true ∧ wAreas.area 5 0x5FFE ≠ some .device) ∧
    (let t := { w0 with platform := { Platform.default with bank := #v[0, 1, 2, 3, 4, 5, 6, 7] } };
      State.bank t 6 ≠ State.bank t 5) :=
  ⟨by decide, rfl, ⟨_, rfl, rfl⟩, by rw [List.length_replicate], rfl, by decide, by decide⟩

theorem witness_ConditionsCompare :
    (0xFF#32).toNat < 2 ^ Size.b.bits ∧ (0x8000#32).toNat < 2 ^ Size.w.bits ∧
      (0xFFFFFFFF#32).toNat < 2 ^ Size.l.bits := by decide

theorem witness_MoveResult :
    w0.mem.wf = true ∧
    (∃ v t, readEa .l 0 (.postinc 0) w0 = .ok v t ∧
      (∃ u, writeEa .l 0 (.dreg 0) v (t.setCc (valueCc .l v t.cc)) = .ok () u) ∧
      (∃ u a x, writeEa .l 0 (.predec 0) v (t.setCc (valueCc .l v t.cc)) = .ok () u ∧
        memAddr .l 0 (.predec 0) (t.setCc (valueCc .l v t.cc)) = .ok a x)) :=
  ⟨by decide, _, _, rfl, ⟨_, rfl⟩, _, _, _, rfl, rfl⟩

theorem witness_AddressResults :
    (∃ v t, readEa .w 0 (.ind 0) w0 = .ok v t) ∧ ∃ a t, memAddr .l 0 (.absW 0x8000) w0 = .ok a t :=
  ⟨⟨_, _, rfl⟩, _, _, rfl⟩

/-- Every register, and none. -/
theorem witness_MovemStores :
    w0.mem.wf = true ∧ memAddr .l 1 (.ind 0) w0 = .ok 0x2000 w0 ∧
    (∀ k < 16, w0.writable w0.dataSpace (0x2000 + BitVec.ofNat 32 (4 * k)) 4) ∧
    (∀ k < (maskRegs 0).length, w0.writable w0.dataSpace (0x2000 + BitVec.ofNat 32 (4 * k)) 4) ∧
    (∀ k < (maskRegsDown 0xFFFF).length, w0.writable w0.dataSpace
      (w0.areg 0 - BitVec.ofNat 32 (4 * 16) + BitVec.ofNat 32 (4 * k)) 4) := by
  refine ⟨by decide, rfl, ?_, ?_, ?_⟩ <;> unfold State.writable <;> decide

theorem witness_MovemLoads :
    memAddr .w 1 (.pcDisp 4) w0 = .ok 0x1008 w0 ∧
    (∀ k < (maskRegs 0xFFFF).length, w0.readable (w0.eaSpace (.pcDisp 4)) (0x1008 + BitVec.ofNat 32 (2 * k)) 2) ∧
    (∀ k < (maskRegs 0xFFFF).length, w0.readable w0.dataSpace (w0.areg 0 + BitVec.ofNat 32 (2 * k)) 2) := by
  refine ⟨rfl, ?_, ?_⟩ <;> unfold State.readable <;> decide

theorem witness_MovepResult :
    w0.mem.wf = true ∧ (∀ k < 4, w0.writable w0.dataSpace (w0.areg 0 + BitVec.ofNat 32 (2 * k)) 1) ∧
    (∀ k < 4, w0.readable w0.dataSpace (w0.areg 0 + BitVec.ofNat 32 (2 * k)) 1) := by
  refine ⟨by decide, ?_, ?_⟩
  · unfold State.writable; decide
  · unfold State.readable; decide

theorem witness_StackResults :
    (∃ a t, memAddr .l 0 (.disp 7 4) w0 = .ok a t ∧ t.writable w0.dataSpace (t.sp - 4) 4) ∧
    w0.writable w0.dataSpace (w0.sp - 4) 4 ∧ w0.readable w0.dataSpace (w0.areg 6) 4 ∧ (6 : Reg) ≠ 7 ∧
    w0.readable w0.dataSpace w0.sp 4 ∧ w0.readable w0.dataSpace w0.sp 2 ∧ w0.readable w0.dataSpace (w0.sp + 2) 4 :=
  ⟨⟨_, _, rfl, rfl⟩, rfl, rfl, by decide, rfl, rfl, rfl⟩

theorem witness_ArithToRegister :
    (∃ v t, readEa .b 0 (.predec 0) w0 = .ok v t) ∧ (∃ d t, readEa .l 2 (.ind 0) w0 = .ok d t) ∧
    ∃ v t d u, readEa .w 0 (.postinc 0) w0 = .ok v t ∧ readEa .w 0 (.postinc 0) t = .ok d u :=
  ⟨⟨_, _, rfl⟩, ⟨_, _, rfl⟩, _, _, _, _, rfl, rfl⟩

/-- A register and a memory operand that can be changed, whatever the change. -/
theorem witness_changes (f : Long → CC → Long × CC) :
    (∃ u, Changes .b 0 (.dreg 0) f w0 u) ∧ (∃ u, Changes .l 2 (.postinc 0) f w0 u) ∧
    ∃ u, Changes .w 0 (.predec 7) f w0 u :=
  ⟨⟨_, .inl ⟨0, rfl, rfl⟩⟩, ⟨_, .inr ⟨rfl, _, _, rfl, rfl, rfl, rfl⟩⟩, _, .inr ⟨rfl, _, _, rfl, rfl, rfl, rfl⟩⟩

theorem witness_ArithInPlace : ∃ u, Changes .l 2 (.postinc 0)
    (fun d _ => ((exactAdd .l (immValue .l (.long 8)) d false).r,
      sumCc .l (exactAdd .l (immValue .l (.long 8)) d false))) w0 u := (witness_changes _).2.1

theorem witness_ExtendedArith :
    (∃ u, Changes .b 0 (.dreg 0) (fun d cc => ((exactAdd .b 5 d cc.x).r, stickyCc .b (exactAdd .b 5 d cc.x) cc)) w0 u) ∧
    ∃ v t u, readEa .l 0 (.predec 1) w0 = .ok v t ∧
      Changes .l 0 (.predec 0)
        (fun d cc => ((exactSub .l v d cc.x).r, stickyCc .l (exactSub .l v d cc.x) cc)) t u :=
  ⟨(witness_changes _).1, _, _, _, rfl, .inr ⟨rfl, _, _, rfl, rfl, rfl, rfl⟩⟩

theorem witness_LogicResults :
    (∃ v t, readEa .w 0 (.imm (.word 0x8000)) w0 = .ok v t) ∧
    ∃ u, Changes .b 0 (.dreg 0) (fun d cc => (sizeMask .b - d, valueCc .b (sizeMask .b - d) cc)) w0 u :=
  ⟨⟨_, _, rfl⟩, (witness_changes _).1⟩

theorem witness_WritesOnly :
    (∃ u, writeEa .l 0 (.predec 0) 0 (w0.setCc ⟨w0.cc.x, false, true, false, false⟩) = .ok () u) ∧
    (∃ u, writeEa .b 0 (.dreg 7) 255 w0 = .ok () u) ∧
    (w0.sBit = true ∧ ∃ u, writeEa .w 0 (.ind 0) (BitVec.ofNat 32 w0.sr.toNat) w0 = .ok () u) ∧
    ∃ u, writeEa .w 0 (.ind 0) (BitVec.ofNat 32 (w0.sr.toNat % 32)) w0 = .ok () u :=
  ⟨⟨_, rfl⟩, ⟨_, rfl⟩, ⟨rfl, _, rfl⟩, _, rfl⟩

/-- Bounds in signed order only, in unsigned order only, and in neither. -/
theorem witness_BoundsCompared :
    (∃ t, memAddr .l 1 (.ind 0) w0 = .ok 0x2000 t ∧ t.readable (t.eaSpace (.ind 0)) 0x2000 4 ∧
      t.readable (t.eaSpace (.ind 0)) (0x2000 + BitVec.ofNat 32 4) 4) ∧
    (numberOf true .b 0xF0 ≤ numberOf true .b 0x10 ∧ ¬ numberOf false .b 0xF0 ≤ numberOf false .b 0x10) ∧
    (numberOf false .b 0x10 ≤ numberOf false .b 0xF0 ∧ ¬ numberOf true .b 0x10 ≤ numberOf true .b 0xF0) ∧
    (¬ numberOf false .b 0x20 ≤ numberOf false .b 0x10 ∧ ¬ numberOf true .b 0x20 ≤ numberOf true .b 0x10) :=
  ⟨⟨_, rfl, rfl, rfl⟩, by decide⟩

/-- A quotient that just fits, one that just does not, and a divisor of 0; signed and unsigned. -/
theorem witness_DivideWord :
    (∃ v t, readEa .w 0 (.dreg 1) w0 = .ok v t) ∧ (∃ v t, readEa .w 0 (.dreg 3) w0 = .ok v t ∧ numberOf true .w v = 0) ∧
    (Divides 65535 1 65535 0 ∧ inRange false 16 65535) ∧ (Divides 65536 1 65536 0 ∧ ¬ inRange false 16 65536) ∧
    (Divides (-32768) 1 (-32768) 0 ∧ inRange true 16 (-32768)) ∧ (Divides (-7) 2 (-3) (-1) ∧ inRange true 16 (-3)) ∧
    (Divides 32768 1 32768 0 ∧ ¬ inRange true 16 32768) := by
  refine ⟨⟨_, _, rfl⟩, ⟨0, _, rfl, by decide⟩, ?_⟩
  simp [Divides, inRange]

theorem witness_DivideLong :
    (∃ v t, readEa .l 1 (.dreg 1) w0 = .ok v t) ∧ (∃ v t, readEa .l 1 (.dreg 3) w0 = .ok v t ∧ numberOf true .l v = 0) ∧
    (Divides 4294967295 1 4294967295 0 ∧ inRange false 32 4294967295) ∧
    (Divides 4294967296 1 4294967296 0 ∧ ¬ inRange false 32 4294967296) ∧
    (Divides 2147483648 (-1) (-2147483648) 0 ∧ inRange true 32 (-2147483648)) ∧
    (Divides (-2147483648) (-1) 2147483648 0 ∧ ¬ inRange true 32 2147483648) := by
  refine ⟨⟨_, _, rfl⟩, ⟨0, _, rfl, by decide⟩, ?_⟩
  simp [Divides, inRange]

theorem witness_Products :
    (∃ v t, readEa .w 0 (.dreg 1) w0 = .ok v t) ∧ (∃ v t, readEa .l 1 (.dreg 1) w0 = .ok v t) ∧
    inRange true 32 2147483647 ∧ ¬ inRange true 32 2147483648 := by
  refine ⟨⟨_, _, rfl⟩, ⟨_, _, rfl⟩, ?_⟩
  simp [inRange]

theorem witness_Shifts : ∃ u, Changes .w 0 (.predec 7) (fun d cc =>
    ((exactLeft true .w 1 d cc.x).r, shiftedCc .w (exactLeft true .w 1 d cc.x))) w0 u := (witness_changes _).2.2

theorem witness_Rotates : ∃ u, Changes .w 0 (.predec 7) (fun d cc =>
    ((exactRotateX false .w 1 d cc.x).r, shiftedCc .w (exactRotateX false .w 1 d cc.x))) w0 u :=
  (witness_changes _).2.2

theorem witness_SingleBits :
    (∃ v t, readEa (bitSize (.dreg 0)) 0 (.dreg 0) w0 = .ok v t) ∧ (∃ v t, readEa (bitSize (.ind 0)) 1 (.ind 0) w0 = .ok v t) ∧
    (∃ u, Changes (bitSize (.ind 0)) 1 (.ind 0) (fun d cc =>
      ((if !d.getLsbD 7 then d ||| BitVec.twoPow 32 7 else d &&& ~~~ BitVec.twoPow 32 7),
        { cc with z := !d.getLsbD 7 })) w0 u) :=
  ⟨⟨_, _, rfl⟩, ⟨_, _, rfl⟩, _, .inr ⟨rfl, _, _, rfl, rfl, rfl, rfl⟩⟩

/-- The widest and the narrowest field, at the ends of a register and of five bytes. -/
theorem witness_FieldBits :
    (1 ≤ 1 ∧ 1 ≤ 32 ∧ 31 < 32 ∧ 31 + 1 ≤ 8 * [0#8, 0, 0, 0].length) ∧
    (1 ≤ 32 ∧ 32 ≤ 32 ∧ 7 + 32 ≤ 8 * [0#8, 0, 0, 0, 0].length) := by decide

/-- A register field; a memory field over five bytes, writable; a leading one at each end, and none. -/
theorem witness_FieldInstructions :
    (∃ x put, FieldAt true (.dreg 0) ⟨false, 31, false, 0⟩ w0 x put) ∧
    (∃ x put, FieldAt true (.ind 0) ⟨false, 7, false, 0⟩ w0 x put) ∧
    (∃ x put, FieldAt false (.pcDisp 4) ⟨true, 1, false, 1⟩ w0 x put) ∧
    ((0 : Nat) ≤ 8 ∧ (0x80#32).getLsbD (8 - 1 - 0) = true) ∧
    ((∀ i < 7, (0x01#32).getLsbD (8 - 1 - i) = false) ∧ (0x01#32).getLsbD (8 - 1 - 7) = true) ∧
    (∀ i < 8, (0x00#32).getLsbD (8 - 1 - i) = false) ∧
    (w0.fieldOffset ⟨false, 31, false, 0⟩ = 31 ∧ ∃ a, memAddr .b 1 (.ind 0) w0 = .ok a w0) :=
  ⟨⟨_, _, .inl ⟨0, rfl, rfl, fun _ => rfl⟩⟩, ⟨_, _, .inr ⟨_, rfl, rfl, rfl, fun _ => ⟨rfl, rfl⟩, rfl, fun _ => rfl⟩⟩,
    ⟨_, _, .inr ⟨_, rfl, rfl, rfl, nofun, rfl, fun _ => rfl⟩⟩, by decide, by decide, by decide, by decide,
    _, rfl⟩

/-- The memory forms, with two registers, with one, and through A7; proper and improper digits. -/
theorem witness_Decimal :
    (∃ v t, readEa .b 0 (.predec 1) (w0.used 1) = .ok v t ∧ t.readable t.dataSpace (t.areg 0 - 1) 1 ∧
      t.writable t.dataSpace (t.areg 0 - 1) 1) ∧
    (∃ v t, readEa .b 0 (.predec 7) (w0.used 1) = .ok v t ∧ t.readable t.dataSpace (t.areg 7 - 2) 1 ∧
      t.writable t.dataSpace (t.areg 7 - 2) 1) ∧
    (∃ a t, inMemory (.postinc 0) = true ∧ memAddr .b 0 (.postinc 0) (w0.used 1) = .ok a t ∧
      t.readable t.dataSpace a 1 ∧ t.writable t.dataSpace a 1) ∧
    (isDecimal 0x99 = true ∧ isDecimal 0x9A = false ∧ isDecimal 0xA0 = false) :=
  ⟨⟨_, _, rfl, rfl, rfl⟩, ⟨_, _, rfl, rfl, rfl⟩, ⟨_, _, rfl, rfl, rfl, rfl⟩, by decide⟩

theorem witness_PackUnpack :
    w0.readable w0.dataSpace (w0.areg 1 - 1) 1 ∧ w0.readable w0.dataSpace (w0.areg 1 - 1 - 1) 1 ∧
    w0.writable w0.dataSpace (w0.areg 0 - 1) 1 ∧ w0.writable w0.dataSpace (w0.areg 0 - 1 - 1) 1 :=
  ⟨rfl, rfl, rfl, rfl⟩

theorem witness_Branches : ∃ a t, memAddr .l 0 (.absL 0x1001) w0 = .ok a t := ⟨_, _, rfl⟩

/-- A module descriptor at A0 with the entry word's register A5; one of type $01; one with improper opt. -/
def wModule (head : Byte) : State :=
  given [0x06, 0xD0, 0, 4] [] [0x2000] [(0x2000, [head, 0, 0, 0, 0, 0, 0x30, 0, 0x0B, 0xAD, 0xF0, 0x0D]), (0x3000, [0xD0])]

theorem witness_Modules :
    (memAddr .l 1 (.ind 0) (wModule 0) = .ok 0x2000 (wModule 0) ∧ (wModule 0).readable 5 0x2000 4 ∧
      (wModule 0).readable 5 0x2004 4 ∧ (wModule 0).readable 5 0x3000 2 ∧ (wModule 0).readable 5 0x2008 4 ∧
      (∀ k < 6, (wModule 0).writable 5 (0x4000 - 24 + BitVec.ofNat 32 (4 * k)) 4) ∧ (wModule 0).longAt 5 0x2004 = 0x3000 ∧
      ((wModule 0).wordAt 5 0x2000).toNat = 0 ∧ ((wModule 0).wordAt 5 0x3000).toNat % 4096 = 0) ∧
    (((wModule 0).store 5 0x3001 [1]).wordAt 5 0x3000).toNat % 4096 ≠ 0 ∧
    ((wModule 0x81).wordAt 5 0x2000).toNat / 8192 = 4 ∧ ((wModule 0x81).wordAt 5 0x2000).toNat / 256 % 32 = 1 ∧
    (memAddr .l 1 (.pcDisp 0x0FFC) (wModule 0) = .ok 0x2000 (wModule 0) ∧ (wModule 0).readable 6 0x2000 4) ∧
    ((wModule 0x20).wordAt 5 0x2000).toNat / 8192 = 1 ∧ ((wModule 0x02).wordAt 5 0x2000).toNat / 256 % 32 = 2 ∧
    ((w0.readable w0.dataSpace w0.sp 2 ∧ w0.readable w0.dataSpace (w0.sp + 2) 2 ∧ w0.readable w0.dataSpace (w0.sp + 4) 2 ∧
      w0.readable w0.dataSpace (w0.sp + 12) 4 ∧ w0.readable w0.dataSpace (w0.sp + 16) 4) ∧ (w0.wordAt w0.dataSpace w0.sp).toNat = 0) :=
  ⟨⟨rfl, rfl, rfl, rfl, rfl, by unfold State.writable; decide, by decide, by decide, by decide⟩, by decide, by decide,
    by decide, ⟨rfl, rfl⟩, by decide, by decide, ⟨rfl, rfl, rfl, rfl, rfl⟩, by decide⟩

/-- A bound equal to the value, a value above it, and a negative value. -/
theorem witness_Traps :
    (∃ t, readEa .w 0 (.dreg 0) w0 = .ok 5 t ∧ signedOf .w (t.dreg 0) = 5) ∧
    (∃ t, readEa .w 0 (.dreg 0) w0 = .ok 5 t ∧ (5 : Int) < signedOf .w (t.dreg 1)) ∧
    (∃ t, readEa .w 0 (.dreg 0) (w0.setD 1 0x8000) = .ok 5 t ∧ signedOf .w (t.dreg 1) < 0) :=
  ⟨⟨_, rfl, by decide⟩, ⟨_, rfl, by decide⟩, _, rfl, by decide⟩

theorem witness_EmulatorLines : w0.sBit = true ∧ wUser.sBit = false ∧ (0x140#12).toNat / 64 % 8 = 5 := by decide

/-- Frames of every format on the stack of `w0`, a throwaway frame over a normal one, a `$B` frame whose special
status word has DF and RM set, and parts of one that cannot be read. -/
theorem witness_RteResult :
    (w0.sBit = true ∧ w0.readable supervisorData w0.sp 2 ∧ w0.readable supervisorData (w0.sp + 2) 4 ∧
      w0.readable supervisorData (w0.sp + 6) 2 ∧ (w0.wordAt supervisorData (w0.sp + 6)).toNat / 4096 = 0) ∧
    (∀ f : Fin 16, ((w0.store 5 0x4006 [BitVec.ofNat 8 (16 * f.val)]).wordAt supervisorData 0x4006).toNat / 4096 = f.val) ∧
    (let s := w0.store 5 0x4000 [0x27, 0, 0, 0, 0x10, 0, 0x10, 0];
      (s.wordAt 5 (s.sp + 6)).toNat / 4096 = 1 ∧ s.readable 5 0x4008 2 ∧ s.readable 5 0x400A 4 ∧ s.readable 5 0x400E 2) ∧
    (let s := w0.store 5 0x4000 [0x27, 0, 0, 0, 0x10, 0, 0xB0, 8, 0, 0, 0x01, 0x80];
      (s.wordAt 5 (s.sp + 6)).toNat / 4096 = 11 ∧ s.readable 5 (s.sp + 0x36) 2 ∧ s.readable 5 (s.sp + 0xA) 2 ∧
        s.readable 5 s.sp 92 ∧ (s.wordAt 5 (s.sp + 0xA)).getLsbD 8 = true ∧ (s.wordAt 5 (s.sp + 0xA)).getLsbD 7 = true ∧
        ({ s with platform := { Platform.default with cpuVersion := 0 } } : State).wordAt 5 (s.sp + 0x36) = 0) ∧
    (({ wHole with isp := 0x4FF0 } : State).firstFault 5 false 0x4FF0 20 ≠ none ∧
      ({ wHole with isp := 0x4FCA } : State).firstFault 5 false (0x4FCA + 0x36) 2 ≠ none) :=
  ⟨⟨rfl, rfl, rfl, rfl, by decide⟩, by decide, ⟨by decide, rfl, rfl, rfl⟩,
    ⟨by decide, rfl, rfl, rfl, by decide, by decide, by decide⟩, by decide⟩

theorem witness_SystemResults :
    w0.sBit = true ∧ (∃ v t, readEa .w 0 (.imm (.word 0xFFFF)) w0 = .ok v t) ∧ w0.t1 = false ∧
    (({ w0 with sr := 0xA700 } : State).t1 = true ∧ ({ w0 with sr := 0xA700 } : State).t0 = false) :=
  ⟨rfl, ⟨_, _, rfl⟩, rfl, rfl, rfl⟩

theorem witness_ControlRegisters :
    w0.sBit = true ∧ (∃ v t, readEa .w 0 (.dreg 0) w0 = .ok v t) ∧
    (3 ≤ (0x003#12).toNat % 2048 ∧ (0x003#12).toNat ∉ [0x803, 0x804]) ∧
    (3 ≤ (0x805#12).toNat % 2048 ∧ (0x805#12).toNat ∉ [0x803, 0x804]) :=
  ⟨rfl, ⟨_, _, rfl⟩, by decide, by decide⟩

theorem witness_MovesResult :
    w0.sBit = true ∧ (∃ t, memAddr .l 1 (.postinc 0) w0 = .ok 0x2000 t ∧ t.writable w0.dfc 0x2000 4 ∧
      t.readable w0.sfc 0x2000 4) ∧ (⟨true, 1⟩ : Rn) ∉ steppedBy (.postinc 0) :=
  ⟨rfl, ⟨_, rfl, rfl, rfl⟩, by decide⟩

/-- CAS equal and unequal; CAS2 on two operands equal, unequal, and with one compare register. -/
theorem witness_ReadModifyWrite :
    (∃ u, Changes .b 0 (.predec 0) (fun d cc => (d ||| 0x80, valueCc .b d cc)) w0 u) ∧
    (∃ t, memAddr .l 1 (.ind 0) w0 = .ok 0x2000 t ∧ t.readable t.dataSpace 0x2000 4 ∧ t.writable t.dataSpace 0x2000 4 ∧
      bytesLong (t.load t.dataSpace 0x2000 4) = trunc .l (t.dreg 0) ∧
      bytesLong (t.load t.dataSpace 0x2000 4) ≠ trunc .l (t.dreg 1)) ∧
    (w0.readable w0.dataSpace (w0.getR ⟨true, 1⟩) 4 ∧ w0.writable w0.dataSpace (w0.getR ⟨true, 1⟩) 4 ∧
      bytesLong (w0.load w0.dataSpace (w0.getR ⟨true, 1⟩) 4) = trunc .l (w0.dreg 4) ∧ (0 : Reg) ≠ 4) :=
  ⟨⟨_, .inr ⟨rfl, _, _, rfl, rfl, rfl, rfl⟩⟩, ⟨_, rfl, rfl, rfl, by decide, by decide⟩, rfl, rfl, by decide, by decide⟩

theorem witness_ReadFrame :
    readsInto (.addToReg .l (.postinc 0) 1) = some (.postinc 0, [⟨false, 1⟩]) ∧
    ∃ t, exec (.addToReg .l (.postinc 0) 1) w0 = .next t ∧ t.ending = .sequential := ⟨rfl, _, rfl, rfl⟩

/-- NBCD in memory completes, whatever its free flags are. -/
theorem witness_ChangeFrame_nbcd : ∃ t, exec (.nbcd (.predec 1)) w0 = .next t ∧ t.ending = .sequential := by
  obtain ⟨u, hu⟩ : ∃ u, Changes .b 0 (.predec 1) (fun d cc =>
      bcdResult (Config.freeLong w0.draws) (bcdValid d) (sbcdOut d 0 cc.x) cc) (w0.used 1) u :=
    ⟨_, .inr ⟨rfl, 0x200F, (w0.used 1).setA 1 0x200F, rfl, rfl, rfl, rfl⟩⟩
  refine ⟨u.goOn (u.npc 1), runInstr_ok ?_, rfl⟩
  exact (M.bind_ok (x := draw) (a := Config.freeLong w0.draws) (t := w0.used 1) rfl).trans
    ((M.bind_ok (modifyEa_ok hu)).trans rfl)

theorem witness_ChangeFrame :
    w0.mem.wf = true ∧ changesAt (.addi .l (.long 1) (.predec 1)) = some (.l, 2, .predec 1) ∧
    (∃ t, exec (.addi .l (.long 1) (.predec 1)) w0 = .next t ∧ t.ending = .sequential) ∧
    (∃ a u, memAddr .l 2 (.predec 1) w0 = .ok a u) ∧
    (changesAt (.not .b (.dreg 1)) = some (.b, 0, .dreg 1) ∧ inMemory (.dreg 1) = false) ∧
    (changesAt (.nbcd (.predec 1)) = some (.b, 0, .predec 1) ∧
      ∃ a u, memAddr .b 0 (.predec 1) (w0.used 1) = .ok a u) :=
  ⟨by decide, rfl, ⟨_, rfl, rfl⟩, ⟨_, _, rfl⟩, ⟨rfl, rfl⟩, rfl, _, _, rfl⟩


end Sys2Proof.Machine
end

/-! # The state after reset (R50, R600) and the control registers (R397, R398, R401) -/

section
namespace Sys2Proof.Machine

/-- Settles O17: every field of the reset state is a literal, so each clause is evaluated. -/
theorem resetState : Obligations.ResetState :=
  ⟨⟨by decide, by decide, by decide, by decide⟩, by decide, rfl, rfl, rfl, rfl, rfl,
    rfl, rfl, rfl, rfl, rfl, rfl, rfl⟩

/-! ## MOVEC, one equation a case (R398) -/

theorem execMovec_user {s : State} (hu : s.sBit = false) (toCtl : Bool) (rn : Rn) (code : BitVec 12) :
    exec (.movec toCtl rn code) s = .next (s.takeException s.privilegeExc) :=
  runInstr_raised (privileged_user hu)

theorem execMovec_unknown {s : State} (hs : s.sBit = true) (toCtl : Bool) (rn : Rn) {code : BitVec 12}
    (hc : controlReg code = none) :
    exec (.movec toCtl rn code) s = .next (s.takeException s.illegalExc) := by
  refine runInstr_raised ((privileged_super hs).trans ?_)
  rw [hc]
  rfl

theorem execMovec_read {s : State} (hs : s.sBit = true) (rn : Rn) {code : BitVec 12} {r : ControlReg}
    (hc : controlReg code = some r) :
    exec (.movec false rn code) s = .next ((s.setR rn (s.readControl r)).goOn (s.npc 2)) := by
  refine runInstr_ok ((privileged_super hs).trans ?_)
  rw [hc, ← State.npc_setR s rn (s.readControl r)]
  rfl

theorem State.writeControl_npc (s : State) (r : ControlReg) (v : Long) (n : Nat) :
    (s.writeControl r v).npc n = s.npc n := by
  cases r <;> rfl

theorem execMovec_write {s : State} (hs : s.sBit = true) (rn : Rn) {code : BitVec 12} {r : ControlReg}
    (hc : controlReg code = some r) :
    exec (.movec true rn code) s = .next ((s.writeControl r (s.getR rn)).goOn (s.npc 2)) := by
  refine runInstr_ok ((privileged_super hs).trans ?_)
  rw [hc, ← State.writeControl_npc s r (s.getR rn)]
  rfl

/-- The codes of R398 lie at 0 to 2 and `$800` to `$804`. -/
theorem controlReg_eq_none {code : BitVec 12} (hlow : 3 ≤ code.toNat % 2048) (hne : code.toNat ∉ [0x803, 0x804]) :
    controlReg code = none := by
  simp only [List.mem_cons, List.not_mem_nil, or_false, not_or] at hne
  unfold controlReg
  split
  case h_9 => rfl
  all_goals omega

/-! ## MOVE USP and MOVE to CCR (R397, R401) -/

theorem execMoveUsp_read {s : State} (hs : s.sBit = true) (an : Reg) :
    exec (.moveUsp true an) s = .next ((s.setA an s.usp).goOn (s.npc 1)) := by
  refine runInstr_ok ((privileged_super hs).trans ?_)
  rw [← State.npc_setA s an s.usp]
  rfl

theorem execMoveUsp_write {s : State} (hs : s.sBit = true) (an : Reg) :
    exec (.moveUsp false an) s = .next (({ s with usp := s.areg an } : State).goOn (s.npc 1)) :=
  runInstr_ok (privileged_super hs)

theorem execMoveToCcr_ok {s t : State} {ea : Ea} {v : Long} (h : readEa .w 0 ea s = .ok v t) :
    exec (.moveToCcr ea) s = .next ((t.setCc (CC.ofBits (v.setWidth 16))).goOn (s.npc (1 + ea.words))) := by
  refine runInstr_ok ((M.bind_ok h).trans ?_)
  rw [M.modify_bind, M.advance_run, State.npc_setCc, readEa_npc h]

/-- Settles O56: each code of R398 names its register, and MOVEC then reads or writes that register alone. -/
theorem controlRegisters : Obligations.ControlRegisters := by
  intro s
  refine ⟨fun ea v t h => execMoveToCcr_ok h, fun hs => ⟨fun an => ?moveUsp, fun rn =>
    ⟨?reads, ?sfc, ?dfc, ?cacr, ?usp, ?vbr, ?caar, ?msp, ?isp, ?unknown⟩⟩⟩
  case moveUsp => exact ⟨execMoveUsp_read hs an, execMoveUsp_write hs an⟩
  case reads =>
    simp only [List.forall_mem_cons, List.not_mem_nil, false_implies, implies_true, and_true]
    exact ⟨execMovec_read (r := .sfc) hs rn rfl, execMovec_read (r := .dfc) hs rn rfl,
      execMovec_read (r := .cacr) hs rn rfl, execMovec_read (r := .usp) hs rn rfl,
      execMovec_read (r := .vbr) hs rn rfl, execMovec_read (r := .caar) hs rn rfl,
      execMovec_read (r := .msp) hs rn rfl, execMovec_read (r := .isp) hs rn rfl⟩
  case unknown => exact fun b code hlow hne => execMovec_unknown hs b rn (controlReg_eq_none hlow hne)
  case sfc => exact execMovec_write (r := .sfc) hs rn rfl
  case dfc => exact execMovec_write (r := .dfc) hs rn rfl
  case cacr => exact execMovec_write (r := .cacr) hs rn rfl
  case usp => exact execMovec_write (r := .usp) hs rn rfl
  case vbr => exact execMovec_write (r := .vbr) hs rn rfl
  case caar => exact execMovec_write (r := .caar) hs rn rfl
  case msp => exact execMovec_write (r := .msp) hs rn rfl
  case isp => exact execMovec_write (r := .isp) hs rn rfl

end Sys2Proof.Machine
end

/-! # What an instruction's updates leave alone

`Confined s t`: from `s` to `t` no control register, no cache entry, nothing that hardware presents changed, and the
invariant still holds if it held. Every shared operation leads from a confined state to a confined one (`Stays`), and
so does every meaning but that of MOVEC to a control register. -/

section
namespace Sys2Proof.Machine

/-- The registers and the cache that only MOVEC to a control register writes (R30 to R33, R86). -/
def State.control (s : State) : Long × FC × FC × Long × Long × Vector (Option CacheLine) 64 :=
  (s.vbr, s.sfc, s.dfc, s.cacr, s.caar, s.cache)

/-- What no instruction writes: the inputs, the sampled request, the coprocessor registers (log 39), the owed trace,
the platform. -/
def State.outside (s : State) :
    List Input × Fin 8 × Bool × Option Long × Option Long × Option Owed × Platform :=
  (s.inputs, s.ipl, s.nmi, s.eaTemp, s.scanPc, s.owed, s.platform)

/-- `t` agrees with `s` in `control` and `outside`, and meets the invariant if `s` does. -/
structure Confined (s t : State) : Prop where
  control : t.control = s.control
  outside : t.outside = s.outside
  inv : s.Inv → t.Inv

/-! ## The unimplemented bits of a word stay 0 -/

theorem and_clear {n : Nat} {w m : BitVec n} (h : w &&& m = 0) (v : BitVec n) : w &&& v &&& m = 0 := by
  rw [BitVec.and_assoc, BitVec.and_comm v, ← BitVec.and_assoc, h]
  exact BitVec.zero_and

theorem or_clear {n : Nat} {w v m : BitVec n} (hw : w &&& m = 0) (hv : v &&& m = 0) : (w ||| v) &&& m = 0 := by
  rw [BitVec.and_comm, BitVec.and_or_distrib_left, BitVec.and_comm m, BitVec.and_comm m, hw, hv, BitVec.or_self]

theorem mask_clear {n : Nat} (w m : BitVec n) : w &&& m &&& ~~~m = 0 := by
  rw [BitVec.and_assoc, BitVec.and_not_self]
  exact BitVec.and_zero

theorem CC.bits_clear (f : CC) : f.bits &&& ~~~srImplemented = 0 := by
  obtain ⟨x, n, z, v, c⟩ := f
  cases x <;> cases n <;> cases z <;> cases v <;> cases c <;> rfl

theorem enteredSr_clear {w : Word} (h : w &&& ~~~srImplemented = 0) : enteredSr w &&& ~~~srImplemented = 0 :=
  or_clear (and_clear h _) rfl

/-! ## Each update of the state -/

namespace Confined

variable {s t : State}

theorem refl (s : State) : Confined s s := ⟨rfl, rfl, id⟩

/-- Another SR whose unimplemented bits are 0 if they were. -/
theorem withSr {w : Word} (h : Confined s t)
    (hw : t.sr &&& ~~~srImplemented = 0 → w &&& ~~~srImplemented = 0) : Confined s { t with sr := w } := by
  refine ⟨h.control, h.outside, fun i => ?_⟩
  obtain ⟨hm, hsr, hcopy, hcacr⟩ := h.inv i
  exact ⟨hm, hw hsr, hcopy, hcacr⟩

/-- Another memory, canonical if it was. -/
theorem withMem {m : Memory} (h : Confined s t) (hm : t.mem.wf = true → m.wf = true) :
    Confined s { t with mem := m } := by
  refine ⟨h.control, h.outside, fun i => ?_⟩
  obtain ⟨hwf, hsr, hcopy, hcacr⟩ := h.inv i
  exact ⟨hm hwf, hsr, hcopy, hcacr⟩

theorem withPc (h : Confined s t) (a : Long) : Confined s { t with pc := a } := ⟨h.control, h.outside, h.inv⟩

theorem withEnding (h : Confined s t) (e : Ending) : Confined s { t with ending := e } :=
  ⟨h.control, h.outside, h.inv⟩

theorem withRun (h : Confined s t) (r : RunState) : Confined s { t with run := r } := ⟨h.control, h.outside, h.inv⟩

theorem withUsp (h : Confined s t) (v : Long) : Confined s { t with usp := v } := ⟨h.control, h.outside, h.inv⟩

theorem withIsp (h : Confined s t) (v : Long) : Confined s { t with isp := v } := ⟨h.control, h.outside, h.inv⟩

theorem goOn (h : Confined s t) (a : Long) (e : Ending) : Confined s { t with pc := a, ending := e } :=
  ⟨h.control, h.outside, h.inv⟩

theorem used (h : Confined s t) (k : Nat) : Confined s (t.used k) := ⟨h.control, h.outside, h.inv⟩

/-- The state with the draws of another counted. -/
theorem atDraw (h : Confined s t) (u : State) : Confined s (t.atDraw u) := ⟨h.control, h.outside, h.inv⟩

theorem setD (h : Confined s t) (r : Reg) (v : Long) : Confined s (t.setD r v) := ⟨h.control, h.outside, h.inv⟩

theorem putD (h : Confined s t) (sz : Size) (r : Reg) (v : Long) : Confined s (t.putD sz r v) := h.setD _ _

theorem setSp (h : Confined s t) (v : Long) : Confined s (t.setSp v) := by
  unfold State.setSp
  split
  · split
    · exact ⟨h.control, h.outside, h.inv⟩
    · exact ⟨h.control, h.outside, h.inv⟩
  · exact h.withUsp v

theorem setA (h : Confined s t) (r : Reg) (v : Long) : Confined s (t.setA r v) := by
  unfold State.setA
  split
  · exact ⟨h.control, h.outside, h.inv⟩
  · exact h.setSp v

theorem setR (h : Confined s t) (rn : Rn) (v : Long) : Confined s (t.setR rn v) := by
  unfold State.setR
  split
  · exact h.setA _ v
  · exact h.setD _ v

theorem setSr (h : Confined s t) (w : Word) : Confined s (t.setSr w) :=
  h.withSr fun _ => mask_clear w srImplemented

theorem setCc (h : Confined s t) (f : CC) : Confined s (t.setCc f) :=
  h.withSr fun hsr => or_clear (and_clear hsr _) f.bits_clear

theorem store (h : Confined s t) (fc : FC) (a : Long) (bs : List Byte) : Confined s (t.store fc a bs) :=
  h.withMem fun hm => Memory.wf_storeWhere _ _ _ _ _ _ hm

theorem afterRead (h : Confined s t) (fc : FC) (a : Long) (n : Nat) : Confined s (t.afterRead fc a n) := by
  obtain ⟨k, hk⟩ := t.afterRead_used fc a n
  rw [hk]
  exact h.used k

theorem halt (h : Confined s t) : Confined s t.halt := ⟨h.control, h.outside, h.inv⟩

theorem hang (h : Confined s t) : Confined s t.hang := ⟨h.control, h.outside, h.inv⟩

/-- The SR copy takes the SR, and the SR that of exception entry (R510). -/
theorem beginException (h : Confined s t) : Confined s t.beginException := by
  refine ⟨h.control, h.outside, fun i => ?_⟩
  obtain ⟨hm, hsr, -, hcacr⟩ := h.inv i
  exact ⟨hm, enteredSr_clear hsr, hsr, hcacr⟩

theorem restore (h : Confined s t) (size : Nat) (sr : Word) (pc : Long) : Confined s (t.restore size sr pc) :=
  ((h.setSp _).setSr sr).goOn pc .returned

/-- Going back to the registers that an instruction began with. -/
theorem undone (h : Confined s t) : Confined s (s.undone t) := by
  refine ⟨h.control, h.outside, fun i => ?_⟩
  obtain ⟨hm, -, hcopy, hcacr⟩ := h.inv i
  obtain ⟨-, hsr, -, -⟩ := i
  exact ⟨hm, hsr, hcopy, hcacr⟩

end Confined

/-- A free choice is the new value or one of those seen. -/
theorem anyOf_cases {α : Type} [DecidableEq α] (n r : Nat) (seen : List α) (new : α) :
    anyOf n r seen new = new ∨ anyOf n r seen new ∈ seen := by
  unfold anyOf
  split
  · exact .inl rfl
  · rw [List.getD_eq_getElem?_getD]
    cases hv : seen[Config.partialUpdate n r]? with
    | none => exact .inl rfl
    | some v => exact .inr (List.mem_of_getElem? hv)

/-- The state a bus error leaves: its SR is one that the instruction's updates passed through (R200). -/
theorem Confined.partly {s t : State} (h : Confined s t) {seen : List State} (hs : ∀ u ∈ seen, Confined s u)
    (pc : Long) : Confined s (State.partly seen t pc) := by
  refine ⟨h.control, h.outside, fun i => ?_⟩
  obtain ⟨hm, hsr, hcopy, hcacr⟩ := h.inv i
  refine ⟨hm, ?_, hcopy, hcacr⟩
  rcases anyOf_cases t.draws 18 (seen.map (·.sr)) t.sr with hnew | hold
  · exact (congrArg (· &&& ~~~srImplemented) hnew).trans hsr
  · obtain ⟨u, hu, hsr'⟩ := List.mem_map.mp hold
    obtain ⟨-, hok, -, -⟩ := (hs u hu).inv i
    exact (congrArg (· &&& ~~~srImplemented) hsr'.symm).trans hok

/-! ## Bodies that stay confined -/

/-- From a state confined by `s` the body ends in one, and its errors satisfy `Q`. -/
def Stays {ε α : Type} (Q : ε → Prop) (s : State) (x : EStateM ε State α) : Prop :=
  ∀ t, Confined s t →
    match x t with
    | .ok _ u => Confined s u
    | .error e u => Confined s u ∧ Q e

/-- The states a bus error reports as passed through are confined. -/
def Abort.Within (s : State) : Abort → Prop
  | .bus _ seen _ => ∀ u ∈ seen, Confined s u
  | .raised _ | .doubleFault | .refuse _ | .fault _ => True

/-- A sequence of bus accesses stays confined. -/
abbrev BusStays {α : Type} (s : State) (x : Bus α) : Prop := Stays (fun _ => True) s x

/-- The body of an instruction stays confined. -/
abbrev BodyStays {α : Type} (s : State) (x : M α) : Prop := Stays (Abort.Within s) s x

section Steps

variable {ε α β : Type} {Q : ε → Prop} {s : State}

theorem Stays.ok {x : EStateM ε State α} (h : Stays Q s x) {t u : State} {a : α} (ht : Confined s t)
    (hx : x t = .ok a u) : Confined s u := by
  have := h t ht
  rwa [hx] at this

theorem Stays.error {x : EStateM ε State α} (h : Stays Q s x) {t u : State} {e : ε} (ht : Confined s t)
    (hx : x t = .error e u) : Confined s u ∧ Q e := by
  have := h t ht
  rwa [hx] at this

theorem Stays.bind {x : EStateM ε State α} {f : α → EStateM ε State β} (hx : Stays Q s x)
    (hf : ∀ a, Stays Q s (f a)) : Stays Q s (x >>= f) := by
  intro t ht
  cases h : x t with
  | ok a u =>
    rw [M.bind_ok h]
    exact hf a u (hx.ok ht h)
  | error e u =>
    rw [M.bind_error h]
    exact hx.error ht h

theorem Stays.ite {c : Prop} [Decidable c] {x y : EStateM ε State α} (hx : Stays Q s x) (hy : Stays Q s y) :
    Stays Q s (if c then x else y) := by
  split
  · exact hx
  · exact hy

theorem pure_stays (a : α) : Stays Q s (pure a : EStateM ε State α) := fun _ ht => ht

theorem modify_stays {g : State → State} (h : ∀ t, Confined s t → Confined s (g t)) :
    Stays Q s (modify g : EStateM ε State PUnit) := fun t ht => h t ht

theorem set_stays {t : State} (h : Confined s t) : Stays Q s (set t : EStateM ε State PUnit) := fun _ _ => h

/-- After reading the state, what follows may use that it is confined. -/
theorem Stays.get {f : State → EStateM ε State β} (h : ∀ t, Confined s t → Stays Q s (f t)) :
    Stays Q s ((MonadState.get : EStateM ε State State) >>= f) := fun t ht => h t ht t ht

end Steps

end Sys2Proof.Machine
end

/-! # Bus accesses, exception entry and the end of an instruction stay confined -/

section
namespace Sys2Proof.Machine

variable {s t : State}

/-! ## Bus accesses (20_memory) -/

theorem busRead_stays (rmw : Bool) (fc : FC) (a : Long) (n : Nat) : BusStays s (busRead rmw fc a n) := by
  intro t ht
  unfold busRead
  cases t.firstFault fc false a n with
  | none => exact ht.afterRead fc a n
  | some i => exact ⟨ht, trivial⟩

theorem busWrite_stays (rmw : Bool) (fc : FC) (a : Long) (bs : List Byte) : BusStays s (busWrite rmw fc a bs) := by
  intro t ht
  unfold busWrite
  cases t.firstFault fc true a bs.length with
  | none => exact ht.store fc a bs
  | some i => exact ⟨ht.store fc a _, trivial⟩

/-! ## Exception entry (R510, R514) -/

theorem pushFrame_stays (bs : List Byte) : BusStays s (pushFrame bs) := by
  intro t ht
  have hsp := ht.setSp (t.sp - BitVec.ofNat 32 bs.length)
  unfold pushFrame
  cases hf : (t.setSp (t.sp - BitVec.ofNat 32 bs.length)).firstFault supervisorData true
      (t.sp - BitVec.ofNat 32 bs.length) bs.length with
  | none =>
    simp only [hf]
    exact hsp.store supervisorData _ bs
  | some i =>
    simp only [hf]
    exact ⟨(hsp.withMem (Memory.wf_storeWhere _ _ _ _ _ _)).used 1, trivial⟩

theorem loadVector_stays (vector : Byte) : BusStays s (loadVector vector) :=
  Stays.get fun _ _ => (busRead_stays _ _ _ _).bind fun _ => modify_stays fun _ h => h.withPc _

/-- Entering a bus or address error, or the halt or wait that comes of it (R530 to R532). -/
theorem Confined.enterFault (h : Confined s t) (vector : Byte) (long : Bool) (pc : Long) (f : BusFault) :
    Confined s (t.enterFault vector long pc f) := by
  have hstop : ∀ never : Bool, Confined s (if never then t.hang else t.halt) := by
    rintro (_ | _)
    · exact h.halt
    · exact h.hang
  unfold State.enterFault
  dsimp only
  split
  · exact hstop _
  · split
    · exact hstop _
    · next hload =>
      have hu := (loadVector_stays vector).ok ((h.beginException.setSp _).store supervisorData _ _) hload
      split
      · exact (h.used frameDraws).halt
      · exact (hu.withEnding .notDone).used frameDraws

theorem Confined.nestedBusError (h : Confined s t) (f : BusFault) : Confined s (t.nestedBusError f) := by
  unfold State.nestedBusError
  split
  · exact h.hang
  · exact (h.used 1).enterFault _ _ _ f

theorem Confined.takeException (h : Confined s t) (x : Exc) : Confined s (t.takeException x) := by
  have hentry := (pushFrame_stays (s := s) (x.frameBytes t.platform t.sr t.draws)).bind fun _ =>
    loadVector_stays x.vector
  have hstart := h.beginException.used x.draws
  unfold State.takeException
  dsimp only
  split
  · next hok => exact (hentry.ok hstart hok).withEnding x.ending
  · next herr => exact (hentry.error hstart herr).1.nestedBusError _

/-! ## The end of an instruction -/

theorem Confined.cutShort (h : Confined s t) {seen : List State} (hs : ∀ u ∈ seen, Confined s u) (f : BusFault)
    (made : Bool) : Confined s (s.cutShort t f seen made) := by
  have hseen : ∀ u ∈ (if made then seen else s :: seen), Confined s u := by
    intro u hu
    split at hu
    · exact hs u hu
    · rcases List.mem_cons.mp hu with rfl | hu
      · exact Confined.refl u
      · exact hs u hu
  have hregs : Confined s (if f.rmw then s.undone t
      else State.partly (if made then seen else s :: seen) t s.pc) := by
    split
    · exact h.undone
    · exact h.partly hseen s.pc
  unfold State.cutShort
  dsimp only
  split
  · exact hregs.hang
  · exact hregs.enterFault _ _ _ f

/-- Every next state of the outcome is confined. -/
def Confines (s : State) (o : Host.Outcome State Fault Refusal) : Prop := ∀ t, o = .next t → Confined s t

/-- An instruction whose body stays confined has a confined next state, whatever it ends in. -/
theorem runInstr_confines {body : M Unit} (hb : BodyStays s body) : Confines s (runInstr body s) := by
  intro t ht
  have hs := hb s (Confined.refl s)
  unfold runInstr at ht
  split at ht <;> rename_i hr <;> rw [hr] at hs <;> cases ht
  case h_1 => exact hs
  case h_2 => exact hs.1.cutShort hs.2 _ _
  case h_3 => exact hs.1.takeException _
  case h_4 => exact ((Confined.refl s).atDraw _).halt

/-! ## The steps of a body -/

section Body

variable {α : Type}

theorem raised_stays (x : Exc) : BodyStays s (raised x : M α) := fun _ ht => ⟨ht, trivial⟩

theorem refuse_stays (r : Refusal) : BodyStays s (refuse r : M α) := fun _ ht => ⟨ht, trivial⟩

/-- A body that is refused on a condition and else goes on. -/
theorem refuseIf_stays {c : Prop} [Decidable c] {r : Refusal} {rest : PUnit → M α}
    (h : BodyStays s (rest ⟨⟩)) : BodyStays s (if c then refuse r >>= rest else rest ⟨⟩) :=
  Stays.ite ((refuse_stays r).bind fun _ => h) h

theorem raiseIllegal_stays : BodyStays s (raiseIllegal : M α) := fun _ ht => ⟨ht, trivial⟩

theorem draw_stays : BodyStays s draw := fun _ ht => ht.used 1

theorem drawBit_stays : BodyStays s drawBit := draw_stays.bind fun _ => pure_stays _

theorem advance_stays (n : Nat) : BodyStays s (advance n) := modify_stays fun _ h => h.goOn _ _

theorem advanceSr_stays (n : Nat) : BodyStays s (advanceSr n) := modify_stays fun _ h => h.goOn _ _

theorem jump_stays (a : Long) : BodyStays s (jump a) := modify_stays fun _ h => h.goOn _ _

theorem privileged_stays {body : M Unit} (h : BodyStays s body) : BodyStays s (privileged body) :=
  Stays.get fun _ _ => Stays.ite h (raised_stays _)

theorem liftBus_stays {x : Bus α} (h : BusStays s x) : BodyStays s (liftBus x) := by
  intro t ht
  unfold liftBus
  cases hx : x t with
  | ok a u => exact h.ok ht hx
  | error f u => exact ⟨(h.error ht hx).1, fun _ hu => nomatch hu⟩

/-- The states seen, with the present one before them where it may still stand. -/
theorem Confined.seen_cons (h : Confined s t) {seen : List State} (hs : ∀ u ∈ seen, Confined s u) (made : Bool) :
    ∀ u ∈ (if made then seen else t :: seen), Confined s u := by
  split
  · exact hs
  · exact List.forall_mem_cons.mpr ⟨h, hs⟩

theorem checkpoint_stays {x : M α} (h : BodyStays s x) : BodyStays s (checkpoint x) := by
  intro t ht
  have hx := h t ht
  unfold checkpoint
  revert hx
  cases x t with
  | ok a u => exact id
  | error e u =>
    cases e with
    | bus f seen made => exact fun ⟨hu, hseen⟩ => ⟨hu, ht.seen_cons hseen made⟩
    | raised _ | doubleFault | refuse _ | fault _ => exact id

theorem afterMade_stays {x : M α} (h : BodyStays s x) : BodyStays s (afterMade x) := by
  intro t ht
  have hx := h t ht
  unfold afterMade
  revert hx
  cases x t with
  | ok a u => exact id
  | error e u =>
    cases e with
    | bus f seen made => exact fun ⟨hu, hseen⟩ => ⟨hu, ht.seen_cons hseen made⟩
    | raised _ | doubleFault | refuse _ | fault _ => exact id

end Body

/-! ## Memory operands and the stack -/

theorem readMem_stays (rmw : Bool) (fc : FC) (a : Long) (sz : Size) : BodyStays s (readMem rmw fc a sz) :=
  (liftBus_stays (busRead_stays _ _ _ _)).bind fun _ => pure_stays _

theorem writeMem_stays (rmw : Bool) (fc : FC) (a : Long) (sz : Size) (v : Long) :
    BodyStays s (writeMem rmw fc a sz v) := liftBus_stays (busWrite_stays _ _ _ _)

theorem readData_stays (a : Long) (sz : Size) : BodyStays s (readData a sz) :=
  Stays.get fun _ _ => readMem_stays _ _ _ _

theorem writeData_stays (a : Long) (sz : Size) (v : Long) : BodyStays s (writeData a sz v) :=
  Stays.get fun _ _ => writeMem_stays _ _ _ _ _

theorem pushLong_stays (v : Long) : BodyStays s (pushLong v) :=
  (modify_stays fun _ h => h.setSp _).bind fun _ => Stays.get fun _ _ => writeData_stays _ _ _

theorem popLong_stays : BodyStays s popLong :=
  Stays.get fun _ _ => (readData_stays _ _).bind fun _ =>
    (modify_stays fun _ h => h.setSp _).bind fun _ => pure_stays _

/-! ## Effective addresses (R113 to R116) -/

theorem indexedAddr_stays (space : FC) (base : Long) (e : IndexExt) : BodyStays s (indexedAddr space base e) :=
  Stays.get fun _ _ => by
    cases e with
    | brief ix d8 => exact pure_stays _
    | full ix bs is bd ind =>
      cases ind with
      | none => exact pure_stays _
      | pre od => exact (readMem_stays _ _ _ _).bind fun _ => pure_stays _
      | post od => exact (readMem_stays _ _ _ _).bind fun _ => pure_stays _

theorem memAddr_stays (sz : Size) (own : Nat) (ea : Ea) : BodyStays s (memAddr sz own ea) :=
  Stays.get fun _ h => by
    cases ea with
    | postinc r => exact (set_stays (h.setA r _)).bind fun _ => pure_stays _
    | predec r => exact (set_stays (h.setA r _)).bind fun _ => pure_stays _
    | indexed r e => exact indexedAddr_stays _ _ e
    | pcIndexed e => exact indexedAddr_stays _ _ e
    | ind _ | disp _ _ | absW _ | absL _ | pcDisp _ => exact pure_stays _
    | dreg _ | areg _ | imm _ => exact raiseIllegal_stays

/-! ## Operands -/

theorem readEa_stays (sz : Size) (own : Nat) (ea : Ea) : BodyStays s (readEa sz own ea) :=
  Stays.get fun _ _ => by
    cases ea with
    | dreg _ | areg _ | imm _ => exact pure_stays _
    | _ => exact (memAddr_stays sz own _).bind fun _ => readMem_stays _ _ _ sz

theorem writeEa_stays (sz : Size) (own : Nat) (ea : Ea) (v : Long) : BodyStays s (writeEa sz own ea v) := by
  cases ea with
  | dreg r => exact modify_stays fun _ h => h.putD sz r v
  | areg _ | pcDisp _ | pcIndexed _ | imm _ => exact raiseIllegal_stays
  | _ => exact (memAddr_stays sz own _).bind fun _ => writeData_stays _ sz v

theorem modifyEa_stays (sz : Size) (own : Nat) (ea : Ea) (f : Long → CC → Long × CC) :
    BodyStays s (modifyEa sz own ea f) := by
  cases ea with
  | dreg r => exact modify_stays fun _ h => (h.putD sz r _).setCc _
  | areg _ | pcDisp _ | pcIndexed _ | imm _ => exact raiseIllegal_stays
  | _ =>
    exact (memAddr_stays sz own _).bind fun _ => (readData_stays _ sz).bind fun _ => Stays.get fun _ h =>
      (set_stays (h.setCc _)).bind fun _ => writeData_stays _ sz _

theorem testEa_stays (sz : Size) (own : Nat) (ea : Ea) (f : Long → CC → CC) : BodyStays s (testEa sz own ea f) :=
  (readEa_stays sz own ea).bind fun _ => modify_stays fun _ h => h.setCc _

/-! ## Register lists (R204) -/

theorem storeRegs_stays (sz : Size) (a : Long) (rns : List Rn) : BodyStays s (storeRegs sz a rns) := by
  induction rns generalizing a with
  | nil => exact pure_stays _
  | cons rn rest ih => exact Stays.get fun _ _ => (writeData_stays _ _ _).bind fun _ => ih _

theorem storeRegsDown_stays (sz : Size) (n : Reg) (a : Long) (rns : List Rn) :
    BodyStays s (storeRegsDown sz n a rns) := by
  induction rns generalizing a with
  | nil => exact pure_stays _
  | cons rn rest ih => exact Stays.get fun _ _ => (writeData_stays _ _ _).bind fun _ => ih _

theorem loadRegs_stays (space : FC) (sz : Size) (a : Long) (rns : List Rn) :
    BodyStays s (loadRegs space sz a rns) := by
  induction rns generalizing a with
  | nil => exact pure_stays _
  | cons rn rest ih =>
    exact (readMem_stays _ _ _ _).bind fun _ => (modify_stays fun _ h => h.setR rn _).bind fun _ =>
      afterMade_stays (ih _)

/-! ## Return from exception (R388, R541, R550 to R553) -/

theorem rteFormatError_stays : BodyStays s (rteFormatError s) :=
  (modify_stays fun t _ => ((Confined.refl s).atDraw t)).bind fun _ => raised_stays _

theorem loadInternal_stays (a : Long) (n : Nat) : BodyStays s (loadInternal s a n) := by
  intro t ht
  have hread := busRead_stays (s := s) false supervisorData a n
  unfold loadInternal
  cases hx : busRead false supervisorData a n t with
  | ok bs u => exact hread.ok ht hx
  | error f u =>
    have hu := (hread.error ht hx).1
    cases hn : f.never with
    | true => simpa [hn] using ⟨Confined.refl s, List.forall_mem_singleton.mpr (Confined.refl s)⟩
    | false => simpa [hn] using ⟨hu, trivial⟩

theorem rteInternal_stays (size : Nat) : BodyStays s (rteInternal s size) :=
  Stays.get fun _ _ => (loadInternal_stays _ _).bind fun _ => refuse_stays _

theorem rteLongFrame_stays (sr : Word) (pc : Long) : BodyStays s (rteLongFrame s sr pc) :=
  Stays.get fun _ _ => (loadInternal_stays _ _).bind fun _ => Stays.ite rteFormatError_stays <|
    (loadInternal_stays _ _).bind fun _ => Stays.ite
      ((loadInternal_stays _ _).bind fun _ => modify_stays fun _ h => (h.restore _ sr pc).withEnding .rerun)
      (rteInternal_stays _)

theorem rteLoop_stays (n : Nat) : BodyStays s (rteLoop s n) := by
  induction n with
  | zero => exact fun _ ht => ⟨ht, trivial⟩
  | succ n ih =>
    refine Stays.get fun _ _ => (readMem_stays _ _ _ _).bind fun sr => (readMem_stays _ _ _ _).bind fun pc =>
      (readMem_stays _ _ _ _).bind fun fw => ?_
    split
    · exact modify_stays fun _ h => h.restore _ _ pc
    · exact (modify_stays fun _ h => (h.setSp _).setSr _).bind fun _ => checkpoint_stays ih
    · exact modify_stays fun _ h => h.restore _ _ pc
    · exact rteInternal_stays _
    · exact rteInternal_stays _
    · exact rteLongFrame_stays _ _
    · exact rteFormatError_stays

end Sys2Proof.Machine
end

/-! # Every meaning but that of MOVEC to a control register stays confined -/

section
namespace Sys2Proof.Machine

variable {s : State} {sz : Size} {wl : WL} {ea dst : Ea} {dn an rx ry : Reg} {rn : Rn} {k : Nat} {v : Imm}

/-! ## Data movement (40_data_movement) -/

theorem execMove_confines : Confines s (execMove sz ea dst s) :=
  runInstr_confines <| (readEa_stays _ _ _).bind fun _ =>
    (checkpoint_stays <| (modify_stays fun _ h => h.setCc _).bind fun _ => writeEa_stays _ _ _ _).bind
      fun _ => advance_stays _

theorem execMovea_confines : Confines s (execMovea wl ea an s) :=
  runInstr_confines <| (readEa_stays _ _ _).bind fun _ => (modify_stays fun _ h => h.setA _ _).bind
    fun _ => advance_stays _

theorem execMoveq_confines {data : Byte} : Confines s (execMoveq dn data s) :=
  runInstr_confines <| (modify_stays fun _ h => (h.setD _ _).setCc _).bind fun _ => advance_stays _

theorem execMovemToMem_confines {mask : Word} : Confines s (execMovemToMem wl mask ea s) := by
  refine runInstr_confines ?_
  cases ea with
  | predec n =>
    exact Stays.get fun _ _ => (storeRegsDown_stays _ _ _ _).bind fun _ =>
      (modify_stays fun _ h => h.setA n _).bind fun _ => advance_stays _
  | dreg _ | areg _ | postinc _ | pcDisp _ | pcIndexed _ | imm _ =>
    exact raiseIllegal_stays.bind fun _ => advance_stays _
  | ind _ | disp _ _ | indexed _ _ | absW _ | absL _ =>
    exact (memAddr_stays _ _ _).bind fun _ => (storeRegs_stays _ _ _).bind fun _ => advance_stays _

theorem execMovemToReg_confines {mask : Word} : Confines s (execMovemToReg wl mask ea s) := by
  refine runInstr_confines (Stays.get fun _ _ => ?_)
  cases ea with
  | postinc n =>
    exact (loadRegs_stays _ _ _ _).bind fun _ => (modify_stays fun _ h => h.setA n _).bind
      fun _ => advance_stays _
  | dreg _ | areg _ | predec _ | imm _ => exact raiseIllegal_stays.bind fun _ => advance_stays _
  | ind _ | disp _ _ | indexed _ _ | absW _ | absL _ | pcDisp _ | pcIndexed _ =>
    exact (memAddr_stays _ _ _).bind fun _ => (loadRegs_stays _ _ _ _).bind fun _ => advance_stays _

theorem storeAlternate_stays (a x : Long) (n : Nat) : BodyStays s (storeAlternate a x n) := by
  induction n generalizing a with
  | zero => exact pure_stays _
  | succ n ih => exact (writeData_stays _ _ _).bind fun _ => ih _

theorem loadAlternate_stays (a acc : Long) (n : Nat) : BodyStays s (loadAlternate a acc n) := by
  induction n generalizing a acc with
  | zero => exact pure_stays _
  | succ n ih => exact (readData_stays _ _).bind fun _ => ih _ _

theorem execMovep_confines {toMem : Bool} {d16 : Word} : Confines s (execMovep toMem wl rx an d16 s) :=
  runInstr_confines <| Stays.get fun _ _ => Stays.ite
    ((storeAlternate_stays _ _ _).bind fun _ => advance_stays _)
    ((loadAlternate_stays _ _ _).bind fun _ => (modify_stays fun _ h => h.putD _ _ _).bind fun _ => advance_stays _)

theorem execLea_confines : Confines s (execLea ea an s) :=
  runInstr_confines <| (memAddr_stays _ _ _).bind fun _ => (modify_stays fun _ h => h.setA _ _).bind
    fun _ => advance_stays _

theorem execPea_confines : Confines s (execPea ea s) :=
  runInstr_confines <| (memAddr_stays _ _ _).bind fun _ => (pushLong_stays _).bind fun _ => advance_stays _

theorem linkBody_stays {d : Long} : BodyStays s (linkBody an d) := by
  unfold linkBody
  exact refuseIf_stays <| Stays.get fun _ _ => (pushLong_stays _).bind fun _ =>
    modify_stays fun _ h => (h.setA _ _).setSp _

theorem execLinkW_confines {d16 : Word} : Confines s (execLinkW an d16 s) :=
  runInstr_confines <| linkBody_stays.bind fun _ => advance_stays _

theorem execLinkL_confines {d32 : Long} : Confines s (execLinkL an d32 s) :=
  runInstr_confines <| linkBody_stays.bind fun _ => advance_stays _

theorem execUnlk_confines : Confines s (execUnlk an s) :=
  runInstr_confines <| refuseIf_stays <| (modify_stays fun _ h => h.setSp _).bind fun _ => popLong_stays.bind fun _ =>
    (modify_stays fun _ h => h.setA _ _).bind fun _ => advance_stays _

theorem execExg_confines {m : ExgMode} : Confines s (execExg m rx ry s) := by
  refine runInstr_confines (Stays.get fun _ h => ?_)
  cases m with
  | dd => exact (set_stays ((h.setD _ _).setD _ _)).bind fun _ => advance_stays _
  | aa => exact (set_stays ((h.setA _ _).setA _ _)).bind fun _ => advance_stays _
  | da => exact (set_stays ((h.setD _ _).setA _ _)).bind fun _ => advance_stays _

/-! ## Integer arithmetic (41_integer_arithmetic) -/

theorem aluToReg_stays {op : AluOp} : BodyStays s (aluToReg op sz ea dn) :=
  (readEa_stays _ _ _).bind fun _ => (modify_stays fun _ h => (h.putD _ _ _).setCc _).bind fun _ => advance_stays _

theorem aluToEa_stays {op : AluOp} : BodyStays s (aluToEa op sz dn ea) :=
  Stays.get fun _ _ => (modifyEa_stays _ _ _ _).bind fun _ => advance_stays _

theorem aluToAddr_stays {f : Long → Long → Long} : BodyStays s (aluToAddr f wl ea an) :=
  (readEa_stays _ _ _).bind fun _ => (modify_stays fun _ h => h.setA _ _).bind fun _ => advance_stays _

theorem aluImm_stays {op : AluOp} : BodyStays s (aluImm op sz v ea) :=
  (modifyEa_stays _ _ _ _).bind fun _ => advance_stays _

theorem aluQuick_stays {op : AluOp} {f : Long → Long → Long} : BodyStays s (aluQuick op f sz dn ea) := by
  cases ea with
  | areg r => exact (modify_stays fun _ h => h.setA r _).bind fun _ => advance_stays _
  | _ => exact (modifyEa_stays _ _ _ _).bind fun _ => advance_stays _

theorem aluExtend_stays {op : AluOp} {mem : Bool} : BodyStays s (aluExtend op sz mem ry rx) :=
  Stays.ite
    ((readEa_stays _ _ _).bind fun _ => (checkpoint_stays (modifyEa_stays _ _ _ _)).bind fun _ => advance_stays _)
    ((readEa_stays _ _ _).bind fun _ => (modifyEa_stays _ _ _ _).bind fun _ => advance_stays _)

theorem execClr_confines : Confines s (execClr sz ea s) :=
  runInstr_confines <| (modify_stays fun _ h => h.setCc _).bind fun _ => (writeEa_stays _ _ _ _).bind
    fun _ => advance_stays _

theorem execCmp_confines : Confines s (execCmp sz ea dn s) :=
  runInstr_confines <| (readEa_stays _ _ _).bind fun _ => (modify_stays fun _ h => h.setCc _).bind
    fun _ => advance_stays _

theorem execCmpa_confines : Confines s (execCmpa wl ea an s) :=
  runInstr_confines <| (readEa_stays _ _ _).bind fun _ => (modify_stays fun _ h => h.setCc _).bind
    fun _ => advance_stays _

theorem execCmpi_confines : Confines s (execCmpi sz v ea s) :=
  runInstr_confines <| (testEa_stays _ _ _ _).bind fun _ => advance_stays _

theorem execCmpm_confines : Confines s (execCmpm sz ry rx s) :=
  runInstr_confines <| (readEa_stays _ _ _).bind fun _ => (checkpoint_stays (testEa_stays _ _ _ _)).bind
    fun _ => advance_stays _

theorem boundsOf_stays : BodyStays s (boundsOf sz ea rn) :=
  (memAddr_stays _ _ _).bind fun _ => Stays.get fun _ _ => (readMem_stays _ _ _ _).bind fun _ =>
    (readMem_stays _ _ _ _).bind fun _ => Stays.ite (pure_stays _) (pure_stays _)

theorem compareBounds_stays {lo hi x : Long} : BodyStays s (compareBounds sz lo hi x) :=
  draw_stays.bind fun _ => (modify_stays fun _ h => h.setCc _).bind fun _ => pure_stays _

theorem execCmp2_confines : Confines s (execCmp2 sz ea rn s) :=
  runInstr_confines <| boundsOf_stays.bind fun _ => compareBounds_stays.bind fun _ => advance_stays _

theorem zeroDivide_stays : BodyStays s (zeroDivide k) :=
  draw_stays.bind fun _ => (modify_stays fun _ h => h.setCc _).bind fun _ => Stays.get fun _ _ => raised_stays _

theorem divOverflow_stays : BodyStays s divOverflow :=
  draw_stays.bind fun _ => modify_stays fun _ h => h.setCc _

theorem divWord_stays {signed : Bool} : BodyStays s (divWord signed ea dn) :=
  (readEa_stays _ _ _).bind fun _ => Stays.ite zeroDivide_stays <| Stays.get fun _ h => Stays.ite
    ((set_stays ((h.setD _ _).setCc _)).bind fun _ => advance_stays _)
    (divOverflow_stays.bind fun _ => advance_stays _)

theorem execDivL_confines {signed wide : Bool} : Confines s (execDivL ea dn signed wide rx s) :=
  runInstr_confines <| (readEa_stays _ _ _).bind fun _ => Stays.ite zeroDivide_stays <| Stays.get fun _ h => Stays.ite
    ((set_stays (h.setCc _)).bind fun _ => Stays.ite
      (Stays.ite
        (draw_stays.bind fun _ => (modify_stays fun _ h => h.setD _ _).bind fun _ => advance_stays _)
        ((modify_stays fun _ h => h.setD _ _).bind fun _ => advance_stays _))
      ((modify_stays fun _ h => (h.setD _ _).setD _ _).bind fun _ => advance_stays _))
    (divOverflow_stays.bind fun _ => advance_stays _)

theorem execExtW_confines : Confines s (execExtW dn s) :=
  runInstr_confines <| (modify_stays fun _ h => (h.putD _ _ _).setCc _).bind fun _ => advance_stays _

theorem execExtL_confines : Confines s (execExtL dn s) :=
  runInstr_confines <| (modify_stays fun _ h => (h.setD _ _).setCc _).bind fun _ => advance_stays _

theorem execExtbL_confines : Confines s (execExtbL dn s) :=
  runInstr_confines <| (modify_stays fun _ h => (h.setD _ _).setCc _).bind fun _ => advance_stays _

theorem mulWord_stays {signed : Bool} : BodyStays s (mulWord signed ea dn) :=
  (readEa_stays _ _ _).bind fun _ => (modify_stays fun _ h => (h.setD _ _).setCc _).bind fun _ => advance_stays _

theorem execMulL_confines {signed wide : Bool} : Confines s (execMulL ea dn signed wide rx s) :=
  runInstr_confines <| (readEa_stays _ _ _).bind fun _ => Stays.get fun _ h => Stays.ite
    ((set_stays (h.setCc _)).bind fun _ => Stays.ite
      (draw_stays.bind fun _ => (modify_stays fun _ h => h.setD _ _).bind fun _ => advance_stays _)
      ((modify_stays fun _ h => (h.setD _ _).setD _ _).bind fun _ => advance_stays _))
    ((set_stays ((h.setD _ _).setCc _)).bind fun _ => advance_stays _)

theorem execNeg_confines : Confines s (execNeg sz ea s) :=
  runInstr_confines <| (modifyEa_stays _ _ _ _).bind fun _ => advance_stays _

theorem execNegx_confines : Confines s (execNegx sz ea s) :=
  runInstr_confines <| (modifyEa_stays _ _ _ _).bind fun _ => advance_stays _

/-! ## Logic, shifts and rotates (42_logical, 43_shift_rotate) -/

theorem logicToReg_stays {op : BitOp} : BodyStays s (logicToReg op sz ea dn) :=
  (readEa_stays _ _ _).bind fun _ => (modify_stays fun _ h => (h.putD _ _ _).setCc _).bind fun _ => advance_stays _

theorem logicToEa_stays {op : BitOp} : BodyStays s (logicToEa op sz dn ea) :=
  Stays.get fun _ _ => (modifyEa_stays _ _ _ _).bind fun _ => advance_stays _

theorem logicImmediate_stays {op : BitOp} : BodyStays s (logicImmediate op sz v ea) :=
  (modifyEa_stays _ _ _ _).bind fun _ => advance_stays _

theorem execNot_confines : Confines s (execNot sz ea s) :=
  runInstr_confines <| (modifyEa_stays _ _ _ _).bind fun _ => advance_stays _

theorem execTst_confines : Confines s (execTst sz ea s) :=
  runInstr_confines <| (testEa_stays _ _ _ _).bind fun _ => advance_stays _

theorem shiftReg_stays {op : ShiftOp} {c : ShiftCount} : BodyStays s (shiftReg op sz c dn) :=
  (modify_stays fun _ h => (h.putD _ _ _).setCc _).bind fun _ => advance_stays _

theorem shiftMem_stays {op : ShiftOp} : BodyStays s (shiftMem op ea) :=
  (modifyEa_stays _ _ _ _).bind fun _ => advance_stays _

theorem execSwap_confines : Confines s (execSwap dn s) :=
  runInstr_confines <| (modify_stays fun _ h => (h.setD _ _).setCc _).bind fun _ => advance_stays _

/-! ## Bits and bit fields (44_bit_and_bitfield) -/

theorem bitTest_stays {n : Nat} : BodyStays s (bitTest n k ea) :=
  (testEa_stays _ _ _ _).bind fun _ => advance_stays _

theorem bitModify_stays {f : BitChange} {n : Nat} : BodyStays s (bitModify f n k ea) :=
  (modifyEa_stays _ _ _ _).bind fun _ => advance_stays _

theorem bitNumber_stays : BodyStays s (bitNumber dn) := Stays.get fun _ _ => pure_stays _

theorem execBtstDyn_confines : Confines s (execBtstDyn dn ea s) :=
  runInstr_confines <| bitNumber_stays.bind fun _ => bitTest_stays

/-- BCHG, BCLR and BSET with the number in a register. -/
theorem bitModifyDyn_stays {f : BitChange} : BodyStays s (do let n ← bitNumber dn; bitModify f n 0 ea) :=
  bitNumber_stays.bind fun _ => bitModify_stays

theorem readField_stays (fc : FC) (a : Long) (n : Nat) : BodyStays s (readField fc a n) :=
  (liftBus_stays (busRead_stays _ _ _ _)).bind fun _ => (liftBus_stays (busRead_stays _ _ _ _)).bind
    fun _ => pure_stays _

theorem writeField_stays (fc : FC) (a : Long) (bs : List Byte) : BodyStays s (writeField fc a bs) :=
  (liftBus_stays (busWrite_stays _ _ _ _)).bind fun _ => liftBus_stays (busWrite_stays _ _ _ _)

theorem fetchField_stays {f : BitField} : BodyStays s (fetchField ea f) :=
  Stays.get fun _ _ => by
    cases ea with
    | dreg r => exact pure_stays _
    | _ => exact (memAddr_stays _ _ _).bind fun _ => (readField_stays _ _ _).bind fun _ => pure_stays _

theorem storeField_stays (x : Field) (y : Long) : BodyStays s (storeField x y) := by
  unfold storeField
  split
  · exact modify_stays fun _ h => h.setD _ _
  · exact writeField_stays _ _ _

theorem fieldInstr_stays {f : BitField} {body : Field → M Unit} (hb : ∀ x, BodyStays s (body x)) :
    BodyStays s (fieldInstr ea f body) :=
  fetchField_stays.bind fun x => (modify_stays fun _ h => h.setCc _).bind fun _ => (hb x).bind
    fun _ => advance_stays _

theorem execBftst_confines {f : BitField} : Confines s (execBftst ea f s) :=
  runInstr_confines <| fieldInstr_stays fun _ => pure_stays _

/-- BFCHG, BFCLR and BFSET: the field is replaced. -/
theorem fieldStore_stays {f : BitField} {y : Field → Long} :
    BodyStays s (fieldInstr ea f fun x => storeField x (y x)) :=
  fieldInstr_stays fun x => storeField_stays x _

/-- BFEXTU and BFEXTS: the field goes to a data register. -/
theorem fieldExtract_stays {f : BitField} {y : Field → Long} :
    BodyStays s (fieldInstr ea f fun x => modify fun t => t.setD dn (y x)) :=
  fieldInstr_stays fun _ => modify_stays fun _ h => h.setD _ _

theorem ffoOffset_stays (off : Int) (x : Field) : BodyStays s (ffoOffset off x) :=
  Stays.ite (drawBit_stays.bind fun _ => pure_stays _) (pure_stays _)

theorem execBfffo_confines {f : BitField} : Confines s (execBfffo ea f dn s) :=
  runInstr_confines <| fieldInstr_stays fun x => (ffoOffset_stays _ x).bind fun _ =>
    modify_stays fun _ h => h.setD _ _

theorem execBfins_confines {f : BitField} : Confines s (execBfins dn ea f s) :=
  runInstr_confines <| fetchField_stays.bind fun x => Stays.get fun _ h => (set_stays (h.setCc _)).bind fun _ =>
    (storeField_stays x _).bind fun _ => advance_stays _

/-! ## Binary-coded decimal (45_bcd) -/

theorem bcdTwo_stays {op : BcdOp} {mem : Bool} : BodyStays s (bcdTwo op mem ry rx) :=
  draw_stays.bind fun _ => Stays.ite
    ((readEa_stays _ _ _).bind fun _ => (checkpoint_stays (modifyEa_stays _ _ _ _)).bind fun _ => advance_stays _)
    ((readEa_stays _ _ _).bind fun _ => (modifyEa_stays _ _ _ _).bind fun _ => advance_stays _)

theorem execNbcd_confines : Confines s (execNbcd ea s) :=
  runInstr_confines <| draw_stays.bind fun _ => (modifyEa_stays _ _ _ _).bind fun _ => advance_stays _

theorem packStep_stays : BodyStays s (packStep rx) :=
  Stays.ite (drawBit_stays.bind fun _ => pure_stays _) (pure_stays _)

theorem stepDown_stays {step : Long} : BodyStays s (stepDown rx step) :=
  Stays.get fun _ h => (set_stays (h.setA _ _)).bind fun _ => pure_stays _

theorem execPack_confines {mem : Bool} {adj : Word} : Confines s (execPack mem ry rx adj s) :=
  runInstr_confines <| Stays.ite
    (packStep_stays.bind fun _ => packStep_stays.bind fun _ => stepDown_stays.bind fun _ =>
      (readData_stays _ _).bind fun _ =>
        (checkpoint_stays <| stepDown_stays.bind fun _ => (readData_stays _ _).bind fun _ =>
          checkpoint_stays <| stepDown_stays.bind fun _ => writeData_stays _ _ _).bind fun _ => advance_stays _)
    ((modify_stays fun _ h => h.putD _ _ _).bind fun _ => advance_stays _)

theorem execUnpk_confines {mem : Bool} {adj : Word} : Confines s (execUnpk mem ry rx adj s) :=
  runInstr_confines <| Stays.ite
    (packStep_stays.bind fun _ => packStep_stays.bind fun _ => stepDown_stays.bind fun _ =>
      (readData_stays _ _).bind fun _ =>
        (checkpoint_stays <| stepDown_stays.bind fun _ => (writeData_stays _ _ _).bind fun _ =>
          checkpoint_stays <| stepDown_stays.bind fun _ => writeData_stays _ _ _).bind fun _ => advance_stays _)
    ((modify_stays fun _ h => h.putD _ _ _).bind fun _ => advance_stays _)

/-! ## Program control (46_program_control) -/

theorem branchBy_stays {d : Long} : BodyStays s (branchBy d) := Stays.get fun _ _ => jump_stays _

theorem execBcc_confines {c : Cond} {d : BrDisp} : Confines s (execBcc c d s) :=
  runInstr_confines <| Stays.ite branchBy_stays (advance_stays _)

theorem execBra_confines {d : BrDisp} : Confines s (execBra d s) := runInstr_confines branchBy_stays

theorem execBsr_confines {d : BrDisp} : Confines s (execBsr d s) :=
  runInstr_confines <| (pushLong_stays _).bind fun _ => branchBy_stays

theorem execDbcc_confines {c : Cond} {d16 : Word} : Confines s (execDbcc c dn d16 s) :=
  runInstr_confines <| Stays.ite (advance_stays _) <| (modify_stays fun _ h => h.putD _ _ _).bind fun _ =>
    Stays.ite branchBy_stays (advance_stays _)

theorem execScc_confines {c : Cond} : Confines s (execScc c ea s) :=
  runInstr_confines <| (writeEa_stays _ _ _ _).bind fun _ => advance_stays _

theorem execJmp_confines : Confines s (execJmp ea s) :=
  runInstr_confines <| (memAddr_stays _ _ _).bind fun _ => jump_stays _

theorem execJsr_confines : Confines s (execJsr ea s) :=
  runInstr_confines <| (memAddr_stays _ _ _).bind fun _ => (pushLong_stays _).bind fun _ => jump_stays _

theorem execRts_confines : Confines s (execRts s) :=
  runInstr_confines <| popLong_stays.bind fun _ => jump_stays _

theorem setCcr_stays {w : Word} : BodyStays s (setCcr w) := modify_stays fun _ h => h.setCc _

theorem execRtr_confines : Confines s (execRtr s) :=
  runInstr_confines <| (readData_stays _ _).bind fun _ => setCcr_stays.bind fun _ =>
    (modify_stays fun _ h => h.setSp _).bind fun _ => popLong_stays.bind fun _ => jump_stays _

theorem execRtd_confines {d16 : Word} : Confines s (execRtd d16 s) :=
  runInstr_confines <| popLong_stays.bind fun _ => (modify_stays fun _ h => h.setSp _).bind fun _ => jump_stays _

theorem execNop_confines : Confines s (execNop s) := runInstr_confines (advance_stays 1)

theorem checkModule_stays {w : Word} : BodyStays s (checkModule w) :=
  Stays.get fun _ _ => Stays.ite (Stays.ite (refuse_stays _) (pure_stays _)) (raised_stays _)

theorem writeLongs_stays (a : Long) (vs : List Long) : BodyStays s (writeLongs a vs) := by
  induction vs generalizing a with
  | nil => exact pure_stays _
  | cons x rest ih => exact (writeData_stays _ _ _).bind fun _ => ih _

theorem execCallm_confines {argc : Byte} : Confines s (execCallm argc ea s) :=
  runInstr_confines <| (memAddr_stays _ _ _).bind fun _ => Stays.get fun _ _ => (readMem_stays _ _ _ _).bind fun _ =>
    checkModule_stays.bind fun _ => (readMem_stays _ _ _ _).bind fun _ => (readData_stays _ _).bind fun _ =>
      refuseIf_stays <| Stays.get fun _ _ => draw_stays.bind fun _ => (modify_stays fun _ h => h.setSp _).bind fun _ =>
        (writeLongs_stays _ _).bind fun _ => (readMem_stays _ _ _ _).bind fun _ =>
          (modify_stays fun _ h => h.setR _ _).bind fun _ => jump_stays _

theorem execRtm_confines : Confines s (execRtm rn s) :=
  runInstr_confines <| (readData_stays _ _).bind fun _ => checkModule_stays.bind fun _ =>
    (readData_stays _ _).bind fun _ => setCcr_stays.bind fun _ => (readData_stays _ _).bind fun _ =>
      (readData_stays _ _).bind fun _ => (readData_stays _ _).bind fun _ =>
        (modify_stays fun _ h => (h.setR _ _).setSp _).bind fun _ => jump_stays _

/-! ## System control (47_system_control) -/

theorem execTrap_confines {n : Fin 16} : Confines s (execTrap n s) := runInstr_confines (raised_stays _)

theorem execTrapcc_confines {c : Cond} {op : TrapOperand} : Confines s (execTrapcc c op s) :=
  runInstr_confines <| Stays.ite (raised_stays _) (advance_stays _)

theorem execTrapv_confines : Confines s (execTrapv s) :=
  runInstr_confines <| Stays.ite (raised_stays _) (advance_stays _)

theorem execChk_confines : Confines s (execChk wl ea dn s) :=
  runInstr_confines <| (readEa_stays _ _ _).bind fun _ => Stays.get fun _ _ => draw_stays.bind fun _ => Stays.ite
    ((modify_stays fun _ h => h.setCc _).bind fun _ => raised_stays _)
    (Stays.ite ((modify_stays fun _ h => h.setCc _).bind fun _ => raised_stays _)
      ((modify_stays fun _ h => h.setCc _).bind fun _ => advance_stays _))

theorem execChk2_confines : Confines s (execChk2 sz ea rn s) :=
  runInstr_confines <| boundsOf_stays.bind fun _ => compareBounds_stays.bind fun _ => Stays.get fun _ _ =>
    Stays.ite (raised_stays _) (advance_stays _)

theorem execStop_confines {w : Word} : Confines s (execStop w s) :=
  runInstr_confines <| privileged_stays <| (modify_stays fun _ h => (h.setSr _).withRun _).bind
    fun _ => advance_stays _

theorem execRte_confines : Confines s (execRte s) :=
  runInstr_confines (privileged_stays (rteLoop_stays rteFuel))

theorem execReset_confines : Confines s (execReset s) := runInstr_confines (privileged_stays (advance_stays 1))

theorem execMoveFromSr_confines : Confines s (execMoveFromSr ea s) :=
  runInstr_confines <| privileged_stays <| (writeEa_stays _ _ _ _).bind fun _ => advance_stays _

theorem execMoveToSr_confines : Confines s (execMoveToSr ea s) :=
  runInstr_confines <| privileged_stays <| (readEa_stays _ _ _).bind fun _ =>
    (modify_stays fun _ h => h.setSr _).bind fun _ => advanceSr_stays _

theorem changeSr_stays {f : Word → Word} : BodyStays s (changeSr f) :=
  privileged_stays <| (modify_stays fun _ h => h.setSr _).bind fun _ => advanceSr_stays _

theorem execMoveUsp_confines {toReg : Bool} : Confines s (execMoveUsp toReg an s) :=
  runInstr_confines <| privileged_stays <| Stays.ite
    ((modify_stays fun _ h => h.setA _ _).bind fun _ => advance_stays _)
    ((modify_stays fun _ h => h.withUsp _).bind fun _ => advance_stays _)

theorem execMoves_confines {toMem : Bool} : Confines s (execMoves sz toMem rn ea s) :=
  runInstr_confines <| privileged_stays <| (memAddr_stays _ _ _).bind fun _ => Stays.ite
    (draw_stays.bind fun _ => (writeMem_stays _ _ _ _ _).bind fun _ => advance_stays _)
    ((readMem_stays _ _ _ _).bind fun _ => (modify_stays fun t h => by
      split
      · exact h.setA _ _
      · exact h.putD _ _ _).bind fun _ => advance_stays _)

theorem execMoveFromCcr_confines : Confines s (execMoveFromCcr ea s) :=
  runInstr_confines <| (writeEa_stays _ _ _ _).bind fun _ => advance_stays _

theorem execMoveToCcr_confines : Confines s (execMoveToCcr ea s) :=
  runInstr_confines <| (readEa_stays _ _ _).bind fun _ => (modify_stays fun _ h => h.setCc _).bind
    fun _ => advance_stays _

theorem changeCcr_stays {f : Word → Word} : BodyStays s (changeCcr f) :=
  (modify_stays fun _ h => h.setCc _).bind fun _ => advance_stays _

/-- MOVEC from a control register writes a general register alone (R398). -/
theorem execMovec_read_confines {code : BitVec 12} : Confines s (execMovec false rn code s) := by
  refine runInstr_confines (privileged_stays ?_)
  split
  · exact raiseIllegal_stays
  · exact (modify_stays fun _ h => h.setR rn _).bind fun _ => advance_stays _

/-! ## Read-modify-write (48_multiprocessor) -/

theorem execTas_confines : Confines s (execTas ea s) := by
  refine runInstr_confines ?_
  cases ea with
  | dreg r => exact (modify_stays fun _ h => (h.putD _ r _).setCc _).bind fun _ => advance_stays _
  | areg _ | pcDisp _ | pcIndexed _ | imm _ => exact raiseIllegal_stays.bind fun _ => advance_stays _
  | _ =>
    exact (memAddr_stays _ _ _).bind fun _ => Stays.get fun _ _ => (readMem_stays _ _ _ _).bind fun _ =>
      (modify_stays fun _ h => h.setCc _).bind fun _ => (writeMem_stays _ _ _ _ _).bind fun _ => advance_stays _

theorem execCas_confines {du : Reg} : Confines s (execCas sz dn du ea s) :=
  runInstr_confines <| (memAddr_stays _ _ _).bind fun _ => Stays.get fun _ _ => (readMem_stays _ _ _ _).bind fun _ =>
    (modify_stays fun _ h => h.setCc _).bind fun _ => Stays.ite
      ((writeMem_stays _ _ _ _ _).bind fun _ => advance_stays _)
      ((modify_stays fun _ h => h.putD _ _ _).bind fun _ => advance_stays _)

theorem execCas2_confines {rn2 : Rn} {du1 dc1 du2 dc2 : Reg} :
    Confines s (execCas2 wl rn du1 dc1 rn2 du2 dc2 s) :=
  runInstr_confines <| Stays.get fun _ _ => (readMem_stays _ _ _ _).bind fun _ => (readMem_stays _ _ _ _).bind fun _ =>
    (modify_stays fun _ h => h.setCc _).bind fun _ => Stays.ite
      ((writeMem_stays _ _ _ _ _).bind fun _ => (writeMem_stays _ _ _ _ _).bind fun _ => advance_stays _)
      (Stays.ite
        (drawBit_stays.bind fun _ => (modify_stays fun _ h => h.putD _ _ _).bind fun _ => advance_stays _)
        ((modify_stays fun _ h => (h.putD _ _ _).putD _ _ _).bind fun _ => advance_stays _))

/-! ## Lines 1010 and 1111 (49_coprocessor) -/

theorem fLineTrap_stays (cpid ty : Reg) : BodyStays s (fLineTrap cpid ty) :=
  Stays.get fun _ _ => Stays.ite (raised_stays _) (raised_stays _)

theorem execALine_confines (any : BitVec 12) : Confines s (execALine any s) := runInstr_confines (raised_stays _)

end Sys2Proof.Machine
end

/-! # The control registers, and the invariant of every step -/

section
namespace Sys2Proof.Machine

/-- Every instruction but MOVEC to a control register stays confined, arm by arm of the dispatch. -/
theorem exec_confines (i : Instr) (s : State) (hi : ∀ rn code, i ≠ .movec true rn code) :
    Confines s (exec i s) := by
  cases i with
  | move => exact execMove_confines
  | movea => exact execMovea_confines
  | moveq => exact execMoveq_confines
  | movemToMem => exact execMovemToMem_confines
  | movemToReg => exact execMovemToReg_confines
  | movep => exact execMovep_confines
  | lea => exact execLea_confines
  | pea => exact execPea_confines
  | linkW => exact execLinkW_confines
  | linkL => exact execLinkL_confines
  | unlk => exact execUnlk_confines
  | exg => exact execExg_confines
  | addToReg | subToReg => exact runInstr_confines aluToReg_stays
  | addToEa | subToEa => exact runInstr_confines aluToEa_stays
  | adda | suba => exact runInstr_confines aluToAddr_stays
  | addi | subi => exact runInstr_confines aluImm_stays
  | addq | subq => exact runInstr_confines aluQuick_stays
  | addx | subx => exact runInstr_confines aluExtend_stays
  | clr => exact execClr_confines
  | cmp => exact execCmp_confines
  | cmpa => exact execCmpa_confines
  | cmpi => exact execCmpi_confines
  | cmpm => exact execCmpm_confines
  | cmp2 => exact execCmp2_confines
  | divuW | divsW => exact runInstr_confines divWord_stays
  | divL => exact execDivL_confines
  | extW => exact execExtW_confines
  | extL => exact execExtL_confines
  | extbL => exact execExtbL_confines
  | muluW | mulsW => exact runInstr_confines mulWord_stays
  | mulL => exact execMulL_confines
  | neg => exact execNeg_confines
  | negx => exact execNegx_confines
  | andToReg | orToReg => exact runInstr_confines logicToReg_stays
  | andToEa | orToEa | eor => exact runInstr_confines logicToEa_stays
  | andi | ori | eori => exact runInstr_confines logicImmediate_stays
  | not => exact execNot_confines
  | tst => exact execTst_confines
  | aslReg | asrReg | lslReg | lsrReg | rolReg | rorReg | roxlReg | roxrReg => exact runInstr_confines shiftReg_stays
  | aslMem | asrMem | lslMem | lsrMem | rolMem | rorMem | roxlMem | roxrMem => exact runInstr_confines shiftMem_stays
  | swap => exact execSwap_confines
  | btstDyn => exact execBtstDyn_confines
  | btstImm => exact runInstr_confines bitTest_stays
  | bchgDyn | bclrDyn | bsetDyn => exact runInstr_confines bitModifyDyn_stays
  | bchgImm | bclrImm | bsetImm => exact runInstr_confines bitModify_stays
  | bftst => exact execBftst_confines
  | bfextu | bfexts => exact runInstr_confines fieldExtract_stays
  | bfchg | bfclr | bfset => exact runInstr_confines fieldStore_stays
  | bfffo => exact execBfffo_confines
  | bfins => exact execBfins_confines
  | abcd | sbcd => exact runInstr_confines bcdTwo_stays
  | nbcd => exact execNbcd_confines
  | pack => exact execPack_confines
  | unpk => exact execUnpk_confines
  | bcc => exact execBcc_confines
  | bra => exact execBra_confines
  | bsr => exact execBsr_confines
  | dbcc => exact execDbcc_confines
  | scc => exact execScc_confines
  | jmp => exact execJmp_confines
  | jsr => exact execJsr_confines
  | rts => exact execRts_confines
  | rtr => exact execRtr_confines
  | rtd => exact execRtd_confines
  | nop => exact execNop_confines
  | callm => exact execCallm_confines
  | rtm => exact execRtm_confines
  | trap => exact execTrap_confines
  | trapcc => exact execTrapcc_confines
  | trapv => exact execTrapv_confines
  | chk => exact execChk_confines
  | chk2 => exact execChk2_confines
  | illegal | bkpt => exact runInstr_confines raiseIllegal_stays
  | stop => exact execStop_confines
  | rte => exact execRte_confines
  | reset => exact execReset_confines
  | moveFromSr => exact execMoveFromSr_confines
  | moveToSr => exact execMoveToSr_confines
  | andiToSr | eoriToSr | oriToSr => exact runInstr_confines changeSr_stays
  | moveUsp => exact execMoveUsp_confines
  | movec toCtl rn code =>
    cases toCtl with
    | false => exact execMovec_read_confines
    | true => exact absurd rfl (hi rn code)
  | moves => exact execMoves_confines
  | moveFromCcr => exact execMoveFromCcr_confines
  | moveToCcr => exact execMoveToCcr_confines
  | andiToCcr v => exact runInstr_confines (changeCcr_stays (f := fun w => w &&& v))
  | eoriToCcr v => exact runInstr_confines (changeCcr_stays (f := fun w => w ^^^ v))
  | oriToCcr v => exact runInstr_confines (changeCcr_stays (f := fun w => w ||| v))
  | tas => exact execTas_confines
  | cas => exact execCas_confines
  | cas2 => exact execCas2_confines
  | cpGen cpid => exact runInstr_confines (fLineTrap_stays cpid 0)
  | cpScc cpid | cpDbcc cpid | cpTrapcc cpid => exact runInstr_confines (fLineTrap_stays cpid 1)
  | cpBcc cpid long => exact runInstr_confines (fLineTrap_stays cpid (if long then 3 else 2))
  | cpSave cpid => exact runInstr_confines (fLineTrap_stays cpid 4)
  | cpRestore cpid => exact runInstr_confines (fLineTrap_stays cpid 5)
  | fLine any => exact runInstr_confines (fLineTrap_stays (cpidField any) (typeField any))
  | aLine any => exact execALine_confines any

/-! ## MOVEC to a control register -/

theorem State.writeControl_outside (s : State) (r : ControlReg) (v : Long) :
    (s.writeControl r v).outside = s.outside := by
  cases r <;> rfl

/-- A control register's write keeps the invariant: CACR holds its implemented bits alone (R32). -/
theorem State.writeControl_inv {s : State} (h : s.Inv) (r : ControlReg) (v : Long) : (s.writeControl r v).Inv := by
  obtain ⟨hm, hsr, hcopy, hcacr⟩ := h
  cases r with
  | cacr => exact ⟨hm, hsr, hcopy, mask_clear v 3⟩
  | sfc | dfc | usp | vbr | caar | msp | isp => exact ⟨hm, hsr, hcopy, hcacr⟩

/-- MOVEC to a control register takes an exception or writes the register it names (R398). -/
theorem execMovec_write_cases {s t : State} {rn : Rn} {code : BitVec 12} (h : exec (.movec true rn code) s = .next t) :
    Confined s t ∨ ∃ r, t = (s.writeControl r (s.getR rn)).goOn (s.npc 2) := by
  cases hs : s.sBit with
  | false =>
    rw [execMovec_user hs] at h
    cases h
    exact .inl ((Confined.refl s).takeException _)
  | true =>
    cases hc : controlReg code with
    | none =>
      rw [execMovec_unknown hs true rn hc] at h
      cases h
      exact .inl ((Confined.refl s).takeException _)
    | some r =>
      rw [execMovec_write hs rn hc] at h
      cases h
      exact .inr ⟨r, rfl⟩

/-! ## All instructions -/

/-- An instruction is a MOVEC to a control register or none. -/
theorem movec_write_or (i : Instr) :
    (∃ rn code, i = .movec true rn code) ∨ ∀ rn code, i ≠ .movec true rn code := by
  by_cases h : ∃ rn code, i = .movec true rn code
  · exact .inl h
  · exact .inr fun rn code hi => h ⟨rn, code, hi⟩

theorem exec_outside {i : Instr} {s t : State} (h : exec i s = .next t) : t.outside = s.outside := by
  rcases movec_write_or i with ⟨rn, code, rfl⟩ | hi
  · rcases execMovec_write_cases h with hc | ⟨r, rfl⟩
    · exact hc.outside
    · exact s.writeControl_outside r _
  · exact (exec_confines i s hi t h).outside

theorem exec_inv {i : Instr} {s t : State} (hs : s.Inv) (h : exec i s = .next t) : t.Inv := by
  rcases movec_write_or i with ⟨rn, code, rfl⟩ | hi
  · rcases execMovec_write_cases h with hc | ⟨r, rfl⟩
    · exact hc.inv hs
    · exact s.writeControl_inv hs r _
  · exact (exec_confines i s hi t h).inv hs

/-- Settles O20: the bodies stay confined, and MOVEC to a control register writes no more than that register and,
for CACR, the cache. -/
theorem onlyMovecWritesControl : Obligations.OnlyMovecWritesControl := by
  intro i s t h
  refine ⟨fun hi => ?_, ?_⟩
  · simpa only [State.control, Prod.mk.injEq] using (exec_confines i s hi t h).control
  · simpa only [State.outside, Prod.mk.injEq] using exec_outside h

/-! ## What comes before and after an instruction keeps the invariant -/

theorem State.fillWord_inv {s : State} (h : s.Inv) (a : Long) : (s.fillWord a).Inv := by
  unfold State.fillWord
  split
  · split
    · exact h
    · exact h
  · exact h

theorem State.fillWords_inv {s : State} (h : s.Inv) (a : Long) (n : Nat) : (s.fillWords a n).Inv := by
  induction n generalizing s a with
  | zero => exact h
  | succ n ih => exact ih (s.fillWord_inv h a) _

theorem State.takeException_inv {s : State} (h : s.Inv) (x : Exc) : (s.takeException x).Inv :=
  ((Confined.refl s).takeException x).inv h

theorem State.takeOwnTrace_inv {t : State} (h : t.Inv) (a : Long) : (t.takeOwnTrace a).Inv := by
  unfold State.takeOwnTrace
  split
  · exact h
  · exact t.takeException_inv h _

theorem State.oweTrace_inv {t : State} (h : t.Inv) (a : Long) : (t.oweTrace a).Inv := by
  unfold State.oweTrace
  split
  · exact h
  · exact h

/-- The trace at the end of an instruction is none, its own, the owed one, or owed (R545 to R548). -/
theorem traceAfter_inv {t : State} (h : t.Inv) (s : State) : (traceAfter s t).Inv := by
  have hown : ∀ u : State, u.Inv → ∀ b : Bool, (if b then u.takeOwnTrace s.pc else u).Inv := by
    rintro u hu (_ | _)
    · exact hu
    · exact u.takeOwnTrace_inv hu s.pc
  unfold traceAfter
  split
  · exact h
  · split
    case h_1 | h_2 => exact h
    case h_3 =>
      split
      · exact t.oweTrace_inv h s.pc
      · exact h
    case h_4 =>
      split
      · split
        · exact State.takeException_inv (s := { (t.used 1) with owed := none }) h _
        · exact hown (t.used 1) h _
      · exact hown t h _
    case h_5 | h_6 | h_7 => exact hown t h _

theorem afterInstr_inv {t : State} (h : t.Inv) (s : State) : (afterInstr s t).Inv :=
  traceAfter_inv (t := ({ t with pipe := pipeAfter s t } : State).used 1) h s

theorem State.fetchError_inv {s : State} (h : s.Inv) (k : Nat) : (s.fetchError k).Inv := by
  unfold State.fetchError
  dsimp only
  split
  · exact h
  · exact ((Confined.refl s).enterFault 2 _ s.pc _).inv h

theorem State.undecoded_inv {s t : State} (h : s.Inv) {ws : List Word} {why : Stop}
    (ht : s.undecoded ws why = .next t) : t.Inv := by
  unfold State.undecoded at ht
  split at ht
  · cases ht
    exact s.takeException_inv h _
  · split at ht <;> cases ht
    · exact s.takeException_inv h _
    · exact s.fetchError_inv h _

theorem State.runNext_inv {s t : State} (h : s.Inv) (ht : s.runNext = .next t) : t.Inv := by
  unfold State.runNext at ht
  dsimp only at ht
  split at ht
  · split at ht <;> cases ht
    next hexec => exact afterInstr_inv (exec_inv (s.fillWords_inv h _ _) hexec) s
  · split at ht <;> cases ht
    next hnone => exact afterInstr_inv (s.undecoded_inv h hnone) s

/-! ## Interrupts, address errors and RESET -/

/-- The frames of an interrupt, the second on the interrupt stack with M cleared, and its vector (R563). -/
theorem Confined.takeInterrupt {s t : State} (h : Confined s t) (l : Fin 8) (vector : Byte) :
    Confined s (t.takeInterrupt l vector) := by
  have hlevel : (BitVec.ofNat 16 l.val <<< 8) &&& ~~~srImplemented = 0 := by revert l; decide
  have hmask := h.beginException.withSr (w := (t.beginException.sr &&& 0xF8FF) ||| (BitVec.ofNat 16 l.val <<< 8))
    fun hsr => or_clear (and_clear hsr _) hlevel
  have hframes := (pushFrame_stays (s := s) (frameHead 0 t.sr t.pc vector)).bind fun _ =>
    Stays.get fun u hu => Stays.ite (c := u.mBit = true)
      ((set_stays (hu.withSr fun hsr => and_clear hsr 0xEFFF)).bind fun _ =>
        (pushFrame_stays (frameHead 1 u.sr t.pc vector)).bind fun _ => loadVector_stays vector)
      (loadVector_stays vector)
  unfold State.takeInterrupt
  dsimp only
  split
  · next hok => exact (hframes.ok hmask hok).withEnding .flow
  · next herr => exact (hframes.error hmask herr).1.nestedBusError _

theorem readResetVectors_stays {s : State} : BusStays s readResetVectors :=
  (busRead_stays _ _ _ _).bind fun _ => (modify_stays fun _ h => h.withIsp _).bind fun _ =>
    (busRead_stays _ _ _ _).bind fun _ => modify_stays fun _ h => h.withPc _

/-- RESET clears CACR and all of the SR but X N Z V C, S and the mask (R600). -/
theorem State.resetException_inv {s : State} (h : s.Inv) : s.resetException.Inv := by
  obtain ⟨hm, hsr, hcopy, -⟩ := h
  unfold State.resetException
  dsimp only
  split
  · next u hok =>
    have hu := readResetVectors_stays.ok (Confined.refl _) hok
    have hinv : u.Inv := hu.inv ⟨hm, or_clear (and_clear hsr _) (by decide), hcopy, BitVec.zero_and⟩
    split
    · exact hinv
    · exact hinv
  · next u herr =>
    have hu := (readResetVectors_stays.error (Confined.refl _) herr).1
    exact hu.inv ⟨hm, or_clear (and_clear hsr _) (by decide), hcopy, BitVec.zero_and⟩

/-- Settles O18: RESET, an exception at the boundary and an instruction each keep the invariant. -/
theorem stepKeepsInv : Obligations.StepKeepsInv := by
  intro s t h ht
  have hsample : s.sample.Inv := h
  have hirq : (s.sample.interrupt s.input.ack).Inv :=
    (Confined.takeInterrupt (.refl { s.sample with nmi := s.sample.nmi && s.sample.ipl != 7 }) _ _).inv h
  unfold step at ht
  dsimp only at ht
  split at ht
  · cases ht
    exact s.sample.resetException_inv hsample
  · split at ht
    case h_1 | h_2 => cases ht
    case h_3 =>
      cases ht
      split
      · exact hirq
      · exact hsample
    case h_4 =>
      split at ht
      · cases ht
        exact (((Confined.refl s.sample).used 1).enterFault 3 _ _ _).inv hsample
      · split at ht
        · cases ht
          exact hirq
        · exact s.sample.runNext_inv hsample ht

end Sys2Proof.Machine
end

/-! # What an operand's read and write leave unchanged: bytes, registers, the rest of the system -/

section
namespace Sys2Proof.Machine

variable {s t : State} {rs : List Rn}

/-! ## Bytes and system registers -/

/-- Bytes are read from memory through the platform's banks and from nothing else. -/
theorem sameBytes_of_mem (hm : t.mem = s.mem) (hp : t.platform = s.platform) : sameBytes s t := by
  intro fc b
  simp only [State.byte, State.bank_congr hp, hm]

theorem sameSystem_refl (s : State) : sameSystem s s :=
  ⟨rfl, rfl, rfl, rfl, rfl, rfl, rfl, rfl, rfl, rfl, rfl, rfl, rfl, rfl, rfl, rfl, rfl⟩

theorem sameSystem_used (h : sameSystem s t) (k : Nat) : sameSystem s (t.used k) := h

theorem sameSystem_store (h : sameSystem s t) (fc : FC) (a : Long) (bs : List Byte) :
    sameSystem s (t.store fc a bs) := h

theorem sameSystem_putD (h : sameSystem s t) (sz : Size) (r : Reg) (v : Long) : sameSystem s (t.putD sz r v) := h

theorem sameSystem_setA (h : sameSystem s t) (r : Reg) (v : Long) : sameSystem s (t.setA r v) := by
  simpa only [sameSystem, State.setA_vbr, State.setA_sfc, State.setA_dfc, State.setA_cacr, State.setA_caar,
    State.setA_cache, State.setA_pipe, State.setA_run, State.setA_srCopy, State.setA_owed, State.setA_eaTemp,
    State.setA_scanPc, State.setA_ipl, State.setA_nmi, State.setA_inputs, State.setA_platform,
    State.setA_sr] using h

/-! ## Registers -/

theorem State.getR_setA_of_ne (s : State) {r : Reg} {rn : Rn} (v : Long) (h : rn ≠ ⟨true, r⟩) :
    (s.setA r v).getR rn = s.getR rn := by
  obtain ⟨isAddr, q⟩ := rn
  cases isAddr with
  | false => exact s.dreg_setA r q v
  | true => exact s.areg_setA_of_ne v fun hq => h (congrArg _ hq)

theorem State.getR_setD_of_ne (s : State) {r : Reg} {rn : Rn} (v : Long) (h : rn ≠ ⟨false, r⟩) :
    (s.setD r v).getR rn = s.getR rn := by
  obtain ⟨isAddr, q⟩ := rn
  cases isAddr with
  | false => exact s.dreg_setD_of_ne v fun hq => h (congrArg _ hq)
  | true => rfl

/-- Writing the active stack pointer leaves the two others (R23). -/
@[simp] theorem State.otherStacks_setSp (s : State) (v : Long) : (s.setSp v).otherStacks = s.otherStacks := by
  unfold State.otherStacks
  rw [State.sBit_setSp, State.mBit_setSp]
  unfold State.setSp
  cases s.sBit <;> cases s.mBit <;> rfl

@[simp] theorem State.otherStacks_setA (s : State) (r : Reg) (v : Long) :
    (s.setA r v).otherStacks = s.otherStacks := by
  unfold State.setA
  split
  · rfl
  · exact s.otherStacks_setSp v

theorem sameRegs_refl (rs : List Rn) (s : State) : sameRegs rs s s := ⟨fun _ _ => rfl, rfl⟩

theorem sameRegs_used (h : sameRegs rs s t) (k : Nat) : sameRegs rs s (t.used k) := h

theorem sameRegs_store (h : sameRegs rs s t) (fc : FC) (a : Long) (bs : List Byte) :
    sameRegs rs s (t.store fc a bs) := h

theorem sameRegs_setA (s : State) (r : Reg) (v : Long) : sameRegs [⟨true, r⟩] s (s.setA r v) :=
  ⟨fun _ hrn => s.getR_setA_of_ne v (List.ne_of_not_mem_cons hrn), s.otherStacks_setA r v⟩

theorem sameRegs_putD (s : State) (sz : Size) (r : Reg) (v : Long) : sameRegs [⟨false, r⟩] s (s.putD sz r v) :=
  ⟨fun _ hrn => s.getR_setD_of_ne _ (List.ne_of_not_mem_cons hrn), rfl⟩

/-! ## The address computation -/

theorem afterAddr_sameSystem (sz : Size) (ea : Ea) (s : State) : sameSystem s (afterAddr sz ea s) := by
  cases ea with
  | postinc r | predec r => exact sameSystem_setA (sameSystem_refl s) _ _
  | _ => exact sameSystem_refl s

/-- An address computation changes the register its mode steps and no other (R114). -/
theorem afterAddr_sameRegs (sz : Size) (ea : Ea) (s : State) : sameRegs (steppedBy ea) s (afterAddr sz ea s) := by
  cases ea with
  | postinc r | predec r => exact sameRegs_setA s _ _
  | _ => exact sameRegs_refl _ s

theorem afterAddr_sameBytes (sz : Size) (ea : Ea) (s : State) : sameBytes s (afterAddr sz ea s) :=
  sameBytes_of_mem (afterAddr_mem sz ea s) (afterAddr_platform sz ea s)

theorem State.dataSpace_congr (h : t.sr = s.sr) : t.dataSpace = s.dataSpace := by
  unfold State.dataSpace State.sBit
  rw [h]

/-- An address computation leaves the privilege level. -/
theorem memAddr_dataSpace {sz : Size} {own : Nat} {ea : Ea} {a : Long} (h : memAddr sz own ea s = .ok a t) :
    t.dataSpace = s.dataSpace := by
  obtain ⟨k, rfl⟩ := memAddr_state h
  exact State.dataSpace_congr (afterAddr_sr sz ea s)

end Sys2Proof.Machine
end

/-! # Operands as bytes, high-order byte first (R73) -/

section
namespace Sys2Proof.Machine

/-! ## The value of a byte string -/

/-- One more byte of at most four: the value so far times 256, and the byte. -/
theorem bytesLong_snoc_toNat {xs : List Byte} (b : Byte) (h : xs.length ≤ 3) :
    (bytesLong (xs ++ [b])).toNat = (bytesLong xs).toNat * 256 + b.toNat := by
  have hx : (bytesLong xs).toNat < 2 ^ 24 :=
    Nat.lt_of_lt_of_le (bytesLong_lt xs (by omega)) (Nat.pow_le_pow_right (by decide) (by omega))
  have hb := b.isLt
  rw [bytesLong_snoc, BitVec.toNat_or, BitVec.toNat_shiftLeft, BitVec.toNat_setWidth,
    Nat.mod_eq_of_lt (show b.toNat < 2 ^ 32 by omega), Nat.mod_eq_of_lt (by rw [Nat.shiftLeft_eq]; omega),
    ← Nat.shiftLeft_add_eq_or_of_lt hb, Nat.shiftLeft_eq]

theorem bytesLong_toNat (bs : List Byte) (h : bs.length ≤ 4) :
    (bytesLong bs).toNat = bs.foldl (fun n b => n * 256 + b.toNat) 0 := by
  induction bs using List.reverseRecOn with
  | nil => rfl
  | append_singleton xs b ih =>
    rw [List.length_append, List.length_singleton] at h
    rw [bytesLong_snoc_toNat b (by omega), ih (by omega), List.foldl_append]
    rfl

/-- Counting addresses on from the next one. -/
theorem succ_add_ofNat (a : Long) (k : Nat) : a + 1 + BitVec.ofNat 32 k = a + BitVec.ofNat 32 (k + 1) := by
  rw [BitVec.add_assoc, Nat.add_comm k 1, BitVec.ofNat_add]
  rfl

/-- A load is the bytes at the addresses from the first upward. -/
theorem State.load_eq_map (s : State) (fc : FC) (a : Long) (n : Nat) :
    s.load fc a n = (List.range n).map fun k => s.byte fc (a + BitVec.ofNat 32 k) := by
  induction n generalizing a with
  | zero => rfl
  | succ n ih =>
    have hload : s.load fc a (n + 1) = s.byte fc a :: s.load fc (a + 1) n := rfl
    rw [hload, ih, List.range_succ_eq_map, List.map_cons, List.map_map, BitVec.add_zero]
    simp only [succ_add_ofNat, Function.comp_def, Nat.succ_eq_add_one]

/-- What a load of at most four bytes stands for. -/
theorem State.bytesLong_load_toNat (s : State) (fc : FC) (a : Long) {n : Nat} (h : n ≤ 4) :
    (bytesLong (s.load fc a n)).toNat =
      (List.range n).foldl (fun m k => m * 256 + (s.byte fc (a + BitVec.ofNat 32 k)).toNat) 0 := by
  have hlen : (s.load fc a n).length ≤ 4 := (Memory.load_length _ _ _ _).trans_le h
  rw [bytesLong_toNat _ hlen, s.load_eq_map, List.foldl_map]

/-- Four bytes as two words. -/
theorem bytesLong_four (b₀ b₁ b₂ b₃ : Byte) :
    bytesLong [b₀, b₁, b₂, b₃] = bytesWord b₀ b₁ ++ bytesWord b₂ b₃ := by
  have h0 := b₀.isLt
  have h1 := b₁.isLt
  have h2 := b₂.isLt
  have h3 := b₃.isLt
  apply BitVec.eq_of_toNat_eq
  rw [bytesLong_toNat _ (by simp), bytesWord, bytesWord]
  simp only [BitVec.toNat_append, List.foldl_cons, List.foldl_nil]
  rw [← Nat.shiftLeft_add_eq_or_of_lt h1, ← Nat.shiftLeft_add_eq_or_of_lt h3,
    ← Nat.shiftLeft_add_eq_or_of_lt (by rw [Nat.shiftLeft_eq]; omega)]
  simp only [Nat.shiftLeft_eq]
  omega

/-- The words of a long word, the upper at the lower address. -/
theorem State.longAt_eq_append (s : State) (fc : FC) (x : Long) :
    s.longAt fc x = bytesWord (s.byte fc x) (s.byte fc (x + 1)) ++
      bytesWord (s.byte fc (x + 2)) (s.byte fc (x + 2 + 1)) := by
  have hthird : x + 1 + 1 = x + 2 := succ_add_ofNat x 1
  show bytesLong [s.byte fc x, s.byte fc (x + 1), s.byte fc (x + 1 + 1), s.byte fc (x + 1 + 1 + 1)] = _
  rw [hthird]
  exact bytesLong_four _ _ _ _

/-- Masking away the `n` low bits rounds down to a multiple of 2^n. -/
theorem and_high_toNat {m : Long} {n : Nat} (hm : ∀ i < 32, m.getLsbD i = decide (n ≤ i)) (a : Long) :
    (a &&& m).toNat = a.toNat / 2 ^ n * 2 ^ n := by
  have hshift : a &&& m = a >>> n <<< n := by
    apply BitVec.eq_of_getLsbD_eq
    intro i hi
    rw [BitVec.getLsbD_and, hm i hi, BitVec.getLsbD_shiftLeft, BitVec.getLsbD_ushiftRight]
    by_cases hn : n ≤ i
    · simp [hn, hi, Nat.not_lt.mpr hn]
    · simp [hn]
  have hle := Nat.div_mul_le_self a.toNat (2 ^ n)
  rw [hshift, BitVec.toNat_shiftLeft, BitVec.toNat_ushiftRight, Nat.shiftLeft_eq, Nat.shiftRight_eq_div_pow,
    Nat.mod_eq_of_lt (Nat.lt_of_le_of_lt hle a.isLt)]

/-- Byte `k` of a value's `n` low bytes. -/
theorem longBytes_getElem (v : Long) (n k : Nat) (h : k < (longBytes v n).length) :
    (longBytes v n)[k] = BitVec.ofNat 8 (v.toNat / 256 ^ (n - 1 - k)) := by
  induction n generalizing k with
  | zero => exact absurd h (Nat.not_lt_zero k)
  | succ n ih =>
    cases k with
    | zero =>
      apply BitVec.eq_of_toNat_eq
      simp [longBytes, Nat.shiftRight_eq_div_pow, pow_mul]
    | succ k =>
      rw [show n + 1 - 1 - (k + 1) = n - 1 - k by omega]
      exact ih k (Nat.lt_of_succ_lt_succ h)

/-! ## A byte after a store -/

/-- Addresses less than 2^32 bytes on from one are different. -/
theorem add_ofNat_ne (a : Long) {i j : Nat} (hi : i < 2 ^ 32) (hj : j < 2 ^ 32) (h : i ≠ j) :
    a + BitVec.ofNat 32 i ≠ a + BitVec.ofNat 32 j := by
  intro heq
  have hnat := congrArg BitVec.toNat ((BitVec.add_right_inj a).mp heq)
  rw [BitVec.toNat_ofNat, BitVec.toNat_ofNat, Nat.mod_eq_of_lt hi, Nat.mod_eq_of_lt hj] at hnat
  exact h hnat

/-- A byte of a store reads as stored where it was selected, and as before where not. -/
theorem Memory.byteAt_storeWhere (sel : Nat → Bool) (m : Memory) (bank : Fin 8) (a : Long) (i : Nat)
    (bs : List Byte) (hm : m.wf = true) (hl : bs.length ≤ 2 ^ 32) (k : Nat) (hk : k < bs.length) :
    (m.storeWhere sel bank a i bs).byteAt (Memory.key bank (a + BitVec.ofNat 32 k)) =
      if sel (i + k) then bs[k] else m.byteAt (Memory.key bank (a + BitVec.ofNat 32 k)) := by
  induction bs generalizing m a i k with
  | nil => exact absurd hk (Nat.not_lt_zero k)
  | cons b rest ih =>
    rw [List.length_cons] at hl hk
    have hm' : (if sel i then m.setByte (Memory.key bank a) b else m).wf = true := by
      split
      · exact Memory.wf_setByte m _ b hm
      · exact hm
    rw [Memory.storeWhere]
    cases k with
    | zero =>
      have hrest : ∀ j < rest.length,
          Memory.key bank (a + BitVec.ofNat 32 0) ≠ Memory.key bank (a + 1 + BitVec.ofNat 32 j) := by
        intro j hj hkey
        rw [succ_add_ofNat] at hkey
        exact add_ofNat_ne a (by omega) (by omega) (Nat.succ_ne_zero j).symm (Memory.key_inj hkey).2
      rw [Memory.byteAt_storeWhere_of_ne _ _ _ _ _ _ _ hm' hrest, BitVec.add_zero, Nat.add_zero]
      split
      · rw [Memory.byteAt_setByte m _ b _ hm, if_pos rfl]
        rfl
      · rfl
    | succ k =>
      have hfirst : Memory.key bank (a + BitVec.ofNat 32 (k + 1)) ≠ Memory.key bank a := by
        intro hkey
        refine add_ofNat_ne a (j := 0) (by omega) (by omega) (Nat.succ_ne_zero k) ?_
        rw [(Memory.key_inj hkey).2, BitVec.add_zero]
      have hstep : (if sel i then m.setByte (Memory.key bank a) b else m).byteAt
            (Memory.key bank (a + BitVec.ofNat 32 (k + 1))) =
          m.byteAt (Memory.key bank (a + BitVec.ofNat 32 (k + 1))) := by
        split
        · rw [Memory.byteAt_setByte m _ b _ hm, if_neg hfirst]
        · rfl
      rw [← succ_add_ofNat, ih _ _ _ hm' (by omega) k (by omega), succ_add_ofNat, hstep, Nat.add_right_comm]
      rfl

/-- A stored byte reads as stored in RAM, and as before elsewhere. -/
theorem State.byte_store {s : State} {fc : FC} {a : Long} {bs : List Byte} (hw : s.mem.wf = true)
    (hl : bs.length ≤ 2 ^ 32) (k : Nat) (hk : k < bs.length) :
    (s.store fc a bs).byte fc (a + BitVec.ofNat 32 k) =
      if s.area fc (a + BitVec.ofNat 32 k) = none then bs[k] else s.byte fc (a + BitVec.ofNat 32 k) := by
  have h := Memory.byteAt_storeWhere (s.lands fc a) s.mem (s.bank fc) a 0 bs hw hl k hk
  simp only [Nat.zero_add, State.lands, Option.isNone_iff_eq_none] at h
  exact h

end Sys2Proof.Machine
end

/-! # Reading an operand, writing one, storing bytes (O23, O24) -/

section
namespace Sys2Proof.Machine

variable {s t u : State} {sz : Size} {own : Nat} {ea : Ea} {a v : Long}

/-! ## Reading an operand -/

/-- The operand of a size is the number's remainder. -/
theorem trunc_eq_ofNat (sz : Size) (v : Long) : trunc sz v = BitVec.ofNat 32 (v.toNat % 2 ^ sz.bits) := by
  rw [← trunc_toNat, BitVec.ofNat_toNat, BitVec.setWidth_eq]

/-- A word immediate of any size is its low bits (R114). -/
theorem immValue_word (sz : Size) (w : Word) :
    immValue sz (.word w) = BitVec.ofNat 32 (w.toNat % 2 ^ sz.bits) := by
  have hw : (w.setWidth 32).toNat = w.toNat := BitVec.toNat_setWidth_of_le (by decide)
  rw [← hw]
  exact trunc_eq_ofNat sz _

theorem immValue_long (w : Long) : immValue .l (.long w) = w := trunc_of_lt w.isLt

/-- The value of a memory operand, its bytes taken from the state before. -/
theorem readEa_bytes (ha : memAddr sz own ea s = .ok a t) (hr : t.readable (s.eaSpace ea) a sz.bytes) :
    ∃ v, readEa sz own ea s = .ok v t ∧ v.toNat = (List.range sz.bytes).foldl
      (fun n k => n * 256 + (s.byte (s.eaSpace ea) (a + BitVec.ofNat 32 k)).toNat) 0 := by
  refine ⟨_, readEa_mem ha hr, ?_⟩
  have hsz : sz.bytes ≤ 4 := by cases sz <;> decide
  have hbytes : ∀ fc b, t.byte fc b = s.byte fc b := by
    obtain ⟨k, rfl⟩ := memAddr_state ha
    exact afterAddr_sameBytes sz ea s
  simp only [t.bytesLong_load_toNat _ _ hsz, hbytes]

/-- Reading an operand changes the register its mode steps and nothing else (R114). -/
theorem readEa_frame (h : readEa sz own ea s = .ok v t) :
    sameBytes s t ∧ sameRegs (steppedBy ea) s t ∧ sameSystem s t ∧ t.sr = s.sr ∧ t.pc = s.pc := by
  obtain ⟨k, rfl⟩ := readEa_state h
  exact ⟨afterAddr_sameBytes sz ea s, sameRegs_used (afterAddr_sameRegs sz ea s) k,
    sameSystem_used (afterAddr_sameSystem sz ea s) k, afterAddr_sr sz ea s, afterAddr_pc sz ea s⟩

/-- Settles O23: registers and immediates by truncation, memory by the bytes of the load, and the frame by what an
address computation leaves. -/
theorem operandRead : Obligations.OperandRead := by
  intro s t sz own ea v
  refine ⟨fun r => ?_, fun r => ?_, fun w => ?_, fun w => ?_, fun a => readEa_bytes, fun h => ?_⟩
  · rw [← trunc_eq_ofNat]
    rfl
  · rw [← trunc_eq_ofNat]
    rfl
  · rw [← immValue_word]
    rfl
  · exact congrArg (EStateM.Result.ok · s) (immValue_long w)
  · obtain ⟨hbytes, hregs, hsys, hsr, hpc⟩ := readEa_frame h
    exact ⟨hbytes, hregs, hsys, hsr, hpc, readEa_lt h⟩

/-! ## Writing an operand -/

/-- A write to a memory operand is the store of its bytes. -/
theorem writeEa_mem (hm : inMemory ea = true) (ha : memAddr sz own ea s = .ok a t)
    (hw : t.writable t.dataSpace a sz.bytes) :
    writeEa sz own ea v s = .ok () (t.store t.dataSpace a (longBytes v sz.bytes)) :=
  writeEa_eq_ok.mpr (.inr ⟨hm, a, t, ha, hw, rfl⟩)

/-- The bytes of a store after an address computation. -/
theorem byte_store_memAddr (ha : memAddr sz own ea s = .ok a t) (hm : s.mem.wf = true) (fc : FC) (k : Nat)
    (hk : k < sz.bytes) :
    (t.store fc a (longBytes v sz.bytes)).byte fc (a + BitVec.ofNat 32 k) =
      if s.area fc (a + BitVec.ofNat 32 k) = none then BitVec.ofNat 8 (v.toNat / 256 ^ (sz.bytes - 1 - k))
      else s.byte fc (a + BitVec.ofNat 32 k) := by
  obtain ⟨j, rfl⟩ := memAddr_state ha
  have hlen : (longBytes v sz.bytes).length = sz.bytes := longBytes_length v _
  have hmem : ((afterAddr sz ea s).used j).mem.wf = true := by
    rw [State.used_mem, afterAddr_mem]
    exact hm
  have harea : ∀ b, ((afterAddr sz ea s).used j).area fc b = s.area fc b := fun b => by
    simp only [State.area, State.used_platform, afterAddr_platform]
  have hbyte : ∀ b, ((afterAddr sz ea s).used j).byte fc b = s.byte fc b := afterAddr_sameBytes sz ea s fc
  have hshort : (longBytes v sz.bytes).length ≤ 2 ^ 32 := by
    rw [hlen]
    cases sz <;> decide
  rw [State.byte_store hmem hshort k (hlen.symm ▸ hk), longBytes_getElem, harea, hbyte]

/-- What a store after an address computation leaves alone. -/
theorem store_memAddr_frame (ha : memAddr sz own ea s = .ok a t) (hm : s.mem.wf = true) (fc : FC)
    (bs : List Byte) :
    sameBytesBut fc a bs.length s (t.store fc a bs) ∧ sameRegs (steppedBy ea) s (t.store fc a bs) ∧
      sameSystem s (t.store fc a bs) ∧ (t.store fc a bs).sr = s.sr := by
  obtain ⟨k, rfl⟩ := memAddr_state ha
  refine ⟨fun fc' b h => ?_, sameRegs_store (sameRegs_used (afterAddr_sameRegs sz ea s) k) _ _ _,
    sameSystem_store (sameSystem_used (afterAddr_sameSystem sz ea s) k) _ _ _, afterAddr_sr sz ea s⟩
  have hmem : ((afterAddr sz ea s).used k).mem.wf = true := by
    rw [State.used_mem, afterAddr_mem]
    exact hm
  have hbank : ∀ q, ((afterAddr sz ea s).used k).bank q = s.bank q :=
    State.bank_congr (afterAddr_platform sz ea s)
  rw [State.sameBytesBut_store hmem fc' b (by rwa [hbank, hbank])]
  exact afterAddr_sameBytes sz ea s fc' b

/-- A write to a data register keeps the bits above the operand (R21). -/
theorem State.dreg_putD_toNat (s : State) (sz : Size) (r : Reg) (v : Long) :
    ((s.putD sz r v).dreg r).toNat =
      (s.dreg r).toNat / 2 ^ sz.bits * 2 ^ sz.bits + v.toNat % 2 ^ sz.bits := by
  have hmask : ∀ i < 32, (~~~sizeMask sz).getLsbD i = decide (sz.bits ≤ i) := by cases sz <;> decide
  have hlow : v.toNat % 2 ^ sz.bits < 2 ^ sz.bits := Nat.mod_lt _ (Nat.two_pow_pos _)
  rw [State.putD, State.dreg_setD_self, BitVec.toNat_or, and_high_toNat hmask, trunc_toNat, ← Nat.shiftLeft_eq,
    Nat.shiftLeft_add_eq_or_of_lt hlow]

/-! ## Reading a device -/

/-- A read that a device answers leaves the other bytes those of memory (R7 `mem_map`, log 41). -/
theorem State.answer_getElem? (s : State) (fc : FC) (a : Long) {n k : Nat} (hk : k < n)
    (h : s.area fc (a + BitVec.ofNat 32 k) ≠ some .device) :
    (s.answer fc a n)[k]? = some (s.byte fc (a + BitVec.ofNat 32 k)) := by
  rw [State.answer, List.getElem?_map, List.getElem?_range hk]
  exact congrArg some (if_neg h)

theorem busRead_device {rmw : Bool} {fc : FC} {n : Nat} (hf : s.firstFault fc false a n = none)
    (hd : s.onDevice fc a n = true) : busRead rmw fc a n s = .ok (s.answer fc a n) (s.used 1) := by
  rw [busRead_eq_ok, State.afterRead, if_pos hd, if_pos hd]
  exact ⟨hf, rfl, rfl⟩

/-- Settles O24: a memory operand by the store after its address computation, a data register by its low bits, and
the store and the device's answer by their own laws. -/
theorem storedBytes : Obligations.StoredBytes := by
  intro s t sz own ea a v hm
  refine ⟨fun hea ha hw => ?_, fun r => ?_, fun fc bs hl => ?_, fun fc n hf hd => ?_⟩
  · obtain ⟨hbut, hregs, hsys, hsr⟩ := store_memAddr_frame ha hm t.dataSpace (longBytes v sz.bytes)
    rw [longBytes_length, memAddr_dataSpace ha] at hbut
    exact ⟨_, writeEa_mem hea ha hw, memAddr_dataSpace ha ▸ hbut, hregs, hsys, hsr,
      fun k hk => byte_store_memAddr ha hm t.dataSpace k hk⟩
  · exact ⟨s.putD sz r v, rfl, sameBytes_of_mem rfl rfl, sameRegs_putD s sz r v,
      sameSystem_putD (sameSystem_refl s) sz r v, rfl, s.dreg_putD_toNat sz r v⟩
  · exact ⟨fun hr => State.load_store hm hl hr, State.sameBytesBut_store hm⟩
  · exact ⟨s.answer fc a n, busRead_device hf hd, by simp [State.answer],
      fun k hk h => s.answer_getElem? fc a hk h⟩

end Sys2Proof.Machine
end

/-! # Instruction fetch: memory, the cache, and the words the pipe may still hold (O5)

A fetch is decided in three places, each said once below: the pipe (`staleWord`), the cache (`cacheHit`), and the bus
(`memoryWord`). -/

section
namespace Sys2Proof.Machine

variable {s t : State} {fc : FC} {a x : Long} {w : Word}

/-! ## The long word of an instruction word -/

theorem longBase_toNat (a : Long) : (longBase a).toNat = a.toNat / 4 * 4 := and_high_toNat (n := 2) (by decide) a

theorem even_iff_toNat : a.getLsbD 0 = false ↔ a.toNat % 2 = 0 := by
  rw [← BitVec.testBit_toNat, Nat.testBit_eq_decide_div_mod_eq, decide_eq_false_iff_not]
  omega

/-- The byte of its long word at which an instruction word begins. -/
def halfStart (a : Long) : Nat := if a.getLsbD 1 then 2 else 0

theorem halfStart_eq_mod (he : a.getLsbD 0 = false) : halfStart a = a.toNat % 4 := by
  have h0 := even_iff_toNat.mp he
  have h1 : a.getLsbD 1 = true ↔ a.toNat / 2 ^ 1 % 2 = 1 := by
    rw [← BitVec.testBit_toNat, Nat.testBit_eq_decide_div_mod_eq, decide_eq_true_eq]
  unfold halfStart
  by_cases h : a.getLsbD 1 = true
  · have := h1.mp h
    rw [if_pos h]
    omega
  · have := mt h1.mpr h
    rw [if_neg h]
    omega

theorem halfStart_le (a : Long) : halfStart a ≤ 2 := by
  unfold halfStart
  split <;> decide

theorem longBase_add_halfStart (he : a.getLsbD 0 = false) : longBase a + BitVec.ofNat 32 (halfStart a) = a := by
  apply BitVec.eq_of_toNat_eq
  have ha := a.isLt
  rw [BitVec.toNat_add, longBase_toNat, BitVec.toNat_ofNat, halfStart_eq_mod he]
  omega

/-- An address in the long word of `a`. -/
theorem longBase_eq_of_div (h : x.toNat / 4 = a.toNat / 4) : longBase x = longBase a := by
  apply BitVec.eq_of_toNat_eq
  rw [longBase_toNat, longBase_toNat, h]

theorem longBase_add_toNat (a : Long) {i : Nat} (hi : i < 4) :
    (longBase a + BitVec.ofNat 32 i).toNat = a.toNat / 4 * 4 + i := by
  have ha := a.isLt
  rw [BitVec.toNat_add, longBase_toNat, BitVec.toNat_ofNat]
  omega

/-! ## An instruction word on the bus -/

theorem State.firstFault_eq_none {write : Bool} {n : Nat} :
    s.firstFault fc write a n = none ↔ ∀ i < n, s.byteEnd fc write a n i = none := by
  simp only [State.firstFault, List.findSome?_eq_none_iff, List.mem_range, Option.map_eq_none_iff]

theorem State.wordEnd_eq (s : State) (fc : FC) (a : Long) : s.wordEnd fc a =
    [halfStart a, halfStart a + 1].findSome? fun i => s.byteEnd fc false (longBase a) 4 i := rfl

/-- A word of a long word that can be read can be read. -/
theorem State.wordEnd_of_readable (h : s.readable fc (longBase a) 4) : s.wordEnd fc a = none := by
  obtain ⟨hend, -⟩ := State.readable_iff.mp h
  have hle := halfStart_le a
  simp only [State.wordEnd_eq, List.findSome?_eq_none_iff, List.mem_cons, List.not_mem_nil, or_false]
  rintro i (rfl | rfl)
  · exact State.firstFault_eq_none.mp hend _ (by omega)
  · exact State.firstFault_eq_none.mp hend _ (by omega)

/-- A word of a long word that memory answers is answered by memory. -/
theorem State.onDevice_of_readable (he : a.getLsbD 0 = false) (h : s.readable fc (longBase a) 4) :
    s.onDevice fc a 2 = false := by
  obtain ⟨-, hdev⟩ := State.readable_iff.mp h
  have hle := halfStart_le a
  simp only [State.onDevice, List.any_eq_false, List.mem_range] at hdev ⊢
  intro i hi
  have hword := hdev (halfStart a + i) (by omega)
  rwa [BitVec.ofNat_add, ← BitVec.add_assoc, longBase_add_halfStart he] at hword

theorem State.storedWord_eq_some :
    s.storedWord fc a = some w ↔
      (s.wordEnd fc a = none ∧ s.onDevice fc a 2 = false) ∧ bytesWord (s.byte fc a) (s.byte fc (a + 1)) = w := by
  unfold State.storedWord
  split
  · next h =>
    refine iff_of_false (fun e => nomatch e) fun ⟨⟨hend, hdev⟩, _⟩ => ?_
    rw [hend, hdev] at h
    cases h
  · next h =>
    rw [Bool.or_eq_true, not_or, Bool.not_eq_true, Bool.not_eq_true, Option.isSome_eq_false_iff,
      Option.isNone_iff_eq_none] at h
    rw [Option.some_inj, and_iff_right h]

theorem State.storedWord_of_readable (he : a.getLsbD 0 = false) (h : s.readable fc (longBase a) 4) :
    s.storedWord fc a = some (bytesWord (s.byte fc a) (s.byte fc (a + 1))) :=
  State.storedWord_eq_some.mpr ⟨⟨State.wordEnd_of_readable h, State.onDevice_of_readable he h⟩, rfl⟩

theorem State.memoryWord_of_stored (h : s.storedWord fc a = some w) : s.memoryWord fc a = .word w := by
  obtain ⟨⟨hend, -⟩, -⟩ := State.storedWord_eq_some.mp h
  rw [State.memoryWord, hend, h]
  rfl

/-- Where its first bus cycle ends badly, the upper half of a long word does. -/
theorem State.wordEnd_of_firstFault {never : Bool} (h : s.firstFault fc false (longBase a) 4 = some (0, never))
    (hhalf : a.getLsbD 1 = false) : s.wordEnd fc a = some never := by
  have hfirst : s.byteEnd fc false (longBase a) 4 0 = some never := by
    obtain ⟨l, i, r, -, hi, -⟩ := List.findSome?_eq_some_iff.mp h
    obtain ⟨b, hb, heq⟩ := Option.map_eq_some_iff.mp hi
    cases heq
    exact hb
  have hstart : halfStart a = 0 := if_neg (ne_true_of_eq_false hhalf)
  rw [State.wordEnd_eq, hstart, List.findSome?_cons, hfirst]

/-! ## The cache (R49) -/

theorem State.cacheHit_eq_some {v : Long} :
    s.cacheHit fc a = some v ↔ s.cacr.getLsbD 0 = true ∧ ∃ l, s.cache[(cacheIndex a).val] = some l ∧
      (l.fc2 = fc.getLsbD 2 ∧ l.tag = a.extractLsb' 8 24) ∧ l.data = v := by
  unfold State.cacheHit
  split
  · next hon =>
    cases s.cache[(cacheIndex a).val] with
    | none => simp
    | some l => simp [hon]
  · next hoff => exact iff_of_false (fun e => nomatch e) fun ⟨hon, _⟩ => hoff hon

theorem State.cacheHit_off (h : s.cacr.getLsbD 0 = false) : s.cacheHit fc a = none := by
  unfold State.cacheHit
  rw [if_neg (ne_true_of_eq_false h)]

theorem State.cacheHit_miss (h : ∀ l, s.cache[(cacheIndex a).val] = some l →
    ¬ (l.fc2 = fc.getLsbD 2 ∧ l.tag = a.extractLsb' 8 24)) : s.cacheHit fc a = none := by
  rw [Option.eq_none_iff_forall_ne_some]
  intro v hv
  obtain ⟨-, l, hl, hhits, -⟩ := State.cacheHit_eq_some.mp hv
  exact h l hl hhits

/-- Both halves of a long word go by one cache entry. -/
theorem State.cacheHit_of_div (h : x.toNat / 4 = a.toNat / 4) : s.cacheHit fc x = s.cacheHit fc a := by
  have hentry : s.cache[(cacheIndex x).val] = s.cache[(cacheIndex a).val] := by
    simp only [cacheIndex, h]
  have htag : x.extractLsb' 8 24 = a.extractLsb' 8 24 := by
    apply BitVec.eq_of_toNat_eq
    rw [BitVec.extractLsb'_toNat, BitVec.extractLsb'_toNat, Nat.shiftRight_eq_div_pow, Nat.shiftRight_eq_div_pow]
    omega
  unfold State.cacheHit
  rw [hentry, htag]

/-! ## What the processor fetches -/

theorem State.fetchWord_of_pipe_nil (h : s.pipe = []) (a : Long) : s.fetchWord a = s.currentWord a := by
  rw [State.fetchWord, h]
  rfl

theorem State.currentWord_hit {v : Long} (h : s.cacheHit s.progSpace a = some v) :
    s.currentWord a = .word (s.cachedWord v a) := by
  rw [State.currentWord, h]

theorem State.currentWord_miss (h : s.cacheHit s.progSpace a = none) :
    s.currentWord a = s.memoryWord s.progSpace a := by
  rw [State.currentWord, h]

/-- A hit gives the held word or memory's (R85). -/
theorem State.cachedWord_cases (line : Long) (h : s.storedWord s.progSpace a = some w) :
    s.cachedWord line a = halfOf line a ∨ s.cachedWord line a = w := by
  rw [State.cachedWord, h]
  exact ite_eq_or_eq _ _ _

theorem State.cachedWord_unreadable (line : Long) (h : s.storedWord s.progSpace a = none) :
    s.cachedWord line a = halfOf line a := by
  rw [State.cachedWord, h]

/-- A missing word that memory holds. -/
theorem State.fetchWord_miss (hp : s.pipe = []) (hmiss : s.cacheHit s.progSpace a = none)
    (hw : s.storedWord s.progSpace a = some w) : s.fetchWord a = .word w := by
  rw [State.fetchWord_of_pipe_nil hp, State.currentWord_miss hmiss, State.memoryWord_of_stored hw]

/-- A word the pipe gives is one it holds for the address. -/
theorem staleWord_mem {n i : Nat} {p : List (Nat × Word)} (h : staleWord n a i p = some w) : (a.toNat, w) ∈ p := by
  induction p generalizing i with
  | nil => cases h
  | cons e rest ih =>
    obtain ⟨k, v⟩ := e
    unfold staleWord at h
    split at h
    · next hk =>
      cases h
      rw [hk.1]
      exact List.mem_cons_self
    · exact List.mem_cons_of_mem _ (ih h)

/-- A fetched word is one the pipe holds, or what a fetch without the pipe gives. -/
theorem State.fetchWord_cases (h : s.fetchWord a = .word w) :
    (a.toNat, w) ∈ s.pipe ∨ ({ s with pipe := [] } : State).fetchWord a = .word w := by
  unfold State.fetchWord at h
  split at h
  · next v hv =>
    cases h
    exact .inl (staleWord_mem hv)
  · exact .inr h

/-! ## Filling the cache (R32, R49) -/

theorem State.fillWord_hit {v : Long} (h : s.cacheHit s.progSpace a = some v) : s.fillWord a = s := by
  rw [State.fillWord, h]
  exact if_neg (by simp)

theorem State.fillWord_off (h : s.cacr.getLsbD 0 = false) : s.fillWord a = s := by
  rw [State.fillWord, h]
  exact if_neg (by simp)

theorem State.fillWord_frozen (h : s.cacr.getLsbD 1 = true) : s.fillWord a = s := by
  rw [State.fillWord, h]
  exact if_neg (by simp)

/-- A miss fills the entry with the aligned long word. -/
theorem State.fillWord_miss (hp : s.pipe = []) (hon : s.cacr.getLsbD 0 = true) (hthawed : s.cacr.getLsbD 1 = false)
    (hmiss : s.cacheHit s.progSpace a = none) (hr : s.readable s.progSpace (longBase a) 4) :
    s.fillWord a = { s with
      cache := s.cache.set (cacheIndex a).val
        (some ⟨s.progSpace.getLsbD 2, a.extractLsb' 8 24, s.longAt s.progSpace (longBase a)⟩) } := by
  have hhalf : ∀ i, i = 0 ∨ i = 2 → s.fetchWord (longBase a + BitVec.ofNat 32 i) = .word (bytesWord
      (s.byte s.progSpace (longBase a + BitVec.ofNat 32 i))
      (s.byte s.progSpace (longBase a + BitVec.ofNat 32 i + 1))) := by
    intro i hi
    have hx := longBase_add_toNat a (i := i) (by omega)
    have hdiv : (longBase a + BitVec.ofNat 32 i).toNat / 4 = a.toNat / 4 := by omega
    have heven : (longBase a + BitVec.ofNat 32 i).getLsbD 0 = false := even_iff_toNat.mpr (by omega)
    refine State.fetchWord_miss hp (by rwa [State.cacheHit_of_div hdiv]) (State.storedWord_of_readable heven ?_)
    rwa [longBase_eq_of_div hdiv]
  have hhi := hhalf 0 (.inl rfl)
  have hlo : s.fetchWord (longBase a + 2) = _ := hhalf 2 (.inr rfl)
  rw [BitVec.add_zero] at hhi
  have hfill : (s.cacr.getLsbD 0 && !s.cacr.getLsbD 1 && (s.cacheHit s.progSpace a).isNone) = true := by
    rw [hon, hthawed, hmiss]
    rfl
  rw [State.fillWord, if_pos hfill, hhi, hlo, State.longAt_eq_append]
  rfl

/-! ## The pipe after an instruction (R85, R612) -/

/-- Whether a word is memory's depends on the platform alone. -/
theorem State.wordEnd_congr (h : t.platform = s.platform) (fc : FC) (a : Long) :
    t.wordEnd fc a = s.wordEnd fc a := by
  simp only [State.wordEnd, State.byteEnd_congr h]

/-- What was overwritten: a word memory held, which it now holds another of. -/
theorem overwritten_iff (h : t.platform = s.platform) :
    overwritten fc s t a = some w ↔ s.storedWord fc a = some w ∧
      w ≠ bytesWord (t.byte fc a) (t.byte fc (a + 1)) := by
  rw [overwritten_eq_some]
  refine and_congr_right fun hs => ?_
  obtain ⟨hok, -⟩ := State.storedWord_eq_some.mp hs
  rw [Ne, State.storedWord_eq_some, State.wordEnd_congr h, State.onDevice_congr h]
  exact not_congr ((and_iff_right hok).trans eq_comm)

theorem mem_pipeWindow {pc : Long} : x ∈ pipeWindow pc ↔ ∃ k < 8, longBase pc + BitVec.ofNat 32 (2 * k) = x := by
  simp only [pipeWindow, List.mem_map, List.mem_range]

theorem aheadOf_toNat (pc x : Long) : aheadOf pc x.toNat = true ↔ (x - pc).toNat < 16 := by
  rw [aheadOf, decide_eq_true_eq, BitVec.ofNat_toNat, BitVec.setWidth_eq]

/-- The addresses of the window are even. -/
theorem pipeWindow_even (pc : Long) (k : Nat) :
    (longBase pc + BitVec.ofNat 32 (2 * k)).getLsbD 0 = false := by
  have hpc := pc.isLt
  rw [even_iff_toNat, BitVec.toNat_add, longBase_toNat, BitVec.toNat_ofNat]
  omega

/-- The old version of a word of the window that the instruction changed. -/
theorem nextPipe_of_changed (h : t.platform = s.platform) {k : Nat} (hk : k < 8)
    (hx : longBase s.pc + BitVec.ofNat 32 (2 * k) = x) (hr : s.readable t.progSpace (longBase x) 4)
    (hne : bytesWord (s.byte t.progSpace x) (s.byte t.progSpace (x + 1)) ≠
      bytesWord (t.byte t.progSpace x) (t.byte t.progSpace (x + 1)))
    (hahead : (x - t.pc).toNat < 16) :
    (x.toNat, bytesWord (s.byte t.progSpace x) (s.byte t.progSpace (x + 1))) ∈ nextPipe s t := by
  have heven : x.getLsbD 0 = false := hx ▸ pipeWindow_even s.pc k
  have hgone : overwritten t.progSpace s t x = some _ :=
    (overwritten_iff h).mpr ⟨State.storedWord_of_readable heven hr, hne⟩
  exact mem_nextPipe.mpr
    ⟨(aheadOf_toNat _ _).mpr hahead, .inl ⟨x, mem_pipeWindow.mpr ⟨k, hk, hx⟩, _, hgone, rfl⟩⟩

/-- What the pipe holds was in it in the same space, or is the old version of a changed word. -/
theorem nextPipe_cases (h : t.platform = s.platform) {e : Nat × Word} (he : e ∈ nextPipe s t) :
    (s.progSpace = t.progSpace ∧ e ∈ s.pipe) ∨
      ∃ x : Long, e = (x.toNat, bytesWord (s.byte t.progSpace x) (s.byte t.progSpace (x + 1))) ∧
        bytesWord (s.byte t.progSpace x) (s.byte t.progSpace (x + 1)) ≠
          bytesWord (t.byte t.progSpace x) (t.byte t.progSpace (x + 1)) := by
  obtain ⟨-, ⟨x, -, w, hgone, rfl⟩ | hkept⟩ := mem_nextPipe.mp he
  · obtain ⟨hs, hne⟩ := (overwritten_iff h).mp hgone
    obtain ⟨-, rfl⟩ := State.storedWord_eq_some.mp hs
    exact .inr ⟨x, rfl, hne⟩
  · exact .inl hkept

theorem nextPipe_ahead {e : Nat × Word} (he : e ∈ nextPipe s t) : (BitVec.ofNat 32 e.1 - t.pc).toNat < 16 :=
  of_decide_eq_true (mem_nextPipe.mp he).1

/-- Settles O5: off, hit and miss by the cache's lookup, the pipe's word by membership, and the pipe after an
instruction by what was overwritten in the window. -/
theorem fetchReadsMemory : Obligations.FetchReadsMemory := by
  intro s a heven fc word entry half hits
  have hlookup : s.cacr.getLsbD 0 = true → ∀ l, entry = some l → hits l →
      s.cacheHit fc a = some l.data := fun hon l hl hhits =>
    State.cacheHit_eq_some.mpr ⟨hon, l, hl, hhits, rfl⟩
  refine ⟨fun hp hr => ?_, fun hp hon hf hhalf => ?_, fun w => State.fetchWord_cases, fun t hplat => ?_⟩
  · have hword := State.storedWord_of_readable heven hr
    refine ⟨fun hoff => ?_, fun hon l hl hhits => ?_, fun hon hmiss => ?_⟩
    · exact ⟨State.fetchWord_miss hp (State.cacheHit_off hoff) hword, State.fillWord_off hoff⟩
    · have hhit := hlookup hon l hl hhits
      refine ⟨?_, State.fillWord_hit hhit⟩
      rw [State.fetchWord_of_pipe_nil hp, State.currentWord_hit hhit]
      exact (State.cachedWord_cases l.data hword).imp (congrArg _) (congrArg _)
    · have hmiss' : s.cacheHit fc a = none := State.cacheHit_miss hmiss
      exact ⟨State.fetchWord_miss hp hmiss' hword, State.fillWord_frozen,
        fun hthawed => State.fillWord_miss hp hon hthawed hmiss' hr⟩
  · have hend : s.wordEnd fc a = some false := State.wordEnd_of_firstFault hf hhalf
    refine ⟨fun l hl hhits => ?_, fun hmiss => ?_⟩
    · have hnone : s.storedWord fc a = none := by rw [State.storedWord, hend]; rfl
      rw [State.fetchWord_of_pipe_nil hp, State.currentWord_hit (hlookup hon l hl hhits),
        State.cachedWord_unreadable _ hnone]
      rfl
    · rw [State.fetchWord_of_pipe_nil hp, State.currentWord_miss (State.cacheHit_miss hmiss), State.memoryWord, hend]
  · exact ⟨fun k hk hr hne => nextPipe_of_changed hplat hk rfl hr hne,
      fun e he => ⟨nextPipe_ahead he, nextPipe_cases hplat he⟩⟩

end Sys2Proof.Machine
end

/-! # Parsers of instruction words (R112)

`Reads p ws a` says that `p` takes the words `ws`, whatever follows them, and answers `a`. It holds of a sequence when
it holds of its parts, so each of the encoder's words is matched against the decoder once. -/

section
namespace Sys2Proof

variable {α β : Type} {ws us vs : List Word} {w : Word}

/-- The parser takes exactly the words `ws` and answers `a`, whatever words follow. -/
def Reads (p : P α) (ws : List Word) (a : α) : Prop := ∀ rest, p (ws ++ rest) = .ok a rest

/-! ## Sequences -/

theorem Reads.pure {a : α} : Reads (pure a) [] a := fun _ => rfl

theorem Reads.bind {x : P α} {f : α → P β} {a : α} {b : β} (hx : Reads x us a) (hf : Reads (f a) vs b) :
    Reads (x >>= f) (us ++ vs) b := fun rest => by
  show EStateM.bind x f _ = _
  rw [List.append_assoc, EStateM.bind, hx]
  exact hf rest

/-- The last part of a sequence answers what the parts read. -/
theorem Reads.map {x : P α} {a : α} (hx : Reads x ws a) (f : α → β) :
    Reads (x >>= fun a => Pure.pure (f a)) ws (f a) := by
  have h : Reads (x >>= fun a => Pure.pure (f a)) (ws ++ []) (f a) := hx.bind Reads.pure
  rwa [List.append_nil] at h

theorem Reads.ite_pos {c : Prop} [Decidable c] {x y : P α} {a : α} (hc : c) (h : Reads x ws a) :
    Reads (if c then x else y) ws a := by
  rwa [if_pos hc]

theorem Reads.ite_neg {c : Prop} [Decidable c] {x y : P α} {a : α} (hc : ¬ c) (h : Reads y ws a) :
    Reads (if c then x else y) ws a := by
  rwa [if_neg hc]

/-- A test on the operation word takes no words. -/
theorem Reads.legal_bind {ok : Bool} {f : Unit → P α} {a : α} (hok : ok = true) (h : Reads (f ()) ws a) :
    Reads (legal ok >>= f) ws a := by
  subst hok
  exact h

/-- A test for zero bits takes no words (R127). -/
theorem Reads.zeroBits_bind {ok : Bool} {f : Unit → P α} {a : α} (hok : ok = true) (h : Reads (f ()) ws a) :
    Reads (zeroBits ok >>= f) ws a := by
  subst hok
  exact h

/-! ## Words and long words -/

theorem nextWord_reads (w : Word) : Reads nextWord [w] w := fun _ => rfl

theorem Reads.nextWord_bind {f : Word → P α} {a : α} (h : Reads (f w) ws a) :
    Reads (nextWord >>= f) (w :: ws) a :=
  (nextWord_reads w).bind h

theorem nextLong_reads (v : Long) : Reads nextLong (longWords v) v := by
  have hv : v.extractLsb' 16 16 ++ v.extractLsb' 0 16 = v := by
    apply BitVec.eq_of_toNat_eq
    have := v.isLt
    rw [BitVec.toNat_append, ← Nat.shiftLeft_add_eq_or_of_lt (BitVec.isLt _), BitVec.extractLsb'_toNat,
      BitVec.extractLsb'_toNat, Nat.shiftLeft_eq, Nat.shiftRight_eq_div_pow, Nat.shiftRight_zero]
    omega
  have key : Reads nextLong (longWords v) (v.extractLsb' 16 16 ++ v.extractLsb' 0 16) :=
    Reads.nextWord_bind (Reads.nextWord_bind Reads.pure)
  rwa [hv] at key

/-! ## The operation word (R110, R112) -/

theorem fieldAt_val (w : Word) (lo : Nat) : (fieldAt w lo).val = w.toNat / 2 ^ lo % 8 := rfl

theorem getLsbD_toNat (w : Word) (i : Nat) : w.getLsbD i = decide (w.toNat / 2 ^ i % 2 = 1) := by
  rw [← BitVec.testBit_toNat, Nat.testBit_eq_decide_div_mod_eq]

theorem oct_val (n : Nat) : (oct n).val = n % 8 := rfl

theorem opWord_toNat {line : Nat} (hl : line < 16) (a o m r : Reg) :
    (opWord line a o m r).toNat = line * 4096 + a.val * 512 + o.val * 64 + m.val * 8 + r.val := by
  rw [opWord, BitVec.toNat_ofNat]
  omega

/-- The parser splits an operation word into the line and octal fields the encoder builds it from. -/
theorem parseInstr_opWord {line : Nat} (hl : line < 16) (a o m r : Reg) (rest : List Word) :
    parseInstr (opWord line a o m r :: rest) = decodeOp line a o m r rest := by
  have hw := opWord_toNat hl a o m r
  have hline : (opWord line a o m r).toNat / 4096 = line := by omega
  have ha : fieldAt (opWord line a o m r) 9 = a := Fin.ext (by rw [fieldAt_val]; omega)
  have ho : fieldAt (opWord line a o m r) 6 = o := Fin.ext (by rw [fieldAt_val]; omega)
  have hm : fieldAt (opWord line a o m r) 3 = m := Fin.ext (by rw [fieldAt_val]; omega)
  have hr : fieldAt (opWord line a o m r) 0 = r := Fin.ext (by rw [fieldAt_val]; omega)
  show decodeOp _ _ _ _ _ rest = _
  rw [hline, ha, ho, hm, hr]

theorem reads_opWord {line : Nat} {a o m r : Reg} {i : Instr} (hl : line < 16)
    (h : Reads (decodeOp line a o m r) ws i) : Reads parseInstr (opWord line a o m r :: ws) i := fun rest =>
  (parseInstr_opWord hl a o m r (ws ++ rest)).trans (h rest)

/-- What the parser reads, the decoder answers with the number of words. -/
theorem decode_of_reads {i : Instr} (h : Reads parseInstr ws i) (rest : List Word) :
    decode (ws ++ rest) = .instr i ws.length := by
  rw [decode, h rest]
  simp

end Sys2Proof
end

/-! # Extension words (R113 to R116, R119) -/

section
namespace Sys2Proof

variable {w : Word} {sz : Size} {c : Cat} {ea : Ea}

/-! ## Words put together from fields -/

/-- Fields that do not overlap add up. -/
theorem or_toNat {a b : Word} {x y : Nat} (k : Nat) (ha : a.toNat = x) (hb : b.toNat = y) (hx : x % 2 ^ k = 0)
    (hy : y < 2 ^ k) : (a ||| b).toNat = x + y := by
  subst ha hb
  rw [BitVec.toNat_or, ← Nat.div_add_mod a.toNat (2 ^ k), hx, Nat.add_zero, Nat.two_pow_add_eq_or_of_lt hy]

theorem put_toNat {n lo k : Nat} (h : n * 2 ^ lo = k) (hk : k < 65536) : (put n lo).toNat = k := by
  rw [put, BitVec.toNat_ofNat, h, Nat.mod_eq_of_lt hk]

theorem putBit_toNat {b : Bool} {lo k : Nat} (h : b.toNat * 2 ^ lo = k) (hk : k < 65536) : (putBit b lo).toNat = k :=
  put_toNat h hk

/-- The designator stands in the upper four bits of its word (R119). -/
theorem Rn.word_toNat (rn : Rn) : rn.word.toNat = (rn.isAddr.toNat * 8 + rn.num.val) * 4096 := by
  have hb := rn.isAddr.toNat_le
  have h := or_toNat 15 (putBit_toNat (b := rn.isAddr) (lo := 15) rfl (by omega))
    (put_toNat (n := rn.num.val) (lo := 12) rfl (by omega)) (by omega) (by omega)
  rw [Rn.word, h]
  omega

theorem Index.word_toNat (ix : Index) : ix.word.toNat =
    ((ix.reg.isAddr.toNat * 8 + ix.reg.num.val) * 8 + ix.long.toNat * 4 + ix.scale.val) * 512 := by
  have hb := ix.long.toNat_le
  have h1 := or_toNat 12 ix.reg.word_toNat (putBit_toNat (b := ix.long) (lo := 11) rfl (by omega)) (by omega)
    (by omega)
  have h2 := or_toNat 11 h1 (put_toNat (n := ix.scale.val) (lo := 9) rfl (by omega)) (by omega) (by omega)
  rw [Index.word, h2]
  omega

/-! ## Fields read back from a word -/

/-- A bit of a word that is known as a number. -/
theorem getLsbD_eq {i : Nat} {b : Bool} (h : w.toNat / 2 ^ i % 2 = b.toNat) : w.getLsbD i = b := by
  rw [getLsbD_toNat, h]
  cases b <;> rfl

theorem getLsbD_eq_false {i : Nat} (h : w.toNat / 2 ^ i % 2 = 0) : w.getLsbD i = false := getLsbD_eq h

theorem getLsbD_eq_true {i : Nat} (h : w.toNat / 2 ^ i % 2 = 1) : w.getLsbD i = true := getLsbD_eq h

theorem fieldAt_eq {lo : Nat} {r : Reg} (h : w.toNat / 2 ^ lo % 8 = r.val) : fieldAt w lo = r := Fin.ext h

theorem rnField_eq {rn : Rn} (h : w.toNat / 4096 = rn.isAddr.toNat * 8 + rn.num.val) : rnField w = rn := by
  have hb := rn.isAddr.toNat_le
  rw [rnField, getLsbD_eq (b := rn.isAddr) (by omega), fieldAt_eq (r := rn.num) (by omega)]

theorem indexField_eq {ix : Index} (h : w.toNat / 512 =
    (ix.reg.isAddr.toNat * 8 + ix.reg.num.val) * 8 + ix.long.toNat * 4 + ix.scale.val) : indexField w = ix := by
  have hb := ix.long.toNat_le
  have hs : w.toNat / 2 ^ 9 % 4 = ix.scale.val := by omega
  rw [indexField, rnField_eq (rn := ix.reg) (by omega), getLsbD_eq (b := ix.long) (by omega)]
  simp only [hs]

theorem extractLsb'_eq {lo n : Nat} {v : BitVec n} (h : w.toNat / 2 ^ lo % 2 ^ n = v.toNat) :
    w.extractLsb' lo n = v := by
  apply BitVec.eq_of_toNat_eq
  rw [BitVec.extractLsb'_toNat, Nat.shiftRight_eq_div_pow, h]

/-! ## The indexed modes (R115, R116) -/

theorem nextDisp_reads (bd : Disp) : Reads (nextDisp bd.code) bd.enc bd := by
  cases bd with
  | null => exact Reads.pure
  | word v => exact (nextWord_reads v).map _
  | long v => exact (nextLong_reads v).map _

theorem Disp.code_range (bd : Disp) : 1 ≤ bd.code ∧ bd.code ≤ 3 := by
  cases bd <;> simp [Disp.code]

theorem Indirect.code_lt (ind : Indirect) : ind.code < 8 := by
  cases ind with
  | none => decide
  | pre od => have := od.code_range; rw [Indirect.code]; omega
  | post od => have := od.code_range; rw [Indirect.code]; omega

/-- The settings a well-formed operand uses are not reserved. -/
theorem indirectCodeOk_of_wf {ix : Index} {bs is : Bool} {bd : Disp} {ind : Indirect}
    (h : (IndexExt.full ix bs is bd ind).wf = true) : indirectCodeOk is ind.code = true := by
  cases ind with
  | none => cases is <;> rfl
  | pre od => cases is <;> cases od <;> rfl
  | post od =>
    cases is with
    | false => cases od <;> rfl
    | true => cases h

theorem nextIndirect_reads {is : Bool} {ind : Indirect} (h : indirectCodeOk is ind.code = true) :
    Reads (nextIndirect is ind.code) ind.enc ind := by
  cases ind with
  | none => cases is <;> exact Reads.pure
  | pre od =>
    cases od with
    | null => cases is <;> exact Reads.pure
    | word v => cases is <;> exact (nextWord_reads v).map _
    | long v => cases is <;> exact (nextLong_reads v).map _
  | post od =>
    cases is with
    | true => cases od <;> cases h
    | false =>
      cases od with
      | null => exact Reads.pure
      | word v => exact (nextWord_reads v).map _
      | long v => exact (nextLong_reads v).map _

theorem nextIndexExt_brief_reads (ix : Index) (d8 : Byte) :
    Reads nextIndexExt (IndexExt.brief ix d8).enc (.brief ix d8) := by
  have hd : (d8.setWidth 16).toNat = d8.toNat := BitVec.toNat_setWidth_of_le (by decide)
  have hw := or_toNat 9 ix.word_toNat hd (by omega) (by omega)
  have h8 : (ix.word ||| d8.setWidth 16).getLsbD 8 = false := getLsbD_eq_false (by omega)
  have hix : indexField (ix.word ||| d8.setWidth 16) = ix := indexField_eq (by omega)
  have hb : (ix.word ||| d8.setWidth 16).extractLsb' 0 8 = d8 := extractLsb'_eq (by omega)
  refine Reads.nextWord_bind ?_
  simp only [h8, hix, hb]
  exact Reads.pure

/-- A full extension word with no reserved setting is followed by the displacement words it announces. -/
theorem nextIndexExt_full_reads_of {ix : Index} {bs is : Bool} {bd : Disp} {ind : Indirect} (h8 : w.getLsbD 8 = true)
    (hix : indexField w = ix) (hbs : w.getLsbD 7 = bs) (his : w.getLsbD 6 = is) (h3 : w.getLsbD 3 = false)
    (hbd : w.toNat / 16 % 4 = bd.code) (hind : w.toNat % 8 = ind.code) (hok : indirectCodeOk is ind.code = true) :
    Reads nextIndexExt (w :: (bd.enc ++ ind.enc)) (.full ix bs is bd ind) := by
  obtain ⟨hbd0, -⟩ := bd.code_range
  have hres : (w.getLsbD 3 || bd.code == 0 || !indirectCodeOk is ind.code) = false := by
    rw [h3, hok, beq_eq_false_iff_ne.mpr (by omega)]
    rfl
  refine Reads.nextWord_bind ?_
  simp only [h8, hbd, his, hind, hres, hix, hbs]
  exact (nextDisp_reads bd).bind ((nextIndirect_reads hok).map _)

theorem nextIndexExt_reads {x : IndexExt} (h : x.wf = true) : Reads nextIndexExt x.enc x := by
  cases x with
  | brief ix d8 => exact nextIndexExt_brief_reads ix d8
  | full ix bs is bd ind =>
    obtain ⟨hbd0, hbd⟩ := bd.code_range
    have hind := ind.code_lt
    have hbs := bs.toNat_le
    have his := is.toNat_le
    have h1 := or_toNat 9 ix.word_toNat (putBit_toNat (b := true) (lo := 8) (k := 256) rfl (by omega)) (by omega)
      (by omega)
    have h2 := or_toNat 8 h1 (putBit_toNat (b := bs) (lo := 7) rfl (by omega)) (by omega) (by omega)
    have h3 := or_toNat 7 h2 (putBit_toNat (b := is) (lo := 6) rfl (by omega)) (by omega) (by omega)
    have h4 := or_toNat 6 h3 (put_toNat (n := bd.code) (lo := 4) rfl (by omega)) (by omega) (by omega)
    have hw := or_toNat 4 h4 (put_toNat (n := ind.code) (lo := 0) rfl (by omega)) (by omega) (by omega)
    exact nextIndexExt_full_reads_of (getLsbD_eq_true (by omega)) (indexField_eq (by omega)) (getLsbD_eq (by omega))
      (getLsbD_eq (by omega)) (getLsbD_eq_false (by omega)) (by omega) (by omega) (indirectCodeOk_of_wf h)

/-! ## Operands (R113, R114) -/

theorem nextImm_reads {v : Imm} (h : v.wf sz = true) : Reads (nextImm sz) v.enc v := by
  cases v with
  | word v =>
    cases sz with
    | b => exact (nextWord_reads v).map _
    | w => exact (nextWord_reads v).map _
    | l => cases h
  | long v =>
    cases sz with
    | b => cases h
    | w => cases h
    | l => exact (nextLong_reads v).map _

theorem Ea.wf_iff : ea.wf c sz = true ↔
    (c.admits ea.mode ea.reg && sizeAdmits sz ea.mode) = true ∧ ea.shapeOk sz = true := by
  rw [Ea.wf, Bool.and_eq_true]

/-- The extension words that fit the mode are read back. -/
theorem nextEa_reads (h : ea.shapeOk sz = true) : Reads (nextEa sz ea.mode ea.reg) ea.enc ea := by
  cases ea with
  | dreg r => exact Reads.pure
  | areg r => exact Reads.pure
  | ind r => exact Reads.pure
  | postinc r => exact Reads.pure
  | predec r => exact Reads.pure
  | disp r d => exact (nextWord_reads d).map _
  | indexed r x => exact (nextIndexExt_reads h).map _
  | absW a => exact (nextWord_reads a).map _
  | absL a => exact (nextLong_reads a).map _
  | pcDisp d => exact (nextWord_reads d).map _
  | pcIndexed x => exact (nextIndexExt_reads h).map _
  | imm v => exact (nextImm_reads h).map _

theorem operand_reads (h : ea.wf c sz = true) : Reads (operand c sz ea.mode ea.reg) ea.enc ea := by
  obtain ⟨hcat, hshape⟩ := Ea.wf_iff.mp h
  exact Reads.legal_bind hcat (nextEa_reads hshape)

/-- An instruction made of its operation word and one operand. -/
theorem operand_map_reads {α : Type} (h : ea.wf c sz = true) (f : Ea → α) :
    Reads (operand c sz ea.mode ea.reg >>= fun e => pure (f e)) ea.enc (f ea) :=
  (operand_reads h).map f

/-- An operand after words of the instruction's own (R112). -/
theorem ownThenEa_reads {α : Type} {own : P α} {ws : List Word} {x : α} (h : ea.wf c sz = true)
    (hown : Reads own ws x) :
    Reads (ownThenEa c sz ea.mode ea.reg own) (ws ++ ea.enc) (x, ea) := by
  obtain ⟨hcat, hshape⟩ := Ea.wf_iff.mp h
  exact Reads.legal_bind hcat (hown.bind ((nextEa_reads hshape).map _))

end Sys2Proof
end

/-! # The extension words of single instructions, and the branch displacement -/

section
namespace Sys2Proof

variable {w : Word}

/-! ## Register words (R119, R241, R399) -/

/-- Bits 11:0 of a register word are free for the instruction. -/
theorem Rn.word_or_toNat (rn : Rn) {x : Word} (hx : x.toNat < 4096) :
    (rn.word ||| x).toNat = (rn.isAddr.toNat * 8 + rn.num.val) * 4096 + x.toNat :=
  or_toNat 12 rn.word_toNat rfl (by omega) hx

theorem rnField_word_or (rn : Rn) {x : Word} (hx : x.toNat < 4096) : rnField (rn.word ||| x) = rn := by
  have hw := rn.word_or_toNat hx
  exact rnField_eq (by omega)

/-- A register word with bit 11. -/
theorem registerWord_fields (rn : Rn) (b : Bool) : let w := rn.word ||| putBit b 11
    rnField w = rn ∧ w.getLsbD 11 = b ∧ w.toNat % 2048 = 0 := by
  have hb := b.toNat_le
  have hp : (putBit b 11).toNat = b.toNat * 2048 := putBit_toNat rfl (by omega)
  have hw := rn.word_or_toNat (x := putBit b 11) (by omega)
  exact ⟨rnField_word_or rn (by omega), getLsbD_eq (by omega), by omega⟩

theorem nextMoves_reads (rn : Rn) (toMem : Bool) : Reads nextMoves [rn.word ||| putBit toMem 11] (rn, toMem) := by
  obtain ⟨hrn, hb, hz⟩ := registerWord_fields rn toMem
  refine Reads.nextWord_bind (Reads.zeroBits_bind (beq_iff_eq.mpr hz) ?_)
  rw [hrn, hb]
  exact Reads.pure

theorem nextBounds_reads (rn : Rn) (chk : Bool) : Reads nextBounds [rn.word ||| putBit chk 11] (rn, chk) :=
  nextMoves_reads rn chk

/-- The word of CMP2 is the register's alone. -/
theorem Rn.word_or_zero (rn : Rn) : rn.word ||| putBit false 11 = rn.word := BitVec.or_zero

theorem movecWord_fields (rn : Rn) (code : BitVec 12) : let w := rn.word ||| code.setWidth 16
    rnField w = rn ∧ w.extractLsb' 0 12 = code := by
  have hc : (code.setWidth 16).toNat = code.toNat := BitVec.toNat_setWidth_of_le (by decide)
  have hw := rn.word_or_toNat (x := code.setWidth 16) (by omega)
  exact ⟨rnField_word_or rn (by omega), extractLsb'_eq (by omega)⟩

/-! ## MULx.L, DIVx.L (R243, R246) -/

theorem nextMulDiv_reads (q : Reg) (g z : Bool) (h : Reg) : Reads nextMulDiv [mulDivWord q g z h] (q, g, z, h) := by
  have hg := g.toNat_le
  have hz := z.toNat_le
  have h1 := or_toNat 12 (put_toNat (n := q.val) (lo := 12) rfl (by omega))
    (putBit_toNat (b := g) (lo := 11) rfl (by omega)) (by omega) (by omega)
  have h2 := or_toNat 11 h1 (putBit_toNat (b := z) (lo := 10) rfl (by omega)) (by omega) (by omega)
  have hw : (mulDivWord q g z h).toNat = _ :=
    or_toNat 10 h2 (put_toNat (n := h.val) (lo := 0) rfl (by omega)) (by omega) (by omega)
  have hzero : (!(mulDivWord q g z h).getLsbD 15 && (mulDivWord q g z h).toNat / 8 % 128 == 0) = true := by
    rw [getLsbD_eq_false (by omega), Bool.not_false, Bool.true_and, beq_iff_eq]
    omega
  refine Reads.nextWord_bind (Reads.zeroBits_bind hzero ?_)
  rw [fieldAt_eq (r := q) (by omega), getLsbD_eq (b := g) (by omega), getLsbD_eq (b := z) (by omega),
    fieldAt_eq (r := h) (by omega)]
  exact Reads.pure

/-! ## CAS and CAS2 (R421, R422) -/

theorem casWord_toNat (du dc : Reg) : (casWord du dc).toNat = du.val * 64 + dc.val :=
  or_toNat 6 (put_toNat (n := du.val) (lo := 6) rfl (by omega)) (put_toNat (Nat.mul_one _) (by omega)) (by omega)
    (by omega)

theorem nextCas_reads (du dc : Reg) : Reads nextCas [casWord du dc] (du, dc) := by
  have hw := casWord_toNat du dc
  have hzero : ((casWord du dc).toNat / 512 == 0 && fieldAt (casWord du dc) 3 == 0) = true := by
    rw [fieldAt_eq (r := 0) (by rw [hw, Fin.val_zero]; omega), beq_self_eq_true, Bool.and_true, beq_iff_eq]
    omega
  refine Reads.nextWord_bind (Reads.zeroBits_bind hzero ?_)
  rw [fieldAt_eq (r := du) (by omega), fieldAt_eq (r := dc) (by omega)]
  exact Reads.pure

theorem nextCas2_reads (rn : Rn) (du dc : Reg) : Reads nextCas2 [rn.word ||| casWord du dc] (rn, du, dc) := by
  have hc := casWord_toNat du dc
  have hw := rn.word_or_toNat (x := casWord du dc) (by omega)
  have hzero : (fieldAt (rn.word ||| casWord du dc) 9 == 0 && fieldAt (rn.word ||| casWord du dc) 3 == 0) = true := by
    rw [fieldAt_eq (r := 0) (by rw [hw, Fin.val_zero]; omega), fieldAt_eq (r := 0) (by rw [hw, Fin.val_zero]; omega)]
    rfl
  refine Reads.nextWord_bind (Reads.zeroBits_bind hzero ?_)
  rw [rnField_word_or rn (by omega), fieldAt_eq (r := du) (by omega), fieldAt_eq (r := dc) (by omega)]
  exact Reads.pure

/-! ## CALLM (R361) -/

theorem nextArgc_reads (n : Byte) : Reads nextArgc [n.setWidth 16] n := by
  have hw : (n.setWidth 16).toNat = n.toNat := BitVec.toNat_setWidth_of_le (by decide)
  refine Reads.nextWord_bind (Reads.zeroBits_bind (beq_iff_eq.mpr (by omega)) ?_)
  rw [extractLsb'_eq (v := n) (by omega)]
  exact Reads.pure

/-! ## Bit fields (R320) -/

theorem BitField.word_toNat (dn : Reg) (f : BitField) : (f.word dn).toNat =
    dn.val * 4096 + f.offReg.toNat * 2048 + f.off.toNat * 64 + f.widReg.toNat * 32 + f.wid.toNat := by
  have ho := f.offReg.toNat_le
  have hw := f.widReg.toNat_le
  have h1 := or_toNat 12 (put_toNat (n := dn.val) (lo := 12) rfl (by omega))
    (putBit_toNat (b := f.offReg) (lo := 11) rfl (by omega)) (by omega) (by omega)
  have h2 := or_toNat 11 h1 (put_toNat (n := f.off.toNat) (lo := 6) rfl (by omega)) (by omega) (by omega)
  have h3 := or_toNat 6 h2 (putBit_toNat (b := f.widReg) (lo := 5) rfl (by omega)) (by omega) (by omega)
  exact or_toNat 5 h3 (put_toNat (Nat.mul_one _) (by omega)) (by omega) (by omega)

/-- Bits 14:12 are a register, or 0 where the instruction names none. -/
theorem nextBitField_reads {reg : Bool} {dn : Reg} {f : BitField} (hf : f.wf = true) (hdn : reg = true ∨ dn = 0) :
    Reads (nextBitField reg) [f.word dn] (dn, f) := by
  have hw := f.word_toNat dn
  have ho := f.offReg.toNat_le
  have hl := f.widReg.toNat_le
  have hr : fieldAt (f.word dn) 12 = dn := fieldAt_eq (by omega)
  have hfields : (⟨(f.word dn).getLsbD 11, (f.word dn).extractLsb' 6 5, (f.word dn).getLsbD 5,
      (f.word dn).extractLsb' 0 5⟩ : BitField) = f := by
    rw [getLsbD_eq (b := f.offReg) (by omega), getLsbD_eq (b := f.widReg) (by omega),
      extractLsb'_eq (v := f.off) (by omega), extractLsb'_eq (v := f.wid) (by omega)]
  have hzero : (!(f.word dn).getLsbD 15 && (reg || fieldAt (f.word dn) 12 == 0) && f.wf) = true := by
    rw [getLsbD_eq_false (by omega), hr, hf]
    obtain rfl | rfl := hdn
    · rfl
    · cases reg <;> rfl
  refine Reads.nextWord_bind ?_
  simp only [hfields, hr]
  rw [hr] at hzero
  exact Reads.zeroBits_bind hzero Reads.pure

/-! ## Branches and traps (R120, R381) -/

/-- The 8-bit field of a branch and the words that follow it. -/
def BrDisp.field : BrDisp → Byte
  | .byte d => d
  | .word _ => 0x00
  | .long _ => 0xFF

/-- The words after the operation word of a branch (R120). -/
def BrDisp.enc : BrDisp → List Word
  | .byte _ => []
  | .word v => [v]
  | .long v => longWords v

theorem branchWords_eq (cc : Nat) (d : BrDisp) :
    branchWords cc d = BitVec.ofNat 16 (0x6000 + cc * 256 + d.field.toNat) :: d.enc := by
  cases d <;> rfl

theorem nextBrDisp_reads {d : BrDisp} (h : d.wf = true) : Reads (nextBrDisp d.field) d.enc d := by
  cases d with
  | byte b =>
    obtain ⟨h0, hff⟩ := (Bool.and_eq_true ..).mp h
    exact Reads.ite_neg (bne_iff_ne.mp h0) (Reads.ite_neg (bne_iff_ne.mp hff) Reads.pure)
  | word v => exact (nextWord_reads v).map _
  | long v => exact (nextLong_reads v).map _

theorem Cond.code_lt (c : Cond) : c.code < 16 := by
  cases c <;> decide

end Sys2Proof
end

/-! # Modes a category leaves out (R117) -/

section
namespace Sys2Proof

variable {sz : Size} {ea : Ea}

theorem Ea.admits_of_wf {c : Cat} (h : ea.wf c sz = true) : c.admits ea.mode ea.reg = true := by
  obtain ⟨hcat, -⟩ := Ea.wf_iff.mp h
  exact ((Bool.and_eq_true ..).mp hcat).1

/-- Categories without the register modes. -/
theorem Cat.one_lt_mode {c : Cat}
    (hc : c = .control ∨ c = .memoryAlterable ∨ c = .controlAlterablePredec ∨ c = .controlPostinc) :
    ∀ m r : Reg, c.admits m r = true → 1 < m.val := by
  obtain rfl | rfl | rfl | rfl := hc <;> decide

theorem Cat.data_mode_ne_one : ∀ m r : Reg, Cat.admits .data m r = true → m ≠ 1 := by decide

theorem Cat.dataAlterable_mode_ne_one : ∀ m r : Reg, Cat.admits .dataAlterable m r = true → m ≠ 1 := by decide

/-- An alterable operand in mode 111 is absolute: registers 010 to 111 are left to other instructions. -/
theorem Cat.alterable_not_seven {c : Cat} (hc : c = .dataAlterable ∨ c = .memoryAlterable) :
    ∀ m r : Reg, c.admits m r = true → ¬ (m = 7 ∧ 1 < r.val) := by
  obtain rfl | rfl := hc <;> decide

/-- A mode that TRAPcc and cpTRAPcc use is no data alterable operand. -/
theorem dataAlterable_not_trap {m r : Reg} (h : Cat.admits .dataAlterable m r = true) :
    ¬ (m = 7 ∧ isTrapOpmode r = true) := by
  have htrap : ∀ r : Reg, isTrapOpmode r = true → 1 < r.val := by decide
  exact fun ⟨hm, hr⟩ => Cat.alterable_not_seven (.inl rfl) _ _ h ⟨hm, htrap _ hr⟩

end Sys2Proof
end

/-! # Decoding what was encoded, line by line of the opcode map (R122) -/

section
namespace Sys2Proof

variable {sz : Size} {ea : Ea} {c : Cat} {ws : List Word}

/-- The words of `i` are read as `i`. -/
def RoundTrips (i : Instr) : Prop := Reads parseInstr (encode i) i

/-- A first word that is written out is an operation word. -/
theorem reads_word {line : Nat} {a o m r : Reg} {w : Word} {i : Instr} (hl : line < 16)
    (hw : w = opWord line a o m r) (h : Reads (decodeOp line a o m r) ws i) : Reads parseInstr (w :: ws) i :=
  hw ▸ reads_opWord hl h

theorem Reads.pure_of_eq {α : Type} {a b : α} (h : a = b) : Reads (Pure.pure a) [] b := h ▸ Reads.pure

/-! ## Shapes shared by several lines -/

theorem immOp_reads {v : Imm} (h : (v.wf sz && ea.wf c sz) = true) (f : Imm → Ea → Instr) :
    Reads (immOp c sz ea.mode ea.reg f) (v.enc ++ ea.enc) (f v ea) := by
  obtain ⟨hv, hea⟩ := (Bool.and_eq_true ..).mp h
  exact (ownThenEa_reads hea (nextImm_reads hv)).map fun x => f x.1 x.2

theorem bitImm_reads (h : ea.wf c .b = true) (n : Word) (f : Word → Ea → Instr) :
    Reads (bitImm c ea.mode ea.reg f) (n :: ea.enc) (f n ea) :=
  (ownThenEa_reads h (nextWord_reads n)).map fun x => f x.1 x.2

/-- Mode 001 of a data alterable operand selects another instruction. -/
theorem notAn_reads {x : P Instr} (h : ea.wf .dataAlterable sz = true) (f : Ea → Instr) :
    Reads (if ea.mode = 1 then x else operand .dataAlterable sz ea.mode ea.reg >>= fun e => pure (f e)) ea.enc (f ea) :=
  Reads.ite_neg (Cat.dataAlterable_mode_ne_one _ _ (Ea.admits_of_wf h)) (operand_map_reads h f)

/-- The bit-field word, then the operand (R320); `dn` is 0 where the instruction names no register. -/
theorem bitField_reads {reg : Bool} {dn : Reg} {f : BitField} (h : (ea.wf c .b && f.wf) = true)
    (hdn : reg = true ∨ dn = 0) :
    Reads (ownThenEa c .b ea.mode ea.reg (nextBitField reg)) (f.word dn :: ea.enc) ((dn, f), ea) := by
  obtain ⟨hea, hf⟩ := (Bool.and_eq_true ..).mp h
  exact ownThenEa_reads hea (nextBitField_reads hf hdn)

theorem movemOp_reads {sz : WL} (h : ea.wf c sz.size = true) (mask : Word) (f : WL → Word → Ea → Instr) :
    Reads (movemOp c sz ea.mode ea.reg f) (mask :: ea.enc) (f sz mask ea) :=
  (ownThenEa_reads h (nextWord_reads mask)).map fun x => f sz x.1 x.2

/-- ORI, ANDI, EORI: a data alterable operand is not in the field that names the CCR or the SR. -/
theorem logicImm_reads {v : Imm} (h : (v.wf sz && ea.wf .dataAlterable sz) = true) (ccr sr : Word → Instr)
    (f : Size → Imm → Ea → Instr) :
    Reads (logicImm (oct sz.code) ea.mode ea.reg ccr sr f) (v.enc ++ ea.enc) (f sz v ea) := by
  obtain ⟨-, hea⟩ := (Bool.and_eq_true ..).mp h
  have h7 := Cat.alterable_not_seven (.inl rfl) _ _ (Ea.admits_of_wf hea)
  have h74 : ∀ o : Reg, ¬ (ea.mode = 7 ∧ ea.reg = 4 ∧ oct sz.code = o) := by
    rintro o ⟨hm, hr, -⟩
    exact h7 ⟨hm, by rw [hr]; decide⟩
  refine Reads.ite_neg (h74 0) (Reads.ite_neg (h74 1) ?_)
  cases sz <;> exact immOp_reads h _

theorem aluOp_toReg_reads (h : ea.wf c sz = true) (dn : Reg) (toReg : Size → Ea → Reg → Instr)
    (toEa : Size → Reg → Ea → Instr) :
    Reads (aluOp c dn (oct sz.code) ea.mode ea.reg toReg toEa) ea.enc (toReg sz ea dn) := by
  cases sz <;> exact operand_map_reads h _

theorem aluOp_toEa_reads (h : ea.wf .memoryAlterable sz = true) (dn : Reg) (toReg : Size → Ea → Reg → Instr)
    (toEa : Size → Reg → Ea → Instr) :
    Reads (aluOp c dn (oct (4 + sz.code)) ea.mode ea.reg toReg toEa) ea.enc (toEa sz dn ea) := by
  cases sz <;> exact operand_map_reads h _

/-! ## Line 0000 -/

theorem roundTrips_callm {n : Byte} (h : (Instr.callm n ea).wf = true) : RoundTrips (.callm n ea) := by
  have hm := Cat.one_lt_mode (.inl rfl) _ _ (Ea.admits_of_wf h)
  exact reads_opWord (by decide) (Reads.ite_neg (by omega) ((ownThenEa_reads h (nextArgc_reads n)).map _))

theorem roundTrips_rtm (rn : Rn) : RoundTrips (.rtm rn) := by
  obtain ⟨b, n⟩ := rn
  cases b <;> exact reads_opWord (by decide) Reads.pure

theorem casOp_reads (h : ea.wf .memoryAlterable sz = true) (dc du : Reg) :
    Reads (casOp sz ea.mode ea.reg) (casWord du dc :: ea.enc) (.cas sz dc du ea) :=
  (ownThenEa_reads h (nextCas_reads du dc)).map _

theorem casOrCas2_reads {sz : WL} (h : ea.wf .memoryAlterable sz.size = true) (dc du : Reg) :
    Reads (casOrCas2 sz ea.mode ea.reg) (casWord du dc :: ea.enc) (.cas sz.size dc du ea) := by
  have h7 := Cat.alterable_not_seven (.inr rfl) _ _ (Ea.admits_of_wf h)
  refine Reads.ite_neg (fun ⟨hm, hr⟩ => h7 ⟨hm, by rw [hr]; decide⟩) (casOp_reads h dc du)

theorem roundTrips_cas {dc du : Reg} (h : (Instr.cas sz dc du ea).wf = true) : RoundTrips (.cas sz dc du ea) := by
  cases sz with
  | b => exact reads_opWord (by decide) (casOp_reads h dc du)
  | w => exact reads_opWord (by decide) (casOrCas2_reads (sz := .w) h dc du)
  | l => exact reads_opWord (by decide) (casOrCas2_reads (sz := .l) h dc du)

theorem roundTrips_cas2 (sz : WL) (rn1 : Rn) (du1 dc1 : Reg) (rn2 : Rn) (du2 dc2 : Reg) :
    RoundTrips (.cas2 sz rn1 du1 dc1 rn2 du2 dc2) := by
  cases sz <;> exact reads_opWord (by decide) ((nextCas2_reads rn1 du1 dc1).bind ((nextCas2_reads rn2 du2 dc2).map _))

theorem roundTrips_cmp2 {rn : Rn} (h : (Instr.cmp2 sz ea rn).wf = true) : RoundTrips (.cmp2 sz ea rn) := by
  have hown := nextBounds_reads rn false
  rw [rn.word_or_zero] at hown
  cases sz <;> exact reads_opWord (by decide) ((ownThenEa_reads h hown).map _)

theorem roundTrips_chk2 {rn : Rn} (h : (Instr.chk2 sz ea rn).wf = true) : RoundTrips (.chk2 sz ea rn) := by
  cases sz <;> exact reads_opWord (by decide) ((ownThenEa_reads h (nextBounds_reads rn true)).map _)

theorem roundTrips_moves {toMem : Bool} {rn : Rn} (h : (Instr.moves sz toMem rn ea).wf = true) :
    RoundTrips (.moves sz toMem rn ea) := by
  cases sz <;> exact reads_opWord (by decide) ((ownThenEa_reads h (nextMoves_reads rn toMem)).map _)

/-- The words of line 0000 whose operand field names the CCR or the SR. -/
theorem reads_statusWord (a o : Reg) {i : Instr} (h : Reads (line0 a o 7 4) ws i) :
    Reads parseInstr (opWord 0 a o 7 4 :: ws) i := reads_opWord (by decide) h

/-! ## Lines 0001 to 0011: MOVE -/

theorem lineMove_reads {src dst : Ea} (hs : src.wf .all sz = true) (hd : dst.wf .dataAlterable sz = true) :
    Reads (lineMove sz dst.reg dst.mode src.mode src.reg) (src.enc ++ dst.enc) (.move sz src dst) := by
  obtain ⟨hcat, hshape⟩ := Ea.wf_iff.mp hd
  have hm := Cat.dataAlterable_mode_ne_one _ _ (Ea.admits_of_wf hd)
  exact Reads.ite_neg hm (Reads.legal_bind hcat ((operand_reads hs).bind ((nextEa_reads hshape).map _)))

theorem roundTrips_move {src dst : Ea} (h : (Instr.move sz src dst).wf = true) : RoundTrips (.move sz src dst) := by
  obtain ⟨hs, hd⟩ := (Bool.and_eq_true ..).mp h
  cases sz <;> exact reads_opWord (by decide) (lineMove_reads hs hd)

/-! ## Line 0100 -/

theorem mode_ne_zero {m : Reg} (h : 1 < m.val) : m ≠ 0 := by rintro rfl; exact absurd h (by decide)

theorem mode_ne_one {m : Reg} (h : 1 < m.val) : m ≠ 1 := by rintro rfl; exact absurd h (by decide)

theorem roundTrips_lea {an : Reg} (h : (Instr.lea ea an).wf = true) : RoundTrips (.lea ea an) := by
  have hm := Cat.one_lt_mode (.inl rfl) _ _ (Ea.admits_of_wf h)
  exact reads_opWord (by decide) (Reads.ite_neg (fun h0 => mode_ne_zero hm h0.2) (operand_map_reads h _))

theorem roundTrips_pea (h : (Instr.pea ea).wf = true) : RoundTrips (.pea ea) := by
  have hm := Cat.one_lt_mode (.inl rfl) _ _ (Ea.admits_of_wf h)
  exact reads_opWord (by decide)
    (Reads.ite_neg (mode_ne_zero hm) (Reads.ite_neg (mode_ne_one hm) (operand_map_reads h _)))

theorem roundTrips_movemToMem {sz : WL} {mask : Word} (h : (Instr.movemToMem sz mask ea).wf = true) :
    RoundTrips (.movemToMem sz mask ea) := by
  have hm := Cat.one_lt_mode (.inr (.inr (.inl rfl))) _ _ (Ea.admits_of_wf h)
  cases sz <;> exact reads_opWord (by decide) (Reads.ite_neg (mode_ne_zero hm) (movemOp_reads h mask _))

theorem roundTrips_movemToReg {sz : WL} {mask : Word} (h : (Instr.movemToReg sz mask ea).wf = true) :
    RoundTrips (.movemToReg sz mask ea) := by
  cases sz <;> exact reads_opWord (by decide) (movemOp_reads h mask _)

theorem roundTrips_tas (h : (Instr.tas ea).wf = true) : RoundTrips (.tas ea) := by
  have h7 := Cat.alterable_not_seven (.inl rfl) _ _ (Ea.admits_of_wf h)
  exact reads_opWord (by decide)
    (Reads.ite_neg (fun ⟨hm, hr⟩ => h7 ⟨hm, by rw [hr]; decide⟩) (operand_map_reads h _))

theorem roundTrips_trap (v : Fin 16) : RoundTrips (.trap v) := by
  have hline : line4E4 (oct (v.val / 8)) (oct v.val) = pure (.trap v) := by
    fin_cases v <;> rfl
  refine reads_opWord (by decide) ?_
  show Reads (line4E4 (oct (v.val / 8)) (oct v.val)) [] _
  rw [hline]
  exact Reads.pure

/-- The words `$4E70` to `$4E77`. -/
theorem reads_4E7 (r : Reg) {i : Instr} (h : Reads (line4E4 6 r) ws i) :
    Reads parseInstr (opWord 4 7 1 6 r :: ws) i := reads_opWord (by decide) h

theorem roundTrips_movec (toCtl : Bool) (rn : Rn) (code : BitVec 12) : RoundTrips (.movec toCtl rn code) := by
  obtain ⟨hrn, hcode⟩ := movecWord_fields rn code
  have hword : ∀ w : Word, rnField w = rn → w.extractLsb' 0 12 = code →
      Reads (nextWord >>= fun w => pure (Instr.movec toCtl (rnField w) (w.extractLsb' 0 12))) [w]
        (.movec toCtl rn code) := by
    rintro w rfl rfl
    exact (nextWord_reads w).map _
  cases toCtl <;> exact reads_opWord (by decide) (hword _ hrn hcode)

/-! ## Line 0101: the conditional instructions -/

/-- The condition stands in bits 11:8 (R121). -/
theorem line5_condition (c : Cond) (m r : Reg) : line5 (oct (c.code / 2)) (oct (3 + c.code % 2 * 4)) m r =
    if m = 1 then (nextWord >>= fun d => pure (.dbcc c r d))
    else if m = 7 ∧ isTrapOpmode r then (nextTrapOperand r >>= fun op => pure (.trapcc c op))
    else (operand .dataAlterable .b m r >>= fun e => pure (.scc c e)) := by
  cases c <;> rfl

theorem reads_condition {k : Cond} {m r : Reg} {i : Instr}
    (h : Reads (if m = 1 then (nextWord >>= fun d => pure (.dbcc k r d))
      else if m = 7 ∧ isTrapOpmode r then (nextTrapOperand r >>= fun op => pure (.trapcc k op))
      else (operand .dataAlterable .b m r >>= fun e => pure (.scc k e))) ws i) :
    Reads parseInstr (opWord 5 (oct (k.code / 2)) (oct (3 + k.code % 2 * 4)) m r :: ws) i := by
  rw [← line5_condition] at h
  exact reads_opWord (by decide) h

theorem roundTrips_dbcc (k : Cond) (dn : Reg) (d : Word) : RoundTrips (.dbcc k dn d) :=
  reads_condition (Reads.ite_pos rfl ((nextWord_reads d).map _))

theorem roundTrips_trapcc (k : Cond) (op : TrapOperand) : RoundTrips (.trapcc k op) := by
  cases op with
  | none => exact reads_condition Reads.pure
  | word v => exact reads_condition (((nextWord_reads v).map _).map _)
  | long v => exact reads_condition (((nextLong_reads v).map _).map _)

theorem roundTrips_scc {k : Cond} (h : (Instr.scc k ea).wf = true) : RoundTrips (.scc k ea) := by
  have hm := Cat.dataAlterable_mode_ne_one _ _ (Ea.admits_of_wf h)
  exact reads_condition
    (Reads.ite_neg hm (Reads.ite_neg (dataAlterable_not_trap (Ea.admits_of_wf h)) (operand_map_reads h _)))

/-! ## Lines 0110 and 0111: the operation word holds a byte -/

theorem lowByte_of_toNat {o : Reg} {b : Byte} (h : o.val % 4 = b.toNat / 64) :
    lowByte o (oct (b.toNat / 8)) (oct b.toNat) = b := by
  apply BitVec.eq_of_toNat_eq
  rw [lowByte, BitVec.toNat_ofNat, oct_val, oct_val]
  omega

theorem roundTrips_moveq (dn : Reg) (d : Byte) : RoundTrips (.moveq dn d) := by
  have ho := oct_val (d.toNat / 64)
  have hw : BitVec.ofNat 16 (0x7000 + dn.val * 512 + d.toNat) =
      opWord 7 dn (oct (d.toNat / 64)) (oct (d.toNat / 8)) (oct d.toNat) := by
    rw [opWord]
    simp only [oct_val]
    congr 1
    omega
  refine reads_word (by decide) hw (Reads.ite_pos (by omega) ?_)
  rw [lowByte_of_toNat (b := d) (by omega)]
  exact Reads.pure

/-- BRA, BSR and Bcc by the number in bits 11:8 (R120). -/
def branchInstr : Nat → BrDisp → Instr
  | 0, d => .bra d
  | 1, d => .bsr d
  | n, d => .bcc (Cond.ofCode n) d

theorem line6_eq (a o m r : Reg) : line6 a o m r =
    nextBrDisp (lowByte o m r) >>= fun d => pure (branchInstr (a.val * 2 + o.val / 4) d) := by
  unfold line6
  congr 1
  funext d
  match a.val * 2 + o.val / 4 with
  | 0 => rfl
  | 1 => rfl
  | n + 2 => rfl

theorem branchWords_reads {cc : Nat} {d : BrDisp} (hcc : cc < 16) (hd : d.wf = true) :
    Reads parseInstr (branchWords cc d) (branchInstr cc d) := by
  have ho := oct_val (cc % 2 * 4 + d.field.toNat / 64)
  have ha := oct_val (cc / 2)
  have hw : BitVec.ofNat 16 (0x6000 + cc * 256 + d.field.toNat) = opWord 6 (oct (cc / 2))
      (oct (cc % 2 * 4 + d.field.toNat / 64)) (oct (d.field.toNat / 8)) (oct d.field.toNat) := by
    rw [opWord]
    simp only [oct_val]
    congr 1
    omega
  have hn : (oct (cc / 2)).val * 2 + (oct (cc % 2 * 4 + d.field.toNat / 64)).val / 4 = cc := by omega
  rw [branchWords_eq]
  refine reads_word (by decide) hw ?_
  show Reads (line6 _ _ _ _) _ _
  rw [line6_eq, lowByte_of_toNat (b := d.field) (by omega), hn]
  exact (nextBrDisp_reads hd).map _

theorem roundTrips_bcc {k : Cond} {d : BrDisp} (h : (Instr.bcc k d).wf = true) : RoundTrips (.bcc k d) := by
  obtain ⟨hc, hd⟩ := (Bool.and_eq_true ..).mp h
  obtain ⟨ht, hf⟩ := (Bool.and_eq_true ..).mp hc
  have hb : branchInstr k.code d = .bcc k d := by
    cases k with
    | t => cases ht
    | f => cases hf
    | hi | ls | cc | cs | ne | eq | vc | vs | pl | mi | ge | lt | gt | le => rfl
  have hreads := branchWords_reads k.code_lt hd
  rw [hb] at hreads
  exact hreads

/-! ## Lines 1000, 1001, 1100, 1101: the operations with two directions

Where the register field of an address selects another instruction, the operand of the memory form is not there. -/

theorem roundTrips_toEa {dn : Reg} (h : ea.wf .memoryAlterable sz = true) :
    RoundTrips (.orToEa sz dn ea) ∧ RoundTrips (.subToEa sz dn ea) ∧ RoundTrips (.addToEa sz dn ea) := by
  have hm := Cat.one_lt_mode (.inr (.inl rfl)) _ _ (Ea.admits_of_wf h)
  refine ⟨?_, ?_, ?_⟩ <;> cases sz <;>
    exact reads_opWord (by decide) (Reads.ite_neg (by omega) (aluOp_toEa_reads h dn _ _))

theorem roundTrips_andToEa {dn : Reg} (h : (Instr.andToEa sz dn ea).wf = true) : RoundTrips (.andToEa sz dn ea) := by
  have hm := Cat.one_lt_mode (.inr (.inl rfl)) _ _ (Ea.admits_of_wf h)
  have h0 := mode_ne_zero hm
  have h1 := mode_ne_one hm
  cases sz with
  | b => exact reads_opWord (by decide) (Reads.ite_neg (by omega) (aluOp_toEa_reads h dn _ _))
  | w => exact reads_opWord (by decide) (Reads.ite_neg h0 (Reads.ite_neg h1 (aluOp_toEa_reads h dn _ _)))
  | l => exact reads_opWord (by decide) (Reads.ite_neg h1 (aluOp_toEa_reads h dn _ _))

/-! ## Line 1110: shifts, rotates, bit fields -/

theorem line14_register (sz : Size) (left : Bool) (n m dn : Reg) :
    line14 n (oct (sz.code + left.toNat * 4)) m dn =
      pure (regShift sz (m.val % 4) left (if m.val < 4 then .imm n else .reg n) dn) := by
  cases sz <;> cases left <;> rfl

/-- The type stands in bits 4:3, and bit 5 tells a count register from a count (R290). -/
theorem shiftWord_reads {tt : Nat} (ht : tt < 4) (left : Bool) (sz : Size) (n : ShiftCount) (dn : Reg) :
    Reads parseInstr [shiftWord tt left sz n dn] (regShift sz tt left n dn) := by
  cases n with
  | imm n =>
    have hm := oct_val tt
    refine reads_opWord (by decide) ?_
    show Reads (line14 n _ _ _) [] _
    rw [line14_register, if_pos (by omega), show (oct tt).val % 4 = tt by omega]
    exact Reads.pure
  | reg n =>
    have hm := oct_val (4 + tt)
    refine reads_opWord (by decide) ?_
    show Reads (line14 n _ _ _) [] _
    rw [line14_register, if_neg (by omega), show (oct (4 + tt)).val % 4 = tt by omega]
    exact Reads.pure

/-! ## Lines 1010 and 1111 -/

/-- An operand of 12 bits and the octal fields it fills. -/
theorem opWord_of_operand {line : Nat} (hl : line < 16) (v : BitVec 12) :
    BitVec.ofNat 16 (line * 4096 + v.toNat) =
      opWord line (oct (v.toNat / 512)) (typeField v) (modeField v) (regField v) := by
  have h9 := oct_val (v.toNat / 512)
  rw [opWord]
  simp only [typeField, modeField, regField]
  congr 1
  omega

theorem operand_of_fields (v : BitVec 12) : BitVec.ofNat 12
    ((((oct (v.toNat / 512)).val * 8 + (typeField v).val) * 8 + (modeField v).val) * 8 + (regField v).val) = v := by
  apply BitVec.eq_of_toNat_eq
  have h9 := oct_val (v.toNat / 512)
  rw [BitVec.toNat_ofNat]
  simp only [typeField, modeField, regField]
  omega

theorem roundTrips_aLine (v : BitVec 12) : RoundTrips (.aLine v) :=
  reads_word (by decide) (opWord_of_operand (line := 10) (by decide) v)
    (Reads.pure_of_eq (congrArg Instr.aLine (operand_of_fields v)))

/-- A word that no coprocessor row takes is the F-line row's (R435). -/
theorem line15_other {a o m r : Reg} (h : isCpWord o m r = false) :
    line15 a o m r = pure (.fLine (BitVec.ofNat 12 (((a.val * 8 + o.val) * 8 + m.val) * 8 + r.val))) := by
  obtain ⟨n, hn⟩ := o
  interval_cases n
  · exact congrArg pure (if_neg (ne_true_of_eq_false h))
  · obtain ⟨hrest, htrap⟩ := Bool.or_eq_false_iff.mp h
    obtain ⟨hcat, h1⟩ := Bool.or_eq_false_iff.mp hrest
    have hm7 : ¬ (m = 7 ∧ isTrapOpmode r = true) := by simpa using htrap
    exact congrArg pure ((if_neg (beq_eq_false_iff_ne.mp h1)).trans
      ((if_neg hm7).trans (if_neg (ne_true_of_eq_false hcat))))
  · cases h
  · cases h
  · exact congrArg pure (if_neg (ne_true_of_eq_false h))
  · exact congrArg pure (if_neg (ne_true_of_eq_false h))
  · rfl
  · rfl

theorem roundTrips_fLine {v : BitVec 12} (h : (Instr.fLine v).wf = true) : RoundTrips (.fLine v) := by
  have hother := line15_other (a := oct (v.toNat / 512)) ((Bool.not_eq_true' _).mp h)
  rw [operand_of_fields] at hother
  refine reads_word (by decide) (opWord_of_operand (line := 15) (by decide) v) ?_
  show Reads (line15 _ _ _ _) [] _
  rw [hother]
  exact Reads.pure

theorem roundTrips_cpGen {a m r : Reg} (h : (Instr.cpGen a m r).wf = true) : RoundTrips (.cpGen a m r) :=
  reads_opWord (by decide) (Reads.pure_of_eq (if_pos h))

theorem roundTrips_cpSave {a m r : Reg} (h : (Instr.cpSave a m r).wf = true) : RoundTrips (.cpSave a m r) :=
  reads_opWord (by decide) (Reads.pure_of_eq (if_pos h))

theorem roundTrips_cpRestore {a m r : Reg} (h : (Instr.cpRestore a m r).wf = true) : RoundTrips (.cpRestore a m r) :=
  reads_opWord (by decide) (Reads.pure_of_eq (if_pos h))

theorem roundTrips_cpScc {a m r : Reg} (h : (Instr.cpScc a m r).wf = true) : RoundTrips (.cpScc a m r) :=
  reads_opWord (by decide) (Reads.pure_of_eq ((if_neg (Cat.dataAlterable_mode_ne_one _ _ h)).trans
    ((if_neg (dataAlterable_not_trap h)).trans (if_pos h))))

theorem roundTrips_cpTrapcc {a o : Reg} (h : (Instr.cpTrapcc a o).wf = true) : RoundTrips (.cpTrapcc a o) :=
  reads_opWord (by decide) (Reads.pure_of_eq ((if_neg (by decide)).trans (if_pos ⟨rfl, h⟩)))

theorem roundTrips_cpBcc (a : Reg) (long : Bool) (k : BitVec 6) : RoundTrips (.cpBcc a long k) := by
  have hk : BitVec.ofNat 6 ((oct (k.toNat / 8)).val * 8 + (oct k.toNat).val) = k := by
    apply BitVec.eq_of_toNat_eq
    rw [BitVec.toNat_ofNat, oct_val, oct_val]
    omega
  cases long <;> exact reads_opWord (by decide) (Reads.pure_of_eq (congrArg (Instr.cpBcc a _) hk))

/-! ## All instructions -/

theorem roundTrips_of_wf (i : Instr) (h : i.wf = true) : RoundTrips i := by
  cases i with
  | move sz src dst => exact roundTrips_move h
  | movea sz src an => cases sz <;> exact reads_opWord (by decide) (operand_map_reads h _)
  | moveq dn d => exact roundTrips_moveq dn d
  | movemToMem sz mask ea => exact roundTrips_movemToMem h
  | movemToReg sz mask ea => exact roundTrips_movemToReg h
  | movep toMem sz dx ay d => cases toMem <;> cases sz <;> exact reads_opWord (by decide) ((nextWord_reads d).map _)
  | lea ea an => exact roundTrips_lea h
  | pea ea => exact roundTrips_pea h
  | linkW an d => exact reads_opWord (by decide) ((nextWord_reads d).map _)
  | linkL an d => exact reads_opWord (by decide) ((nextLong_reads d).map _)
  | unlk an => exact reads_opWord (by decide) Reads.pure
  | exg mode rx ry => cases mode <;> exact reads_opWord (by decide) Reads.pure
  | addToReg sz ea dn => cases sz <;> exact reads_opWord (by decide) (aluOp_toReg_reads h dn .addToReg .addToEa)
  | addToEa sz dn ea => exact (roundTrips_toEa h).2.2
  | adda sz ea an => cases sz <;> exact reads_opWord (by decide) (operand_map_reads h _)
  | addi sz v ea => cases sz <;> exact reads_opWord (by decide) (immOp_reads h _)
  | addq sz data ea => cases sz <;> exact reads_opWord (by decide) (operand_map_reads h _)
  | addx sz mem ry rx => cases sz <;> cases mem <;> exact reads_opWord (by decide) Reads.pure
  | clr sz ea => cases sz <;> exact reads_opWord (by decide) (operand_map_reads h _)
  | cmp sz ea dn => cases sz <;> exact reads_opWord (by decide) (operand_map_reads h _)
  | cmpa sz ea an => cases sz <;> exact reads_opWord (by decide) (operand_map_reads h _)
  | cmpi sz v ea => cases sz <;> exact reads_opWord (by decide) (immOp_reads h _)
  | cmpm sz ay ax => cases sz <;> exact reads_opWord (by decide) Reads.pure
  | cmp2 sz ea rn => exact roundTrips_cmp2 h
  | divuW ea dn => exact reads_opWord (by decide) (operand_map_reads h _)
  | divsW ea dn => exact reads_opWord (by decide) (operand_map_reads h _)
  | divL ea dq g z dr => exact reads_opWord (by decide) ((ownThenEa_reads h (nextMulDiv_reads dq g z dr)).map _)
  | extW dn => exact reads_opWord (by decide) Reads.pure
  | extL dn => exact reads_opWord (by decide) Reads.pure
  | extbL dn => exact reads_opWord (by decide) Reads.pure
  | muluW ea dn => exact reads_opWord (by decide) (operand_map_reads h _)
  | mulsW ea dn => exact reads_opWord (by decide) (operand_map_reads h _)
  | mulL ea dl g z dh => exact reads_opWord (by decide) ((ownThenEa_reads h (nextMulDiv_reads dl g z dh)).map _)
  | neg sz ea => cases sz <;> exact reads_opWord (by decide) (operand_map_reads h _)
  | negx sz ea => cases sz <;> exact reads_opWord (by decide) (operand_map_reads h _)
  | subToReg sz ea dn => cases sz <;> exact reads_opWord (by decide) (aluOp_toReg_reads h dn .subToReg .subToEa)
  | subToEa sz dn ea => exact (roundTrips_toEa h).2.1
  | suba sz ea an => cases sz <;> exact reads_opWord (by decide) (operand_map_reads h _)
  | subi sz v ea => cases sz <;> exact reads_opWord (by decide) (immOp_reads h _)
  | subq sz data ea => cases sz <;> exact reads_opWord (by decide) (operand_map_reads h _)
  | subx sz mem ry rx => cases sz <;> cases mem <;> exact reads_opWord (by decide) Reads.pure
  | andToReg sz ea dn => cases sz <;> exact reads_opWord (by decide) (aluOp_toReg_reads h dn .andToReg .andToEa)
  | andToEa sz dn ea => exact roundTrips_andToEa h
  | andi sz v ea => cases sz <;> exact reads_opWord (by decide) (logicImm_reads h _ _ _)
  | orToReg sz ea dn => cases sz <;> exact reads_opWord (by decide) (aluOp_toReg_reads h dn .orToReg .orToEa)
  | orToEa sz dn ea => exact (roundTrips_toEa h).1
  | ori sz v ea => cases sz <;> exact reads_opWord (by decide) (logicImm_reads h _ _ _)
  | eor sz dn ea => cases sz <;> exact reads_opWord (by decide) (notAn_reads h _)
  | eori sz v ea => cases sz <;> exact reads_opWord (by decide) (logicImm_reads h _ _ _)
  | not sz ea => cases sz <;> exact reads_opWord (by decide) (operand_map_reads h _)
  | tst sz ea => cases sz <;> exact reads_opWord (by decide) (operand_map_reads h _)
  | aslReg sz n dn => exact shiftWord_reads (tt := 0) (by decide) true sz n dn
  | aslMem ea => exact reads_opWord (by decide) (operand_map_reads h _)
  | asrReg sz n dn => exact shiftWord_reads (tt := 0) (by decide) false sz n dn
  | asrMem ea => exact reads_opWord (by decide) (operand_map_reads h _)
  | lslReg sz n dn => exact shiftWord_reads (tt := 1) (by decide) true sz n dn
  | lslMem ea => exact reads_opWord (by decide) (operand_map_reads h _)
  | lsrReg sz n dn => exact shiftWord_reads (tt := 1) (by decide) false sz n dn
  | lsrMem ea => exact reads_opWord (by decide) (operand_map_reads h _)
  | rolReg sz n dn => exact shiftWord_reads (tt := 3) (by decide) true sz n dn
  | rolMem ea => exact reads_opWord (by decide) (operand_map_reads h _)
  | rorReg sz n dn => exact shiftWord_reads (tt := 3) (by decide) false sz n dn
  | rorMem ea => exact reads_opWord (by decide) (operand_map_reads h _)
  | roxlReg sz n dn => exact shiftWord_reads (tt := 2) (by decide) true sz n dn
  | roxlMem ea => exact reads_opWord (by decide) (operand_map_reads h _)
  | roxrReg sz n dn => exact shiftWord_reads (tt := 2) (by decide) false sz n dn
  | roxrMem ea => exact reads_opWord (by decide) (operand_map_reads h _)
  | swap dn => exact reads_opWord (by decide) Reads.pure
  | bchgDyn dn ea => exact reads_opWord (by decide) (notAn_reads h _)
  | bchgImm n ea => exact reads_opWord (by decide) (bitImm_reads h n _)
  | bclrDyn dn ea => exact reads_opWord (by decide) (notAn_reads h _)
  | bclrImm n ea => exact reads_opWord (by decide) (bitImm_reads h n _)
  | bsetDyn dn ea => exact reads_opWord (by decide) (notAn_reads h _)
  | bsetImm n ea => exact reads_opWord (by decide) (bitImm_reads h n _)
  | btstDyn dn ea =>
    have hm := Cat.data_mode_ne_one _ _ (Ea.admits_of_wf h)
    exact reads_opWord (by decide) (Reads.ite_neg hm (operand_map_reads h _))
  | btstImm n ea => exact reads_opWord (by decide) (bitImm_reads h n _)
  | bftst ea f => exact reads_opWord (by decide) ((bitField_reads h (.inr rfl)).map _)
  | bfextu ea f dn => exact reads_opWord (by decide) ((bitField_reads h (.inl rfl)).map _)
  | bfchg ea f => exact reads_opWord (by decide) ((bitField_reads h (.inr rfl)).map _)
  | bfexts ea f dn => exact reads_opWord (by decide) ((bitField_reads h (.inl rfl)).map _)
  | bfclr ea f => exact reads_opWord (by decide) ((bitField_reads h (.inr rfl)).map _)
  | bfffo ea f dn => exact reads_opWord (by decide) ((bitField_reads h (.inl rfl)).map _)
  | bfset ea f => exact reads_opWord (by decide) ((bitField_reads h (.inr rfl)).map _)
  | bfins dn ea f => exact reads_opWord (by decide) ((bitField_reads h (.inl rfl)).map _)
  | abcd mem ry rx => cases mem <;> exact reads_opWord (by decide) Reads.pure
  | sbcd mem ry rx => cases mem <;> exact reads_opWord (by decide) Reads.pure
  | nbcd ea => exact reads_opWord (by decide) (notAn_reads h _)
  | pack mem ry rx adj => cases mem <;> exact reads_opWord (by decide) ((nextWord_reads adj).map _)
  | unpk mem ry rx adj => cases mem <;> exact reads_opWord (by decide) ((nextWord_reads adj).map _)
  | bcc k d => exact roundTrips_bcc h
  | bra d => exact branchWords_reads (cc := 0) (by decide) h
  | bsr d => exact branchWords_reads (cc := 1) (by decide) h
  | dbcc k dn d => exact roundTrips_dbcc k dn d
  | scc k ea => exact roundTrips_scc h
  | jmp ea => exact reads_opWord (by decide) (operand_map_reads h _)
  | jsr ea => exact reads_opWord (by decide) (operand_map_reads h _)
  | rts => exact reads_4E7 5 Reads.pure
  | rtr => exact reads_4E7 7 Reads.pure
  | rtd d => exact reads_4E7 4 ((nextWord_reads d).map _)
  | nop => exact reads_4E7 1 Reads.pure
  | callm n ea => exact roundTrips_callm h
  | rtm rn => exact roundTrips_rtm rn
  | trap v => exact roundTrips_trap v
  | trapcc k op => exact roundTrips_trapcc k op
  | trapv => exact reads_4E7 6 Reads.pure
  | chk sz ea dn => cases sz <;> exact reads_opWord (by decide) (operand_map_reads h _)
  | chk2 sz ea rn => exact roundTrips_chk2 h
  | illegal => exact reads_opWord (line := 4) (a := 5) (o := 3) (m := 7) (r := 4) (by decide) Reads.pure
  | bkpt n => exact reads_opWord (by decide) Reads.pure
  | stop v => exact reads_4E7 2 ((nextWord_reads v).map _)
  | rte => exact reads_4E7 3 Reads.pure
  | reset => exact reads_4E7 0 Reads.pure
  | moveFromSr ea => exact reads_opWord (by decide) (operand_map_reads h _)
  | moveToSr ea => exact reads_opWord (by decide) (operand_map_reads h _)
  | andiToSr v => exact reads_statusWord 1 1 ((nextWord_reads v).map _)
  | eoriToSr v => exact reads_statusWord 5 1 ((nextWord_reads v).map _)
  | oriToSr v => exact reads_statusWord 0 1 ((nextWord_reads v).map _)
  | moveUsp toReg an => cases toReg <;> exact reads_opWord (by decide) Reads.pure
  | movec toCtl rn code => exact roundTrips_movec toCtl rn code
  | moves sz toMem rn ea => exact roundTrips_moves h
  | moveFromCcr ea => exact reads_opWord (by decide) (operand_map_reads h _)
  | moveToCcr ea => exact reads_opWord (by decide) (operand_map_reads h _)
  | andiToCcr v => exact reads_statusWord 1 0 ((nextWord_reads v).map _)
  | eoriToCcr v => exact reads_statusWord 5 0 ((nextWord_reads v).map _)
  | oriToCcr v => exact reads_statusWord 0 0 ((nextWord_reads v).map _)
  | tas ea => exact roundTrips_tas h
  | cas sz dc du ea => exact roundTrips_cas h
  | cas2 sz rn1 du1 dc1 rn2 du2 dc2 => exact roundTrips_cas2 sz rn1 du1 dc1 rn2 du2 dc2
  | cpGen a m r => exact roundTrips_cpGen h
  | cpScc a m r => exact roundTrips_cpScc h
  | cpDbcc a dn => exact reads_opWord (by decide) Reads.pure
  | cpTrapcc a o => exact roundTrips_cpTrapcc h
  | cpBcc a long k => exact roundTrips_cpBcc a long k
  | cpSave a m r => exact roundTrips_cpSave h
  | cpRestore a m r => exact roundTrips_cpRestore h
  | fLine v => exact roundTrips_fLine h
  | aLine v => exact roundTrips_aLine v

/-- Settles O1: the parser reads the words of every well-formed instruction back, one line of the opcode map at a
time. -/
theorem decodeOfEncode : Obligations.DecodeOfEncode := fun i rest h => decode_of_reads (roundTrips_of_wf i h) rest

end Sys2Proof
end

/-! # Reserved full-format extension words (R116, U21) -/

section
namespace Sys2Proof

variable {α β : Type} {ws us rest : List Word} {w : Word} {c : Cat} {sz : Size} {m r : Reg} {e : Stop}

/-- A sequence stops where its first part does. -/
theorem P.bind_error {x : P α} {f : α → P β} (h : x ws = .error e us) : (x >>= f) ws = .error e us := by
  show EStateM.bind x f ws = _
  rw [EStateM.bind, h]

/-- The settings of R116 that the decoder stops at: bit 3, BD SIZE, and I/IS by IS. -/
theorem fullExtension_reserved_iff : (w.getLsbD 3 || w.toNat / 16 % 4 == 0 ||
    !indirectCodeOk (w.getLsbD 6) (w.toNat % 8)) = true ↔
    w.getLsbD 3 = true ∨ w.extractLsb' 4 2 = 0#2 ∨ (w.getLsbD 6 = false ∧ w.extractLsb' 0 3 = 4#3) ∨
      (w.getLsbD 6 = true ∧ w.getLsbD 2 = true) := by
  have hbd : w.extractLsb' 4 2 = 0#2 ↔ w.toNat / 16 % 4 = 0 := by
    rw [← BitVec.toNat_inj, BitVec.extractLsb'_toNat, Nat.shiftRight_eq_div_pow]
    rfl
  have hiis : w.extractLsb' 0 3 = 4#3 ↔ w.toNat % 8 = 4 := by
    rw [← BitVec.toNat_inj, BitVec.extractLsb'_toNat, Nat.shiftRight_zero]
    rfl
  have h2 : w.getLsbD 2 = true ↔ 3 < w.toNat % 8 := by
    rw [getLsbD_toNat, decide_eq_true_eq]
    omega
  rw [hbd, hiis, h2]
  cases h6 : w.getLsbD 6 <;> simp [indirectCodeOk, or_assoc]

theorem nextIndexExt_reserved (h8 : w.getLsbD 8 = true)
    (h : w.getLsbD 3 = true ∨ w.extractLsb' 4 2 = 0#2 ∨ (w.getLsbD 6 = false ∧ w.extractLsb' 0 3 = 4#3) ∨
      (w.getLsbD 6 = true ∧ w.getLsbD 2 = true)) (rest : List Word) :
    nextIndexExt (w :: rest) = .error (.reserved .fullExtension) rest := by
  exact congrFun ((if_pos h8).trans (if_pos (fullExtension_reserved_iff.mpr h))) rest

/-- Mode 110 and mode 111/011 stop where their extension word does. -/
theorem nextEa_indexed_error (hm : m = 6 ∨ (m = 7 ∧ r = 3)) (h : nextIndexExt ws = .error e us) :
    nextEa sz m r ws = .error e us := by
  obtain rfl | ⟨rfl, rfl⟩ := hm
  · exact P.bind_error h
  · exact P.bind_error h

/-- MOVE.L stops where its source does. -/
theorem decode_moveL_error (hcat : Cat.admits .all m r = true) (h : nextEa .l m r ws = .error e us) :
    decode (opWord 2 0 0 m r :: ws) = .none e := by
  have hlegal : (Cat.admits .all m r && sizeAdmits .l m) = true := by
    rw [hcat]
    rfl
  have hop : operand .all .l m r ws = .error e us := by
    rw [operand, checkEa, hlegal]
    exact h
  have hparse : parseInstr (opWord 2 0 0 m r :: ws) = .error e us :=
    (parseInstr_opWord (by decide) 0 0 m r ws).trans (P.bind_error (x := operand .all .l m r) hop)
  rw [decode, hparse]

/-- Settles O3: the extension word is tested before any of its displacement words is taken. -/
theorem reservedFullExtension : Obligations.ReservedFullExtension := by
  intro w rest h8 hres
  have hstop := nextIndexExt_reserved h8 hres rest
  have hword : ∀ r : Reg, (0x2030#16 ||| BitVec.ofNat 16 r.val) = opWord 2 0 0 6 r := by decide
  have hcat : ∀ r : Reg, Cat.admits .all 6 r = true := by decide
  refine ⟨fun sz m r hm => ⟨rest, nextEa_indexed_error hm hstop⟩, fun r => ?_, ?_⟩
  · exact hword r ▸ decode_moveL_error (hcat r) (nextEa_indexed_error (.inl rfl) hstop)
  · exact decode_moveL_error (m := 7) (r := 3) rfl (nextEa_indexed_error (.inr ⟨rfl, rfl⟩) hstop)

end Sys2Proof
end

/-! # A step that runs the next instruction (R571) -/

section
namespace Sys2Proof.Machine

variable {s : State}

/-- Nothing comes before the next instruction at this boundary. -/
theorem step_of_ready (h : s.ready) : step s = s.sample.runNext := by
  obtain ⟨hreset, hrun, heven, hirq⟩ := h
  have hodd : ¬ s.sample.pc.getLsbD 0 = true := ne_true_of_eq_false heven
  unfold step
  simp only [hreset, hrun, hirq]
  exact if_neg hodd

theorem State.runNext_of_instr {i : Instr} {n : Nat} (h : decode (s.fetchWords s.pc maxWords) = .instr i n) :
    s.runNext = match exec i (s.fillWords s.pc n) with
      | .next t => .next (afterInstr s t)
      | .fault f => .fault f
      | .refused r => .refused r := by
  unfold State.runNext
  dsimp only
  split
  · next hi =>
    rw [h] at hi
    cases hi
    rfl
  · next hnone =>
    rw [h] at hnone
    cases hnone

/-- Words that are no instruction end in an exception or a stop. -/
theorem State.runNext_of_none {why : Stop} {t : State} (h : decode (s.fetchWords s.pc maxWords) = .none why)
    (ht : s.undecoded (s.fetchWords s.pc maxWords) why = .next t) : s.runNext = .next (afterInstr s t) := by
  unfold State.runNext
  dsimp only
  rw [h]
  dsimp only
  rw [ht]

/-- The privilege violation comes first (R538, log 28). -/
theorem State.undecoded_violation {ws : List Word} (h : s.violates ws = true) (why : Stop) :
    s.undecoded ws why = .next (s.takeException s.privilegeExc) := if_pos h

theorem State.undecoded_illegal {ws : List Word} (h : s.violates ws = false) :
    s.undecoded ws .illegal = .next (s.takeException s.illegalExc) := if_neg (ne_true_of_eq_false h)

/-- Settles O4. -/
theorem stepRunsInstruction : Obligations.StepRunsInstruction := fun s _ _ hready hdec =>
  (step_of_ready hready).trans (s.sample.runNext_of_instr hdec)

/-- Settles O6: the two exceptions are the first two branches of what follows when nothing decodes. -/
theorem stepTakesIllegal : Obligations.StepTakesIllegal := by
  intro s why hready hdec
  refine ⟨fun hv hwhy => ?_, fun hv => ?_⟩
  · subst hwhy
    exact (step_of_ready hready).trans (State.runNext_of_none hdec (State.undecoded_illegal hv))
  · exact (step_of_ready hready).trans (State.runNext_of_none hdec (State.undecoded_violation hv why))

end Sys2Proof.Machine
end

/-! # The addresses of the memory modes (R114 to R116) -/

section
namespace Sys2Proof.Machine

variable {s : State} {sz : Size} {space : FC} {base : Long} {ix : Index} {bs is : Bool} {bd : Disp}

/-- The address of the word after `own` extension words (R114). -/
theorem State.npc_succ (s : State) (own : Nat) : s.npc (1 + own) = s.pc + 2 + BitVec.ofNat 32 (2 * own) := by
  rw [State.npc, Nat.mul_add, BitVec.ofNat_add, BitVec.add_assoc]
  rfl

/-- Settles O21: each mode's address is read off `memAddr`. -/
theorem simpleAddresses : Obligations.SimpleAddresses := fun s _ own _ d16 _ =>
  ⟨rfl, rfl, rfl, rfl, rfl, rfl, congrArg (fun a => EStateM.Result.ok (a + sextWord d16) s) (s.npc_succ own)⟩

/-- The scale is a factor of 1, 2, 4 or 8 (R115). -/
theorem shiftLeft_scale (v : Long) (k : Fin 4) : v <<< k.val = BitVec.ofInt 32 (v.toInt * 2 ^ k.val) := by
  have hk : ∀ k : Fin 4, BitVec.ofInt 32 (2 ^ k.val) = BitVec.twoPow 32 k.val := by decide
  rw [BitVec.ofInt_mul, BitVec.ofInt_toInt, hk, BitVec.shiftLeft_eq_mul_twoPow]

theorem State.indexValue_eq (s : State) (ix : Index) : s.indexValue ix = BitVec.ofInt 32
    ((if ix.long then (s.getR ix.reg).toInt else signedOf .w (s.getR ix.reg)) * 2 ^ ix.scale.val) := by
  rw [State.indexValue, shiftLeft_scale]
  cases ix.long <;> rfl

/-- The base and the index of the full format, with what is suppressed left out (R116). -/
theorem indexedAddr_full_none : indexedAddr space base (.full ix bs is bd .none) s =
    .ok ((if bs then 0 else base) + dispValue bd + if is then 0 else s.indexValue ix) s := rfl

theorem indexedAddr_full_pre {od : Disp}
    (h : s.readable space ((if bs then 0 else base) + dispValue bd + if is then 0 else s.indexValue ix) 4) :
    indexedAddr space base (.full ix bs is bd (.pre od)) s = .ok (s.longAt space
      ((if bs then 0 else base) + dispValue bd + if is then 0 else s.indexValue ix) + dispValue od) s :=
  M.bind_ok (readMem_ok (sz := .l) h)

theorem indexedAddr_full_post {od : Disp} (h : s.readable space ((if bs then 0 else base) + dispValue bd) 4) :
    indexedAddr space base (.full ix bs is bd (.post od)) s =
      .ok (s.longAt space ((if bs then 0 else base) + dispValue bd) +
        (if is then 0 else s.indexValue ix) + dispValue od) s :=
  M.bind_ok (readMem_ok (sz := .l) h)

/-- Both indexed modes compute their address in one way, from their base and in their space. -/
theorem memAddr_indexed {s : State} {own : Nat} {r : Reg} {ea : IndexExt → Ea} {base : Long} {space : FC}
    (h : (∀ e, ea e = .indexed r e) ∧ base = s.areg r ∧ space = s.dataSpace ∨
      (∀ e, ea e = .pcIndexed e) ∧ base = s.pc + 2 + BitVec.ofNat 32 (2 * own) ∧ space = s.progSpace)
    (e : IndexExt) :
    memAddr sz own (ea e) s = indexedAddr space base e s := by
  obtain ⟨hea, rfl, rfl⟩ | ⟨hea, rfl, rfl⟩ := h
  · rw [hea, memAddr, M.get_bind]
  · rw [hea, ← s.npc_succ, memAddr, M.get_bind]

/-- Settles O22: the scaled index as a product, and one equation for each indirection. -/
theorem indexedAddresses : Obligations.IndexedAddresses := by
  intro s sz own r ix d8 bs is bd od x disp i ea base space hea b
  have hx : x = s.indexValue ix := (s.indexValue_eq ix).symm
  have hdisp : disp = dispValue := by
    funext v
    cases v <;> rfl
  simp only [memAddr_indexed hea, b, i, hx, hdisp]
  exact ⟨rfl, indexedAddr_full_none, indexedAddr_full_pre, indexedAddr_full_post⟩

end Sys2Proof.Machine
end

/-! # The conditions after a comparison (R121, R237) -/

section
namespace Sys2Proof.Machine

variable {sz : Size} {v d : Long}

/-- Operands of one size are equal when their signed values are. -/
theorem signedOf_inj (hv : v.toNat < 2 ^ sz.bits) (hd : d.toNat < 2 ^ sz.bits) :
    signedOf sz d = signedOf sz v ↔ d = v := by
  refine ⟨fun h => BitVec.eq_of_toNat_eq ?_, fun h => h ▸ rfl⟩
  have hv' := Nat.mod_eq_of_lt hv
  have hd' := Nat.mod_eq_of_lt hd
  rcases signed_cases sz v with ⟨-, v2, v3⟩ | ⟨-, v2, v3⟩ <;>
    rcases signed_cases sz d with ⟨-, d2, d3⟩ | ⟨-, d2, d3⟩ <;>
    rw [v3, d3] at h <;> clear v3 d3 <;> cases sz <;> simp only [Size.bits] at * <;> omega

/-- CMP's carry is the unsigned order. -/
theorem cmpCc_c (old : CC) (hd : d.toNat < 2 ^ sz.bits) :
    (cmpCc sz (exactSub sz v d false) old).c = true ↔ d.toNat < v.toNat := by
  have hc : (cmpCc sz (exactSub sz v d false) old).c = decide ((d.toNat : Int) - v.toNat - 0 < 0 ∨
      2 ^ sz.bits ≤ (d.toNat : Int) - v.toNat - 0) := rfl
  have hd' : (d.toNat : Int) < 2 ^ sz.bits := by exact_mod_cast hd
  rw [hc, decide_eq_true_eq]
  omega

/-- The result of a comparison as a number. -/
theorem exactSub_r_toNat (sz : Size) (v d : Long) :
    ((exactSub sz v d false).r.toNat : Int) = ((d.toNat : Int) - v.toNat) % 2 ^ sz.bits := by
  rw [exactSub, exactAlu_r_toNat, Bool.toNat_false, Nat.cast_zero, Int.sub_zero]

theorem cmpCc_z (old : CC) (hv : v.toNat < 2 ^ sz.bits) (hd : d.toNat < 2 ^ sz.bits) :
    (cmpCc sz (exactSub sz v d false) old).z = true ↔ d = v := by
  have hz : (cmpCc sz (exactSub sz v d false) old).z = decide ((exactSub sz v d false).r = 0) := rfl
  have hr := exactSub_r_toNat sz v d
  rw [hz, decide_eq_true_eq, ← BitVec.toNat_inj, ← BitVec.toNat_inj]
  show (exactSub sz v d false).r.toNat = 0 ↔ _
  cases sz <;> simp only [Size.bits] at * <;> omega

/-- N and V differ when the signed difference is negative. -/
theorem cmpCc_n_ne_v (old : CC) (hv : v.toNat < 2 ^ sz.bits) (hd : d.toNat < 2 ^ sz.bits) :
    (cmpCc sz (exactSub sz v d false) old).n ≠ (cmpCc sz (exactSub sz v d false) old).v ↔
      signedOf sz d < signedOf sz v := by
  have hn : (cmpCc sz (exactSub sz v d false) old).n = decide (signedOf sz (exactSub sz v d false).r < 0) := rfl
  have hov : (cmpCc sz (exactSub sz v d false) old).v =
      decide (signedOf sz d - signedOf sz v - 0 < -2 ^ (sz.bits - 1) ∨
        2 ^ (sz.bits - 1) ≤ signedOf sz d - signedOf sz v - 0) := rfl
  have hr := exactSub_r_toNat sz v d
  rw [hn, hov, ne_eq, decide_eq_decide]
  rcases signed_cases sz v with ⟨-, v2, v3⟩ | ⟨-, v2, v3⟩ <;>
    rcases signed_cases sz d with ⟨-, d2, d3⟩ | ⟨-, d2, d3⟩ <;>
    rcases signed_cases sz (exactSub sz v d false).r with ⟨-, r2, r3⟩ | ⟨-, r2, r3⟩ <;>
    rw [v3, d3, r3] <;> clear hn hov v3 d3 r3 <;> cases sz <;> simp only [Size.bits] at * <;> omega

/-- Settles O25: the flags of a comparison are the orders of the operands, and each condition is read off them. -/
theorem conditionsCompare : Obligations.ConditionsCompare := by
  intro sz v d old hv hd f
  have hc : f.c = true ↔ d.toNat < v.toNat := cmpCc_c old hd
  have hz : f.z = true ↔ d = v := cmpCc_z old hv hd
  have hlt : f.n ≠ f.v ↔ signedOf sz d < signedOf sz v := cmpCc_n_ne_v old hv hd
  have hge : f.n = f.v ↔ signedOf sz v ≤ signedOf sz d := by rw [← not_iff_not, ← ne_eq, hlt, not_le]
  have hzu : f.z = true ↔ d.toNat = v.toNat := hz.trans BitVec.toNat_inj.symm
  have hzs : f.z = true ↔ signedOf sz d = signedOf sz v := hz.trans (signedOf_inj hv hd).symm
  have hnot : ∀ b : Bool, (!b) = true ↔ ¬ b = true := by decide
  refine ⟨?_, ?_, ?_, ?_, hc, ?_, hz, ?_, ?_, ?_, ?_, fun g => ⟨rfl, rfl, rfl, rfl, rfl, rfl⟩⟩
  · rw [compareCc_eq, subAlu_exact sz v d false hv hd]
  · simp only [condTrue, Bool.and_eq_true, hnot, hc, hzu]
    omega
  · simp only [condTrue, Bool.or_eq_true, hc, hzu]
    omega
  · simp only [condTrue, hnot, hc]
    omega
  · simp only [condTrue, hnot, hz, ne_eq]
  · simp only [condTrue, beq_iff_eq, hge]
  · simp only [condTrue, bne_iff_ne, hlt]
  · simp only [condTrue, Bool.and_eq_true, hnot, beq_iff_eq, hzs, hge]
    omega
  · simp only [condTrue, Bool.or_eq_true, bne_iff_ne, hzs, hlt]
    omega

end Sys2Proof.Machine
end

/-! # Words written out from the spec's encodings: twelve words, MOVEQ, EXT, EXTB and SWAP (O2, O28) -/

section
namespace Sys2Proof

variable {i : Instr}

/-- The words of a well-formed instruction decode to it. -/
theorem decode_of_encode_eq {ws : List Word} (h : i.wf = true) (hw : encode i = ws) :
    decode ws = .instr i ws.length := by
  have hdec := decodeOfEncode i [] h
  rwa [List.append_nil, hw] at hdec

/-- Settles O2: each list of words is the encoding of the instruction it names, which is well-formed. -/
theorem specWordsDecode : Obligations.SpecWordsDecode :=
  ⟨decode_of_encode_eq (by decide) (by decide), decode_of_encode_eq (by decide) (by decide),
    decode_of_encode_eq (by decide) (by decide), decode_of_encode_eq (by decide) (by decide),
    decode_of_encode_eq (by decide) (by decide), decode_of_encode_eq (by decide) (by decide),
    decode_of_encode_eq (by decide) (by decide), decode_of_encode_eq (by decide) (by decide),
    decode_of_encode_eq (by decide) (by decide), decode_of_encode_eq (by decide) (by decide),
    decode_of_encode_eq (by decide) (by decide), decode_of_encode_eq (by decide) (by decide)⟩

/-- The operation word of MOVEQ from its fields (R203). -/
theorem moveqWord_eq (dn : Reg) (data : Byte) :
    0x7000#16 ||| (BitVec.ofNat 16 dn.val <<< 9) ||| data.setWidth 16 =
      BitVec.ofNat 16 (0x7000 + dn.val * 512 + data.toNat) := by
  have hd := data.isLt
  have hreg : ∀ dn : Reg, (0x7000#16 ||| (BitVec.ofNat 16 dn.val <<< 9)).toNat = 0x7000 + dn.val * 512 := by decide
  apply BitVec.eq_of_toNat_eq
  rw [or_toNat 8 (hreg dn) (BitVec.toNat_setWidth_of_le (by decide)) (by omega) hd, BitVec.toNat_ofNat]
  omega

/-- An operation word of line 0100 whose low octal digit is a register (R244, R300). -/
theorem opWord_register {base : Word} (a o m : Reg) (h : opWord 4 a o m 0 = base) (hb : base.toNat % 8 = 0)
    (r : Reg) : base ||| BitVec.ofNat 16 r.val = opWord 4 a o m r := by
  have h0 := opWord_toNat (line := 4) (by decide) a o m 0
  have hr := opWord_toNat (line := 4) (by decide) a o m r
  have hnum : (BitVec.ofNat 16 r.val).toNat = r.val := by
    rw [BitVec.toNat_ofNat]
    omega
  apply BitVec.eq_of_toNat_eq
  rw [or_toNat 3 rfl hnum hb r.isLt, hr, ← h, h0]
  simp

theorem decode_moveq (dn : Reg) (data : Byte) :
    decode [0x7000 ||| (BitVec.ofNat 16 dn.val <<< 9) ||| data.setWidth 16] = .instr (.moveq dn data) 1 :=
  moveqWord_eq dn data ▸ decode_of_encode_eq (i := .moveq dn data) rfl rfl

theorem decode_extW (dn : Reg) : decode [0x4880 ||| BitVec.ofNat 16 dn.val] = .instr (.extW dn) 1 :=
  opWord_register (base := 0x4880) 4 2 0 (by decide) (by decide) dn ▸ decode_of_encode_eq (i := .extW dn) rfl rfl

theorem decode_extL (dn : Reg) : decode [0x48C0 ||| BitVec.ofNat 16 dn.val] = .instr (.extL dn) 1 :=
  opWord_register (base := 0x48C0) 4 3 0 (by decide) (by decide) dn ▸ decode_of_encode_eq (i := .extL dn) rfl rfl

theorem decode_extbL (dn : Reg) : decode [0x49C0 ||| BitVec.ofNat 16 dn.val] = .instr (.extbL dn) 1 :=
  opWord_register (base := 0x49C0) 4 7 0 (by decide) (by decide) dn ▸ decode_of_encode_eq (i := .extbL dn) rfl rfl

theorem decode_swap (dn : Reg) : decode [0x4840 ||| BitVec.ofNat 16 dn.val] = .instr (.swap dn) 1 :=
  opWord_register (base := 0x4840) 4 1 0 (by decide) (by decide) dn ▸ decode_of_encode_eq (i := .swap dn) rfl rfl

end Sys2Proof

namespace Sys2Proof.Machine

/-! ## The results -/

/-- The byte extended to a word has the byte's number. -/
theorem signedOf_trunc_sext_byte (d : Long) : signedOf .w (trunc .w (sext .b d)) = signedOf .b d := by
  have hw := signed_cases .w (trunc .w (sext .b d))
  have hb := signed_cases .b d
  have hl := signed_cases .l (sext .b d)
  have hext : signedOf .l (sext .b d) = signedOf .b d := rfl
  rw [trunc_toNat, Nat.mod_mod] at hw
  simp only [Size.bits] at hw hb hl
  omega

/-- An operand is 0 when its number is. -/
theorem eq_zero_iff_signedOf {sz : Size} {v : Long} (h : v.toNat < 2 ^ sz.bits) : v = 0 ↔ signedOf sz v = 0 := by
  have h0 : signedOf sz 0 = 0 := by cases sz <;> rfl
  rw [← h0, signedOf_inj (by simp) h]

/-- EXT.W writes the low word of the extended byte under the upper word. -/
theorem putD_word_sext_byte (s : State) (dn : Reg) :
    s.putD .w dn (trunc .w (sext .b (s.dreg dn))) = s.setD dn (BitVec.ofNat 32
      ((s.dreg dn).toNat / 65536 * 65536 + (sext .b (s.dreg dn)).toNat % 65536)) := by
  have hput := s.dreg_putD_toNat .w dn (trunc .w (sext .b (s.dreg dn)))
  have hlt := (s.dreg dn).isLt
  rw [State.putD, State.dreg_setD_self, trunc_toNat, Nat.mod_mod] at hput
  rw [State.putD]
  congr 1
  apply BitVec.eq_of_toNat_eq
  rw [hput, BitVec.toNat_ofNat]
  simp only [Size.bits]
  omega

/-- The halves of a register exchanged. -/
theorem swap_halves (d : Long) : d.extractLsb' 0 16 ++ d.extractLsb' 16 16 =
    BitVec.ofNat 32 (d.toNat % 65536 * 65536 + d.toNat / 65536) := by
  have hd := d.isLt
  have hhigh : (d.extractLsb' 16 16).toNat = d.toNat / 65536 := by
    rw [BitVec.extractLsb'_toNat, Nat.shiftRight_eq_div_pow]
    omega
  have hlow : (d.extractLsb' 0 16).toNat = d.toNat % 65536 := by
    rw [BitVec.extractLsb'_toNat, Nat.shiftRight_zero]
  apply BitVec.eq_of_toNat_eq
  rw [BitVec.toNat_append, ← Nat.shiftLeft_add_eq_or_of_lt (d.extractLsb' 16 16).isLt, Nat.shiftLeft_eq, hhigh,
    hlow, BitVec.toNat_ofNat]
  omega

theorem exec_moveq (s : State) (dn : Reg) (data : Byte) : exec (.moveq dn data) s = .next
    (((s.setD dn (data.signExtend 32)).setCc (valueCc .l (data.signExtend 32) s.cc)).goOn (s.pc + 2)) := by
  rw [← logicCc_eq]
  exact runInstr_ok rfl

theorem exec_extL (s : State) (dn : Reg) : exec (.extL dn) s = .next
    (((s.setD dn (sext .w (s.dreg dn))).setCc (valueCc .l (sext .w (s.dreg dn)) s.cc)).goOn (s.pc + 2)) := by
  rw [← logicCc_eq]
  exact runInstr_ok rfl

theorem exec_extbL (s : State) (dn : Reg) : exec (.extbL dn) s = .next
    (((s.setD dn (sext .b (s.dreg dn))).setCc (valueCc .l (sext .b (s.dreg dn)) s.cc)).goOn (s.pc + 2)) := by
  rw [← logicCc_eq]
  exact runInstr_ok rfl

theorem exec_extW (s : State) (dn : Reg) : exec (.extW dn) s = .next
    (((s.putD .w dn (trunc .w (sext .b (s.dreg dn)))).setCc
      (valueCc .w (trunc .w (sext .b (s.dreg dn))) s.cc)).goOn (s.pc + 2)) := by
  rw [← logicCc_eq]
  exact runInstr_ok rfl

theorem exec_swap (s : State) (dn : Reg) :
    let v := (s.dreg dn).extractLsb' 0 16 ++ (s.dreg dn).extractLsb' 16 16
    exec (.swap dn) s = .next (((s.setD dn v).setCc (valueCc .l v s.cc)).goOn (s.pc + 2)) := by
  intro v
  rw [← logicCc_eq]
  exact runInstr_ok rfl

/-- Settles O28: the words by the encoder, the results by one equation an instruction. -/
theorem quickExtendSwap : Obligations.QuickExtendSwap := by
  intro s dn data d low half imm swapped
  have himm : imm = data.signExtend 32 := rfl
  have hlow : low = sext .b d := (sext_eq .b d).symm
  have hhalf : half = sext .w d := (sext_eq .w d).symm
  have hswap : swapped = d.extractLsb' 0 16 ++ d.extractLsb' 16 16 := (swap_halves d).symm
  refine ⟨decode_moveq dn data, decode_extW dn, decode_extL dn, decode_extbL dn, decode_swap dn, ?_, ?_, ?_, ?_, ?_⟩
  · rw [himm, exec_moveq]
  · have hcc : valueCc .w (trunc .w (sext .b d)) s.cc =
        ⟨s.cc.x, decide (signedOf .b d < 0), decide (signedOf .b d = 0), false, false⟩ := by
      simp only [valueCc, signedOf_trunc_sext_byte, eq_zero_iff_signedOf (trunc_lt .w _)]
    rw [hlow, ← hcc, ← putD_word_sext_byte, exec_extW]
  · rw [hhalf, exec_extL]
  · rw [hlow, exec_extbL]
  · rw [hswap, exec_swap]

end Sys2Proof.Machine
end

/-! # Address registers: MOVEA, LEA, EXG, ADDA, SUBA, ADDQ, SUBQ and CMPA (O27) -/

section
namespace Sys2Proof.Machine

variable {s t : State} {sz : Size} {own k : Nat} {ea : Ea} {v a : Long}

theorem State.npc_congr (h : t.pc = s.pc) (n : Nat) : t.npc n = s.npc n := by
  rw [State.npc, State.npc, h]

/-- An instruction that reads an operand, updates the state with it and goes on. -/
theorem runInstr_readEa_modify {g : Long → State → State} (h : readEa sz own ea s = .ok v t)
    (hpc : (g v t).pc = t.pc) :
    runInstr (do let v ← readEa sz own ea; modify (g v); advance k) s = .next ((g v t).goOn (s.npc k)) := by
  refine runInstr_ok ((M.bind_ok h).trans ?_)
  rw [M.modify_bind, M.advance_run, State.npc_congr hpc, readEa_npc h]

/-- An instruction that computes an address, updates the state with it and goes on. -/
theorem runInstr_memAddr_modify {g : Long → State → State} (h : memAddr sz own ea s = .ok a t)
    (hpc : (g a t).pc = t.pc) :
    runInstr (do let a ← memAddr sz own ea; modify (g a); advance k) s = .next ((g a t).goOn (s.npc k)) := by
  refine runInstr_ok ((M.bind_ok h).trans ?_)
  rw [M.modify_bind, M.advance_run, State.npc_congr hpc, memAddr_npc h]

/-- An instruction that only updates the state and goes on. -/
theorem runInstr_modify {g : State → State} (hpc : (g s).pc = s.pc) :
    runInstr (do modify g; advance k) s = .next ((g s).goOn (s.npc k)) := by
  refine runInstr_ok ?_
  rw [M.modify_bind, M.advance_run, State.npc_congr hpc]

/-- ADDA, SUBA, and ADDQ and SUBQ on An (R232, R234). -/
theorem runInstr_aluToAddr {ws : WL} {an : Reg} (f : Long → Long → Long) (h : readEa ws.size 0 ea s = .ok v t) :
    runInstr (aluToAddr f ws ea an) s = .next
      ((t.setA an (f (t.areg an) (BitVec.ofInt 32 (signedOf ws.size v)))).goOn (s.npc (1 + ea.words))) := by
  rw [← sext_eq]
  exact runInstr_readEa_modify (g := fun v t => t.setA an (f (t.areg an) (sext ws.size v))) h (by simp)

/-- The data of ADDQ and SUBQ as a number (R234). -/
theorem quickValue_eq (data : Reg) : quickValue data = BitVec.ofNat 32 (if data = 0 then 8 else data.val) := by
  unfold quickValue
  split <;> rfl

theorem runInstr_aluQuick_areg (op : AluOp) (f : Long → Long → Long) (data an : Reg) :
    runInstr (aluQuick op f sz data (.areg an)) s = .next ((s.setA an (f (s.areg an)
      (BitVec.ofNat 32 (if data = 0 then 8 else data.val)))).goOn (s.npc 1)) := by
  rw [← quickValue_eq]
  exact runInstr_modify (g := fun t => t.setA an (f (t.areg an) (quickValue data))) (by simp)

theorem exec_movea {ws : WL} {an : Reg} (h : readEa ws.size 0 ea s = .ok v t) : exec (.movea ws ea an) s =
    .next ((t.setA an (BitVec.ofInt 32 (signedOf ws.size v))).goOn (s.npc (1 + ea.words))) := by
  rw [← sext_eq]
  exact runInstr_readEa_modify (g := fun v t => t.setA an (sext ws.size v)) h (by simp)

/-- CMPA compares long words whatever the size of its operand (R238). -/
theorem exec_cmpa {ws : WL} {an : Reg} (h : readEa ws.size 0 ea s = .ok v t) : exec (.cmpa ws ea an) s =
    .next ((t.setCc (cmpCc .l (exactSub .l (BitVec.ofInt 32 (signedOf ws.size v)) (t.areg an) false) t.cc)).goOn
      (s.npc (1 + ea.words))) := by
  rw [← sext_eq, ← subAlu_exact .l _ _ false (BitVec.isLt _) (BitVec.isLt _), ← compareCc_eq]
  exact runInstr_readEa_modify
    (g := fun v t => t.setCc (compareCc .l (subAlu .l (sext ws.size v) (t.areg an) false) t.cc)) h rfl

theorem exec_lea {an : Reg} (h : memAddr .l 0 ea s = .ok a t) :
    exec (.lea ea an) s = .next ((t.setA an a).goOn (s.npc (1 + ea.words))) :=
  runInstr_memAddr_modify (g := fun a t => t.setA an a) h (by simp)

/-- EXG is one update of the state (R210). -/
theorem exec_exg_of_pc {m : ExgMode} {rx ry : Reg}
    (h : execExg m rx ry s = runInstr (do set t; advance 1) s) (hpc : t.pc = s.pc) :
    exec (.exg m rx ry) s = .next (t.goOn (s.npc 1)) :=
  h.trans (runInstr_modify (g := fun _ => t) hpc)

/-- Settles O27: each instruction is one operand read, or an address, and one update. -/
theorem addressResults : Obligations.AddressResults := by
  intro s t ws ea an v
  refine ⟨fun h => ⟨exec_movea h, runInstr_aluToAddr (fun d v => d + v) h, runInstr_aluToAddr (fun d v => d - v) h,
    exec_cmpa h⟩, fun a h => exec_lea h, fun size data => ⟨?_, ?_⟩, fun rx ry => ⟨?_, ?_, ?_⟩⟩
  · exact runInstr_aluQuick_areg (sz := size) addAlu (fun d v => d + v) data an
  · exact runInstr_aluQuick_areg (sz := size) subAlu (fun d v => d - v) data an
  · exact exec_exg_of_pc rfl (by simp)
  · exact exec_exg_of_pc rfl (by simp)
  · exact exec_exg_of_pc rfl (by simp)

end Sys2Proof.Machine
end

/-! # What an instruction that completes leaves alone

`Kept rs s t`: from `s` to `t` no byte of memory changed, no register but those of `rs`, and of the system no more
than the condition codes. A body `Preserves` a predicate of states when it leads from a state that has it to one that
has it, and when an exception that it raises says that the instruction has not completed. -/

section
namespace Sys2Proof.Machine

/-! ## The condition codes are no part of the system -/

theorem CC.bits_high (f : CC) : f.bits &&& 0xFFE0 = 0 := by
  obtain ⟨x, n, z, v, c⟩ := f
  cases x <;> cases n <;> cases z <;> cases v <;> cases c <;> rfl

theorem State.setCc_sr_high (s : State) (f : CC) : (s.setCc f).sr &&& 0xFFE0 = s.sr &&& 0xFFE0 := by
  show (s.sr &&& 0xFFE0 ||| f.bits) &&& 0xFFE0 = _
  rw [BitVec.and_comm, BitVec.and_or_distrib_left, BitVec.and_comm _ f.bits, f.bits_high, BitVec.and_comm,
    BitVec.and_assoc, BitVec.and_self]
  exact BitVec.or_zero

section

variable {s t : State}

theorem sameSystem_setCc (h : sameSystem s t) (f : CC) : sameSystem s (t.setCc f) := by
  obtain ⟨h1, h2, h3, h4, h5, h6, h7, h8, h9, h10, h11, h12, h13, h14, h15, h16, hsr⟩ := h
  exact ⟨h1, h2, h3, h4, h5, h6, h7, h8, h9, h10, h11, h12, h13, h14, h15, h16, (t.setCc_sr_high f).trans hsr⟩

theorem sameSystem.platform (h : sameSystem s t) : t.platform = s.platform := by
  obtain ⟨-, -, -, -, -, -, -, -, -, -, -, -, -, -, -, hp, -⟩ := h
  exact hp

theorem State.getR_setCc (s : State) (f : CC) (rn : Rn) : (s.setCc f).getR rn = s.getR rn := by
  simp only [State.getR, State.areg_setCc, State.dreg_setCc]

theorem State.otherStacks_setCc (s : State) (f : CC) : (s.setCc f).otherStacks = s.otherStacks := by
  simp only [State.otherStacks, State.sBit_setCc, State.mBit_setCc, State.setCc_usp, State.setCc_isp, State.setCc_msp]

end

/-! ## What is kept, update by update -/

/-- Memory, the system but for the condition codes, and every register but those of `rs` are as before. -/
structure Kept (rs : List Rn) (s t : State) : Prop where
  mem : t.mem = s.mem
  regs : sameRegs rs s t
  system : sameSystem s t

namespace Kept

variable {rs : List Rn} {s t u : State} {sz : Size} {own : Nat} {ea : Ea} {fc : FC} {a v : Long}

theorem refl (rs : List Rn) (s : State) : Kept rs s s := ⟨rfl, sameRegs_refl rs s, sameSystem_refl s⟩

theorem bytes (h : Kept rs s t) : sameBytes s t := sameBytes_of_mem h.mem h.system.platform

theorem mono {rs' : List Rn} (h : Kept rs s t) (hrs : rs ⊆ rs') : Kept rs' s t := by
  obtain ⟨hregs, hstacks⟩ := h.regs
  exact ⟨h.mem, ⟨fun rn hrn => hregs rn fun hin => hrn (hrs hin), hstacks⟩, h.system⟩

/-- Where the instruction goes on is no part of what is kept. -/
theorem goOn (h : Kept rs s t) (pc : Long) : Kept rs s (t.goOn pc) := ⟨h.mem, h.regs, h.system⟩

theorem used (h : Kept rs s t) (k : Nat) : Kept rs s (t.used k) := ⟨h.mem, h.regs, h.system⟩

theorem setCc (h : Kept rs s t) (f : CC) : Kept rs s (t.setCc f) := by
  obtain ⟨hregs, hstacks⟩ := h.regs
  exact ⟨h.mem, ⟨fun rn hrn => (t.getR_setCc f rn).trans (hregs rn hrn), (t.otherStacks_setCc f).trans hstacks⟩,
    sameSystem_setCc h.system f⟩

theorem setD (h : Kept rs s t) {r : Reg} (hr : ⟨false, r⟩ ∈ rs) (v : Long) : Kept rs s (t.setD r v) := by
  obtain ⟨hregs, hstacks⟩ := h.regs
  refine ⟨h.mem, ⟨fun rn hrn => ?_, hstacks⟩, h.system⟩
  have hne : rn ≠ ⟨false, r⟩ := fun heq => hrn (heq ▸ hr)
  exact (t.getR_setD_of_ne v hne).trans (hregs rn hrn)

theorem putD (h : Kept rs s t) {r : Reg} (hr : ⟨false, r⟩ ∈ rs) (sz : Size) (v : Long) :
    Kept rs s (t.putD sz r v) := h.setD hr _

theorem setA (h : Kept rs s t) {r : Reg} (hr : ⟨true, r⟩ ∈ rs) (v : Long) : Kept rs s (t.setA r v) := by
  obtain ⟨hregs, hstacks⟩ := h.regs
  refine ⟨(t.setA_mem r v).trans h.mem, ⟨fun rn hrn => ?_, (t.otherStacks_setA r v).trans hstacks⟩,
    sameSystem_setA h.system r v⟩
  have hne : rn ≠ ⟨true, r⟩ := fun heq => hrn (heq ▸ hr)
  exact (t.getR_setA_of_ne v hne).trans (hregs rn hrn)

theorem afterRead (h : Kept rs s t) (fc : FC) (a : Long) (n : Nat) : Kept rs s (t.afterRead fc a n) := by
  obtain ⟨k, hk⟩ := t.afterRead_used fc a n
  rw [hk]
  exact h.used k

/-- An address computation keeps all but the register its mode steps (R114). -/
theorem afterAddr (h : Kept rs s t) (hea : steppedBy ea ⊆ rs) (sz : Size) : Kept rs s (afterAddr sz ea t) := by
  cases ea with
  | postinc r | predec r => exact h.setA (hea (List.mem_singleton.mpr rfl)) _
  | _ => exact h

theorem memAddr (h : Kept rs s t) (hea : steppedBy ea ⊆ rs) (ha : memAddr sz own ea t = .ok a u) : Kept rs s u := by
  obtain ⟨k, rfl⟩ := memAddr_state ha
  exact (h.afterAddr hea sz).used k

theorem readEa (h : Kept rs s t) (hea : steppedBy ea ⊆ rs) (hr : readEa sz own ea t = .ok v u) : Kept rs s u := by
  obtain ⟨k, rfl⟩ := readEa_state hr
  exact (h.afterAddr hea sz).used k

theorem readMem {rmw : Bool} (h : Kept rs s t) (hr : readMem rmw fc a sz t = .ok v u) : Kept rs s u := by
  obtain ⟨-, -, rfl⟩ := readMem_eq_ok.mp hr
  exact h.afterRead fc a sz.bytes

theorem dataSpace (h : Kept rs s t) : t.dataSpace = s.dataSpace := by
  have hmask : (0xFFE0 : Word).getLsbD 13 = true := rfl
  have hbit : ∀ w : Word, w.getLsbD 13 = (w &&& 0xFFE0).getLsbD 13 := fun w => by
    rw [BitVec.getLsbD_and, hmask, Bool.and_true]
  obtain ⟨-, -, -, -, -, -, -, -, -, -, -, -, -, -, -, -, hsr⟩ := h.system
  rw [State.dataSpace, State.sBit, hbit, hsr, ← hbit]
  rfl

/-- A store after what is kept changes the stored bytes alone. -/
theorem store_bytes (h : Kept rs s t) (hm : s.mem.wf = true) (fc : FC) (a : Long) (bs : List Byte) :
    sameBytesBut fc a bs.length s (t.store fc a bs) := by
  intro fc' b hb
  have hbank : ∀ q, t.bank q = s.bank q := State.bank_congr h.system.platform
  rw [State.sameBytesBut_store (h.mem ▸ hm) fc' b (by rwa [hbank, hbank])]
  exact h.bytes fc' b

end Kept

/-! ## An instruction that goes on in sequence has completed -/

/-- Taken from inside an instruction, this ends it otherwise than in sequence. -/
def Abort.Interrupts : Abort → Prop
  | .raised x => x.ending ≠ .sequential
  | .bus _ _ _ | .doubleFault | .refuse _ | .fault _ => True

theorem State.enterFault_ending (s : State) (vector : Byte) (long : Bool) (pc : Long) (f : BusFault) :
    (s.enterFault vector long pc f).ending = .notDone := by
  have hstop : ∀ never : Bool, (if never then s.hang else s.halt).ending = .notDone := by
    rintro (_ | _) <;> rfl
  unfold State.enterFault
  dsimp only
  split
  · exact hstop _
  · split
    · exact hstop _
    · split <;> rfl

theorem State.nestedBusError_ending (s : State) (f : BusFault) : (s.nestedBusError f).ending = .notDone := by
  unfold State.nestedBusError
  split
  · rfl
  · exact State.enterFault_ending _ _ _ _ _

theorem State.takeException_ending (s : State) (x : Exc) :
    (s.takeException x).ending = x.ending ∨ (s.takeException x).ending = .notDone := by
  unfold State.takeException
  dsimp only
  split
  · exact .inl rfl
  · exact .inr (State.nestedBusError_ending _ _)

theorem State.cutShort_ending (s t : State) (f : BusFault) (seen : List State) (made : Bool) :
    (s.cutShort t f seen made).ending = .notDone := by
  unfold State.cutShort
  dsimp only
  split
  · rfl
  · exact State.enterFault_ending _ _ _ _ _

/-! ## Bodies that preserve a predicate of states -/

variable {α β : Type} {P : State → Prop}

/-- From a state with `P` the body ends in one with `P`, or is interrupted. -/
def Preserves (P : State → Prop) (x : M α) : Prop :=
  ∀ s, P s →
    match x s with
    | .ok _ t => P t
    | .error e _ => e.Interrupts

/-- An instruction that goes on in sequence has run its body to the end. -/
theorem runInstr_sequential {body : M Unit} {s t : State} (hb : Preserves P body) (hs : P s)
    (h : runInstr body s = .next t) (he : t.ending = .sequential) : body s = .ok () t ∧ P t := by
  have hbs := hb s hs
  unfold runInstr at h
  split at h <;> rename_i hr <;> rw [hr] at hbs <;> cases h
  case h_1 => exact ⟨hr, hbs⟩
  case h_2 =>
    rw [State.cutShort_ending] at he
    cases he
  case h_3 =>
    rcases State.takeException_ending _ _ with hx | hx <;> rw [hx] at he
    · exact absurd he hbs
    · cases he
  case h_4 => cases he

theorem Preserves.bind {x : M α} {f : α → M β} (hx : Preserves P x) (hf : ∀ a, Preserves P (f a)) :
    Preserves P (x >>= f) := by
  intro s hs
  have hxs := hx s hs
  cases hr : x s with
  | ok a t =>
    rw [hr] at hxs
    rw [M.bind_ok hr]
    exact hf a t hxs
  | error e t =>
    rw [hr] at hxs
    rw [M.bind_error hr]
    exact hxs

theorem Preserves.ite {c : Prop} [Decidable c] {x y : M α} (hx : Preserves P x) (hy : Preserves P y) :
    Preserves P (if c then x else y) := by
  split
  · exact hx
  · exact hy

theorem Preserves.get {f : State → M β} (h : ∀ t, P t → Preserves P (f t)) :
    Preserves P ((MonadState.get : M State) >>= f) := fun t ht => h t ht t ht

theorem pure_preserves (a : α) : Preserves P (pure a : M α) := fun _ hs => hs

theorem modify_preserves {g : State → State} (h : ∀ t, P t → P (g t)) : Preserves P (modify g : M PUnit) :=
  fun t ht => h t ht

theorem set_preserves {t : State} (h : P t) : Preserves P (set t : M PUnit) := fun _ _ => h

theorem raised_preserves {x : Exc} (h : x.ending ≠ .sequential) : Preserves P (raised x : M α) := fun _ _ => h

theorem raiseIllegal_preserves : Preserves P (raiseIllegal : M α) := fun _ _ => nofun

theorem privileged_preserves {body : M Unit} (h : Preserves P body) : Preserves P (privileged body) :=
  Preserves.get fun _ _ => Preserves.ite h (raised_preserves nofun)

/-- Whatever a bus access does, a bus error in it is an interruption. -/
theorem liftBus_preserves {x : Bus α} (h : ∀ t a u, P t → x t = .ok a u → P u) : Preserves P (liftBus x) := by
  intro t ht
  unfold liftBus
  cases hx : x t with
  | ok a u => exact h t a u ht hx
  | error f u => trivial

/-! ## Memory accesses and operands

They use draws, and a mode may step a register: a predicate that these keep is kept by them. -/

section Operands

variable {sz : Size} {own : Nat} {ea : Ea}

theorem draw_preserves (hu : ∀ t k, P t → P (t.used k)) : Preserves P draw := fun t ht => hu t 1 ht

theorem drawBit_preserves (hu : ∀ t k, P t → P (t.used k)) : Preserves P drawBit :=
  (draw_preserves hu).bind fun _ => pure_preserves _

theorem busRead_preserves (hu : ∀ t k, P t → P (t.used k)) (fc : FC) (a : Long) (n : Nat) (rmw : Bool) :
    Preserves P (liftBus (busRead rmw fc a n)) := by
  refine liftBus_preserves fun t bs u ht hx => ?_
  obtain ⟨-, -, rfl⟩ := busRead_eq_ok.mp hx
  obtain ⟨k, hk⟩ := t.afterRead_used fc a n
  exact hk ▸ hu t k ht

theorem readMem_preserves (hu : ∀ t k, P t → P (t.used k)) (rmw : Bool) (fc : FC) (a : Long) (sz : Size) :
    Preserves P (readMem rmw fc a sz) := (busRead_preserves hu fc a sz.bytes rmw).bind fun _ => pure_preserves _

theorem indexedAddr_preserves (hu : ∀ t k, P t → P (t.used k)) (space : FC) (base : Long) (e : IndexExt) :
    Preserves P (indexedAddr space base e) :=
  Preserves.get fun _ _ => by
    cases e with
    | brief ix d8 => exact pure_preserves _
    | full ix bs is bd ind =>
      cases ind with
      | none => exact pure_preserves _
      | pre od | post od => exact (readMem_preserves hu _ _ _ _).bind fun _ => pure_preserves _

theorem memAddr_preserves (hu : ∀ t k, P t → P (t.used k)) (ha : ∀ t, P t → P (afterAddr sz ea t)) :
    Preserves P (memAddr sz own ea) :=
  Preserves.get fun t ht => by
    have hstep := ha t ht
    cases ea with
    | postinc r | predec r => exact (set_preserves hstep).bind fun _ => pure_preserves _
    | indexed r e => exact indexedAddr_preserves hu _ _ e
    | pcIndexed e => exact indexedAddr_preserves hu _ _ e
    | ind _ | disp _ _ | absW _ | absL _ | pcDisp _ => exact pure_preserves _
    | dreg _ | areg _ | imm _ => exact raiseIllegal_preserves

theorem readEa_preserves (hu : ∀ t k, P t → P (t.used k)) (ha : ∀ t, P t → P (afterAddr sz ea t)) :
    Preserves P (readEa sz own ea) :=
  Preserves.get fun _ _ => by
    have haddr := memAddr_preserves (own := own) hu ha
    cases ea with
    | dreg _ | areg _ | imm _ => exact pure_preserves _
    | _ => exact haddr.bind fun _ => readMem_preserves hu _ _ _ sz

end Operands

end Sys2Proof.Machine
end

/-! # MOVE (O26) -/

section
namespace Sys2Proof.Machine

variable {s t u : State} {sz : Size} {own : Nat} {src dst ea : Ea} {a v : Long}

theorem State.cc_congr (h : t.sr = s.sr) : t.cc = s.cc := congrArg CC.ofBits h

/-- A write to an operand leaves the SR and the PC. -/
theorem writeEa_sr_pc (h : writeEa sz own ea v s = .ok () u) : u.sr = s.sr ∧ u.pc = s.pc := by
  obtain ⟨r, rfl, rfl⟩ | ⟨-, a, t, ha, -, rfl⟩ := writeEa_eq_ok.mp h
  · exact ⟨rfl, rfl⟩
  · obtain ⟨k, rfl⟩ := memAddr_state ha
    exact ⟨afterAddr_sr sz ea s, afterAddr_pc sz ea s⟩

theorem writeEa_sameSystem (h : writeEa sz own ea v s = .ok () u) : sameSystem s u := by
  obtain ⟨r, rfl, rfl⟩ | ⟨-, a, t, ha, -, rfl⟩ := writeEa_eq_ok.mp h
  · exact sameSystem_putD (sameSystem_refl s) sz r v
  · exact sameSystem_store ((Kept.refl (steppedBy ea) s).memAddr (List.Subset.refl _) ha).system _ _ _

theorem sameSystem_trans (h : sameSystem s t) (h' : sameSystem t u) : sameSystem s u := by
  obtain ⟨h1, h2, h3, h4, h5, h6, h7, h8, h9, h10, h11, h12, h13, h14, h15, h16, h17⟩ := h
  obtain ⟨k1, k2, k3, k4, k5, k6, k7, k8, k9, k10, k11, k12, k13, k14, k15, k16, k17⟩ := h'
  exact ⟨k1.trans h1, k2.trans h2, k3.trans h3, k4.trans h4, k5.trans h5, k6.trans h6, k7.trans h7, k8.trans h8,
    k9.trans h9, k10.trans h10, k11.trans h11, k12.trans h12, k13.trans h13, k14.trans h14, k15.trans h15,
    k16.trans h16, k17.trans h17⟩

/-- MOVE when its operand is read and its destination written (R201). -/
theorem exec_move (hr : readEa sz 0 src s = .ok v t)
    (hw : writeEa sz src.words dst v (t.setCc (valueCc sz v t.cc)) = .ok () u) :
    exec (.move sz src dst) s = .next (u.goOn (s.npc (1 + src.words + dst.words))) := by
  rw [← logicCc_eq] at hw
  have hstore : checkpoint (do modify fun t => t.setCc (logicCc sz v t.cc); writeEa sz src.words dst v) t =
      .ok () u := checkpoint_eq_ok.mpr hw
  refine runInstr_ok ((M.bind_ok hr).trans ?_)
  rw [M.bind_ok hstore, M.advance_run, State.npc_congr (writeEa_sr_pc hw).2, State.npc_setCc, readEa_npc hr]

/-- An operand that was read leaves every data register. -/
theorem readEa_dreg (hr : readEa sz own ea s = .ok v t) (r : Reg) : t.dreg r = s.dreg r := by
  obtain ⟨-, ⟨hregs, -⟩, -⟩ := readEa_frame hr
  have hmode : (⟨false, r⟩ : Rn) ∉ steppedBy ea := by
    cases ea <;> simp [steppedBy]
  exact hregs _ hmode

/-- Settles O26: the source read keeps all but the register its mode steps, and so does the address of the
destination; then one data register or one operand's bytes are written. -/
theorem moveResult : Obligations.MoveResult := by
  intro s t u sz src dst v hm hr hw
  have hread : Kept (steppedBy src) s t := (Kept.refl _ s).readEa (List.Subset.refl _) hr
  have hflags : Kept (steppedBy src) s (t.setCc (valueCc sz v t.cc)) := hread.setCc _
  have hcc : t.cc = s.cc := by
    obtain ⟨-, -, -, hsr, -⟩ := readEa_frame hr
    exact State.cc_congr hsr
  refine ⟨exec_move hr hw, ?cc, sameSystem_trans hflags.system (writeEa_sameSystem hw), ?register, ?memory⟩
  case cc => rw [State.cc_congr (writeEa_sr_pc hw).1, State.cc_setCc, hcc]
  case register =>
    rintro r rfl
    cases hw
    have hkept : Kept (⟨false, r⟩ :: steppedBy src) s ((t.setCc (valueCc sz v t.cc)).putD sz r v) :=
      (hflags.mono (List.subset_cons_self _ _)).putD List.mem_cons_self sz v
    refine ⟨hkept.bytes, hkept.regs, ?_⟩
    rw [State.dreg_putD_toNat, State.dreg_setCc, readEa_dreg hr, Nat.mod_eq_of_lt (readEa_lt hr)]
  case memory =>
    intro a x ha
    have hx : Kept (steppedBy src ++ steppedBy dst) s x :=
      (hflags.mono (List.subset_append_left _ _)).memAddr (List.subset_append_right _ _) ha
    have hlen : (longBytes v sz.bytes).length = sz.bytes := longBytes_length v _
    obtain ⟨r, rfl, -⟩ | ⟨-, b, y, hb, -, rfl⟩ := writeEa_eq_ok.mp hw
    · cases ha
    · obtain ⟨rfl, rfl⟩ : b = a ∧ y = x := by
        rw [hb] at ha
        cases ha
        exact ⟨rfl, rfl⟩
      have hbytes := hx.store_bytes hm s.dataSpace b (longBytes v sz.bytes)
      rw [hlen] at hbytes
      rw [hx.dataSpace]
      refine ⟨hbytes, sameRegs_store hx.regs _ _ _, fun hram => ?_⟩
      have hload := State.load_store (s := y) (fc := s.dataSpace) (a := b) (bs := longBytes v sz.bytes)
        (hx.mem ▸ hm) (by rw [hlen]; cases sz <;> decide)
        (by rw [hlen, State.inRam_congr hx.system.platform]; exact hram)
      rwa [hlen] at hload

end Sys2Proof.Machine
end

/-! # What the instructions that read one operand leave alone (O59) -/

section
namespace Sys2Proof.Machine

/-- The body changes no register but those of `rs`, no memory, and of the system the condition codes alone. -/
abbrev BodyKeeps (rs : List Rn) (s : State) {α : Type} (x : M α) : Prop := Preserves (Kept rs s) x

/-- The outcome is that of a body that keeps all but the registers of `rs`. -/
def RunsKeeping (rs : List Rn) (s : State) (o : Host.Outcome State Fault Refusal) : Prop :=
  ∃ body : M Unit, o = runInstr body s ∧ BodyKeeps rs s body

variable {rs : List Rn} {s : State} {sz : Size} {ws : WL} {own k : Nat} {ea : Ea} {dn dm an : Reg}

/-! ## The shared operations -/

theorem readMem_keeps (rmw : Bool) (fc : FC) (a : Long) (sz : Size) : BodyKeeps rs s (readMem rmw fc a sz) :=
  readMem_preserves (fun _ k h => h.used k) rmw fc a sz

theorem memAddr_keeps (hea : steppedBy ea ⊆ rs) : BodyKeeps rs s (memAddr sz own ea) :=
  memAddr_preserves (fun _ k h => h.used k) fun _ h => h.afterAddr hea sz

theorem readEa_keeps (hea : steppedBy ea ⊆ rs) : BodyKeeps rs s (readEa sz own ea) :=
  readEa_preserves (fun _ k h => h.used k) fun _ h => h.afterAddr hea sz

theorem draw_keeps : BodyKeeps rs s draw := draw_preserves fun _ k h => h.used k

theorem advance_keeps : BodyKeeps rs s (advance k) := modify_preserves fun _ h => h.goOn _

/-- An instruction trap with the six-word frame: it is not an instruction that goes on in sequence (R533). -/
theorem trap_keeps {t : State} {vector : Byte} {α : Type} :
    BodyKeeps rs s (raised (t.trapExc vector k) : M α) := raised_preserves nofun

/-- Flags, then the next instruction. -/
theorem setCc_advance_keeps {f : State → CC} :
    BodyKeeps rs s (do modify fun t => t.setCc (f t); advance k) :=
  (modify_preserves fun _ h => h.setCc _).bind fun _ => advance_keeps

/-- Flags, then an instruction trap. -/
theorem setCc_trap_keeps {f : State → CC} {t : State} {vector : Byte} :
    BodyKeeps rs s (do modify fun u => u.setCc (f u); raised (t.trapExc vector k) : M Unit) :=
  (modify_preserves fun _ h => h.setCc _).bind fun _ => trap_keeps

theorem testEa_keeps {f : Long → CC → CC} (hea : steppedBy ea ⊆ rs) : BodyKeeps rs s (testEa sz own ea f) :=
  (readEa_keeps hea).bind fun _ => modify_preserves fun _ h => h.setCc _

/-! ## Arithmetic and logic (R202, R206, R231 to R278) -/

theorem aluToReg_keeps {op : AluOp} (hea : steppedBy ea ⊆ rs) (hd : ⟨false, dn⟩ ∈ rs) :
    BodyKeeps rs s (aluToReg op sz ea dn) :=
  (readEa_keeps hea).bind fun _ => (modify_preserves fun _ h => (h.putD hd _ _).setCc _).bind fun _ => advance_keeps

theorem logicToReg_keeps {op : BitOp} (hea : steppedBy ea ⊆ rs) (hd : ⟨false, dn⟩ ∈ rs) :
    BodyKeeps rs s (logicToReg op sz ea dn) :=
  (readEa_keeps hea).bind fun _ => (modify_preserves fun _ h => (h.putD hd _ _).setCc _).bind fun _ => advance_keeps

theorem mulWord_keeps {signed : Bool} (hea : steppedBy ea ⊆ rs) (hd : ⟨false, dn⟩ ∈ rs) :
    BodyKeeps rs s (mulWord signed ea dn) :=
  (readEa_keeps hea).bind fun _ => (modify_preserves fun _ h => (h.setD hd _).setCc _).bind fun _ => advance_keeps

theorem aluToAddr_keeps {f : Long → Long → Long} (hea : steppedBy ea ⊆ rs) (ha : ⟨true, an⟩ ∈ rs) :
    BodyKeeps rs s (aluToAddr f ws ea an) :=
  (readEa_keeps hea).bind fun _ => (modify_preserves fun _ h => h.setA ha _).bind fun _ => advance_keeps

/-- CMP, CMPA, TST, CMPI and MOVE to CCR: only flags are written. -/
theorem readEa_setCc_keeps {f : Long → State → CC} (hea : steppedBy ea ⊆ rs) :
    BodyKeeps rs s (do let v ← readEa sz own ea; modify fun t => t.setCc (f v t); advance k) :=
  (readEa_keeps hea).bind fun _ => setCc_advance_keeps

theorem testEa_advance_keeps {f : Long → CC → CC} (hea : steppedBy ea ⊆ rs) :
    BodyKeeps rs s (do testEa sz own ea f; advance k) := (testEa_keeps hea).bind fun _ => advance_keeps

/-- MOVEA. -/
theorem readEa_setA_keeps {f : Long → State → Long} (hea : steppedBy ea ⊆ rs) (ha : ⟨true, an⟩ ∈ rs) :
    BodyKeeps rs s (do let v ← readEa sz own ea; modify fun t => t.setA an (f v t); advance k) :=
  (readEa_keeps hea).bind fun _ => (modify_preserves fun _ h => h.setA ha _).bind fun _ => advance_keeps

/-- LEA. -/
theorem memAddr_setA_keeps (hea : steppedBy ea ⊆ rs) (ha : ⟨true, an⟩ ∈ rs) :
    BodyKeeps rs s (do let a ← memAddr sz own ea; modify fun t => t.setA an a; advance k) :=
  (memAddr_keeps hea).bind fun _ => (modify_preserves fun _ h => h.setA ha _).bind fun _ => advance_keeps

/-! ## Multiplication and division (R242, R243, R246) -/

theorem zeroDivide_keeps : BodyKeeps rs s (zeroDivide k) :=
  draw_keeps.bind fun _ => (modify_preserves fun _ h => h.setCc _).bind fun _ => Preserves.get fun _ _ => trap_keeps

theorem divOverflow_keeps : BodyKeeps rs s divOverflow :=
  draw_keeps.bind fun _ => modify_preserves fun _ h => h.setCc _

theorem divWord_keeps {signed : Bool} (hea : steppedBy ea ⊆ rs) (hd : ⟨false, dn⟩ ∈ rs) :
    BodyKeeps rs s (divWord signed ea dn) :=
  (readEa_keeps hea).bind fun _ => Preserves.ite zeroDivide_keeps <| Preserves.get fun _ h => Preserves.ite
    ((set_preserves ((h.setD hd _).setCc _)).bind fun _ => advance_keeps)
    (divOverflow_keeps.bind fun _ => advance_keeps)

/-- One register, or two, with the number of a 64-bit result; one for both is free (93 U25). -/
theorem setD_draw_keeps (hd : ⟨false, dn⟩ ∈ rs) :
    BodyKeeps rs s (do let free ← draw; modify fun u => u.setD dn free; advance k) :=
  draw_keeps.bind fun _ => (modify_preserves fun _ h => h.setD hd _).bind fun _ => advance_keeps

theorem setD_setD_keeps {x y : State → Long} (hd : ⟨false, dn⟩ ∈ rs) (hm : ⟨false, dm⟩ ∈ rs) :
    BodyKeeps rs s (do modify fun u => (u.setD dm (x u)).setD dn (y u); advance k) :=
  (modify_preserves fun _ h => (h.setD hm _).setD hd _).bind fun _ => advance_keeps

theorem execDivL_keeps {signed wide : Bool} (hea : steppedBy ea ⊆ rs) (hd : ⟨false, dn⟩ ∈ rs)
    (hm : ⟨false, dm⟩ ∈ rs) : RunsKeeping rs s (execDivL ea dn signed wide dm s) :=
  ⟨_, rfl, (readEa_keeps hea).bind fun _ => Preserves.ite zeroDivide_keeps <| Preserves.get fun _ h => Preserves.ite
    ((set_preserves (h.setCc _)).bind fun _ => Preserves.ite
      (Preserves.ite (setD_draw_keeps hd) ((modify_preserves fun _ h => h.setD hd _).bind fun _ => advance_keeps))
      (setD_setD_keeps hd hm))
    (divOverflow_keeps.bind fun _ => advance_keeps)⟩

theorem execMulL_keeps {signed wide : Bool} (hea : steppedBy ea ⊆ rs) (hd : ⟨false, dn⟩ ∈ rs)
    (hm : ⟨false, dm⟩ ∈ rs) : RunsKeeping rs s (execMulL ea dn signed wide dm s) :=
  ⟨_, rfl, (readEa_keeps hea).bind fun _ => Preserves.get fun _ h => Preserves.ite
    ((set_preserves (h.setCc _)).bind fun _ => Preserves.ite (setD_draw_keeps hd) (setD_setD_keeps hd hm))
    ((set_preserves ((h.setD hd _).setCc _)).bind fun _ => advance_keeps)⟩

/-! ## Bounds (R241, R383, R384) -/

theorem boundsOf_keeps {rn : Rn} (hea : steppedBy ea ⊆ rs) : BodyKeeps rs s (boundsOf sz ea rn) :=
  (memAddr_keeps hea).bind fun _ => Preserves.get fun _ _ => (readMem_keeps _ _ _ _).bind fun _ =>
    (readMem_keeps _ _ _ _).bind fun _ => Preserves.ite (pure_preserves _) (pure_preserves _)

theorem compareBounds_keeps {lo hi v : Long} : BodyKeeps rs s (compareBounds sz lo hi v) :=
  draw_keeps.bind fun _ => (modify_preserves fun _ h => h.setCc _).bind fun _ => pure_preserves _

theorem execCmp2_keeps {rn : Rn} (hea : steppedBy ea ⊆ rs) : RunsKeeping rs s (execCmp2 sz ea rn s) :=
  ⟨_, rfl, (boundsOf_keeps hea).bind fun _ => compareBounds_keeps.bind fun _ => advance_keeps⟩

theorem execChk2_keeps {rn : Rn} (hea : steppedBy ea ⊆ rs) : RunsKeeping rs s (execChk2 sz ea rn s) :=
  ⟨_, rfl, (boundsOf_keeps hea).bind fun _ => compareBounds_keeps.bind fun _ => Preserves.get fun _ _ =>
    Preserves.ite trap_keeps advance_keeps⟩

theorem execChk_keeps (hea : steppedBy ea ⊆ rs) : RunsKeeping rs s (execChk ws ea dn s) :=
  ⟨_, rfl, (readEa_keeps hea).bind fun _ => Preserves.get fun _ _ => draw_keeps.bind fun _ =>
    Preserves.ite setCc_trap_keeps (Preserves.ite setCc_trap_keeps setCc_advance_keeps)⟩

/-! ## Bits and bit fields (R311, R320 to R324) -/

theorem bitTest_keeps {n : Nat} (hea : steppedBy ea ⊆ rs) : BodyKeeps rs s (bitTest n own ea) :=
  testEa_advance_keeps hea

theorem execBtstDyn_keeps (hea : steppedBy ea ⊆ rs) : RunsKeeping rs s (execBtstDyn dn ea s) :=
  ⟨_, rfl, (Preserves.get fun _ _ => pure_preserves _).bind fun _ => bitTest_keeps hea⟩

theorem readField_keeps (fc : FC) (a : Long) (n : Nat) : BodyKeeps rs s (readField fc a n) :=
  (busRead_preserves (fun _ k h => h.used k) _ _ _ _).bind fun _ =>
    (busRead_preserves (fun _ k h => h.used k) _ _ _ _).bind fun _ => pure_preserves _

theorem fetchField_keeps {f : BitField} (hea : steppedBy ea ⊆ rs) : BodyKeeps rs s (fetchField ea f) :=
  Preserves.get fun _ _ => by
    have haddr : BodyKeeps rs s (memAddr .b 1 ea) := memAddr_keeps hea
    cases ea with
    | dreg r => exact pure_preserves _
    | _ => exact haddr.bind fun _ => (readField_keeps _ _ _).bind fun _ => pure_preserves _

theorem fieldInstr_keeps {f : BitField} {body : Field → M Unit} (hea : steppedBy ea ⊆ rs)
    (hb : ∀ x, BodyKeeps rs s (body x)) : BodyKeeps rs s (fieldInstr ea f body) :=
  (fetchField_keeps hea).bind fun x => (modify_preserves fun _ h => h.setCc _).bind fun _ => (hb x).bind
    fun _ => advance_keeps

/-- BFEXTU and BFEXTS. -/
theorem fieldExtract_keeps {f : BitField} {y : Field → Long} (hea : steppedBy ea ⊆ rs)
    (hd : ⟨false, dn⟩ ∈ rs) : BodyKeeps rs s (fieldInstr ea f fun x => modify fun t => t.setD dn (y x)) :=
  fieldInstr_keeps hea fun _ => modify_preserves fun _ h => h.setD hd _

theorem ffoOffset_keeps (off : Int) (x : Field) : BodyKeeps rs s (ffoOffset off x) :=
  Preserves.ite ((drawBit_preserves fun _ k h => h.used k).bind fun _ => pure_preserves _) (pure_preserves _)

theorem execBfffo_keeps {f : BitField} (hea : steppedBy ea ⊆ rs) (hd : ⟨false, dn⟩ ∈ rs) :
    RunsKeeping rs s (execBfffo ea f dn s) :=
  ⟨_, rfl, fieldInstr_keeps hea fun x => (ffoOffset_keeps _ x).bind fun _ =>
    modify_preserves fun _ h => h.setD hd _⟩

/-! ## All of them -/

/-- Each instruction of `readsInto` has a body that keeps all but its registers and a stepped one. -/
theorem readsInto_keeps {i : Instr} (h : readsInto i = some (ea, rs)) (s : State) :
    RunsKeeping (rs ++ steppedBy ea) s (exec i s) := by
  have hea : steppedBy ea ⊆ rs ++ steppedBy ea := List.subset_append_right _ _
  have hreg : ∀ rn ∈ rs, rn ∈ rs ++ steppedBy ea := fun _ => List.mem_append_left _
  cases i with
  | movea _ _ _ => cases h; exact ⟨_, rfl, readEa_setA_keeps hea (hreg _ (by simp))⟩
  | adda _ _ _ | suba _ _ _ => cases h; exact ⟨_, rfl, aluToAddr_keeps hea (hreg _ (by simp))⟩
  | lea _ _ => cases h; exact ⟨_, rfl, memAddr_setA_keeps hea (hreg _ (by simp))⟩
  | addToReg _ _ _ | subToReg _ _ _ => cases h; exact ⟨_, rfl, aluToReg_keeps hea (hreg _ (by simp))⟩
  | andToReg _ _ _ | orToReg _ _ _ => cases h; exact ⟨_, rfl, logicToReg_keeps hea (hreg _ (by simp))⟩
  | muluW _ _ | mulsW _ _ => cases h; exact ⟨_, rfl, mulWord_keeps hea (hreg _ (by simp))⟩
  | divuW _ _ | divsW _ _ => cases h; exact ⟨_, rfl, divWord_keeps hea (hreg _ (by simp))⟩
  | mulL _ _ _ _ _ => cases h; exact execMulL_keeps hea (hreg _ (by simp)) (hreg _ (by simp))
  | divL _ _ _ _ _ => cases h; exact execDivL_keeps hea (hreg _ (by simp)) (hreg _ (by simp))
  | cmp _ _ _ | cmpa _ _ _ | moveToCcr _ => cases h; exact ⟨_, rfl, readEa_setCc_keeps hea⟩
  | cmpi _ _ _ | tst _ _ => cases h; exact ⟨_, rfl, testEa_advance_keeps hea⟩
  | cmp2 _ _ _ => cases h; exact execCmp2_keeps hea
  | chk2 _ _ _ => cases h; exact execChk2_keeps hea
  | chk _ _ _ => cases h; exact execChk_keeps hea
  | btstDyn _ _ => cases h; exact execBtstDyn_keeps hea
  | btstImm _ _ => cases h; exact ⟨_, rfl, bitTest_keeps hea⟩
  | bftst _ _ => cases h; exact ⟨_, rfl, fieldInstr_keeps hea fun _ => pure_preserves _⟩
  | bfextu _ _ _ | bfexts _ _ _ => cases h; exact ⟨_, rfl, fieldExtract_keeps hea (hreg _ (by simp))⟩
  | bfffo _ _ _ => cases h; exact execBfffo_keeps hea (hreg _ (by simp))
  | _ => cases h

/-- Settles O59: an instruction that goes on in sequence has run its body to the end, and the body keeps the rest. -/
theorem readFrame : Obligations.ReadFrame := by
  intro i ea rs s t hi hexec hend
  obtain ⟨body, hbody, hkeeps⟩ := readsInto_keeps hi s
  have hkept : Kept (rs ++ steppedBy ea) s t :=
    (runInstr_sequential hkeeps (Kept.refl _ s) (hbody ▸ hexec) hend).2
  exact ⟨hkept.bytes, hkept.regs, hkept.system⟩

end Sys2Proof.Machine
end

/-! # What the instructions that change one operand in place leave alone (O60) -/

section
namespace Sys2Proof.Machine

variable {s t u : State} {sz : Size} {own k : Nat} {ea : Ea} {a v : Long}

/-- Only the operand's bytes at its address, or its data register, and the register its mode steps are changed. -/
structure ChangedAt (sz : Size) (own : Nat) (ea : Ea) (s t : State) : Prop where
  system : sameSystem s t
  regs : sameRegs (dataRegOf ea ++ steppedBy ea) s t
  bytes : inMemory ea = false → sameBytes s t
  bytesBut : ∀ a u, memAddr sz own ea s = .ok a u → sameBytesBut s.dataSpace a sz.bytes s t

theorem ChangedAt.goOn (h : ChangedAt sz own ea s t) (pc : Long) : ChangedAt sz own ea s (t.goOn pc) :=
  ⟨h.system, h.regs, h.bytes, h.bytesBut⟩

/-! ## The two places of an operand -/

/-- A data register written, and flags. -/
theorem changedAt_dreg {r : Reg} (h : Kept [⟨false, r⟩] s t) : ChangedAt sz own (.dreg r) s t :=
  ⟨h.system, h.regs, fun _ => h.bytes, fun _ _ ha => nomatch ha⟩

/-- Bytes stored at the operand's address, after its address computation and whatever else keeps the rest. -/
theorem changedAt_store {bs : List Byte} (h : Kept (dataRegOf ea ++ steppedBy ea) s t)
    (hm : s.mem.wf = true) (hin : inMemory ea = true) (hl : bs.length = sz.bytes)
    (ha : ∀ b x, memAddr sz own ea s = .ok b x → b = a) : ChangedAt sz own ea s (t.store s.dataSpace a bs) := by
  refine ⟨sameSystem_store h.system _ _ _, sameRegs_store h.regs _ _ _, fun hout => ?_, fun b x hb => ?_⟩
  · rw [hin] at hout
    cases hout
  · rw [ha b x hb, ← hl]
    exact h.store_bytes hm _ _ _

/-- The address is one. -/
theorem memAddr_unique (ha : memAddr sz own ea s = .ok a t) (b : Long) (x : State)
    (hb : memAddr sz own ea s = .ok b x) : b = a := by
  rw [ha] at hb
  cases hb
  rfl

/-! ## Reading and changing, or writing -/

theorem modifyEa_changedAt {f : Long → CC → Long × CC} (hm : s.mem.wf = true)
    (h : modifyEa sz own ea f s = .ok () u) : ChangedAt sz own ea s u := by
  obtain ⟨r, rfl, rfl⟩ | ⟨hin, a, t, d, t', ha, hd, -, rfl⟩ := modifyEa_cases h
  · exact changedAt_dreg (((Kept.refl _ s).putD List.mem_cons_self sz _).setCc _)
  · have hread : Kept (dataRegOf ea ++ steppedBy ea) s t' :=
      ((Kept.refl _ s).memAddr (List.subset_append_right _ _) ha).readMem hd
    rw [hread.dataSpace]
    exact changedAt_store (hread.setCc _) hm hin (longBytes_length _ _) (memAddr_unique ha)

/-- A write after what keeps all but the flags: the address is that of the state before. -/
theorem writeEa_changedAt {s₀ : State} (hs : Kept [] s₀ s) (hm : s₀.mem.wf = true)
    (haddr : ∀ b x, memAddr sz own ea s₀ = .ok b x → ∃ y, memAddr sz own ea s = .ok b y)
    (h : writeEa sz own ea v s = .ok () u) : ChangedAt sz own ea s₀ u := by
  have hs' : Kept (dataRegOf ea ++ steppedBy ea) s₀ s := hs.mono (List.nil_subset _)
  obtain ⟨r, rfl, rfl⟩ | ⟨hin, a, t, ha, -, rfl⟩ := writeEa_eq_ok.mp h
  · exact changedAt_dreg (hs'.putD List.mem_cons_self sz v)
  · have hkept := hs'.memAddr (List.subset_append_right _ _) ha
    rw [hkept.dataSpace]
    refine changedAt_store hkept hm hin (longBytes_length _ _) fun b x hb => ?_
    obtain ⟨y, hy⟩ := haddr b x hb
    exact memAddr_unique ha b y hy

/-! ## The address does not depend on the flags -/

theorem readMem_setCc {rmw : Bool} {fc : FC} (f : CC) (h : readMem rmw fc a sz s = .ok v t) :
    readMem rmw fc a sz (s.setCc f) = .ok v (t.setCc f) := by
  obtain ⟨hf, rfl, rfl⟩ := readMem_eq_ok.mp h
  refine readMem_eq_ok.mpr ⟨hf, rfl, ?_⟩
  have hdev : (s.setCc f).onDevice fc a sz.bytes = s.onDevice fc a sz.bytes := rfl
  rw [State.afterRead, State.afterRead, hdev]
  split <;> rfl

theorem State.indexValue_setCc (s : State) (f : CC) (ix : Index) : (s.setCc f).indexValue ix = s.indexValue ix := by
  simp only [State.indexValue, State.getR_setCc]

theorem indexedAddr_setCc {space : FC} {base : Long} {e : IndexExt} (f : CC)
    (h : indexedAddr space base e s = .ok a t) : indexedAddr space base e (s.setCc f) = .ok a (t.setCc f) := by
  unfold indexedAddr at h ⊢
  rw [M.get_bind] at h ⊢
  simp only [State.indexValue_setCc]
  cases e with
  | brief ix d8 => cases h; rfl
  | full ix bs is bd ind =>
    cases ind with
    | none => cases h; rfl
    | pre od | post od =>
      obtain ⟨p, x, hp, hx⟩ := M.bind_eq_ok.mp h
      cases hx
      exact M.bind_ok (readMem_setCc f hp)

theorem memAddr_setCc (f : CC) (h : memAddr sz own ea s = .ok a t) :
    ∃ y, memAddr sz own ea (s.setCc f) = .ok a y := by
  unfold memAddr at h ⊢
  rw [M.get_bind] at h ⊢
  simp only [State.areg_setCc, State.dataSpace_setCc, State.progSpace_setCc, State.npc_setCc]
  cases ea with
  | dreg _ | areg _ | imm _ => cases h
  | indexed r e => exact ⟨_, indexedAddr_setCc f h⟩
  | pcIndexed e => exact ⟨_, indexedAddr_setCc f h⟩
  | _ => cases h; exact ⟨_, rfl⟩

/-! ## Instructions -/

/-- Whatever else it does, the body ends in sequence only by running to its end. -/
abbrev RunsOn {α : Type} (x : M α) : Prop := Preserves (fun _ => True) x

theorem advance_runsOn : RunsOn (advance k) := fun _ _ => trivial

theorem memAddr_runsOn : RunsOn (memAddr sz own ea) := memAddr_preserves (fun _ _ _ => trivial) fun _ _ => trivial

theorem readMem_runsOn (rmw : Bool) (fc : FC) (a : Long) (sz : Size) : RunsOn (readMem rmw fc a sz) :=
  readMem_preserves (fun _ _ _ => trivial) rmw fc a sz

theorem writeMem_runsOn (rmw : Bool) (fc : FC) (a : Long) (sz : Size) (v : Long) : RunsOn (writeMem rmw fc a sz v) :=
  liftBus_preserves fun _ _ _ _ _ => trivial

theorem writeData_runsOn (a : Long) (sz : Size) (v : Long) : RunsOn (writeData a sz v) :=
  Preserves.get fun _ _ => writeMem_runsOn _ _ _ _ _

theorem modifyEa_runsOn {f : Long → CC → Long × CC} : RunsOn (modifyEa sz own ea f) := by
  cases ea with
  | dreg r => exact modify_preserves fun _ _ => trivial
  | areg _ | pcDisp _ | pcIndexed _ | imm _ => exact raiseIllegal_preserves
  | _ =>
    exact memAddr_runsOn.bind fun _ => (Preserves.get fun _ _ => readMem_runsOn _ _ _ _).bind fun _ =>
      Preserves.get fun _ _ => (set_preserves trivial).bind fun _ => writeData_runsOn _ _ _

theorem writeEa_runsOn : RunsOn (writeEa sz own ea v) := by
  cases ea with
  | dreg r => exact modify_preserves fun _ _ => trivial
  | areg _ | pcDisp _ | pcIndexed _ | imm _ => exact raiseIllegal_preserves
  | _ => exact memAddr_runsOn.bind fun _ => writeData_runsOn _ _ _

/-- The outcome, if it goes on in sequence, changed the operand alone. -/
def ChangesAlone (sz : Size) (own : Nat) (ea : Ea) (s : State) (o : Host.Outcome State Fault Refusal) : Prop :=
  ∀ t, o = .next t → t.ending = .sequential → ChangedAt sz own ea s t

/-- A body that changes the operand, then the next instruction. -/
theorem runInstr_changes {x : M Unit} (hx : RunsOn x) (h : ∀ u, x s = .ok () u → ChangedAt sz own ea s u) :
    ChangesAlone sz own ea s (runInstr (do x; advance k) s) := by
  intro t ht hend
  have hrun := (runInstr_sequential (hx.bind fun _ => advance_runsOn) trivial ht hend).1
  obtain ⟨_, u, hu, hadv⟩ := M.bind_eq_ok.mp hrun
  cases hadv
  exact (h u hu).goOn _

theorem runInstr_congr {body body' : M Unit} (h : body s = body' s) : runInstr body s = runInstr body' s := by
  rw [runInstr, runInstr, h]

theorem runInstr_modifyEa_changes {f : Long → CC → Long × CC} (hm : s.mem.wf = true) :
    ChangesAlone sz own ea s (runInstr (do modifyEa sz own ea f; advance k) s) :=
  runInstr_changes modifyEa_runsOn fun _ => modifyEa_changedAt hm

/-- ADD, SUB, AND, OR and EOR to an operand look at their register first (R231, R271). -/
theorem runInstr_get_modifyEa_changes {f : State → Long → CC → Long × CC} (hm : s.mem.wf = true) :
    ChangesAlone sz own ea s (runInstr (do let t ← get; modifyEa sz own ea (f t); advance k) s) := by
  rw [runInstr_congr (M.get_bind _ s)]
  exact runInstr_modifyEa_changes hm

theorem bitModify_changes {f : BitChange} {n : Nat} (hm : s.mem.wf = true) :
    ChangesAlone (bitSize ea) own ea s (runInstr (bitModify f n own ea) s) := runInstr_modifyEa_changes hm

/-- BCHG, BCLR and BSET with the number in a register (R310). -/
theorem bitModify_dyn_changes {f : BitChange} {dn : Reg} (hm : s.mem.wf = true) :
    ChangesAlone (bitSize ea) 0 ea s (runInstr (do let n ← bitNumber dn; bitModify f n 0 ea) s) := by
  have hn : (do let n ← bitNumber dn; bitModify f n 0 ea) s = bitModify f (s.dreg dn).toNat 0 ea s :=
    M.bind_ok (a := (s.dreg dn).toNat) (t := s) rfl
  rw [runInstr_congr hn]
  exact bitModify_changes hm

theorem runInstr_writeEa_changes (hm : s.mem.wf = true) :
    ChangesAlone sz own ea s (runInstr (do writeEa sz own ea v; advance k) s) :=
  runInstr_changes writeEa_runsOn fun _ => writeEa_changedAt (Kept.refl _ s) hm fun _ x hb => ⟨x, hb⟩

/-- CLR sets the flags before it writes (R236). -/
theorem execClr_changes (hm : s.mem.wf = true) : ChangesAlone sz 0 ea s (execClr sz ea s) := by
  have hx : RunsOn (do modify fun t => t.setCc (logicCc sz 0 t.cc); writeEa sz 0 ea 0) :=
    (modify_preserves fun _ _ => trivial).bind fun _ => writeEa_runsOn
  exact runInstr_changes hx fun u hu =>
    writeEa_changedAt ((Kept.refl _ s).setCc _) hm (fun _ _ hb => memAddr_setCc _ hb) hu

/-- ADDQ and SUBQ on anything but An, which changes no flag and is 32 bits wide (R234). -/
theorem aluQuick_changes {op : AluOp} {f : Long → Long → Long} {data : Reg} (hm : s.mem.wf = true)
    (hea : ea.mode ≠ 1) : ChangesAlone sz 0 ea s (runInstr (aluQuick op f sz data ea) s) := by
  cases ea with
  | areg r => exact absurd rfl hea
  | _ => exact runInstr_modifyEa_changes hm

theorem execMoveFromSr_changes (hm : s.mem.wf = true) : ChangesAlone .w 0 ea s (execMoveFromSr ea s) := by
  intro t ht hend
  have hbody : RunsOn (do writeEa .w 0 ea (s.sr.setWidth 32); advance (1 + ea.words)) :=
    writeEa_runsOn.bind fun _ => advance_runsOn
  cases hs : s.sBit with
  | true =>
    have hwrite : execMoveFromSr ea s =
        runInstr (do writeEa .w 0 ea (s.sr.setWidth 32); advance (1 + ea.words)) s := by
      rw [execMoveFromSr, runInstr, privileged_super hs]
      rfl
    exact runInstr_writeEa_changes hm t (hwrite ▸ ht) hend
  | false =>
    have hrun := (runInstr_sequential (privileged_preserves hbody) trivial ht hend).1
    rw [privileged_user hs] at hrun
    cases hrun

/-- NBCD draws its free value first (R343). -/
theorem execNbcd_changes (hm : s.mem.wf = true) : ChangesAlone .b 0 ea (s.used 1) (execNbcd ea s) := by
  intro t ht hend
  have hbody : RunsOn (do
      let free ← draw
      modifyEa .b 0 ea fun d cc => bcdResult free (bcdValid d) (sbcdOut d 0 cc.x) cc
      advance (1 + ea.words)) :=
    (draw_preserves fun _ _ _ => trivial).bind fun _ => modifyEa_runsOn.bind fun _ => advance_runsOn
  have hrun := (runInstr_sequential hbody trivial ht hend).1
  rw [M.bind_ok (M.draw_run s)] at hrun
  have hm' : (s.used 1).mem.wf = true := hm
  obtain ⟨_, u, hu, hadv⟩ := M.bind_eq_ok.mp hrun
  rw [M.advance_run] at hadv
  cases hadv
  exact (modifyEa_changedAt hm' hu).goOn _

/-! ## TAS (R420) -/

/-- The body of TAS on a memory operand. -/
def tasMemory (ea : Ea) : M Unit := do
  let a ← memAddr .b 0 ea
  let t ← get
  let v ← readMem true t.dataSpace a .b
  modify fun u => u.setCc (logicCc .b v u.cc)
  writeMem true t.dataSpace a .b (v ||| 0x80)
  advance (1 + ea.words)

theorem execTas_eq_tasMemory (hin : inMemory ea = true) : execTas ea s = runInstr (tasMemory ea) s := by
  cases ea with
  | dreg _ | areg _ | pcDisp _ | pcIndexed _ | imm _ => cases hin
  | _ => rfl

theorem tasMemory_runsOn : RunsOn (tasMemory ea) :=
  memAddr_runsOn.bind fun _ => Preserves.get fun _ _ => (readMem_runsOn _ _ _ _).bind fun _ =>
    (modify_preserves fun _ _ => trivial).bind fun _ => (writeMem_runsOn _ _ _ _ _).bind fun _ => advance_runsOn

theorem tasMemory_changedAt (hm : s.mem.wf = true) (hin : inMemory ea = true) (h : tasMemory ea s = .ok () u) :
    ChangedAt .b 0 ea s u := by
  obtain ⟨a, t, ha, h⟩ := M.bind_eq_ok.mp h
  rw [M.get_bind] at h
  obtain ⟨v, t', hv, h⟩ := M.bind_eq_ok.mp h
  rw [M.modify_bind] at h
  obtain ⟨_, x, hx, hadv⟩ := M.bind_eq_ok.mp h
  cases hadv
  obtain ⟨-, rfl⟩ := writeMem_eq_ok.mp hx
  have haddr := (Kept.refl (dataRegOf ea ++ steppedBy ea) s).memAddr (List.subset_append_right _ _) ha
  rw [haddr.dataSpace]
  exact (changedAt_store ((haddr.readMem hv).setCc _) hm hin (longBytes_length _ _) (memAddr_unique ha)).goOn _

theorem execTas_changes (hm : s.mem.wf = true) : ChangesAlone .b 0 ea s (execTas ea s) := by
  cases hin : inMemory ea with
  | true =>
    intro t ht hend
    rw [execTas_eq_tasMemory hin] at ht
    exact tasMemory_changedAt hm hin (runInstr_sequential tasMemory_runsOn trivial ht hend).1
  | false =>
    cases ea with
    | dreg r =>
      refine runInstr_changes (modify_preserves fun _ _ => trivial) fun u hu => ?_
      cases hu
      exact changedAt_dreg (((Kept.refl _ s).putD List.mem_cons_self .b _).setCc _)
    | areg _ | pcDisp _ | pcIndexed _ | imm _ =>
      exact runInstr_changes (x := raiseIllegal) raiseIllegal_preserves fun u hu =>
        nomatch (M.raiseIllegal_run s).symm.trans hu
    | ind _ | postinc _ | predec _ | disp _ _ | indexed _ _ | absW _ | absL _ => cases hin

/-! ## All of them -/

/-- Each instruction of `changesAt` but NBCD changes its operand alone. -/
theorem changesAt_changes {i : Instr} (h : changesAt i = some (sz, own, ea)) (hi : i ≠ .nbcd ea)
    (hm : s.mem.wf = true) : ChangesAlone sz own ea s (exec i s) := by
  cases i with
  | addq _ _ e | subq _ _ e =>
    simp only [changesAt, Option.ite_none_left_eq_some] at h
    obtain ⟨hmode, h⟩ := h
    cases h
    exact aluQuick_changes hm hmode
  | addToEa _ _ _ | subToEa _ _ _ | andToEa _ _ _ | orToEa _ _ _ | eor _ _ _ =>
    cases h
    exact runInstr_get_modifyEa_changes hm
  | addi _ _ _ | subi _ _ _ | andi _ _ _ | ori _ _ _ | eori _ _ _ | neg _ _ | negx _ _ | not _ _ | aslMem _ | asrMem _
  | lslMem _ | lsrMem _ | rolMem _ | rorMem _ | roxlMem _ | roxrMem _ =>
    cases h
    exact runInstr_modifyEa_changes hm
  | bchgImm _ _ | bclrImm _ _ | bsetImm _ _ => cases h; exact bitModify_changes hm
  | bchgDyn _ _ | bclrDyn _ _ | bsetDyn _ _ => cases h; exact bitModify_dyn_changes hm
  | scc _ _ | moveFromCcr _ => cases h; exact runInstr_writeEa_changes hm
  | clr _ _ => cases h; exact execClr_changes hm
  | moveFromSr _ => cases h; exact execMoveFromSr_changes hm
  | tas _ => cases h; exact execTas_changes hm
  | nbcd _ => cases h; exact absurd rfl hi
  | _ => cases h

/-- Settles O60: the operand is changed alone, NBCD's after its free value is drawn, which moves no byte and no
register. -/
theorem changeFrame : Obligations.ChangeFrame := by
  intro i sz own ea s t hm hi hexec hend
  by_cases hn : i = .nbcd ea
  · subst hn
    cases hi
    have hc := execNbcd_changes hm t hexec hend
    rw [if_pos rfl]
    exact ⟨hc.system, hc.regs, hc.bytes, hc.bytesBut⟩
  · have hc := changesAt_changes hi hn hm t hexec hend
    rw [if_neg hn]
    exact ⟨hc.system, hc.regs, hc.bytes, hc.bytesBut⟩

end Sys2Proof.Machine
end

/-! # MOVEM (O29, O30) -/

section
namespace Sys2Proof.Machine

variable {s t u : State} {sz : Size} {ws : WL} {mask : Word} {ea : Ea} {fc : FC} {a b x : Long} {n total : Nat}

/-! ## The registers a mask names (R204) -/

/-- D0 to D7, then A0 to A7. -/
def registerFile : List Rn :=
  [⟨false, 0⟩, ⟨false, 1⟩, ⟨false, 2⟩, ⟨false, 3⟩, ⟨false, 4⟩, ⟨false, 5⟩, ⟨false, 6⟩, ⟨false, 7⟩,
    ⟨true, 0⟩, ⟨true, 1⟩, ⟨true, 2⟩, ⟨true, 3⟩, ⟨true, 4⟩, ⟨true, 5⟩, ⟨true, 6⟩, ⟨true, 7⟩]

/-- The registers of a list whose index is a bit of the mask. -/
def namedBy (mask : Word) (file : List Rn) : List Rn := (file.zipIdx.filter fun p => mask.getLsbD p.2).map (·.1)

theorem namedBy_eq {file : List Rn} {f : Nat → Rn} (h : file.zipIdx = (List.range 16).map fun k => (f k, k))
    (mask : Word) : namedBy mask file = ((List.range 16).filter fun k => mask.getLsbD k).map f := by
  rw [namedBy, h, List.filter_map, List.map_map]
  rfl

theorem maskRegs_eq (mask : Word) : maskRegs mask = namedBy mask registerFile :=
  (namedBy_eq (by decide) mask).symm

theorem maskRegsDown_eq (mask : Word) : maskRegsDown mask = namedBy mask registerFile.reverse :=
  (namedBy_eq (by decide) mask).symm

/-! ## Storing registers one after another -/

/-- The state with another memory. -/
def State.withMem (s : State) (m : Memory) : State := { s with mem := m }

@[simp] theorem State.withMem_self (s : State) : s.withMem s.mem = s := rfl
@[simp] theorem State.withMem_dataSpace (s : State) (m : Memory) : (s.withMem m).dataSpace = s.dataSpace := rfl
@[simp] theorem State.withMem_getR (s : State) (m : Memory) (rn : Rn) : (s.withMem m).getR rn = s.getR rn := rfl

theorem State.withMem_store (s : State) (m : Memory) (fc : FC) (a : Long) (bs : List Byte) :
    (s.withMem m).store fc a bs = s.withMem ((s.withMem m).store fc a bs).mem := rfl

/-- The low `n` bytes of each register's value stored at the place of its index. -/
def storeAll (fc : FC) (n : Nat) (place : Nat → Long) (val : Rn → Long) (regs : List (Rn × Nat))
    (u : State) : State :=
  regs.foldl (fun u p => u.store fc (place p.2) (longBytes (val p.1) n)) u

theorem storeAll_cons (place : Nat → Long) (val : Rn → Long) (rn : Rn) (i : Nat) (rest : List (Rn × Nat))
    (u : State) : storeAll fc n place val ((rn, i) :: rest) u =
      storeAll fc n place val rest (u.store fc (place i) (longBytes (val rn) n)) := rfl

theorem storeAll_npc (place : Nat → Long) (val : Rn → Long) (regs : List (Rn × Nat)) (u : State) (k : Nat) :
    (storeAll fc n place val regs u).npc k = u.npc k := by
  induction regs generalizing u with
  | nil => rfl
  | cons p rest ih => exact ih _

/-- Stores within a block leave every byte outside it. -/
theorem storeAll_bytes {place : Nat → Long} (val : Rn → Long) {regs : List (Rn × Nat)} (hm : u.mem.wf = true)
    (hin : ∀ p ∈ regs, ∀ x : Long, total ≤ (x - a).toNat → n ≤ (x - place p.2).toNat) :
    sameBytesBut fc a total u (storeAll fc n place val regs u) := by
  induction regs generalizing u with
  | nil => exact fun _ _ _ => rfl
  | cons p rest ih =>
    obtain ⟨hp, hrest⟩ := List.forall_mem_cons.mp hin
    have hlen : (longBytes (val p.1) n).length = n := longBytes_length _ _
    intro fc' x hx
    have hfirst := State.sameBytesBut_store (fc := fc) (a := place p.2) (bs := longBytes (val p.1) n) hm fc' x
      (hx.imp_right fun h => hlen.symm ▸ hp x h)
    exact (ih (State.wf_store fc _ _ hm) hrest fc' x hx).trans hfirst

/-- What lies outside a block lies outside each of its operands. -/
theorem clear_of_block {c : Nat} (hc : c + n ≤ total) (h : total ≤ (x - a).toNat) :
    n ≤ (x - (a + BitVec.ofNat 32 c)).toNat := by
  have hlt := (x - a).isLt
  have hcn : (BitVec.ofNat 32 c).toNat = c := by
    rw [BitVec.toNat_ofNat]
    omega
  rw [← BitVec.sub_sub, BitVec.toNat_sub_of_le (by rw [BitVec.le_def]; omega), hcn]
  omega

/-- Operand `i` of a block counted from its end is one counted from its start. -/
theorem place_from_end (a : Long) {i len : Nat} (hi : i < len) : a - BitVec.ofNat 32 (n * (i + 1)) =
    a - BitVec.ofNat 32 (n * len) + BitVec.ofNat 32 (n * (len - 1 - i)) := by
  have hsum : n * len = n * (i + 1) + n * (len - 1 - i) := by
    rw [← Nat.mul_add]
    congr 1
    omega
  rw [hsum, BitVec.ofNat_add]
  ring

theorem storeRegs_ok (rns : List Rn) (i : Nat) (m : Memory) (hw : ∀ k, i ≤ k → k < i + rns.length →
      s.writable s.dataSpace (a + BitVec.ofNat 32 (sz.bytes * k)) sz.bytes) :
    storeRegs sz (a + BitVec.ofNat 32 (sz.bytes * i)) rns (s.withMem m) = .ok ()
      (storeAll s.dataSpace sz.bytes (fun j => a + BitVec.ofNat 32 (sz.bytes * j)) s.getR (rns.zipIdx i)
        (s.withMem m)) := by
  induction rns generalizing i m with
  | nil => rfl
  | cons rn rest ih =>
    rw [List.length_cons] at hw
    have hfirst : (s.withMem m).writable (s.withMem m).dataSpace (a + BitVec.ofNat 32 (sz.bytes * i)) sz.bytes :=
      hw i (Nat.le_refl i) (by omega)
    have hnext : a + BitVec.ofNat 32 (sz.bytes * i) + BitVec.ofNat 32 sz.bytes =
        a + BitVec.ofNat 32 (sz.bytes * (i + 1)) := by
      rw [BitVec.add_assoc, ← BitVec.ofNat_add, Nat.mul_succ]
    rw [storeRegs, M.get_bind, M.bind_ok (writeData_ok hfirst), hnext, List.zipIdx_cons, storeAll_cons,
      State.withMem_dataSpace, State.withMem_getR, State.withMem_store]
    exact ih (i + 1) _ fun k hk hlt => hw k (by omega) (by omega)

/-- What `-(An)` stores for a register: for An its initial value less the size (R204). -/
def predecValue (s : State) (r : Reg) (n : Nat) (rn : Rn) : Long :=
  if rn = ⟨true, r⟩ then s.areg r - BitVec.ofNat 32 n else s.getR rn

theorem storeRegsDown_cons (sz : Size) (r : Reg) (a : Long) (rn : Rn) (rest : List Rn) (s : State) :
    storeRegsDown sz r a (rn :: rest) s =
      ((writeData (a - BitVec.ofNat 32 sz.bytes) sz (predecValue s r sz.bytes rn)) >>= fun _ =>
        storeRegsDown sz r (a - BitVec.ofNat 32 sz.bytes) rest) s := rfl

theorem storeRegsDown_ok (r : Reg) (rns : List Rn) (i : Nat) (m : Memory)
    (hw : ∀ k, i ≤ k → k < i + rns.length →
      s.writable s.dataSpace (a - BitVec.ofNat 32 (sz.bytes * (k + 1))) sz.bytes) :
    storeRegsDown sz r (a - BitVec.ofNat 32 (sz.bytes * i)) rns (s.withMem m) =
      .ok (a - BitVec.ofNat 32 (sz.bytes * (i + rns.length)))
        (storeAll s.dataSpace sz.bytes (fun j => a - BitVec.ofNat 32 (sz.bytes * (j + 1)))
          (predecValue s r sz.bytes) (rns.zipIdx i) (s.withMem m)) := by
  induction rns generalizing i m with
  | nil => rfl
  | cons rn rest ih =>
    rw [List.length_cons] at hw
    have hfirst : (s.withMem m).writable (s.withMem m).dataSpace (a - BitVec.ofNat 32 (sz.bytes * (i + 1)))
        sz.bytes := hw i (Nat.le_refl i) (by omega)
    have hnext : a - BitVec.ofNat 32 (sz.bytes * i) - BitVec.ofNat 32 sz.bytes =
        a - BitVec.ofNat 32 (sz.bytes * (i + 1)) := by
      rw [BitVec.sub_sub, ← BitVec.ofNat_add, Nat.mul_succ]
    have hvalue : predecValue (s.withMem m) r sz.bytes rn = predecValue s r sz.bytes rn := rfl
    rw [storeRegsDown_cons, hnext, M.bind_ok (writeData_ok hfirst), List.zipIdx_cons, storeAll_cons,
      State.withMem_dataSpace, hvalue, State.withMem_store, List.length_cons, Nat.add_comm rest.length 1,
      ← Nat.add_assoc]
    exact ih (i + 1) _ fun k hk hlt => hw k (by omega) (by omega)

/-! ## MOVEM to memory -/

theorem exec_movemToMem_control (hm : inMemory ea = true) (hstep : steppedBy ea = [])
    (ha : memAddr ws.size 1 ea s = .ok a s)
    (hw : ∀ k < (maskRegs mask).length,
      s.writable s.dataSpace (a + BitVec.ofNat 32 (ws.size.bytes * k)) ws.size.bytes) :
    exec (.movemToMem ws mask ea) s = .next ((storeAll s.dataSpace ws.size.bytes
      (fun j => a + BitVec.ofNat 32 (ws.size.bytes * j)) s.getR (maskRegs mask).zipIdx s).goOn
        (s.npc (2 + ea.words))) := by
  have hbody : exec (.movemToMem ws mask ea) s = runInstr (do
      let a ← memAddr ws.size 1 ea
      storeRegs ws.size a (maskRegs mask)
      advance (2 + ea.words)) s := by
    cases ea with
    | dreg _ | areg _ | pcDisp _ | pcIndexed _ | imm _ => cases hm
    | postinc _ | predec _ => cases hstep
    | _ => rfl
  have hstore := storeRegs_ok (s := s) (a := a) (maskRegs mask) 0 s.mem fun k _ hk =>
    hw k (by omega)
  rw [Nat.mul_zero, BitVec.add_zero, State.withMem_self] at hstore
  rw [hbody]
  refine runInstr_ok ((M.bind_ok ha).trans ((M.bind_ok hstore).trans ?_))
  rw [M.advance_run, storeAll_npc]

theorem exec_movemToMem_predec {r : Reg}
    (hw : ∀ k < (maskRegsDown mask).length,
      s.writable s.dataSpace (s.areg r - BitVec.ofNat 32 (ws.size.bytes * (k + 1))) ws.size.bytes) :
    exec (.movemToMem ws mask (.predec r)) s = .next (((storeAll s.dataSpace ws.size.bytes
      (fun j => s.areg r - BitVec.ofNat 32 (ws.size.bytes * (j + 1))) (predecValue s r ws.size.bytes)
        (maskRegsDown mask).zipIdx s).setA r
          (s.areg r - BitVec.ofNat 32 (ws.size.bytes * (maskRegsDown mask).length))).goOn (s.npc 2)) := by
  have hstore := storeRegsDown_ok (s := s) (a := s.areg r) r (maskRegsDown mask) 0 s.mem fun k _ hk =>
    hw k (by omega)
  rw [Nat.mul_zero, BitVec.sub_zero, Nat.zero_add, State.withMem_self] at hstore
  refine runInstr_ok ((M.get_bind _ s).trans ((M.bind_ok hstore).trans ((M.modify_bind _ _ _).trans ?_)))
  show advance 2 _ = _
  rw [M.advance_run, State.npc_setA, storeAll_npc]

/-- Settles O29: the registers are stored one after another, upward from the address or downward from An, each within
the block. -/
theorem movemStores : Obligations.MovemStores := by
  intro s ws mask hm n file named
  constructor
  · intro ea a ha hin hstep regs hw u
    have hregs : regs = maskRegs mask := (maskRegs_eq mask).symm
    have hu : u = storeAll s.dataSpace n (fun j => a + BitVec.ofNat 32 (n * j)) s.getR regs.zipIdx s := rfl
    rw [hregs] at hu hw
    rw [hu, hregs]
    refine ⟨exec_movemToMem_control hin hstep ha hw, storeAll_bytes _ hm fun p hp x hx => ?_⟩
    have hp' : p.2 < (maskRegs mask).length := by simpa using List.snd_lt_of_mem_zipIdx hp
    exact clear_of_block (by rw [← Nat.mul_succ]; exact Nat.mul_le_mul_left n hp') hx
  · intro r regs end_ hw u
    have hregs : regs = maskRegsDown mask := (maskRegsDown_eq mask).symm
    have hu : u = storeAll s.dataSpace n (fun j => s.areg r - BitVec.ofNat 32 (n * (j + 1))) (predecValue s r n)
      regs.zipIdx s := rfl
    have hend : end_ = s.areg r - BitVec.ofNat 32 (n * regs.length) := rfl
    rw [hregs] at hu hw hend
    rw [hu, hend, hregs]
    refine ⟨exec_movemToMem_predec fun k hk => ?_, storeAll_bytes _ hm fun p hp x hx => ?_⟩
    · rw [place_from_end _ hk, ← hend]
      exact hw _ (by omega)
    · have hp' : p.2 < (maskRegsDown mask).length := by simpa using List.snd_lt_of_mem_zipIdx hp
      rw [place_from_end _ hp']
      exact clear_of_block (by rw [← Nat.mul_succ]; exact Nat.mul_le_mul_left n (by omega)) hx

/-! ## MOVEM to registers -/

/-- The registers loaded from `s`'s memory, each from the place of its index, sign-extended. -/
def loadAll (s : State) (space : FC) (sz : Size) (a : Long) (regs : List (Rn × Nat)) (u : State) : State :=
  regs.foldl (fun u p => u.setR p.1 (BitVec.ofInt 32
    (signedOf sz (bytesLong (s.load space (a + BitVec.ofNat 32 (sz.bytes * p.2)) sz.bytes))))) u

theorem loadAll_npc (s : State) (space : FC) (sz : Size) (a : Long) (regs : List (Rn × Nat)) (u : State) (k : Nat) :
    (loadAll s space sz a regs u).npc k = u.npc k := by
  induction regs generalizing u with
  | nil => rfl
  | cons p rest ih => exact (ih _).trans (u.npc_setR _ _ k)

/-- Loads leave memory and the platform, so that each reads what `s` holds. -/
theorem loadRegs_ok {space : FC} (rns : List Rn) (i : Nat) (hmem : u.mem = s.mem) (hplat : u.platform = s.platform)
    (hr : ∀ k, i ≤ k → k < i + rns.length →
      s.readable space (a + BitVec.ofNat 32 (sz.bytes * k)) sz.bytes) :
    loadRegs space sz (a + BitVec.ofNat 32 (sz.bytes * i)) rns u =
      .ok (a + BitVec.ofNat 32 (sz.bytes * (i + rns.length))) (loadAll s space sz a (rns.zipIdx i) u) := by
  induction rns generalizing i u with
  | nil => rfl
  | cons rn rest ih =>
    rw [List.length_cons] at hr
    have hfirst : u.readable space (a + BitVec.ofNat 32 (sz.bytes * i)) sz.bytes :=
      (State.readable_congr hplat _ _ _).mpr (hr i (Nat.le_refl i) (by omega))
    have hnext : a + BitVec.ofNat 32 (sz.bytes * i) + BitVec.ofNat 32 sz.bytes =
        a + BitVec.ofNat 32 (sz.bytes * (i + 1)) := by
      rw [BitVec.add_assoc, ← BitVec.ofNat_add, Nat.mul_succ]
    rw [loadRegs, M.bind_ok (readMem_ok hfirst), M.modify_bind, State.load_congr hplat hmem, sext_eq, hnext,
      List.length_cons, Nat.add_comm rest.length 1, ← Nat.add_assoc]
    exact afterMade_eq_ok.mpr (ih (i + 1) ((u.setR_mem rn _).trans hmem) ((u.setR_platform rn _).trans hplat)
      fun k hk hlt => hr k (by omega) (by omega))

theorem exec_movemToReg_control (hstep : steppedBy ea = []) (ha : memAddr ws.size 1 ea s = .ok a s)
    (hr : ∀ k < (maskRegs mask).length,
      s.readable (s.eaSpace ea) (a + BitVec.ofNat 32 (ws.size.bytes * k)) ws.size.bytes) :
    exec (.movemToReg ws mask ea) s = .next
      ((loadAll s (s.eaSpace ea) ws.size a (maskRegs mask).zipIdx s).goOn (s.npc (2 + ea.words))) := by
  have hbody : exec (.movemToReg ws mask ea) s = runInstr (do
      let a ← memAddr ws.size 1 ea
      let _ ← loadRegs (s.eaSpace ea) ws.size a (maskRegs mask)
      advance (2 + ea.words)) s := by
    cases ea with
    | dreg _ | areg _ | imm _ => cases ha
    | postinc _ | predec _ => cases hstep
    | _ => exact runInstr_congr (M.get_bind _ s)
  have hload := loadRegs_ok (s := s) (u := s) (a := a) (maskRegs mask) 0 rfl rfl fun k _ hk =>
    hr k (by omega)
  rw [Nat.mul_zero, BitVec.add_zero] at hload
  rw [hbody]
  refine runInstr_ok ((M.bind_ok ha).trans ((M.bind_ok hload).trans ?_))
  rw [M.advance_run, loadAll_npc]

theorem exec_movemToReg_postinc {r : Reg}
    (hr : ∀ k < (maskRegs mask).length,
      s.readable s.dataSpace (s.areg r + BitVec.ofNat 32 (ws.size.bytes * k)) ws.size.bytes) :
    exec (.movemToReg ws mask (.postinc r)) s = .next
      (((loadAll s s.dataSpace ws.size (s.areg r) (maskRegs mask).zipIdx s).setA r
        (s.areg r + BitVec.ofNat 32 (ws.size.bytes * (maskRegs mask).length))).goOn (s.npc 2)) := by
  have hload := loadRegs_ok (s := s) (u := s) (a := s.areg r) (maskRegs mask) 0 rfl rfl fun k _ hk =>
    hr k (by omega)
  rw [Nat.mul_zero, BitVec.add_zero, Nat.zero_add] at hload
  refine runInstr_ok ((M.get_bind _ s).trans ((M.bind_ok hload).trans ((M.modify_bind _ _ _).trans ?_)))
  show advance 2 _ = _
  rw [M.advance_run, State.npc_setA, loadAll_npc]

/-- Settles O30: the registers are loaded one after another, and An is written last. -/
theorem movemLoads : Obligations.MovemLoads := by
  intro s ws mask n file regs load
  have hregs : regs = maskRegs mask := (maskRegs_eq mask).symm
  have hload : ∀ space a, load space a = loadAll s space ws.size a regs.zipIdx s := fun _ _ => rfl
  rw [hregs] at hload
  simp only [hload, hregs]
  exact ⟨fun ea a ha hstep hr => exec_movemToReg_control hstep ha hr, fun r hr => exec_movemToReg_postinc hr⟩

end Sys2Proof.Machine
end

/-! # MOVEP (O31) -/

section
namespace Sys2Proof.Machine

variable {s : State} {ws : WL} {a v : Long} {n : Nat}

/-- The address of byte `k` of MOVEP: every second one (R205). -/
def everySecond (a : Long) (k : Nat) : Long := a + BitVec.ofNat 32 (2 * k)

theorem everySecond_zero (a : Long) : everySecond a 0 = a := BitVec.add_zero a

theorem everySecond_succ (a : Long) (k : Nat) : everySecond (a + 2) k = everySecond a (k + 1) := by
  rw [everySecond, everySecond, BitVec.add_assoc, Nat.mul_succ, Nat.add_comm (2 * k) 2, BitVec.ofNat_add]
  rfl

theorem everySecond_ne (a : Long) {k : Nat} (hk : 0 < k) (hlt : k < 8) : a ≠ everySecond a k := by
  have hne := add_ofNat_ne a (i := 0) (j := 2 * k) (by omega) (by omega) (by omega)
  rwa [BitVec.add_zero] at hne

/-! ## Storing -/

/-- The byte a step of the store writes: byte `n` of the value, counted from the lowest. -/
theorem longBytes_shifted (v : Long) (n : Nat) :
    longBytes ((v >>> (8 * n)) &&& 0xFF) 1 = [BitVec.ofNat 8 (v.toNat / 256 ^ n)] := by
  have hmask : (0xFF : Long).toNat = 2 ^ 8 - 1 := rfl
  have hbyte : ((v >>> (8 * n)) &&& 0xFF).extractLsb' (8 * 0) 8 = BitVec.ofNat 8 (v.toNat / 256 ^ n) := by
    apply BitVec.eq_of_toNat_eq
    rw [Nat.mul_zero, BitVec.extractLsb'_toNat, BitVec.toNat_and, BitVec.toNat_ushiftRight, hmask,
      Nat.and_two_pow_sub_one_eq_mod, Nat.shiftRight_zero, Nat.mod_mod, Nat.shiftRight_eq_div_pow, pow_mul,
      BitVec.toNat_ofNat]
    rfl
  rw [← hbyte]
  rfl

/-- What a store of `n` bytes at every second address from `a` has made of `s`: memory alone changed, each byte at its
place where RAM answers, the rest as before. -/
structure StoredAlternate (s : State) (a v : Long) (n : Nat) (u : State) : Prop where
  only : u = s.withMem u.mem
  bytes : ∀ k < n, s.area s.dataSpace (everySecond a k) = none →
    u.byte s.dataSpace (everySecond a k) = BitVec.ofNat 8 (v.toNat / 256 ^ (n - 1 - k))
  rest : ∀ (fc : FC) (b : Long), (∀ k < n, b ≠ everySecond a k) → u.byte fc b = s.byte fc b

theorem storeAlternate_ok (hn : n ≤ 4) (hm : s.mem.wf = true)
    (hw : ∀ k < n, s.writable s.dataSpace (everySecond a k) 1) :
    ∃ u, storeAlternate a v n s = .ok () u ∧ StoredAlternate s a v n u := by
  induction n generalizing a s with
  | zero => exact ⟨s, rfl, rfl, fun _ hk => absurd hk (Nat.not_lt_zero _), fun _ _ _ => rfl⟩
  | succ n ih =>
    have hfirst : s.writable s.dataSpace a Size.b.bytes := everySecond_zero a ▸ hw 0 (Nat.succ_pos n)
    have hstore := writeData_ok (v := (v >>> (8 * n)) &&& 0xFF) hfirst
    have hbyte : longBytes ((v >>> (8 * n)) &&& 0xFF) Size.b.bytes = [BitVec.ofNat 8 (v.toNat / 256 ^ n)] :=
      longBytes_shifted v n
    rw [hbyte] at hstore
    obtain ⟨u, hu, hdone⟩ := ih (s := s.store s.dataSpace a [BitVec.ofNat 8 (v.toNat / 256 ^ n)]) (a := a + 2)
      (by omega) (State.wf_store _ _ _ hm) fun k hk => everySecond_succ a k ▸ hw (k + 1) (Nat.succ_lt_succ hk)
    refine ⟨u, ?_, hdone.only, fun k hk harea => ?_, fun fc b hb => ?_⟩
    · rw [storeAlternate, M.bind_ok hstore]
      exact hu
    · cases k with
      | zero =>
        have hat := State.byte_store (s := s) (fc := s.dataSpace) (a := a)
          (bs := [BitVec.ofNat 8 (v.toNat / 256 ^ n)]) hm (by simp) 0 (Nat.one_pos)
        rw [BitVec.add_zero, if_pos (everySecond_zero a ▸ harea)] at hat
        rw [everySecond_zero]
        exact (hdone.rest _ _ fun k hk => everySecond_succ a k ▸ everySecond_ne a k.succ_pos (by omega)).trans hat
      | succ k =>
        have hat := hdone.bytes k (Nat.lt_of_succ_lt_succ hk) (by rw [everySecond_succ]; exact harea)
        rw [everySecond_succ] at hat
        rw [show n + 1 - 1 - (k + 1) = n - 1 - k by omega]
        exact hat
    · have hne : b ≠ a := everySecond_zero a ▸ hb 0 (Nat.succ_pos n)
      have hout : 1 ≤ (b - a).toNat := by
        have hsub : b - a ≠ 0 := fun h => hne (sub_eq_zero.mp h)
        exact Nat.one_le_iff_ne_zero.mpr fun h => hsub (BitVec.eq_of_toNat_eq h)
      rw [hdone.rest fc b fun k hk => everySecond_succ a k ▸ hb (k + 1) (Nat.succ_lt_succ hk)]
      exact State.byte_store_of_ne hm hout

/-! ## Loading -/

theorem loadAlternate_ok (xs : List Byte) (hr : ∀ k < n, s.readable s.dataSpace (everySecond a k) 1) :
    loadAlternate a (bytesLong xs) n s =
      .ok (bytesLong (xs ++ (List.range n).map fun k => s.byte s.dataSpace (everySecond a k))) s := by
  induction n generalizing a xs with
  | zero => simp [loadAlternate]
  | succ n ih =>
    have hfirst : s.readable s.dataSpace a Size.b.bytes := everySecond_zero a ▸ hr 0 (Nat.succ_pos n)
    have hbyte : bytesLong (s.load s.dataSpace a Size.b.bytes) = (s.byte s.dataSpace a).setWidth 32 :=
      BitVec.zero_or
    have hrest := ih (a := a + 2) (xs ++ [s.byte s.dataSpace a]) fun k hk =>
      everySecond_succ a k ▸ hr (k + 1) (Nat.succ_lt_succ hk)
    rw [loadAlternate, M.bind_ok (readData_ok hfirst), hbyte, ← bytesLong_snoc, hrest, List.range_succ_eq_map,
      List.map_cons, List.map_map, everySecond_zero, List.append_assoc, List.singleton_append]
    simp only [everySecond_succ, Function.comp_def, Nat.succ_eq_add_one]

/-! ## MOVEP -/

theorem bytes_le_four (ws : WL) : ws.size.bytes ≤ 4 := by cases ws <;> decide

theorem exec_movep_store {dx ay : Reg} {d16 : Word} {u : State}
    (h : storeAlternate (s.areg ay + sextWord d16) (s.dreg dx) ws.size.bytes s = .ok () u) (hu : u = s.withMem u.mem) :
    exec (.movep true ws dx ay d16) s = .next (u.goOn (s.npc 2)) := by
  refine runInstr_ok ((M.get_bind _ s).trans ((M.bind_ok h).trans ?_))
  have hnpc : u.npc 2 = s.npc 2 := State.npc_congr (congrArg State.pc hu) 2
  show advance 2 u = _
  rw [M.advance_run, hnpc]

theorem exec_movep_load {dx ay : Reg} {d16 : Word}
    (h : loadAlternate (s.areg ay + sextWord d16) 0 ws.size.bytes s = .ok v s) :
    exec (.movep false ws dx ay d16) s = .next ((s.putD ws.size dx v).goOn (s.npc 2)) :=
  runInstr_ok ((M.get_bind _ s).trans (M.bind_ok h))

/-- Settles O31: the bytes go to and come from every second address, one at a time. -/
theorem movepResult : Obligations.MovepResult := by
  intro s ws dx ay d16 hm n place
  have hplace : place = everySecond (s.areg ay + sextWord d16) := rfl
  rw [hplace]
  refine ⟨fun hw => ?_, fun hr => exec_movep_load (loadAlternate_ok [] hr)⟩
  obtain ⟨u, hu, hdone⟩ := storeAlternate_ok (v := s.dreg dx) (bytes_le_four ws) hm hw
  exact ⟨u, exec_movep_store hu hdone.only, hdone.only, hdone.bytes, hdone.rest⟩

end Sys2Proof.Machine
end

/-! # The stack: PEA, JSR, BSR, LINK, UNLK, RTS, RTR and RTD (O32) -/

section
namespace Sys2Proof.Machine

variable {s t : State} {ea : Ea} {a : Long} {an : Reg}

/-! ## The stack pointer -/

@[simp] theorem State.setSp_setSp (s : State) (v w : Long) : (s.setSp v).setSp w = s.setSp w := by
  have hs := s.sBit_setSp v
  have hm := s.mBit_setSp v
  rw [State.setSp, hs, hm]
  unfold State.setSp
  cases s.sBit <;> cases s.mBit <;> rfl

/-- What memory holds does not depend on the stack pointer. -/
theorem State.longAt_setSp (s : State) (v : Long) (fc : FC) (x : Long) : (s.setSp v).longAt fc x = s.longAt fc x :=
  congrArg bytesLong (State.load_congr (s.setSp_platform v) (s.setSp_mem v) fc x 4)

theorem State.readable_setSp (s : State) (v : Long) (fc : FC) (x : Long) (n : Nat) :
    (s.setSp v).readable fc x n ↔ s.readable fc x n := State.readable_congr (s.setSp_platform v) fc x n

/-- A pop with the stack pointer at `a` (R12). -/
theorem popLong_setSp (h : s.readable s.dataSpace a 4) :
    popLong (s.setSp a) = .ok (s.longAt s.dataSpace a) (s.setSp (a + 4)) := by
  have hpop := popLong_ok (s := s.setSp a)
  rw [State.sp_setSp, State.dataSpace_setSp, State.readable_setSp, State.longAt_setSp, State.setSp_setSp] at hpop
  exact hpop h

/-! ## PEA, JSR and BSR (R207, R352, R356) -/

theorem exec_pea (ha : memAddr .l 0 ea s = .ok a t) (hw : t.writable s.dataSpace (t.sp - 4) 4) : exec (.pea ea) s =
    .next (((t.setSp (t.sp - 4)).store s.dataSpace (t.sp - 4) (longBytes a 4)).goOn (s.npc (1 + ea.words))) := by
  rw [← memAddr_dataSpace ha] at hw ⊢
  refine runInstr_ok ((M.bind_ok ha).trans ((M.bind_ok (pushLong_ok hw)).trans ?_))
  rw [M.advance_run, State.npc_store, State.npc_setSp, memAddr_npc ha]

theorem exec_jsr (ha : memAddr .l 0 ea s = .ok a t) (hw : t.writable s.dataSpace (t.sp - 4) 4) : exec (.jsr ea) s =
    .next (((t.setSp (t.sp - 4)).store s.dataSpace (t.sp - 4) (longBytes (s.npc (1 + ea.words)) 4)).flowTo a) := by
  rw [← memAddr_dataSpace ha] at hw ⊢
  exact runInstr_ok ((M.bind_ok ha).trans (M.bind_ok (pushLong_ok hw)))

/-- A branch displacement as the signed number it is (R350). -/
theorem brValue_eq (d : BrDisp) : brValue d = BitVec.ofInt 32 (distance d) := by
  cases d with
  | byte d | word d => rfl
  | long d => exact BitVec.ofInt_toInt.symm

theorem exec_bsr (hw : s.writable s.dataSpace (s.sp - 4) 4) (d : BrDisp) : exec (.bsr d) s =
    .next (((s.setSp (s.sp - 4)).store s.dataSpace (s.sp - 4) (longBytes (s.npc (1 + d.words)) 4)).flowTo
      (s.pc + 2 + BitVec.ofInt 32 (distance d))) := by
  refine runInstr_ok ((M.bind_ok (pushLong_ok hw)).trans ?_)
  rw [branchBy, M.get_bind, M.jump_run, State.store_pc, State.setSp_pc, brValue_eq]

/-! ## LINK and UNLK (R208, R209) -/

theorem linkBody_ok (han : an ≠ 7) (hw : s.writable s.dataSpace (s.sp - 4) 4) (d : Long) :
    linkBody an d s = .ok () ((((s.setSp (s.sp - 4)).store s.dataSpace (s.sp - 4) (longBytes (s.areg an) 4)).setA an
      (s.sp - 4)).setSp (s.sp - 4 + d)) := by
  have hbody : linkBody an d s =
      (pushLong (s.areg an) >>= fun _ => modify fun u => (u.setA an u.sp).setSp (u.sp + d) : M Unit) s := by
    rw [linkBody, if_neg han]
    rfl
  rw [hbody, M.bind_ok (pushLong_ok hw), M.modify_run, State.sp_store, State.sp_setSp]

theorem exec_linkW (han : an ≠ 7) (hw : s.writable s.dataSpace (s.sp - 4) 4) (d : Word) : exec (.linkW an d) s =
    .next (((((s.setSp (s.sp - 4)).store s.dataSpace (s.sp - 4) (longBytes (s.areg an) 4)).setA an (s.sp - 4)).setSp
      (s.sp - 4 + BitVec.ofInt 32 d.toInt)).goOn (s.npc 2)) := by
  refine runInstr_ok ((M.bind_ok (linkBody_ok han hw (sextWord d))).trans ?_)
  rw [M.advance_run, State.npc_setSp, State.npc_setA, State.npc_store, State.npc_setSp]
  rfl

theorem exec_linkL (han : an ≠ 7) (hw : s.writable s.dataSpace (s.sp - 4) 4) (d : Long) : exec (.linkL an d) s =
    .next (((((s.setSp (s.sp - 4)).store s.dataSpace (s.sp - 4) (longBytes (s.areg an) 4)).setA an (s.sp - 4)).setSp
      (s.sp - 4 + d)).goOn (s.npc 3)) := by
  refine runInstr_ok ((M.bind_ok (linkBody_ok han hw d)).trans ?_)
  rw [M.advance_run, State.npc_setSp, State.npc_setA, State.npc_store, State.npc_setSp]

theorem exec_unlk (han : an ≠ 7) (hr : s.readable s.dataSpace (s.areg an) 4) : exec (.unlk an) s =
    .next (((s.setSp (s.areg an + 4)).setA an (s.longAt s.dataSpace (s.areg an))).goOn (s.npc 1)) := by
  have hbody : exec (.unlk an) s = runInstr (do
      modify fun t => t.setSp (t.areg an)
      let v ← popLong
      modify fun t => t.setA an v
      advance 1) s := by
    show execUnlk an s = _
    rw [execUnlk, if_neg han]
  rw [hbody]
  refine runInstr_ok ((M.modify_bind _ _ _).trans ((M.bind_ok (popLong_setSp hr)).trans
    ((M.modify_bind _ _ _).trans ?_)))
  rw [M.advance_run, State.npc_setA, State.npc_setSp]

/-! ## RTS, RTD and RTR (R357 to R359) -/

theorem exec_rts (hr : s.readable s.dataSpace s.sp 4) :
    exec .rts s = .next ((s.setSp (s.sp + 4)).flowTo (s.longAt s.dataSpace s.sp)) :=
  runInstr_ok (M.bind_ok (popLong_ok hr))

theorem exec_rtd (hr : s.readable s.dataSpace s.sp 4) (d : Word) : exec (.rtd d) s =
    .next ((s.setSp (s.sp + 4 + BitVec.ofInt 32 d.toInt)).flowTo (s.longAt s.dataSpace s.sp)) := by
  refine runInstr_ok ((M.bind_ok (popLong_ok hr)).trans ((M.modify_bind _ _ _).trans ?_))
  rw [M.jump_run, State.sp_setSp, State.setSp_setSp]
  rfl

theorem exec_rtr (hw : s.readable s.dataSpace s.sp 2) (hl : s.readable s.dataSpace (s.sp + 2) 4) : exec .rtr s =
    .next (((s.setCc (CC.ofBits ((s.wordAt s.dataSpace s.sp).setWidth 16))).setSp (s.sp + 6)).flowTo
      (s.longAt s.dataSpace (s.sp + 2))) := by
  have hpop := popLong_setSp (s := s.setCc (CC.ofBits ((s.wordAt s.dataSpace s.sp).setWidth 16))) (a := s.sp + 2)
  rw [State.dataSpace_setCc] at hpop
  refine runInstr_ok ((M.bind_ok (readData_ok (sz := .w) hw)).trans ((M.modify_bind _ _ _).trans
    ((M.modify_bind _ _ _).trans ?_)))
  rw [State.sp_setCc]
  refine (M.bind_ok (hpop hl)).trans ?_
  rw [M.jump_run, BitVec.add_assoc]
  rfl

/-- Settles O32: each instruction is a push or a pop with what it does before and after it,
and LINK and UNLK with A7 evaluate to their refusals. -/
theorem stackResults : Obligations.StackResults := by
  intro s sd f
  exact ⟨fun ea a t ha hw => ⟨exec_pea ha hw, exec_jsr ha hw⟩, fun hw => ⟨exec_bsr hw, fun an d han =>
    exec_linkW han hw d, fun an d han => exec_linkL han hw d⟩, fun an han hr => exec_unlk han hr, fun _ => rfl,
    fun _ => rfl, rfl, fun hr => ⟨exec_rts hr, exec_rtd hr⟩, exec_rtr⟩

end Sys2Proof.Machine
end

/-! # ADD, SUB, the comparisons and TST on a register (O33) -/

section
namespace Sys2Proof.Machine

variable {s t u : State} {sz : Size} {own : Nat} {ea : Ea} {dn ax ay : Reg} {v d : Long}

/-- An ALU operation is an exact computation on operands of its size (R230). -/
def ExactOp (op exact : AluOp) : Prop :=
  ∀ (sz : Size) (v d : Long) (x : Bool), v.toNat < 2 ^ sz.bits → d.toNat < 2 ^ sz.bits →
    op sz v d x = exact sz v d x

theorem addAlu_exactOp : ExactOp addAlu exactAdd := addAlu_exact

theorem subAlu_exactOp : ExactOp subAlu exactSub := subAlu_exact

/-- ADD and SUB to a register (R231, R249). -/
theorem runInstr_aluToReg {op exact : AluOp} (hop : ExactOp op exact) (h : readEa sz 0 ea s = .ok v t) :
    let o := exact sz v (trunc sz (t.dreg dn)) false
    runInstr (aluToReg op sz ea dn) s =
      .next (((t.putD sz dn o.r).setCc (sumCc sz o)).goOn (s.npc (1 + ea.words))) := by
  intro o
  have hexact : op sz v (trunc sz (t.dreg dn)) false = o := hop sz v _ false (readEa_lt h) (trunc_lt sz _)
  rw [← arithCc_eq sz o t.cc, ← hexact]
  exact runInstr_readEa_modify (g := fun v t =>
    (t.putD sz dn (op sz v (trunc sz (t.dreg dn)) false).r).setCc
      (arithCc sz (op sz v (trunc sz (t.dreg dn)) false) t.cc)) h rfl

/-- Flags of a comparison from its exact difference (R237). -/
theorem compareCc_subAlu (old : CC) (hv : v.toNat < 2 ^ sz.bits) (hd : d.toNat < 2 ^ sz.bits) :
    compareCc sz (subAlu sz v d false) old = cmpCc sz (exactSub sz v d false) old := by
  rw [subAlu_exact sz v d false hv hd, compareCc_eq]

theorem exec_cmp (h : readEa sz 0 ea s = .ok v t) : exec (.cmp sz ea dn) s =
    .next ((t.setCc (cmpCc sz (exactSub sz v (trunc sz (t.dreg dn)) false) t.cc)).goOn (s.npc (1 + ea.words))) := by
  rw [← compareCc_subAlu t.cc (readEa_lt h) (trunc_lt sz _)]
  exact runInstr_readEa_modify
    (g := fun v t => t.setCc (compareCc sz (subAlu sz v (trunc sz (t.dreg dn)) false) t.cc)) h rfl

/-- Reading an operand for its flags. -/
theorem testEa_ok (h : readEa sz own ea s = .ok v t) (f : Long → CC → CC) :
    testEa sz own ea f s = .ok () (t.setCc (f v t.cc)) := M.bind_ok h

theorem runInstr_testEa {k : Nat} (h : readEa sz own ea s = .ok v t) (f : Long → CC → CC) :
    runInstr (do testEa sz own ea f; advance k) s = .next ((t.setCc (f v t.cc)).goOn (s.npc k)) := by
  refine runInstr_ok ((M.bind_ok (testEa_ok h f)).trans ?_)
  rw [M.advance_run, State.npc_setCc, readEa_npc h]

theorem exec_tst (h : readEa sz 0 ea s = .ok v t) :
    exec (.tst sz ea) s = .next ((t.setCc (valueCc sz v t.cc)).goOn (s.npc (1 + ea.words))) := by
  rw [← logicCc_eq]
  exact runInstr_testEa h fun v cc => logicCc sz v cc

theorem exec_cmpi {x : Imm} (h : readEa sz x.words ea s = .ok d t) : exec (.cmpi sz x ea) s =
    .next ((t.setCc (cmpCc sz (exactSub sz (immValue sz x) d false) t.cc)).goOn
      (s.npc (1 + x.words + ea.words))) := by
  rw [← compareCc_subAlu t.cc (immValue_lt sz x) (readEa_lt h)]
  exact runInstr_testEa h fun d cc => compareCc sz (subAlu sz (immValue sz x) d false) cc

/-- CMPM reads one operand after the other (R240). -/
theorem exec_cmpm (hv : readEa sz 0 (.postinc ay) s = .ok v t) (hd : readEa sz 0 (.postinc ax) t = .ok d u) :
    exec (.cmpm sz ay ax) s = .next ((u.setCc (cmpCc sz (exactSub sz v d false) u.cc)).goOn (s.npc 1)) := by
  rw [← compareCc_subAlu u.cc (readEa_lt hv) (readEa_lt hd)]
  have htest := checkpoint_eq_ok.mpr (testEa_ok hd fun d cc => compareCc sz (subAlu sz v d false) cc)
  refine runInstr_ok ((M.bind_ok hv).trans ((M.bind_ok htest).trans ?_))
  rw [M.advance_run, State.npc_setCc, readEa_npc hd, readEa_npc hv]

/-- Settles O33: each instruction is one operand read (CMPM two) and one update by the exact sum or difference. -/
theorem arithToRegister : Obligations.ArithToRegister := by
  intro s t u sz ea dn v d x
  exact ⟨fun h => ⟨runInstr_aluToReg addAlu_exactOp h, runInstr_aluToReg subAlu_exactOp h, exec_cmp h,
    exec_tst h⟩, exec_cmpi, fun _ _ hv hd => exec_cmpm hv hd⟩

end Sys2Proof.Machine
end

/-! # ADD, SUB and NEG on an operand changed in place (O34) -/

section
namespace Sys2Proof.Machine

variable {s u : State} {sz : Size} {ea : Ea} {dn data : Reg} {op exact : AluOp} {v : Long}

/-- The change an exact operation makes to an operand, with the flags of ADD and SUB. -/
def exactChange (exact : AluOp) (sz : Size) (v d : Long) (_ : CC) : Long × CC :=
  ((exact sz v d false).r, sumCc sz (exact sz v d false))

theorem exactChange_eq (hop : ExactOp op exact) (hv : v.toNat < 2 ^ sz.bits) (d : Long) (cc : CC)
    (hd : d.toNat < 2 ^ sz.bits) :
    exactChange exact sz v d cc = ((op sz v d false).r, arithCc sz (op sz v d false) cc) := by
  rw [exactChange, hop sz v d false hv hd, arithCc_eq]

theorem runInstr_aluToEa (hop : ExactOp op exact)
    (h : Changes sz 0 ea (exactChange exact sz (trunc sz (s.dreg dn))) s u) :
    runInstr (aluToEa op sz dn ea) s = .next (u.goOn (s.npc (1 + ea.words))) :=
  (runInstr_congr (M.get_bind _ s)).trans (runInstr_modifyEa h (exactChange_eq hop (trunc_lt sz _)))

theorem runInstr_aluImm {x : Imm} (hop : ExactOp op exact)
    (h : Changes sz x.words ea (exactChange exact sz (immValue sz x)) s u) :
    runInstr (aluImm op sz x ea) s = .next (u.goOn (s.npc (1 + x.words + ea.words))) :=
  runInstr_modifyEa h (exactChange_eq hop (immValue_lt sz x))

theorem quickValue_lt (sz : Size) (data : Reg) : (quickValue data).toNat < 2 ^ sz.bits := by
  have h8 : (quickValue data).toNat ≤ 8 := by revert data; decide
  have hbits : 8 < 2 ^ sz.bits := by cases sz <;> decide
  omega

/-- ADDQ and SUBQ on a data alterable operand (R234, R252). -/
theorem runInstr_aluQuick (hop : ExactOp op exact) (f : Long → Long → Long)
    (h : Changes sz 0 ea (exactChange exact sz (BitVec.ofNat 32 (if data = 0 then 8 else data.val))) s u) :
    runInstr (aluQuick op f sz data ea) s = .next (u.goOn (s.npc (1 + ea.words))) := by
  rw [← quickValue_eq] at h
  have hchange := runInstr_modifyEa (k := 1 + ea.words) h (exactChange_eq hop (quickValue_lt sz data))
  cases ea with
  | areg _ =>
    obtain ⟨_, hea, -⟩ | ⟨hin, -⟩ := h
    · cases hea
    · cases hin
  | _ => exact hchange

theorem exec_neg (h : Changes sz 0 ea (fun d _ => ((exactSub sz d 0 false).r, sumCc sz (exactSub sz d 0 false))) s u) :
    exec (.neg sz ea) s = .next (u.goOn (s.npc (1 + ea.words))) :=
  runInstr_modifyEa h fun d cc hd => by
    show _ = ((negAlu sz d).r, arithCc sz (negAlu sz d) cc)
    rw [negAlu_exact sz d hd, arithCc_eq]

/-- Settles O34: each instruction is one change of its operand by an exact sum or difference. -/
theorem arithInPlace : Obligations.ArithInPlace := by
  intro s u sz ea dn data x add sub q
  exact ⟨runInstr_aluToEa addAlu_exactOp, runInstr_aluToEa subAlu_exactOp, runInstr_aluImm addAlu_exactOp,
    runInstr_aluImm subAlu_exactOp, runInstr_aluQuick addAlu_exactOp _, runInstr_aluQuick subAlu_exactOp _, exec_neg⟩

end Sys2Proof.Machine
end

/-! # ADDX, SUBX and NEGX (O35) -/

section
namespace Sys2Proof.Machine

variable {s t u : State} {sz : Size} {ea : Ea} {rx ry : Reg} {op exact : AluOp} {v : Long}

/-- The change an exact operation with X makes to an operand: Z is only cleared. -/
def extendChange (exact : AluOp) (sz : Size) (v d : Long) (cc : CC) : Long × CC :=
  ((exact sz v d cc.x).r, stickyCc sz (exact sz v d cc.x) cc)

theorem extendChange_eq (hop : ExactOp op exact) (hv : v.toNat < 2 ^ sz.bits) (d : Long) (cc : CC)
    (hd : d.toNat < 2 ^ sz.bits) :
    extendChange exact sz v d cc = ((op sz v d cc.x).r, extendCc sz (op sz v d cc.x) cc) := by
  rw [extendChange, hop sz v d cc.x hv hd, extendCc_eq]

theorem runInstr_aluExtend_reg (hop : ExactOp op exact)
    (h : Changes sz 0 (.dreg rx) (extendChange exact sz (trunc sz (s.dreg ry))) s u) :
    runInstr (aluExtend op sz false ry rx) s = .next (u.goOn (s.npc 1)) :=
  runInstr_modifyEa h (extendChange_eq hop (trunc_lt sz _))

/-- The memory forms step and read the source before the destination (R235). -/
theorem runInstr_aluExtend_mem (hop : ExactOp op exact) (hv : readEa sz 0 (.predec ry) s = .ok v t)
    (h : Changes sz 0 (.predec rx) (extendChange exact sz v) t u) :
    runInstr (aluExtend op sz true ry rx) s = .next (u.goOn (s.npc 1)) := by
  have hchange := checkpoint_eq_ok.mpr (modifyEa_ok (h.congr (extendChange_eq hop (readEa_lt hv))))
  refine runInstr_ok ((M.bind_ok hv).trans ((M.bind_ok hchange).trans ?_))
  show advance 1 u = _
  rw [M.advance_run, h.npc, readEa_npc hv]

theorem exec_negx (h : Changes sz 0 ea (fun d cc => extendChange exactSub sz d 0 cc) s u) :
    exec (.negx sz ea) s = .next (u.goOn (s.npc (1 + ea.words))) :=
  runInstr_modifyEa h fun d cc hd => by
    show _ = ((negxAlu sz d cc.x).r, extendCc sz (negxAlu sz d cc.x) cc)
    rw [negxAlu_exact sz d cc.x hd, extendCc_eq, extendChange]

/-- Settles O35: as in place, with X taken in and the flags of `extendCc_eq`; the memory forms read first. -/
theorem extendedArith : Obligations.ExtendedArith := by
  intro s t u sz ry rx ea v add sub
  exact ⟨runInstr_aluExtend_reg addAlu_exactOp, runInstr_aluExtend_reg subAlu_exactOp,
    runInstr_aluExtend_mem addAlu_exactOp, runInstr_aluExtend_mem subAlu_exactOp, exec_negx⟩

end Sys2Proof.Machine
end

/-! # CLR, Scc, MOVE from SR and MOVE from CCR (O37) -/

section
namespace Sys2Proof.Machine

variable {s u : State} {sz : Size} {own k : Nat} {ea : Ea} {v : Long}

/-- An instruction that only writes its operand and goes on. -/
theorem runInstr_writeEa (h : writeEa sz own ea v s = .ok () u) :
    runInstr (do writeEa sz own ea v; advance k) s = .next (u.goOn (s.npc k)) := by
  obtain ⟨-, hpc⟩ := writeEa_sr_pc h
  refine runInstr_ok ((M.bind_ok h).trans ?_)
  rw [M.advance_run, State.npc_congr hpc]

theorem valueCc_zero (sz : Size) (old : CC) : valueCc sz 0 old = ⟨old.x, false, true, false, false⟩ := by
  cases sz <;> rfl

/-- CLR sets the flags before its write (R236). -/
theorem exec_clr (h : writeEa sz 0 ea 0 (s.setCc ⟨s.cc.x, false, true, false, false⟩) = .ok () u) :
    exec (.clr sz ea) s = .next (u.goOn (s.npc (1 + ea.words))) := by
  rw [← valueCc_zero sz, ← logicCc_eq] at h
  obtain ⟨-, hpc⟩ := writeEa_sr_pc h
  refine runInstr_ok ((M.modify_bind _ _ s).trans ((M.bind_ok h).trans ?_))
  rw [M.advance_run, State.npc_congr hpc, State.npc_setCc]

theorem exec_moveFromSr (hs : s.sBit = true) (h : writeEa .w 0 ea (BitVec.ofNat 32 s.sr.toNat) s = .ok () u) :
    exec (.moveFromSr ea) s = .next (u.goOn (s.npc (1 + ea.words))) := by
  rw [BitVec.ofNat_toNat] at h
  exact (runInstr_congr (privileged_super hs)).trans (runInstr_writeEa h)

/-- The five flags of a word, zero-extended (R400). -/
theorem low_flags (w : Word) : (w &&& 0x001F).setWidth 32 = BitVec.ofNat 32 (w.toNat % 32) := by
  rw [← BitVec.ofNat_toNat, BitVec.toNat_and]
  exact congrArg (BitVec.ofNat 32) (Nat.and_two_pow_sub_one_eq_mod w.toNat 5)

theorem exec_moveFromCcr (h : writeEa .w 0 ea (BitVec.ofNat 32 (s.sr.toNat % 32)) s = .ok () u) :
    exec (.moveFromCcr ea) s = .next (u.goOn (s.npc (1 + ea.words))) := by
  rw [← low_flags] at h
  exact runInstr_writeEa h

/-- Settles O37: each instruction is one write of its operand, which leaves the PC. -/
theorem writesOnly : Obligations.WritesOnly := by
  intro s u sz ea c
  exact ⟨exec_clr, runInstr_writeEa, exec_moveFromSr, exec_moveFromCcr⟩

end Sys2Proof.Machine
end

/-! # Operands as integers, and the branches of a body -/

section
namespace Sys2Proof.Machine

variable {sg : Bool} {sz : Size} {bits : Nat} {i n d q r : Int} {v : Long}

theorem fits_iff_inRange : fits sg bits i = true ↔ inRange sg bits i := by
  cases sg <;> simp [fits, inRange]

theorem intOf_eq_numberOf (sg : Bool) (v : Long) : intOf sg v = numberOf sg .l v := by
  simp only [intOf, numberOf, signedOf, sext]

/-- The operand of an instruction with a word source, as a long word. -/
theorem intOf_extended_word (sg : Bool) (v : Long) : intOf sg (if sg then sext .w v else v) = numberOf sg .w v := by
  cases sg
  · exact (if_neg Bool.false_ne_true).trans (if_neg Bool.false_ne_true).symm
  · rfl

theorem ofInt_intOf (sg : Bool) (v : Long) : BitVec.ofInt 32 (intOf sg v) = v := by
  cases sg
  · exact (BitVec.ofInt_natCast 32 _).trans (BitVec.ofNat_toNat 32 v)
  · exact BitVec.ofInt_toInt

theorem intOf_eq_zero : intOf sg v = 0 ↔ v = 0 := by
  refine ⟨fun h => ?_, fun h => ?_⟩
  · rw [← ofInt_intOf sg v, h]
    rfl
  · rw [h]
    cases sg <;> rfl

theorem ofInt_toNat_emod (n : Nat) (i : Int) : ((BitVec.ofInt n i).toNat : Int) = i % 2 ^ n := by
  rw [BitVec.toNat_ofInt, Int.toNat_of_nonneg (Int.emod_nonneg _ (by positivity)), Nat.cast_pow]
  rfl

theorem abs_intOf_lt (sg : Bool) (v : Long) : |intOf sg v| < 2 ^ 32 := by
  have hv := v.isLt
  rw [abs_lt]
  cases sg
  · simp only [intOf, Bool.false_eq_true, if_false]
    omega
  · simp only [intOf, if_true, BitVec.toInt_eq_toNat_cond]
    split <;> omega

/-- Quotient and remainder of R230 are those of truncating division. -/
theorem Divides.tdiv_tmod (h : Divides n d q r) (hd : d ≠ 0) : Int.tdiv n d = q ∧ Int.tmod n d = r := by
  obtain ⟨hn, hlt, hsign⟩ := h
  rw [Int.abs_eq_natAbs d, abs_lt] at hlt
  have hsum : r + d * q = n := by rw [hn]; ring
  rcases le_total 0 n with h0 | h0
  · have hr : 0 ≤ r := by
      rcases hsign with hr | hr
      · exact hr.ge
      · exact (pos_of_mul_pos_left hr h0).le
    exact (Int.tdiv_tmod_unique h0 hd).mpr ⟨hsum, hr, hlt.2⟩
  · have hr : r ≤ 0 := by
      rcases hsign with hr | hr
      · exact hr.le
      · exact not_lt.mp fun hpos => absurd hr (mul_nonpos_of_nonneg_of_nonpos hpos.le h0).not_gt
    exact (Int.tdiv_tmod_unique' h0 hd).mpr ⟨hsum, hlt.1, hr⟩

/-! ## Branches -/

theorem M.ite_pos {α : Type} {c : Prop} [Decidable c] {x y : M α} (h : c) (s : State) :
    (if c then x else y : M α) s = x s := by
  rw [if_pos h]

theorem M.ite_neg {α : Type} {c : Prop} [Decidable c] {x y : M α} (h : ¬ c) (s : State) :
    (if c then x else y : M α) s = y s := by
  rw [if_neg h]

end Sys2Proof.Machine
end

/-! # MULU and MULS (O41) -/

section
namespace Sys2Proof.Machine

variable {s t : State} {ea : Ea} {dl dh : Reg} {v : Long} {sg : Bool} {p : Int}

/-- The word product is the exact one (R245). -/
theorem wordProduct_eq (sg : Bool) (d v : Long) : (if sg then sext .w d * sext .w v else d * v) =
    BitVec.ofInt 32 (numberOf sg .w d * numberOf sg .w v) := by
  rw [BitVec.ofInt_mul, ← intOf_extended_word, ← intOf_extended_word, ofInt_intOf, ofInt_intOf]
  cases sg <;> rfl

theorem runInstr_mulWord (h : readEa .w 0 ea s = .ok v t) :
    let p := BitVec.ofInt 32 (numberOf sg .w (trunc .w (t.dreg dl)) * numberOf sg .w v)
    runInstr (mulWord sg ea dl) s = .next (((t.setD dl p).setCc (valueCc .l p t.cc)).goOn (s.npc (1 + ea.words))) := by
  intro p
  have hp : (if sg then sext .w (trunc .w (t.dreg dl)) * sext .w v else trunc .w (t.dreg dl) * v) = p :=
    wordProduct_eq sg _ v
  rw [← logicCc_eq, ← hp]
  exact runInstr_readEa_modify (g := fun v t =>
    let r := if sg then sext .w (trunc .w (t.dreg dl)) * sext .w v else trunc .w (t.dreg dl) * v
    (t.setD dl r).setCc (logicCc .l r t.cc)) h rfl

/-! ## The 64-bit product and its halves -/

theorem ofInt64_low (p : Int) : (BitVec.ofInt 64 p).setWidth 32 = BitVec.ofInt 32 p := by
  have h64 := ofInt_toNat_emod 64 p
  have h32 := ofInt_toNat_emod 32 p
  apply BitVec.eq_of_toNat_eq
  rw [BitVec.toNat_setWidth]
  omega

theorem ofInt64_high (p : Int) : (BitVec.ofInt 64 p).extractLsb' 32 32 = BitVec.ofInt 32 (p / 2 ^ 32) := by
  have h64 := ofInt_toNat_emod 64 p
  have h32 := ofInt_toNat_emod 32 (p / 2 ^ 32)
  apply BitVec.eq_of_toNat_eq
  rw [BitVec.extractLsb'_toNat, Nat.shiftRight_eq_div_pow]
  omega

theorem ofInt64_sign (p : Int) : (BitVec.ofInt 64 p).getLsbD 63 = decide (2 ^ 63 ≤ p % 2 ^ 64) := by
  have h64 := ofInt_toNat_emod 64 p
  have hmsb : (BitVec.ofInt 64 p).getLsbD 63 = (BitVec.ofInt 64 p).msb := rfl
  rw [hmsb, BitVec.msb_eq_decide, decide_eq_decide]
  omega

theorem ofInt64_eq_zero (h : |p| < 2 ^ 64) : (BitVec.ofInt 64 p == 0) = decide (p = 0) := by
  have h64 := ofInt_toNat_emod 64 p
  rw [beq_eq_decide, decide_eq_decide, ← BitVec.toNat_inj]
  rw [abs_lt] at h
  show (BitVec.ofInt 64 p).toNat = 0 ↔ _
  omega

theorem abs_mul_intOf_lt (sg : Bool) (d v : Long) : |intOf sg d * intOf sg v| < 2 ^ 64 := by
  rw [abs_mul]
  exact mul_lt_mul'' (abs_intOf_lt sg d) (abs_intOf_lt sg v) (abs_nonneg _) (abs_nonneg _)

/-! ## The long forms (R246) -/

/-- The flags of a 64-bit product `p`. -/
def longProductCc (p : Int) (old : CC) : CC :=
  ⟨old.x, decide (2 ^ 63 ≤ p % 2 ^ 64), decide (p = 0), false, false⟩

theorem longProductCc_eq (sg : Bool) (d v : Long) (old : CC) :
    (⟨old.x, (product sg d v).getLsbD 63, product sg d v == 0, false, false⟩ : CC) =
      longProductCc (intOf sg d * intOf sg v) old := by
  rw [product, ofInt64_sign, ofInt64_eq_zero (abs_mul_intOf_lt sg d v), longProductCc]

theorem exec_mulL_long (h : readEa .l 1 ea s = .ok v t) (hp : intOf sg (t.dreg dl) * intOf sg v = p) {o : Bool}
    (ho : o = true ↔ ¬ inRange sg 32 p) : exec (.mulL ea dl sg false dh) s =
      .next (((t.setD dl (BitVec.ofInt 32 p)).setCc ⟨t.cc.x, decide (signedOf .l (BitVec.ofInt 32 p) < 0),
        decide (BitVec.ofInt 32 p = 0), o, false⟩).goOn (s.npc (2 + ea.words))) := by
  have hov : (!fits sg 32 p) = o := by
    rw [Bool.eq_iff_iff, ho, ← fits_iff_inRange]
    cases fits sg 32 p <;> decide
  have hlow : (product sg (t.dreg dl) v).setWidth 32 = BitVec.ofInt 32 p := by rw [product, ofInt64_low, hp]
  rw [← hov, ← hlow, ← msb_signedOf, ← beq_eq_decide, ← hp, ← readEa_npc h]
  exact runInstr_ok (M.bind_ok h)

theorem exec_mulL_wide (h : readEa .l 1 ea s = .ok v t) (hp : intOf sg (t.dreg dl) * intOf sg v = p) (hne : dh ≠ dl) :
    exec (.mulL ea dl sg true dh) s = .next ((((t.setCc (longProductCc p t.cc)).setD dh
      (BitVec.ofInt 32 (p / 2 ^ 32))).setD dl (BitVec.ofInt 32 p)).goOn (s.npc (2 + ea.words))) := by
  have hprod : product sg (t.dreg dl) v = BitVec.ofInt 64 p := by rw [product, hp]
  rw [← ofInt64_high, ← ofInt64_low p, ← hprod, ← hp, ← longProductCc_eq, ← readEa_npc h]
  exact runInstr_ok ((M.bind_ok h).trans ((M.get_bind _ t).trans ((M.ite_pos rfl t).trans
    ((M.set_bind _ _ t).trans (M.ite_neg hne _)))))

/-- With one register for both halves its value is free (93 U25). -/
theorem exec_mulL_free (h : readEa .l 1 ea s = .ok v t) (hp : intOf sg (t.dreg dl) * intOf sg v = p) :
    ∃ x, exec (.mulL ea dl sg true dl) s = .next ((((t.setCc (longProductCc p t.cc)).used 1).setD dl x).goOn
      (s.npc (2 + ea.words))) := by
  refine ⟨Config.freeLong t.draws, ?_⟩
  rw [← hp, ← longProductCc_eq, ← readEa_npc h]
  exact runInstr_ok ((M.bind_ok h).trans ((M.get_bind _ t).trans ((M.ite_pos rfl t).trans
    ((M.set_bind _ _ t).trans (M.ite_pos rfl _)))))

/-- Settles O41: the products are exact because operands are the integers they stand for, modulo a power of two. -/
theorem products : Obligations.Products := by
  intro s t ea dn dh v sg
  constructor
  · intro h p
    have hexec : exec (if sg then .mulsW ea dn else .muluW ea dn) s = runInstr (mulWord sg ea dn) s := by
      cases sg <;> rfl
    rw [hexec, runInstr_mulWord h]
  · intro h p lo out
    have hp : intOf sg (t.dreg dn) * intOf sg v = p := by rw [intOf_eq_numberOf, intOf_eq_numberOf]
    refine ⟨fun o ho => exec_mulL_long h hp ho, exec_mulL_wide h hp, ?_⟩
    rintro rfl
    exact exec_mulL_free h hp

end Sys2Proof.Machine
end

/-! # DIVU and DIVS (O39, O40) -/

section
namespace Sys2Proof.Machine

variable {s t : State} {ea : Ea} {dq dr : Reg} {v : Long} {sg wide : Bool} {k : Nat} {n d q r : Int}

/-! ## The outcomes of a division -/

/-- A zero divisor raises vector 5 with C clear and N, Z, V free (R242, R535). -/
theorem zeroDivide_raises (k : Nat) (t : State) : ∃ n z o, zeroDivide k t =
    .error (.raised ⟨5, t.npc k, .six t.pc, .trapped⟩) ((t.used 1).setCc ⟨t.cc.x, n, z, o, false⟩) :=
  ⟨_, _, _, rfl⟩

/-- Overflow sets V and clears C; N and Z are free (R242). -/
theorem divOverflow_ok (t : State) : ∃ n z, divOverflow t =
    .ok () ((t.used 1).setCc ⟨t.cc.x, n, z, true, false⟩) :=
  ⟨_, _, rfl⟩

/-- A body that reads an operand and finds it a zero divisor. -/
theorem runInstr_zeroDivide {sz : Size} {own : Nat} {f : Long → M Unit} (h : readEa sz own ea s = .ok v t)
    (hf : f v t = zeroDivide k t) : ∃ n z o, runInstr (readEa sz own ea >>= f) s =
      .next (((t.used 1).setCc ⟨t.cc.x, n, z, o, false⟩).takeException ⟨5, s.npc k, .six s.pc, .trapped⟩) := by
  obtain ⟨-, -, -, -, hpc⟩ := readEa_frame h
  obtain ⟨n, z, o, htrap⟩ := zeroDivide_raises k t
  rw [readEa_npc h, hpc] at htrap
  exact ⟨n, z, o, runInstr_raised ((M.bind_ok h).trans (hf.trans htrap))⟩

/-- A body that reads an operand and finds that the quotient does not fit. -/
theorem runInstr_divOverflow {sz : Size} {own : Nat} {f : Long → M Unit} (h : readEa sz own ea s = .ok v t)
    (hf : f v t = (divOverflow >>= fun _ => advance k) t) : ∃ n z, runInstr (readEa sz own ea >>= f) s =
      .next (((t.used 1).setCc ⟨t.cc.x, n, z, true, false⟩).goOn (s.npc k)) := by
  obtain ⟨n, z, hover⟩ := divOverflow_ok t
  refine ⟨n, z, runInstr_ok ((M.bind_ok h).trans (hf.trans ((M.bind_ok hover).trans ?_)))⟩
  rw [M.advance_run, State.npc_setCc, State.npc_used, readEa_npc h]

/-! ## The word forms (R242) -/

/-- DIVS.W or DIVU.W. -/
theorem exec_divWord (sg : Bool) (ea : Ea) (dn : Reg) (s : State) :
    exec (if sg then .divsW ea dn else .divuW ea dn) s = runInstr (divWord sg ea dn) s := by
  cases sg <;> rfl

theorem extended_word_eq_zero : (if sg then sext .w v else v) = 0 ↔ numberOf sg .w v = 0 := by
  rw [← intOf_extended_word, intOf_eq_zero]

/-- The word quotient as R242 keeps it. -/
theorem trunc_word_ofInt (q : Int) : trunc .w (BitVec.ofInt 32 q) = BitVec.ofInt 32 (q % 65536) := by
  have hq := ofInt_toNat_emod 32 q
  have hw := ofInt_toNat_emod 32 (q % 65536)
  apply BitVec.eq_of_toNat_eq
  rw [trunc_toNat]
  simp only [Size.bits]
  omega

/-- The quotient the model computes is the one that `Divides` names. -/
theorem wordQuotient (hd : numberOf sg .w v ≠ 0)
    (h : Divides (numberOf sg .l (t.dreg dq)) (numberOf sg .w v) q r) :
    Int.tdiv (intOf sg (t.dreg dq)) (intOf sg (if sg then sext .w v else v)) = q ∧
      Int.tmod (intOf sg (t.dreg dq)) (intOf sg (if sg then sext .w v else v)) = r := by
  rw [intOf_eq_numberOf, intOf_extended_word]
  exact h.tdiv_tmod hd

theorem divWord_zero (h : readEa .w 0 ea s = .ok v t) (hd : numberOf sg .w v = 0) : ∃ n z o,
    runInstr (divWord sg ea dq) s = .next (((t.used 1).setCc ⟨t.cc.x, n, z, o, false⟩).takeException
      ⟨5, s.npc (1 + ea.words), .six s.pc, .trapped⟩) :=
  runInstr_zeroDivide h (M.ite_pos (extended_word_eq_zero.mpr hd) t)

theorem divWord_fits (h : readEa .w 0 ea s = .ok v t) (hd : numberOf sg .w v ≠ 0)
    (hdiv : Divides (numberOf sg .l (t.dreg dq)) (numberOf sg .w v) q r) (hq : inRange sg 16 q) :
    runInstr (divWord sg ea dq) s = .next (((t.setD dq (BitVec.ofInt 16 r ++ BitVec.ofInt 16 q)).setCc
      (valueCc .w (BitVec.ofInt 32 (q % 65536)) t.cc)).goOn (s.npc (1 + ea.words))) := by
  obtain ⟨rfl, rfl⟩ := wordQuotient hd hdiv
  rw [← trunc_word_ofInt, ← logicCc_eq, ← readEa_npc h]
  exact runInstr_ok ((M.bind_ok h).trans ((M.ite_neg (mt extended_word_eq_zero.mp hd) t).trans
    ((M.get_bind _ t).trans (M.ite_pos (fits_iff_inRange.mpr hq) t))))

theorem divWord_overflow (h : readEa .w 0 ea s = .ok v t) (hd : numberOf sg .w v ≠ 0)
    (hdiv : Divides (numberOf sg .l (t.dreg dq)) (numberOf sg .w v) q r) (hq : ¬ inRange sg 16 q) :
    ∃ n z, runInstr (divWord sg ea dq) s =
      .next (((t.used 1).setCc ⟨t.cc.x, n, z, true, false⟩).goOn (s.npc (1 + ea.words))) := by
  obtain ⟨rfl, -⟩ := wordQuotient hd hdiv
  exact runInstr_divOverflow h ((M.ite_neg (mt extended_word_eq_zero.mp hd) t).trans
    ((M.get_bind _ t).trans (M.ite_neg (mt fits_iff_inRange.mp hq) t)))

/-- Settles O39: `Divides` names truncating division, and the three branches are the three outcomes. -/
theorem divideWord : Obligations.DivideWord := by
  intro s t ea dn v sg h i n d out
  have hexec : exec i s = runInstr (divWord sg ea dn) s := exec_divWord sg ea dn s
  rw [hexec]
  exact ⟨divWord_zero h, fun q r hd hdiv => ⟨divWord_fits h hd hdiv, divWord_overflow h hd hdiv⟩⟩

/-! ## The long forms (R243) -/

/-- The 64-bit dividend: the sign is that of its high half. -/
theorem dividend64_eq (sg : Bool) (hi lo : Long) :
    dividend64 sg hi lo = (if sg then hi.toInt else hi.toNat) * 2 ^ 32 + lo.toNat := by
  cases sg
  · have happ : (hi ++ lo).toNat = hi.toNat * 2 ^ 32 + lo.toNat := by
      rw [BitVec.toNat_append, ← Nat.shiftLeft_add_eq_or_of_lt lo.isLt, Nat.shiftLeft_eq]
    rw [dividend64, if_neg Bool.false_ne_true, if_neg Bool.false_ne_true, happ]
    push_cast
    rfl
  · rw [dividend64, if_pos rfl, if_pos rfl, BitVec.toInt_append, if_neg (by decide), mul_comm]

/-- The dividend of R243. -/
def longDividend (sg wide : Bool) (hi lo : Long) : Int :=
  if wide then dividend64 sg hi lo else intOf sg lo

theorem divL_zero (h : readEa .l 1 ea s = .ok v t) (hd : intOf sg v = 0) : ∃ n z o,
    exec (.divL ea dq sg wide dr) s = .next (((t.used 1).setCc ⟨t.cc.x, n, z, o, false⟩).takeException
      ⟨5, s.npc (2 + ea.words), .six s.pc, .trapped⟩) :=
  runInstr_zeroDivide h (M.ite_pos (intOf_eq_zero.mp hd) t)

theorem divL_overflow (h : readEa .l 1 ea s = .ok v t) (hd : intOf sg v ≠ 0)
    (hdiv : Divides (longDividend sg wide (t.dreg dr) (t.dreg dq)) (intOf sg v) q r) (hq : ¬ inRange sg 32 q) :
    ∃ n z, exec (.divL ea dq sg wide dr) s =
      .next (((t.used 1).setCc ⟨t.cc.x, n, z, true, false⟩).goOn (s.npc (2 + ea.words))) := by
  obtain ⟨rfl, -⟩ := hdiv.tdiv_tmod hd
  exact runInstr_divOverflow h ((M.ite_neg (mt intOf_eq_zero.mpr hd) t).trans
    ((M.get_bind _ t).trans (M.ite_neg (mt fits_iff_inRange.mp hq) t)))

/-- What R243 does with a quotient and a remainder that fit, after the flags. -/
def storeQuotient (k : Nat) (wide : Bool) (dq dr : Reg) (q r : Int) : M Unit := do
  if dr = dq then
    if wide then do
      let free ← draw
      modify fun u => u.setD dq free
    else modify fun u => u.setD dq (BitVec.ofInt 32 q)
  else modify fun u => (u.setD dr (BitVec.ofInt 32 r)).setD dq (BitVec.ofInt 32 q)
  advance k

theorem storeQuotient_two (hne : dr ≠ dq) (t : State) : storeQuotient k wide dq dr q r t =
    .ok () (((t.setD dr (BitVec.ofInt 32 r)).setD dq (BitVec.ofInt 32 q)).goOn (t.npc k)) :=
  M.ite_neg hne t

theorem storeQuotient_one (t : State) : storeQuotient k false dq dq q r t =
    .ok () ((t.setD dq (BitVec.ofInt 32 q)).goOn (t.npc k)) :=
  M.ite_pos rfl t

/-- With one register for both parts of a 64-bit division its value is free (93 U25). -/
theorem storeQuotient_free (t : State) : ∃ x, storeQuotient k true dq dq q r t =
    .ok () (((t.used 1).setD dq x).goOn (t.npc k)) :=
  ⟨Config.freeLong t.draws, M.ite_pos rfl t⟩

/-- A quotient that fits: the flags are set, then the registers. -/
theorem divL_fits {u : State} (h : readEa .l 1 ea s = .ok v t) (hd : intOf sg v ≠ 0)
    (hdiv : Divides (longDividend sg wide (t.dreg dr) (t.dreg dq)) (intOf sg v) q r) (hq : inRange sg 32 q)
    (hstore : storeQuotient (2 + ea.words) wide dq dr q r (t.setCc (valueCc .l (BitVec.ofInt 32 q) t.cc)) =
      .ok () (u.goOn (t.npc (2 + ea.words)))) :
    exec (.divL ea dq sg wide dr) s = .next (u.goOn (s.npc (2 + ea.words))) := by
  obtain ⟨rfl, rfl⟩ := hdiv.tdiv_tmod hd
  rw [← logicCc_eq] at hstore
  rw [← readEa_npc h]
  exact runInstr_ok ((M.bind_ok h).trans ((M.ite_neg (mt intOf_eq_zero.mpr hd) t).trans
    ((M.get_bind _ t).trans ((M.ite_pos (fits_iff_inRange.mpr hq) t).trans hstore))))

/-- Settles O40: as for the word forms, with the registers of the quotient by `storeQuotient`. -/
theorem divideLong : Obligations.DivideLong := by
  intro s t ea dq dr v sg wide h i n d out
  have hn : n = longDividend sg wide (t.dreg dr) (t.dreg dq) := by
    rw [longDividend, dividend64_eq, intOf_eq_numberOf]
  have hv : d = intOf sg v := (intOf_eq_numberOf sg v).symm
  rw [hn, hv]
  refine ⟨divL_zero h, fun q r hd hdiv => ⟨fun hq => ⟨?two, ?one, ?free⟩, divL_overflow h hd hdiv⟩⟩
  case two => exact fun hne => divL_fits h hd hdiv hq (storeQuotient_two hne _)
  case one =>
    rintro rfl rfl
    exact divL_fits h hd hdiv hq (storeQuotient_one _)
  case free =>
    rintro rfl rfl
    obtain ⟨x, hfree⟩ := storeQuotient_free (t.setCc (valueCc .l (BitVec.ofInt 32 q) t.cc))
    exact ⟨x, divL_fits h hd hdiv hq hfree⟩

end Sys2Proof.Machine
end

/-! # CMP2 and CHK2 (O38) -/

section
namespace Sys2Proof.Machine

variable {s t : State} {sz : Size} {own k : Nat} {ea : Ea} {rn : Rn} {a lo hi v : Long} {sg : Bool}

/-! ## Bounds on the circle of the operand's values -/

/-- An operand's number is its bits, up to the circle. -/
theorem numberOf_emod (sg : Bool) (h : v.toNat < 2 ^ sz.bits) : numberOf sg sz v % 2 ^ sz.bits = v.toNat := by
  have hmod := Nat.mod_eq_of_lt h
  cases sg
  · simp only [numberOf, Bool.false_eq_true, if_false]
    exact_mod_cast hmod
  · simp only [numberOf, if_true]
    rcases signed_cases sz v with ⟨-, -, hv⟩ | ⟨-, -, hv⟩ <;> rw [hv, hmod]
    · exact_mod_cast hmod
    · rw [Int.sub_emod_right]
      exact_mod_cast hmod

/-- The numbers of one order lie within one turn of the circle. -/
theorem numberOf_sub_lt (sg : Bool) (hv : v.toNat < 2 ^ sz.bits) (hlo : lo.toNat < 2 ^ sz.bits) :
    numberOf sg sz v - numberOf sg sz lo < 2 ^ sz.bits := by
  cases sg
  · simp only [numberOf, Bool.false_eq_true, if_false]
    have hv' : (v.toNat : Int) < 2 ^ sz.bits := by exact_mod_cast hv
    omega
  · simp only [numberOf, if_true]
    rcases signed_cases sz v with ⟨-, v2, v3⟩ | ⟨-, v2, v3⟩ <;>
      rcases signed_cases sz lo with ⟨-, l2, l3⟩ | ⟨-, l2, l3⟩ <;> rw [v3, l3] <;> clear v3 l3 <;> cases sz <;>
      simp only [Size.bits] at * <;> omega

/-- The distance from one operand to another on the circle. -/
theorem trunc_sub_toNat (sg : Bool) (hv : v.toNat < 2 ^ sz.bits) (hlo : lo.toNat < 2 ^ sz.bits) :
    ((trunc sz (v - lo)).toNat : Int) = (numberOf sg sz v - numberOf sg sz lo) % 2 ^ sz.bits := by
  rw [Int.sub_emod, numberOf_emod sg hv, numberOf_emod sg hlo, trunc_toNat, BitVec.toNat_sub]
  cases sz <;> simp only [Size.bits] at * <;> omega

/-- Within one turn of the circle, a number is between two others when it is not farther from the lower than the
upper is. -/
theorem sub_emod_le_iff {w x y z : Int} (hyz : y ≤ z) (hzy : z - y < w) (hxy : x - y < w) (hyx : y - x < w)
    (hzx : z - x < w) : (x - y) % w ≤ (z - y) % w ↔ y ≤ x ∧ x ≤ z := by
  rw [Int.emod_eq_of_lt (by omega) hzy]
  by_cases h : y ≤ x
  · rw [Int.emod_eq_of_lt (by omega) hxy]
    omega
  · rw [← Int.add_emod_right, Int.emod_eq_of_lt (by omega) (by omega)]
    omega

/-- The one comparison of R241 serves both orders. -/
theorem inBounds_iff (hlo : lo.toNat < 2 ^ sz.bits) (hhi : hi.toNat < 2 ^ sz.bits) (hv : v.toNat < 2 ^ sz.bits)
    (hle : numberOf sg sz lo ≤ numberOf sg sz hi) :
    inBounds sz lo hi v = true ↔
      numberOf sg sz lo ≤ numberOf sg sz v ∧ numberOf sg sz v ≤ numberOf sg sz hi := by
  rw [inBounds, decide_eq_true_eq, ← Int.ofNat_le, trunc_sub_toNat sg hv hlo, trunc_sub_toNat sg hhi hlo]
  exact sub_emod_le_iff hle (numberOf_sub_lt sg hhi hlo) (numberOf_sub_lt sg hv hlo) (numberOf_sub_lt sg hlo hv)
    (numberOf_sub_lt sg hhi hv)

theorem boundsOrdered_of_le (hle : numberOf sg sz lo ≤ numberOf sg sz hi) : boundsOrdered sz lo hi = true := by
  cases sg
  · have hu : lo.toNat ≤ hi.toNat := Int.ofNat_le.mp hle
    rw [boundsOrdered, decide_eq_true hu, Bool.or_true]
  · have hs : (sext sz lo).toInt ≤ (sext sz hi).toInt := hle
    rw [boundsOrdered, decide_eq_true hs, Bool.true_or]

/-! ## The flags and the operands -/

/-- CMP2 and CHK2 set C outside the bounds, in each order that the bounds are in; bounds in neither leave it free
(log 25, log 34). -/
theorem compareBounds_ok (hlo : lo.toNat < 2 ^ sz.bits) (hhi : hi.toNat < 2 ^ sz.bits)
    (hv : v.toNat < 2 ^ sz.bits) (t : State) : ∃ n o c : Bool,
      (∀ sg, numberOf sg sz lo ≤ numberOf sg sz hi →
        (c = true ↔ numberOf sg sz v < numberOf sg sz lo ∨ numberOf sg sz hi < numberOf sg sz v)) ∧
      compareBounds sz lo hi v t =
        .ok c ((t.used 1).setCc ⟨t.cc.x, n, decide (v = lo ∨ v = hi), o, c⟩) := by
  have hz : (v == lo || v == hi) = decide (v = lo ∨ v = hi) := by
    rw [beq_eq_decide, beq_eq_decide, Bool.decide_or]
  refine ⟨_, _, _, fun sg hle => ?_, by rw [← hz]; rfl⟩
  have hin := inBounds_iff hlo hhi hv hle
  rw [if_pos (boundsOrdered_of_le hle), Bool.not_eq_true', ← Bool.not_eq_true, hin]
  omega

/-- The width of a comparison with bounds of a size (R241). -/
def boundsSize (sz : Size) (rn : Rn) : Size := if rn.isAddr then .l else sz

/-- A bound, sign-extended for an address register (R241). -/
def boundValue (sz : Size) (rn : Rn) (m : Long) : Long := if rn.isAddr then BitVec.ofInt 32 (signedOf sz m) else m

theorem boundValue_lt (h : v.toNat < 2 ^ sz.bits) (rn : Rn) :
    (boundValue sz rn v).toNat < 2 ^ (boundsSize sz rn).bits := by
  unfold boundValue boundsSize
  split
  · exact BitVec.isLt _
  · exact h

/-- The two bounds are read one after the other at the operand's address. -/
theorem boundsOf_ok (ha : memAddr sz 1 ea s = .ok a t) (hlo : t.readable (t.eaSpace ea) a sz.bytes)
    (hhi : t.readable (t.eaSpace ea) (a + BitVec.ofNat 32 sz.bytes) sz.bytes) : boundsOf sz ea rn s =
      .ok (boundsSize sz rn, boundValue sz rn (bytesLong (t.load (t.eaSpace ea) a sz.bytes)),
        boundValue sz rn (bytesLong (t.load (t.eaSpace ea) (a + BitVec.ofNat 32 sz.bytes) sz.bytes)),
        trunc (boundsSize sz rn) (t.getR rn)) t := by
  refine (M.bind_ok ha).trans ((M.get_bind _ t).trans ((M.bind_ok (readMem_ok hlo)).trans
    ((M.bind_ok (readMem_ok hhi)).trans ?_)))
  have hlong : trunc .l (t.areg rn.num) = t.areg rn.num := trunc_of_lt (BitVec.isLt _)
  unfold boundsSize boundValue State.getR
  cases rn.isAddr
  · rfl
  · simp only [if_true, hlong, ← sext_eq]
    rfl

/-! ## The instructions -/

theorem memAddr_pc (h : memAddr sz own ea s = .ok a t) : t.pc = s.pc := by
  obtain ⟨k, rfl⟩ := memAddr_state h
  exact afterAddr_pc sz ea s

section

variable {wc : Size} {c : Bool} {u : State} (hb : boundsOf sz ea rn s = .ok (wc, lo, hi, v) t)
  (hc : compareBounds wc lo hi v t = .ok c u)
include hb hc

theorem exec_cmp2 : exec (.cmp2 sz ea rn) s = .next (u.goOn (u.npc (2 + ea.words))) :=
  runInstr_ok ((M.bind_ok hb).trans (M.bind_ok hc))

theorem exec_chk2 : exec (.chk2 sz ea rn) s = if c then
    .next (u.takeException ⟨6, u.npc (2 + ea.words), .six u.pc, .trapped⟩)
    else .next (u.goOn (u.npc (2 + ea.words))) := by
  cases c
  · exact runInstr_ok ((M.bind_ok hb).trans (M.bind_ok hc))
  · exact runInstr_raised ((M.bind_ok hb).trans (M.bind_ok hc))

end

/-- Settles O38: the distance of R241 on the circle decides both orders at once. -/
theorem boundsCompared : Obligations.BoundsCompared := by
  intro s t sz ea rn a ha hrlo hrhi m1 m2 wc lo hi v
  have hb : boundsOf sz ea rn s = .ok (wc, lo, hi, v) t := boundsOf_ok ha hrlo hrhi
  obtain ⟨n, o, c, horder, hc⟩ := compareBounds_ok (sz := wc) (lo := lo) (hi := hi) (v := v)
    (boundValue_lt (t.load_lt _ _ _) rn) (boundValue_lt (t.load_lt _ _ _) rn) (trunc_lt wc _) t
  have hnpc : (t.used 1).npc (2 + ea.words) = s.npc (2 + ea.words) := memAddr_npc ha _
  refine ⟨n, o, c, horder, ?_, ?_⟩
  · rw [exec_cmp2 hb hc, State.npc_setCc, hnpc]
  · rw [exec_chk2 hb hc, State.npc_setCc, hnpc, State.setCc_pc, State.used_pc, memAddr_pc ha]

end Sys2Proof.Machine
end

/-! # AND, OR, EOR, NOT and their immediate forms (O36) -/

section
namespace Sys2Proof.Machine

variable {s t u : State} {sz : Size} {ea : Ea} {dn : Reg} {v : Long} {op : BitOp}

/-- The change a bitwise operation with source `v` makes to an operand, with the flags of R270. -/
def logicChange (op : BitOp) (sz : Size) (v d : Long) (cc : CC) : Long × CC :=
  (op d v, valueCc sz (op d v) cc)

theorem logicChange_eq (op : BitOp) (sz : Size) (v d : Long) (cc : CC) :
    logicChange op sz v d cc = (op d v, logicCc sz (op d v) cc) := by
  rw [logicChange, logicCc_eq]

/-- AND and OR to a register (R271, R273). -/
theorem runInstr_logicToReg (op : BitOp) (h : readEa sz 0 ea s = .ok v t) :
    let r := op (trunc sz (t.dreg dn)) v
    runInstr (logicToReg op sz ea dn) s =
      .next (((t.putD sz dn r).setCc (valueCc sz r t.cc)).goOn (s.npc (1 + ea.words))) := by
  intro r
  rw [← logicCc_eq]
  exact runInstr_readEa_modify (g := fun v t =>
    (t.putD sz dn (op (trunc sz (t.dreg dn)) v)).setCc (logicCc sz (op (trunc sz (t.dreg dn)) v) t.cc)) h rfl

/-- AND, OR and EOR of a register to an operand (R271, R273, R275). -/
theorem runInstr_logicToEa (h : Changes sz 0 ea (logicChange op sz (trunc sz (s.dreg dn))) s u) :
    runInstr (logicToEa op sz dn ea) s = .next (u.goOn (s.npc (1 + ea.words))) :=
  (runInstr_congr (M.get_bind _ s)).trans
    (runInstr_modifyEa h fun d cc _ => logicChange_eq op sz (trunc sz (s.dreg dn)) d cc)

/-- ANDI, ORI and EORI (R272, R274, R276). -/
theorem runInstr_logicImmediate {x : Imm} (h : Changes sz x.words ea (logicChange op sz (immValue sz x)) s u) :
    runInstr (logicImmediate op sz x ea) s = .next (u.goOn (s.npc (1 + x.words + ea.words))) :=
  runInstr_modifyEa h fun d cc _ => logicChange_eq op sz (immValue sz x) d cc

/-- NOT subtracts its operand from the all-ones value of the size (R277). -/
theorem exec_not (h : Changes sz 0 ea (fun d cc => (sizeMask sz - d, valueCc sz (sizeMask sz - d) cc)) s u) :
    exec (.not sz ea) s = .next (u.goOn (s.npc (1 + ea.words))) :=
  runInstr_modifyEa h fun d cc hd => by
    show _ = (trunc sz (~~~d), logicCc sz (trunc sz (~~~d)) cc)
    rw [not_exact sz d hd, logicCc_eq]

/-- Settles O36: each instruction is one operand read or one change of its operand by the bitwise operation, and
the complement at a size is the distance from all ones. -/
theorem logicResults : Obligations.LogicResults := by
  intro s t u sz ea dn v x by_ go
  exact ⟨fun h => ⟨runInstr_logicToReg (· &&& ·) h, runInstr_logicToReg (· ||| ·) h⟩,
    runInstr_logicToEa, runInstr_logicToEa, runInstr_logicToEa,
    runInstr_logicImmediate, runInstr_logicImmediate, runInstr_logicImmediate, exec_not⟩

end Sys2Proof.Machine
end

/-! # Shifts and rotates: the shape of the instructions -/

section
namespace Sys2Proof.Machine

variable {s u : State} {op exact : ShiftOp} {sz : Size} {c : ShiftCount} {dn : Reg} {ea : Ea} {d : Long}

/-- A shift or rotate is an exact computation on operands of its size (R290). -/
def ExactShiftOp (op exact : ShiftOp) : Prop :=
  ∀ (sz : Size) (n : Nat) (d : Long) (x : Bool), d.toNat < 2 ^ sz.bits → op sz n d x = exact sz n d x

theorem shiftCc_eq (sz : Size) (o : Shifted) : shiftCc sz o = shiftedCc sz o := by
  simp only [shiftCc, shiftedCc, msb_signedOf, beq_eq_decide]

/-- What a register form leaves, for the exact shift `o` (R290). -/
def shiftedReg (sz : Size) (dn : Reg) (o : Shifted) (s : State) : State :=
  ((s.putD sz dn o.r).setCc (shiftedCc sz o)).goOn (s.npc 1)

theorem runInstr_shiftReg (hop : ExactShiftOp op exact) : runInstr (shiftReg op sz c dn) s =
    .next (shiftedReg sz dn (exact sz (s.shiftCount c) (trunc sz (s.dreg dn)) s.cc.x) s) := by
  rw [shiftedReg, ← hop sz (s.shiftCount c) _ s.cc.x (trunc_lt sz _), ← shiftCc_eq]
  exact runInstr_ok rfl

/-- The change a memory form makes to its word (R290, R299). -/
def shiftChange (exact : ShiftOp) (d : Long) (cc : CC) : Long × CC :=
  ((exact .w 1 d cc.x).r, shiftedCc .w (exact .w 1 d cc.x))

theorem runInstr_shiftMem (hop : ExactShiftOp op exact) (h : Changes .w 0 ea (shiftChange exact) s u) :
    runInstr (shiftMem op ea) s = .next (u.goOn (s.npc (1 + ea.words))) :=
  runInstr_modifyEa h fun d cc hd => by rw [shiftChange, ← hop .w 1 d cc.x hd, ← shiftCc_eq]

/-! ## Bits and sizes as numbers -/

theorem getLsbD_eq_decide (d : Long) (i : Nat) : d.getLsbD i = decide (d.toNat / 2 ^ i % 2 = 1) := by
  rw [← BitVec.testBit_toNat, Nat.testBit_eq_decide_div_mod_eq]

theorem two_pow_bits_dvd (sz : Size) : 2 ^ sz.bits ∣ 2 ^ 32 :=
  pow_dvd_pow 2 (by cases sz <;> decide)

/-- At a size, the bits of a shifted long word are those of the product: what the long word drops is above them. -/
theorem shiftLeft_toNat_mod (sz : Size) (d : Long) (n : Nat) :
    (d <<< n).toNat % 2 ^ sz.bits = d.toNat * 2 ^ n % 2 ^ sz.bits := by
  rw [BitVec.toNat_shiftLeft, Nat.shiftLeft_eq, Nat.mod_mod_of_dvd _ (two_pow_bits_dvd sz)]

/-- The low bits of a long word are those of its signed number. -/
theorem trunc_eq_toInt (sz : Size) (v : Long) :
    trunc sz v = BitVec.ofNat 32 (v.toInt % 2 ^ sz.bits).toNat := by
  have hmod : v.toInt % 2 ^ sz.bits = (v.toNat % 2 ^ sz.bits : Nat) := by
    have hv := v.isLt
    rw [BitVec.toInt_eq_toNat_cond]
    cases sz <;> simp only [Size.bits] <;> split <;> omega
  rw [hmod, Int.toNat_natCast, trunc_eq_ofNat]

/-- A bit of the signed number: below the width a bit of the operand, above it the sign. -/
theorem signedOf_bit (hd : d.toNat < 2 ^ sz.bits) (k : Nat) :
    decide (signedOf sz d / 2 ^ k % 2 = 1) = if k < sz.bits then d.getLsbD k else msb sz d := by
  have hmod := Nat.mod_eq_of_lt hd
  by_cases hk : k < sz.bits
  · have hnat : (d.toNat : Int) / 2 ^ k % 2 = (d.toNat / 2 ^ k % 2 : Nat) := by norm_cast
    have hpow : (2 : Int) ^ sz.bits = 2 * 2 ^ (sz.bits - k - 1) * 2 ^ k := by
      rw [← pow_succ', ← pow_add]
      congr 1
      omega
    rw [if_pos hk, getLsbD_eq_decide, decide_eq_decide]
    rcases signed_cases sz d with ⟨-, -, hs⟩ | ⟨-, -, hs⟩ <;> rw [hs, hmod]
    · omega
    · rw [hpow, Int.sub_mul_ediv_right _ _ (by positivity)]
      omega
  · have hpow : 2 ^ sz.bits ≤ 2 ^ k := Nat.pow_le_pow_right two_pos (not_lt.mp hk)
    have hcast : ((2 ^ k : Nat) : Int) = 2 ^ k := by norm_cast
    have hbits : ((2 ^ sz.bits : Nat) : Int) = 2 ^ sz.bits := by norm_cast
    rw [if_neg hk]
    rcases signed_cases sz d with ⟨hm, -, hs⟩ | ⟨hm, hge, hs⟩ <;> rw [hm, hs, hmod]
    · rw [Int.ediv_eq_zero_of_lt (by omega) (by omega)]
      rfl
    · rw [(Int.ediv_eq_iff_of_pos (y := -1) (by positivity)).mpr (by omega)]
      rfl

end Sys2Proof.Machine
end

/-! # ASL, ASR, LSL and LSR (O42) -/

section
namespace Sys2Proof.Machine

variable {sz : Size} {n k : Nat} {d r : Long} {x out out' ovf ovf' : Bool}

/-- The model's shifts leave the operand alone for a count of 0, and otherwise shift (R291). -/
theorem ite_eq_exactShift (hr : r = BitVec.ofNat 32 k) (hzero : n = 0 → r = d) (hovf : ovf = ovf')
    (hout : n ≠ 0 → out = out') :
    (if n = 0 then ⟨d, x, false, false⟩ else ⟨r, out, ovf, out⟩ : Shifted) = exactShift n k out' ovf' x := by
  by_cases hn : n = 0
  · simp [exactShift, hn, ← hr, hzero hn]
  · simp [exactShift, hn, hr, hovf, hout hn]

/-! ## Left -/

theorem trunc_shiftLeft (sz : Size) (d : Long) (n : Nat) :
    trunc sz (d <<< n) = BitVec.ofNat 32 (d.toNat * 2 ^ n % 2 ^ sz.bits) := by
  rw [trunc_eq_ofNat, shiftLeft_toNat_mod]

/-- The last bit shifted out to the left is the bit of the product above the operand. -/
theorem leftOut_eq (w n : Nat) (d : Long) :
    (decide (n ≤ w) && d.getLsbD (w - n)) = decide (d.toNat * 2 ^ n / 2 ^ w % 2 = 1) := by
  rw [← Nat.testBit_eq_decide_div_mod_eq, ← Nat.shiftLeft_eq, Nat.testBit_shiftLeft, BitVec.testBit_toNat]

/-- The bit that comes to stand below the sign after `n` steps is that bit of the signed product. -/
theorem bitOrZero_eq (hd : d.toNat < 2 ^ sz.bits) (n : Nat) : bitOrZero d ((sz.bits : Int) - 2 - n) =
    decide (signedOf sz d * 2 ^ n / 2 ^ (sz.bits - 2) % 2 = 1) := by
  have htwo : 2 ≤ sz.bits := by cases sz <;> decide
  unfold bitOrZero
  by_cases hn : n ≤ sz.bits - 2
  · have hindex : ((sz.bits : Int) - 2 - n).toNat = sz.bits - 2 - n := by omega
    have hpow : (2 : Int) ^ (sz.bits - 2) = 2 ^ (sz.bits - 2 - n) * 2 ^ n := by
      rw [← pow_add, Nat.sub_add_cancel hn]
    rw [if_neg (by omega), hindex, hpow, Int.mul_ediv_mul_of_pos_left _ _ (by positivity), signedOf_bit hd,
      if_pos (by omega)]
  · obtain ⟨m, rfl⟩ := Nat.exists_eq_add_of_lt (not_le.mp hn)
    have hpow : signedOf sz d * 2 ^ (sz.bits - 2 + m + 1) = signedOf sz d * 2 ^ m * 2 * 2 ^ (sz.bits - 2) := by
      ring
    rw [if_pos (by omega), hpow, Int.mul_ediv_cancel _ (by positivity), Int.mul_emod_left]
    rfl

theorem signedOf_inRange (sz : Size) (d : Long) : inRange true sz.bits (signedOf sz d) := by
  have hlt : d.toNat % 2 ^ sz.bits < 2 ^ sz.bits := Nat.mod_lt _ (Nat.two_pow_pos _)
  simp only [inRange, if_true]
  rcases signed_cases sz d with ⟨-, hm, hs⟩ | ⟨-, hm, hs⟩ <;> rw [hs] <;> clear hs <;> cases sz <;>
    simp only [Size.bits] at * <;> omega

/-- Twice a number fits when the number does and the bit below its sign agrees with the sign. -/
theorem inRange_double (sz : Size) (i : Int) : inRange true sz.bits (i * 2) ↔
    inRange true sz.bits i ∧ decide (i / 2 ^ (sz.bits - 2) % 2 = 1) = decide (i < 0) := by
  rw [decide_eq_decide]
  simp only [inRange, if_true]
  cases sz <;> simp only [Size.bits] <;> omega

/-- The signed product fits when no step of the shift changes the sign (R291). -/
theorem product_inRange_iff (hd : d.toNat < 2 ^ sz.bits) (n : Nat) :
    inRange true sz.bits (signedOf sz d * 2 ^ n) ↔
      ∀ i < n, bitOrZero d ((sz.bits : Int) - 2 - i) = msb sz d := by
  induction n with
  | zero => simpa using signedOf_inRange sz d
  | succ n ih =>
    have hsign : decide (signedOf sz d * 2 ^ n < 0) = msb sz d := by
      rw [msb_signedOf, decide_eq_decide]
      exact lt_iff_lt_of_le_iff_le (mul_nonneg_iff_of_pos_right (by positivity))
    rw [pow_succ, ← mul_assoc, inRange_double, ih, hsign, ← bitOrZero_eq hd, Nat.forall_lt_succ_right]

theorem aslOverflow_eq (hd : d.toNat < 2 ^ sz.bits) (n : Nat) :
    ((List.range n).any fun i => bitOrZero d ((sz.bits : Int) - 2 - i) != msb sz d) =
      decide (signedOf sz d * 2 ^ n < -2 ^ (sz.bits - 1) ∨ 2 ^ (sz.bits - 1) ≤ signedOf sz d * 2 ^ n) := by
  have hfits := product_inRange_iff hd n
  rw [inRange, if_pos rfl] at hfits
  rw [Bool.eq_iff_iff, ← not_iff_not, decide_eq_true_eq, not_or, not_lt, not_le, hfits]
  simp

theorem trunc_shiftLeft_zero (hd : d.toNat < 2 ^ sz.bits) (hn : n = 0) : trunc sz (d <<< n) = d := by
  rw [hn, BitVec.shiftLeft_zero, trunc_of_lt hd]

theorem aslOut_exact : ExactShiftOp aslOut (exactLeft true) := fun sz n d _ hd =>
  ite_eq_exactShift (trunc_shiftLeft sz d n) (trunc_shiftLeft_zero hd) (aslOverflow_eq hd n) fun _ =>
    leftOut_eq sz.bits n d

theorem lslOut_exact : ExactShiftOp lslOut (exactLeft false) := fun sz n d _ hd =>
  ite_eq_exactShift (trunc_shiftLeft sz d n) (trunc_shiftLeft_zero hd) rfl fun _ => leftOut_eq sz.bits n d

/-! ## Right -/

/-- The last bit of a signed number shifted out to the right: the sign, once the operand is used up. -/
theorem signedRightOut_eq (hd : d.toNat < 2 ^ sz.bits) (hn : n ≠ 0) :
    (if n ≤ sz.bits then d.getLsbD (n - 1) else msb sz d) = decide (signedOf sz d / 2 ^ (n - 1) % 2 = 1) := by
  rw [signedOf_bit hd]
  exact if_congr (by omega) rfl rfl

theorem trunc_sshiftRight (sz : Size) (d : Long) (n : Nat) : trunc sz ((sext sz d).sshiftRight n) =
    BitVec.ofNat 32 (signedOf sz d / 2 ^ n % 2 ^ sz.bits).toNat := by
  rw [trunc_eq_toInt, BitVec.toInt_sshiftRight, Int.shiftRight_eq_div_pow]
  norm_cast

theorem trunc_sext (hd : d.toNat < 2 ^ sz.bits) : trunc sz (sext sz d) = d := by
  have hnum : signedOf sz d % 2 ^ sz.bits = d.toNat := numberOf_emod true hd
  rw [trunc_eq_toInt, ← signedOf, hnum, Int.toNat_natCast, BitVec.ofNat_toNat, BitVec.setWidth_eq]

theorem asrOut_exact : ExactShiftOp asrOut (exactRight true) := fun sz n d _ hd =>
  ite_eq_exactShift (trunc_sshiftRight sz d n)
    (fun hn => by rw [hn, BitVec.sshiftRight_zero, trunc_sext hd]) rfl (signedRightOut_eq hd)

/-- The last bit of an operand shifted out to the right: 0, once the operand is used up. -/
theorem rightOut_eq (hd : d.toNat < 2 ^ sz.bits) (n : Nat) :
    (decide (n ≤ sz.bits) && d.getLsbD (n - 1)) = decide ((d.toNat : Int) / 2 ^ (n - 1) % 2 = 1) := by
  have hbit : decide ((d.toNat : Int) / 2 ^ (n - 1) % 2 = 1) = d.getLsbD (n - 1) := by
    rw [getLsbD_eq_decide, decide_eq_decide]
    norm_cast
  rw [hbit, Bool.and_eq_right_iff_imp, decide_eq_true_eq]
  intro hset
  by_contra hlt
  have hzero : d.toNat.testBit (n - 1) = false :=
    Nat.testBit_lt_two_pow (hd.trans_le (Nat.pow_le_pow_right two_pos (by omega)))
  rw [BitVec.testBit_toNat, hset] at hzero
  cases hzero

theorem ushiftRight_exact (hd : d.toNat < 2 ^ sz.bits) (n : Nat) :
    d >>> n = BitVec.ofNat 32 ((d.toNat : Int) / 2 ^ n % 2 ^ sz.bits).toNat := by
  have hr : (d >>> n).toNat = d.toNat / 2 ^ n := by rw [BitVec.toNat_ushiftRight, Nat.shiftRight_eq_div_pow]
  have hlt : (d >>> n).toNat < 2 ^ sz.bits := hr ▸ (Nat.div_le_self _ _).trans_lt hd
  have hcast : ((d.toNat : Int) / 2 ^ n % 2 ^ sz.bits).toNat = d.toNat / 2 ^ n % 2 ^ sz.bits := by
    norm_cast
  rw [hcast, ← hr, ← trunc_eq_ofNat, trunc_of_lt hlt]

theorem lsrOut_exact : ExactShiftOp lsrOut (exactRight false) := fun _ n d _ hd =>
  ite_eq_exactShift (ushiftRight_exact hd n) (fun hn => by rw [hn, BitVec.ushiftRight_zero]) rfl fun _ =>
    rightOut_eq hd n

/-- Settles O42: the register and the memory form of each shift are its exact one. -/
theorem shifts : Obligations.Shifts := by
  intro s u sz c dn ea n reg mem out d
  have hn : n = s.shiftCount c := by cases c <;> rfl
  rw [hn]
  exact ⟨runInstr_shiftReg aslOut_exact, runInstr_shiftReg lslOut_exact, runInstr_shiftReg asrOut_exact,
    runInstr_shiftReg lsrOut_exact, runInstr_shiftMem aslOut_exact, runInstr_shiftMem lslOut_exact,
    runInstr_shiftMem asrOut_exact, runInstr_shiftMem lsrOut_exact⟩

end Sys2Proof.Machine
end

/-! # ROL, ROR, ROXL and ROXR (O43) -/

section
namespace Sys2Proof.Machine

variable {sz : Size} {w m v n : Nat} {d : Long} {x : Bool}

/-! ## Rotated numbers -/

/-- The part of a rotated number that stays within the width. -/
theorem mul_two_pow_mod (hm : m ≤ w) (v : Nat) : v * 2 ^ m % 2 ^ w = v % 2 ^ (w - m) * 2 ^ m := by
  rw [← Nat.mul_mod_mul_right, ← pow_add, Nat.sub_add_cancel hm]

theorem rotatedLeft_eq (hm : m ≤ w) (v : Nat) :
    rotatedLeft w m v = v % 2 ^ (w - m) * 2 ^ m + v / 2 ^ (w - m) := by
  rw [rotatedLeft, mul_two_pow_mod hm]

/-- To the right is to the left by the rest of the width. -/
theorem rotatedRight_eq (hm : m ≤ w) (v : Nat) : rotatedRight w m v = rotatedLeft w (w - m) v := by
  rw [rotatedLeft_eq (Nat.sub_le w m), Nat.sub_sub_self hm, rotatedRight, add_comm]

/-- The part that wraps around fits below the other. -/
theorem wrapped_lt (hm : m ≤ w) (hv : v < 2 ^ w) : v / 2 ^ (w - m) < 2 ^ m := by
  rw [Nat.div_lt_iff_lt_mul (Nat.two_pow_pos _), ← pow_add, Nat.add_sub_cancel' hm]
  exact hv

theorem rotatedLeft_lt (hm : m ≤ w) (hv : v < 2 ^ w) : rotatedLeft w m v < 2 ^ w := by
  have hlow := wrapped_lt hm hv
  have hhigh : (v % 2 ^ (w - m) + 1) * 2 ^ m ≤ 2 ^ (w - m) * 2 ^ m :=
    Nat.mul_le_mul_right _ (Nat.mod_lt _ (Nat.two_pow_pos _))
  rw [← pow_add, Nat.sub_add_cancel hm, Nat.succ_mul] at hhigh
  rw [rotatedLeft_eq hm]
  omega

theorem rotateNat_eq (hm : m ≤ w) (hv : v < 2 ^ w) : rotateNat w m v = rotatedLeft w m v := by
  have hlow : v / 2 ^ (w - m) % 2 ^ w = v / 2 ^ (w - m) := Nat.mod_eq_of_lt ((Nat.div_le_self _ _).trans_lt hv)
  have hlt : v * 2 ^ m % 2 ^ w + v / 2 ^ (w - m) < 2 ^ w := rotatedLeft_lt hm hv
  rw [rotateNat, Nat.add_mod, hlow, Nat.mod_eq_of_lt hlt, rotatedLeft]

/-! ## ROL and ROR (R295, R296) -/

/-- The two shifted parts of a rotated operand do not overlap. -/
theorem trunc_rotate_toNat (hd : d.toNat < 2 ^ sz.bits) (hm : m ≤ sz.bits) :
    (trunc sz (d <<< m ||| d >>> (sz.bits - m))).toNat = rotatedLeft sz.bits m d.toNat := by
  have hlow : d.toNat / 2 ^ (sz.bits - m) % 2 ^ sz.bits = d.toNat / 2 ^ (sz.bits - m) :=
    Nat.mod_eq_of_lt ((Nat.div_le_self _ _).trans_lt hd)
  rw [trunc_toNat, BitVec.toNat_or, Nat.or_mod_two_pow, shiftLeft_toNat_mod, BitVec.toNat_ushiftRight,
    Nat.shiftRight_eq_div_pow, hlow, rotatedLeft_eq hm, mul_two_pow_mod hm, ← Nat.shiftLeft_eq,
    Nat.shiftLeft_add_eq_or_of_lt (wrapped_lt hm hd)]

/-- A long word and its C from the number it holds. -/
theorem shifted_of_toNat {r : Long} {c c' : Bool} {k : Nat} (hr : r.toNat = k) (hc : c = c') :
    (⟨r, x, false, c⟩ : Shifted) = ⟨BitVec.ofNat 32 k, x, false, c'⟩ := by
  rw [← hr, hc, BitVec.ofNat_toNat, BitVec.setWidth_eq]

theorem mod_bits_le (sz : Size) (n : Nat) : n % sz.bits ≤ sz.bits :=
  (Nat.mod_lt _ (by cases sz <;> decide)).le

theorem rolOut_exact : ExactShiftOp rolOut (exactRotate true) := by
  intro sz n d x hd
  have hr := trunc_rotate_toNat hd (mod_bits_le sz n)
  refine shifted_of_toNat hr ?_
  rw [getLsbD_eq_decide, hr, pow_zero, Nat.div_one, bne, beq_eq_decide, ← decide_not]
  rfl

theorem rorOut_exact : ExactShiftOp rorOut (exactRotate false) := by
  intro sz n d x hd
  have hm := mod_bits_le sz n
  have hr := trunc_rotate_toNat hd (Nat.sub_le sz.bits (n % sz.bits))
  rw [← rotatedRight_eq hm, Nat.sub_sub_self hm, BitVec.or_comm] at hr
  have hlt : rotatedRight sz.bits (n % sz.bits) d.toNat < 2 ^ sz.bits := hr ▸ trunc_lt sz _
  have hlast : msb sz (trunc sz (d >>> (n % sz.bits) ||| d <<< (sz.bits - n % sz.bits))) =
      decide (rotatedRight sz.bits (n % sz.bits) d.toNat / 2 ^ (sz.bits - 1) = 1) := by
    rw [msb, getLsbD_eq_decide, hr, decide_eq_decide]
    cases sz <;> simp only [Size.bits] at * <;> omega
  refine shifted_of_toNat hr ?_
  rw [hlast, bne, beq_eq_decide, ← decide_not]
  rfl

/-! ## ROXL and ROXR (R297, R298) -/

theorem withExtend_eq (sz : Size) (d : Long) (x : Bool) : withExtend sz d x = x.toNat * 2 ^ sz.bits + d.toNat := by
  cases x <;> simp [withExtend]

theorem withExtend_lt (hd : d.toNat < 2 ^ sz.bits) (x : Bool) : withExtend sz d x < 2 ^ (sz.bits + 1) := by
  rw [withExtend, pow_succ]
  split <;> omega

/-- X is the bit above the operand. -/
theorem ofExtend_eq (hv : v < 2 ^ (sz.bits + 1)) : ofExtend sz v =
    ⟨BitVec.ofNat 32 (v % 2 ^ sz.bits), decide (2 ^ sz.bits ≤ v), false, decide (2 ^ sz.bits ≤ v)⟩ := by
  have hx : (v / 2 ^ sz.bits % 2 == 1) = decide (2 ^ sz.bits ≤ v) := by
    rw [beq_eq_decide, decide_eq_decide]
    cases sz <;> simp only [Size.bits] at * <;> omega
  rw [ofExtend, hx]

/-- Both directions rotate the operand with X left by some `m`. -/
theorem ofExtend_rotateNat (hd : d.toNat < 2 ^ sz.bits) (hm : m ≤ sz.bits + 1) (x : Bool) :
    let r := rotatedLeft (sz.bits + 1) m (x.toNat * 2 ^ sz.bits + d.toNat)
    ofExtend sz (rotateNat (sz.bits + 1) m (withExtend sz d x)) =
      ⟨BitVec.ofNat 32 (r % 2 ^ sz.bits), decide (2 ^ sz.bits ≤ r), false, decide (2 ^ sz.bits ≤ r)⟩ := by
  have hlt := withExtend_lt hd x
  rw [rotateNat_eq hm hlt, ofExtend_eq (rotatedLeft_lt hm hlt), withExtend_eq]

theorem roxlOut_exact : ExactShiftOp roxlOut (exactRotateX true) := fun _ _ _ x hd =>
  ofExtend_rotateNat hd (Nat.mod_lt _ (Nat.succ_pos _)).le x

theorem roxrOut_exact : ExactShiftOp roxrOut (exactRotateX false) := by
  intro sz n d x hd
  have hm : n % (sz.bits + 1) ≤ sz.bits + 1 := (Nat.mod_lt _ (Nat.succ_pos _)).le
  have hexact := ofExtend_rotateNat hd (Nat.sub_le (sz.bits + 1) (n % (sz.bits + 1))) x
  rw [← rotatedRight_eq hm] at hexact
  exact hexact

/-- Settles O43: the register and the memory form of each rotate are its exact one. -/
theorem rotates : Obligations.Rotates := by
  intro s u sz c dn ea n reg mem out d
  have hn : n = s.shiftCount c := by cases c <;> rfl
  rw [hn]
  exact ⟨runInstr_shiftReg rolOut_exact, runInstr_shiftReg rorOut_exact, runInstr_shiftReg roxlOut_exact,
    runInstr_shiftReg roxrOut_exact, runInstr_shiftMem rolOut_exact, runInstr_shiftMem rorOut_exact,
    runInstr_shiftMem roxlOut_exact, runInstr_shiftMem roxrOut_exact⟩

end Sys2Proof.Machine
end

/-! # BTST, BCHG, BCLR and BSET (O44) -/

section
namespace Sys2Proof.Machine

variable {s t u : State} {sz : Size} {n own : Nat} {ea : Ea} {v : Long} {g : BitChange} {f : Bool → Bool}

/-! ## The bit as a power of two -/

theorem mod_bits_lt (sz : Size) (n : Nat) : n % sz.bits < 32 :=
  (Nat.mod_lt n (by cases sz <;> decide)).trans_le (by cases sz <;> decide)

/-- Z is the complement of the bit (R310). -/
theorem bitCc_eq (sz : Size) (n : Nat) (d : Long) (cc : CC) :
    bitCc d (bitMask sz n) cc = { cc with z := !d.getLsbD (n % sz.bits) } := by
  have hne : BitVec.twoPow 32 (n % sz.bits) ≠ 0 := fun h => by
    have hbit := congrArg (·.getLsbD (n % sz.bits)) h
    simp [mod_bits_lt sz n] at hbit
  have hz : (d &&& bitMask sz n == 0) = !d.getLsbD (n % sz.bits) := by
    show (d &&& BitVec.twoPow 32 (n % sz.bits) == 0) = _
    rw [BitVec.and_twoPow]
    cases d.getLsbD (n % sz.bits)
    · rfl
    · exact beq_eq_false_iff_ne.mpr hne
  rw [bitCc, hz]

/-- The operand with bit `k` set or cleared. -/
def withBit (d : Long) (k : Nat) (b : Bool) : Long :=
  if b then d ||| BitVec.twoPow 32 k else d &&& ~~~ BitVec.twoPow 32 k

/-- No other bit changes. -/
theorem withBit_bit (d : Long) (k : Nat) (b : Bool) {i : Nat} (hi : i < 32) :
    (withBit d k b).getLsbD i = if k = i then b else d.getLsbD i := by
  by_cases hk : k = i
  · cases b <;> simp [withBit, hk, hi]
  · have hk' : i ≠ k := Ne.symm hk
    cases b <;> simp [withBit, hk, hk', hi]

/-- A change of an operand by the mask of a bit gives the bit the value `f` of its old one. -/
def ChangesBit (g : BitChange) (f : Bool → Bool) : Prop :=
  ∀ (d : Long) (k : Nat), g d (BitVec.twoPow 32 k) = withBit d k (f (d.getLsbD k))

theorem xor_changesBit : ChangesBit (fun v m => v ^^^ m) (fun old => !old) := by
  intro d k
  apply BitVec.eq_of_getLsbD_eq
  intro i hi
  rw [withBit_bit d k _ hi, BitVec.getLsbD_xor, BitVec.getLsbD_twoPow]
  by_cases hk : k = i
  · rw [if_pos hk, decide_eq_true hk, decide_eq_true (hk ▸ hi), hk, Bool.and_self, Bool.xor_true]
  · rw [if_neg hk, decide_eq_false hk, Bool.and_false, Bool.xor_false]

theorem clear_changesBit : ChangesBit (fun v m => v &&& ~~~m) (fun _ => false) := fun _ _ => rfl

theorem set_changesBit : ChangesBit (fun v m => v ||| m) (fun _ => true) := fun _ _ => rfl

/-! ## The instructions -/

/-- The change a bit instruction makes to its operand, with the flags of R310. -/
def bitChanged (f : Bool → Bool) (k : Nat) (d : Long) (cc : CC) : Long × CC :=
  (withBit d k (f (d.getLsbD k)), { cc with z := !d.getLsbD k })

theorem runInstr_bitTest (h : readEa (bitSize ea) own ea s = .ok v t) : runInstr (bitTest n own ea) s =
    .next ((t.setCc { t.cc with z := !v.getLsbD (n % (bitSize ea).bits) }).goOn (s.npc (1 + own + ea.words))) := by
  rw [← bitCc_eq]
  exact runInstr_testEa h fun v cc => bitCc v (bitMask (bitSize ea) n) cc

theorem runInstr_bitModify (hg : ChangesBit g f)
    (h : Changes (bitSize ea) own ea (bitChanged f (n % (bitSize ea).bits)) s u) :
    runInstr (bitModify g n own ea) s = .next (u.goOn (s.npc (1 + own + ea.words))) :=
  runInstr_modifyEa h fun d cc _ => by
    rw [bitChanged, bitCc_eq, ← hg]
    rfl

/-- The dynamic forms look at their register first (R310). -/
theorem runInstr_bitNumber (body : Nat → M Unit) (dn : Reg) (s : State) :
    runInstr (do let n ← bitNumber dn; body n) s = runInstr (body (s.dreg dn).toNat) s :=
  runInstr_congr (M.bind_ok (a := (s.dreg dn).toNat) (t := s) rfl)

theorem runInstr_bitTest_dyn {dn : Reg} (h : readEa (bitSize ea) 0 ea s = .ok v t) :
    runInstr (do let n ← bitNumber dn; bitTest n 0 ea) s = .next ((t.setCc
      { t.cc with z := !v.getLsbD ((s.dreg dn).toNat % (bitSize ea).bits) }).goOn (s.npc (1 + 0 + ea.words))) :=
  (runInstr_bitNumber (fun n => bitTest n 0 ea) dn s).trans (runInstr_bitTest h)

theorem runInstr_bitModify_dyn {dn : Reg} (hg : ChangesBit g f)
    (h : Changes (bitSize ea) 0 ea (bitChanged f ((s.dreg dn).toNat % (bitSize ea).bits)) s u) :
    runInstr (do let n ← bitNumber dn; bitModify g n 0 ea) s = .next (u.goOn (s.npc (1 + 0 + ea.words))) :=
  (runInstr_bitNumber (fun n => bitModify g n 0 ea) dn s).trans (runInstr_bitModify hg h)

/-- Settles O44: with the number in hand, the dynamic and the static form are the same test or change of one bit. -/
theorem singleBits : Obligations.SingleBits := by
  intro s t u ea dn x v sz forms
  refine List.forall_mem_cons.mpr ⟨?_, List.forall_mem_singleton.mpr ?_⟩
  · exact ⟨runInstr_bitTest_dyn, fun h => runInstr_bitModify_dyn xor_changesBit h,
      fun h => runInstr_bitModify_dyn clear_changesBit h, fun h => runInstr_bitModify_dyn set_changesBit h⟩
  · exact ⟨runInstr_bitTest, fun h => runInstr_bitModify xor_changesBit h,
      fun h => runInstr_bitModify clear_changesBit h, fun h => runInstr_bitModify set_changesBit h⟩

end Sys2Proof.Machine
end

/-! # Where the bits of a bit field are (O45) -/

section
namespace Sys2Proof.Machine

variable {d v : Long} {off w n i j : Nat} {bs : List Byte}

/-! ## In a register -/

/-- Bit `i` of a rotated register, counted from the top. -/
theorem rotateLeft_bit (d : Long) (hoff : off < 32) (hi : i < 32) :
    (d.rotateLeft off).getLsbD (31 - i) = d.getLsbD (31 - (off + i) % 32) := by
  rw [BitVec.getLsbD_rotateLeft_of_le hoff, cond_eq_ite]
  split_ifs with h <;> rw [decide_eq_true_eq] at h
  · congr 1
    omega
  · rw [decide_eq_true (by omega), Bool.true_and]
    congr 1
    omega

theorem rotateRight_bit (d : Long) (hoff : off < 32) (hj : j < 32) :
    (d.rotateRight off).getLsbD (31 - j) = d.getLsbD (31 - (j + 32 - off) % 32) := by
  rw [BitVec.getLsbD_rotateRight, Nat.mod_eq_of_lt hoff, cond_eq_ite]
  split_ifs with h <;> rw [decide_eq_true_eq] at h
  · congr 1
    omega
  · rw [decide_eq_true (by omega), Bool.true_and]
    congr 1
    omega

theorem regField32_lt (hw : w ≤ 32) (d : Long) (off : Nat) : (regField32 d off w).toNat < 2 ^ w := by
  rw [regField32, BitVec.toNat_ushiftRight, Nat.shiftRight_eq_div_pow, Nat.div_lt_iff_lt_mul (Nat.two_pow_pos _),
    ← pow_add, Nat.add_sub_cancel' hw]
  exact BitVec.isLt _

theorem regField32_bit (hw : w ≤ 32) (hoff : off < 32) (hi : i < w) :
    (regField32 d off w).getLsbD (w - 1 - i) = d.getLsbD (31 - (off + i) % 32) := by
  have hindex : 32 - w + (w - 1 - i) = 31 - i := by omega
  rw [regField32, BitVec.getLsbD_ushiftRight, hindex, Nat.mod_eq_of_lt hoff, rotateLeft_bit d hoff (by omega)]

theorem fieldMask_bit (hw : w ≤ 32) (k : Nat) : (fieldMask w).getLsbD k = decide (k < w) := by
  rw [fieldMask, BitVec.getLsbD_ofNat, Nat.testBit_two_pow_sub_one, ← Bool.decide_and, decide_eq_decide]
  omega

/-- Bit `i`, counted from the top, of a long word shifted so that its `w` low bits stand at the top. -/
theorem shiftToTop_bit (hw : w ≤ 32) (v : Long) (hi : i < 32) :
    (v <<< (32 - w)).getLsbD (31 - i) = (decide (i < w) && v.getLsbD (w - 1 - i)) := by
  have hindex : 31 - i - (32 - w) = w - 1 - i := by omega
  have hin : (decide (31 - i < 32) && !decide (31 - i < 32 - w)) = decide (i < w) := by
    rw [← decide_not, ← Bool.decide_and, decide_eq_decide]
    omega
  rw [BitVec.getLsbD_shiftLeft, hin, hindex]

theorem putRegField32_bit (hw : w ≤ 32) (hoff : off < 32) (hj : j < 32) :
    (putRegField32 d off w v).getLsbD (31 - j) =
      if (j + 32 - off) % 32 < w then v.getLsbD (w - 1 - (j + 32 - off) % 32) else d.getLsbD (31 - j) := by
  have hi : (j + 32 - off) % 32 < 32 := Nat.mod_lt _ (by decide)
  have hback : (off + (j + 32 - off) % 32) % 32 = j := by omega
  have hmask : (fieldMask w <<< (32 - w)).getLsbD (31 - (j + 32 - off) % 32) =
      decide ((j + 32 - off) % 32 < w) := by
    rw [shiftToTop_bit hw _ hi, fieldMask_bit hw, ← Bool.decide_and, decide_eq_decide]
    omega
  rw [putRegField32, Nat.mod_eq_of_lt hoff, rotateRight_bit _ hoff hj, BitVec.getLsbD_or, BitVec.getLsbD_and,
    BitVec.getLsbD_and, BitVec.getLsbD_not, hmask, shiftToTop_bit hw v hi, rotateLeft_bit d hoff hi, hback]
  split_ifs with hin
  · rw [decide_eq_true hin, Bool.not_true, Bool.and_false, Bool.and_false, Bool.false_or, Bool.true_and, Bool.and_true]
  · rw [decide_eq_false hin, decide_eq_true (by omega), Bool.not_false, Bool.and_true, Bool.and_false, Bool.or_false,
      Bool.and_true]

/-! ## In a byte string -/

/-- A byte string as a number, high-order byte first (R73). -/
def stringNat (bs : List Byte) : Nat := bs.foldl (fun acc b => acc * 256 + b.toNat) 0

theorem stringNat_snoc (bs : List Byte) (b : Byte) : stringNat (bs ++ [b]) = 2 ^ 8 * stringNat bs + b.toNat := by
  rw [stringNat, List.foldl_append, Nat.mul_comm]
  rfl

/-- Bit `j` of a byte string is a bit of its number. -/
theorem stringNat_testBit (hj : j < 8 * bs.length) :
    (stringNat bs).testBit (8 * bs.length - 1 - j) = stringBit bs j := by
  induction bs using List.reverseRecOn with
  | nil => exact absurd hj (Nat.not_lt_zero j)
  | append_singleton xs b ih =>
    rw [List.length_append, List.length_singleton] at hj ⊢
    rw [stringNat_snoc, Nat.testBit_two_pow_mul_add _ b.isLt, stringBit]
    split_ifs with hlast
    · have hindex : 8 * (xs.length + 1) - 1 - j = 7 - j % 8 := by omega
      have hbyte : j / 8 - xs.length = 0 := by omega
      rw [List.getD_append_right _ _ _ _ (by omega), hbyte, hindex, BitVec.testBit_toNat]
      rfl
    · have hindex : 8 * (xs.length + 1) - 1 - j - 8 = 8 * xs.length - 1 - j := by omega
      rw [List.getD_append _ _ _ _ (by omega), hindex, ih (by omega), stringBit]

theorem natBytes_length (m n : Nat) : (natBytes m n).length = n := by
  induction n with
  | zero => rfl
  | succ n ih => rw [natBytes, List.length_cons, ih]

/-- Bit `j` of the bytes of a number is a bit of the number. -/
theorem natBytes_bit (m : Nat) (hj : j < 8 * n) : stringBit (natBytes m n) j = m.testBit (8 * n - 1 - j) := by
  induction n generalizing j with
  | zero => exact absurd hj (Nat.not_lt_zero j)
  | succ n ih =>
    have hpow : 256 ^ n = 2 ^ (8 * n) := (pow_mul 2 8 n).symm
    by_cases hfirst : j < 8
    · have hindex : 7 - j % 8 + 8 * n = 8 * (n + 1) - 1 - j := by omega
      rw [stringBit, natBytes, Nat.div_eq_of_lt hfirst, List.getD_cons_zero, BitVec.getLsbD_ofNat, hpow,
        Nat.testBit_div_two_pow, hindex, decide_eq_true (by omega), Bool.true_and]
    · obtain ⟨k, rfl⟩ := Nat.exists_eq_add_of_le' (not_lt.mp hfirst)
      have hindex : 8 * (n + 1) - 1 - (k + 8) = 8 * n - 1 - k := by omega
      have hrest := ih (j := k) (by omega)
      rw [stringBit] at hrest
      rw [stringBit, natBytes, Nat.add_div_right k (by decide), List.getD_cons_succ, Nat.add_mod_right, hrest, hindex]

theorem memField_lt (bs : List Byte) (off w : Nat) : (memField bs off w).toNat < 2 ^ w := by
  rw [memField, BitVec.toNat_ofNat]
  exact (Nat.mod_le _ _).trans_lt (Nat.mod_lt _ (Nat.two_pow_pos w))

theorem memField_bit (hw : w ≤ 32) (hlen : off + w ≤ 8 * bs.length) (hi : i < w) :
    (memField bs off w).getLsbD (w - 1 - i) = stringBit bs (off + i) := by
  have hindex : w - 1 - i + (8 * bs.length - off - w) = 8 * bs.length - 1 - (off + i) := by omega
  rw [← stringNat_testBit (by omega), ← hindex, ← Nat.testBit_div_two_pow, memField, BitVec.getLsbD_ofNat,
    Nat.testBit_mod_two_pow, decide_eq_true (by omega), decide_eq_true (by omega), Bool.true_and, Bool.true_and]
  rfl

theorem putMemField_length (bs : List Byte) (off w : Nat) (v : Long) : (putMemField bs off w v).length = bs.length :=
  natBytes_length _ _

/-- A number with the `w` bits above its `low` low ones replaced by those of another. -/
theorem replaced_testBit (old new low w k : Nat) :
    (old / 2 ^ (low + w) * 2 ^ (low + w) + new % 2 ^ w * 2 ^ low + old % 2 ^ low).testBit k =
      if low ≤ k ∧ k < low + w then new.testBit (k - low) else old.testBit k := by
  have hsum : old / 2 ^ (low + w) * 2 ^ (low + w) + new % 2 ^ w * 2 ^ low + old % 2 ^ low =
      2 ^ low * (2 ^ w * (old / 2 ^ (low + w)) + new % 2 ^ w) + old % 2 ^ low := by ring
  rw [hsum, Nat.testBit_two_pow_mul_add _ (Nat.mod_lt _ (Nat.two_pow_pos _)),
    Nat.testBit_two_pow_mul_add _ (Nat.mod_lt _ (Nat.two_pow_pos _)), Nat.testBit_mod_two_pow,
    Nat.testBit_mod_two_pow, Nat.testBit_div_two_pow]
  by_cases hlow : k < low
  · rw [if_pos hlow, if_neg (by omega), decide_eq_true hlow, Bool.true_and]
  · by_cases hin : k - low < w
    · rw [if_neg hlow, if_pos hin, if_pos (by omega), decide_eq_true hin, Bool.true_and]
    · have hindex : k - low - w + (low + w) = k := by omega
      rw [if_neg hlow, if_neg hin, if_neg (by omega), hindex]

theorem putMemField_bit (hlen : off + w ≤ 8 * bs.length) (hj : j < 8 * bs.length) :
    stringBit (putMemField bs off w v) j =
      if off ≤ j ∧ j < off + w then v.getLsbD (w - 1 - (j - off)) else stringBit bs j := by
  rw [putMemField, natBytes_bit _ hj, replaced_testBit, ← stringNat_testBit hj]
  refine if_ctx_congr (by omega) (fun hin => ?_) fun _ => rfl
  rw [BitVec.testBit_toNat]
  congr 1
  omega

/-- Settles O45: a register field is read and replaced in the rotated register, a memory field in the number of the
byte string. -/
theorem fieldBits : Obligations.FieldBits := by
  intro d v off w bs _ hw
  exact ⟨fun hoff => ⟨regField32_lt hw d off, fun _ hi => regField32_bit hw hoff hi,
    fun _ hj => putRegField32_bit hw hoff hj⟩, fun hlen => ⟨memField_lt bs off w,
    fun _ hi => memField_bit hw hlen hi, putMemField_length bs off w v, fun _ hj => putMemField_bit hlen hj⟩⟩

end Sys2Proof.Machine
end

/-! # The bit-field instructions (O46) -/

section
namespace Sys2Proof.Machine

variable {s u : State} {ea : Ea} {f : BitField} {dn : Reg} {write : Bool} {x v : Long} {put : Long → State}
  {y : Field} {fc : FC} {a : Long} {n w k : Nat} {bs : List Byte}

/-! ## Offset and width (R320) -/

/-- The width is 1 to 32 and agrees modulo 32 with the number given: 0 stands for 32. -/
theorem State.fieldWidth_spec (s : State) (f : BitField) :
    1 ≤ s.fieldWidth f ∧ s.fieldWidth f ≤ 32 ∧ s.fieldWidth f % 32 =
      (if f.widReg then (s.dreg ⟨f.wid.toNat % 8, Nat.mod_lt _ (by decide)⟩).toNat else f.wid.toNat) % 32 := by
  have hwid := f.wid.isLt
  unfold State.fieldWidth
  dsimp only
  split_ifs <;> omega

theorem State.fieldWidth_le (s : State) (f : BitField) : s.fieldWidth f ≤ 32 := (s.fieldWidth_spec f).2.1

/-! ## What is computed from a field -/

/-- The flags of a field of `w` bits (R320). -/
def fieldFlags (w : Nat) (x : Long) (old : CC) : CC := ⟨old.x, x.getLsbD (w - 1), decide (x = 0), false, false⟩

theorem fieldCc_eq (w : Nat) (x : Long) (old : CC) : fieldCc w x old = fieldFlags w x old := by
  rw [fieldCc, beq_eq_decide]
  rfl

/-- The bits above a field, all set, are the number -2^w. -/
theorem not_fieldMask (w : Nat) : ~~~(fieldMask w) = -BitVec.ofNat 32 (2 ^ w) := by
  have hsucc : BitVec.ofNat 32 (2 ^ w) = fieldMask w + 1 := by
    rw [← Nat.sub_add_cancel (Nat.two_pow_pos w), BitVec.ofNat_add]
    rfl
  rw [hsucc, neg_add, BitVec.neg_eq_not_add]
  exact (add_neg_cancel_right _ _).symm

theorem and_not_fieldMask (hw : w ≤ 32) (hx : x.toNat < 2 ^ w) : x &&& ~~~(fieldMask w) = 0#32 := by
  apply BitVec.eq_of_getLsbD_eq
  intro i hi
  rw [BitVec.getLsbD_and, BitVec.getLsbD_not, fieldMask_bit hw, BitVec.getLsbD_zero]
  by_cases hiw : i < w
  · rw [decide_eq_true hiw, Bool.not_true, Bool.and_false, Bool.and_false]
  · have hlt : x.toNat < 2 ^ i := hx.trans_le (Nat.pow_le_pow_right two_pos (not_lt.mp hiw))
    rw [← BitVec.testBit_toNat, Nat.testBit_lt_two_pow hlt, Bool.false_and]

/-- The sign of a field is spread over the bits above it (R323). -/
theorem signedField_eq (hw : w ≤ 32) (hx : x.toNat < 2 ^ w) : signedField w x = BitVec.ofInt 32 (fieldInt w x) := by
  have hpow : (2 : Int) ^ w = (2 ^ w : Nat) := by norm_cast
  unfold signedField fieldInt
  split
  · rw [← BitVec.add_eq_or_of_and_eq_zero _ _ (and_not_fieldMask hw hx), not_fieldMask, hpow, sub_eq_add_neg,
      BitVec.ofInt_add, BitVec.ofInt_neg, BitVec.ofInt_natCast, BitVec.ofInt_natCast, BitVec.ofNat_toNat,
      BitVec.setWidth_eq]
  · rw [BitVec.ofInt_natCast, BitVec.ofNat_toNat, BitVec.setWidth_eq]

/-- The first 1 bit of a field is the one before which all are 0 (R324). -/
theorem firstOne_eq (hk : k ≤ w) (hzero : ∀ i < k, x.getLsbD (w - 1 - i) = false)
    (hone : k = w ∨ x.getLsbD (w - 1 - k) = true) : firstOne x w = k := by
  induction w generalizing k with
  | zero => exact (Nat.le_zero.mp hk).symm
  | succ w ih =>
    rw [firstOne]
    cases k with
    | zero => exact if_pos (hone.resolve_left (Nat.succ_ne_zero w).symm)
    | succ k =>
      have htop := hzero 0 (Nat.succ_pos k)
      have hindex (i : Nat) : w + 1 - 1 - (i + 1) = w - 1 - i := by omega
      rw [Nat.add_sub_cancel, Nat.sub_zero] at htop
      rw [if_neg (by rw [htop]; exact Bool.false_ne_true), Nat.add_comm 1]
      refine congrArg (· + 1) (ih (Nat.le_of_succ_le_succ hk) (fun i hi => ?_) (hone.imp Nat.succ.inj fun h => ?_))
      · rw [← hindex]
        exact hzero (i + 1) (Nat.succ_lt_succ hi)
      · rwa [← hindex]

/-! ## The bytes of a field (log 40) -/

theorem liftBus_ok {α : Type} {x : Bus α} {v : α} (h : x s = .ok v u) : liftBus x s = .ok v u := by
  rw [liftBus, h]

theorem busWrite_ok {rmw : Bool} (h : s.writable fc a bs.length) :
    busWrite rmw fc a bs s = .ok () (s.store fc a bs) := by
  rw [State.writable] at h
  rw [busWrite, h]

theorem State.load_add (s : State) (fc : FC) (a : Long) (m n : Nat) :
    s.load fc a (m + n) = s.load fc a m ++ s.load fc (a + BitVec.ofNat 32 m) n := by
  simp only [State.load_eq_map, List.range_add, List.map_append, List.map_map, Function.comp_def, BitVec.add_assoc,
    BitVec.ofNat_add]

/-- A long word or less, then the rest. -/
theorem State.load_parts (s : State) (fc : FC) (a : Long) (n : Nat) :
    s.load fc a (min n 4) ++ s.load fc (a + 4) (n - 4) = s.load fc a n := by
  rcases Nat.le_total n 4 with hn | hn
  · rw [Nat.min_eq_left hn, Nat.sub_eq_zero_of_le hn]
    exact List.append_nil _
  · obtain ⟨m, rfl⟩ := Nat.exists_eq_add_of_le hn
    rw [Nat.min_eq_right hn, Nat.add_sub_cancel_left, State.load_add]
    rfl

theorem State.store_parts (s : State) (fc : FC) (a : Long) (bs : List Byte) :
    (s.store fc a (bs.take 4)).store fc (a + 4) (bs.drop 4) = s.store fc a bs := by
  rcases Nat.le_total bs.length 4 with hn | hn
  · rw [List.take_of_length_le hn, List.drop_of_length_le hn]
    rfl
  · have hsplit := s.store_append fc a (bs.take 4) (bs.drop 4)
    rw [List.take_append_drop, List.length_take, Nat.min_eq_left hn] at hsplit
    exact hsplit.symm

theorem readField_ok (hlo : s.readable fc a (min n 4)) (hhi : s.readable fc (a + 4) (n - 4)) :
    readField fc a n s = .ok (s.load fc a n) s := by
  rw [← State.load_parts]
  exact (M.bind_ok (liftBus_ok (busRead_ok hlo))).trans (M.bind_ok (liftBus_ok (busRead_ok hhi)))

theorem writeField_ok (hlo : s.writable fc a (min bs.length 4)) (hhi : s.writable fc (a + 4) (bs.length - 4)) :
    writeField fc a bs s = .ok () (s.store fc a bs) := by
  rw [← List.length_drop] at hhi
  rw [Nat.min_comm, ← List.length_take] at hlo
  rw [← State.store_parts]
  exact (M.bind_ok (liftBus_ok (busWrite_ok hlo))).trans (liftBus_ok (busWrite_ok hhi))

/-! ## Fetching and replacing a field -/

/-- `y` is what an instruction fetches of the field that `FieldAt` describes: its value and width, where it is, and
that replacing it gives `put`. -/
structure Fetches (write : Bool) (ea : Ea) (f : BitField) (s : State) (x : Long) (put : Long → State) (y : Field) :
    Prop where
  fetch : fetchField ea f s = .ok y s
  value : y.value = x
  width : y.width = s.fieldWidth f
  lt : x.toNat < 2 ^ s.fieldWidth f
  inRegister : y.reg.isSome = true → y.off = (s.fieldOffset f % 32).toNat ∧ ¬ ∃ a, memAddr .b 1 ea s = .ok a s
  store : write = true → ∀ v cc, storeField y v (s.setCc cc) = .ok () ((put v).setCc cc)
  npc : ∀ v k, (put v).npc k = s.npc k

/-- The field at the byte address `a` from bit `o` of its first byte, `n` bytes long. -/
def memoryField (ea : Ea) (f : BitField) (s : State) (a : Long) (o n : Nat) : Field :=
  ⟨none, s.eaSpace ea, a, s.load (s.eaSpace ea) a n, o, s.fieldWidth f,
    memField (s.load (s.eaSpace ea) a n) o (s.fieldWidth f)⟩

section

variable {base : Long} {o : Nat} (ha : a = base + BitVec.ofInt 32 (s.fieldOffset f / 8))
  (ho : o = (s.fieldOffset f % 8).toNat) (hn : n = fieldBytes o (s.fieldWidth f))
include ha ho hn

/-- In memory the field starts in the byte at the floor of the offset by 8. -/
theorem fetchField_memory (hbase : memAddr .b 1 ea s = .ok base s)
    (hlo : s.readable (s.eaSpace ea) a (min n 4)) (hhi : s.readable (s.eaSpace ea) (a + 4) (n - 4)) :
    fetchField ea f s = .ok (memoryField ea f s a o n) s := by
  subst ha ho hn
  cases ea with
  | dreg _ | areg _ | imm _ => cases hbase
  | _ => exact (M.get_bind _ s).trans ((M.bind_ok hbase).trans (M.bind_ok (readField_ok hlo hhi)))

end

theorem storeField_memory {o : Nat} (hlo : s.writable (s.eaSpace ea) a (min n 4))
    (hhi : s.writable (s.eaSpace ea) (a + 4) (n - 4)) (v : Long) (cc : CC) :
    storeField (memoryField ea f s a o n) v (s.setCc cc) = .ok () ((s.store (s.eaSpace ea) a
      (putMemField (s.load (s.eaSpace ea) a n) o (s.fieldWidth f) v)).setCc cc) := by
  have hlen : (putMemField (s.load (s.eaSpace ea) a n) o (s.fieldWidth f) v).length = n :=
    (putMemField_length _ _ _ _).trans (Memory.load_length _ _ _ _)
  rw [← hlen] at hlo hhi
  exact writeField_ok (s := s.setCc cc) hlo hhi

/-- Every field that `FieldAt` describes is fetched. -/
theorem FieldAt.fetches (h : FieldAt write ea f s x put) : ∃ y, Fetches write ea f s x put y := by
  obtain ⟨r, rfl, rfl, hput⟩ | ⟨base, hbase, hrlo, hrhi, hw, rfl, hput⟩ := h
  · exact ⟨_, {
      fetch := rfl
      value := rfl
      width := rfl
      lt := regField32_lt (s.fieldWidth_le f) _ _
      inRegister := fun _ => ⟨rfl, fun ⟨_, ha⟩ => nomatch ha⟩
      store := fun _ v cc => by rw [hput]; rfl
      npc := fun v k => by rw [hput]; rfl }⟩
  · exact ⟨_, {
      fetch := fetchField_memory rfl rfl rfl hbase hrlo hrhi
      value := rfl
      width := rfl
      lt := memField_lt _ _ _
      inRegister := nofun
      store := fun hwrite v cc => by
        obtain ⟨hwlo, hwhi⟩ := hw hwrite
        rw [hput]
        exact storeField_memory hwlo hwhi v cc
      npc := fun v k => by rw [hput]; rfl }⟩

/-! ## The instructions -/

/-- An instruction that fetches its field, sets the flags by it and does `u` to the state. -/
theorem Fetches.runInstr_fieldInstr {body : Field → M Unit} (h : Fetches write ea f s x put y)
    (hbody : body y (s.setCc (fieldFlags (s.fieldWidth f) x s.cc)) =
      .ok () (u.setCc (fieldFlags (s.fieldWidth f) x s.cc))) (hnpc : u.npc (2 + ea.words) = s.npc (2 + ea.words)) :
    runInstr (fieldInstr ea f body) s =
      .next ((u.setCc (fieldFlags (s.fieldWidth f) x s.cc)).goOn (s.npc (2 + ea.words))) := by
  rw [← fieldCc_eq, ← h.width, ← h.value] at hbody ⊢
  refine runInstr_ok ((M.bind_ok h.fetch).trans ((M.modify_bind _ _ s).trans ((M.bind_ok hbody).trans ?_)))
  rw [M.advance_run, State.npc_setCc, hnpc]

/-- BFCHG, BFCLR and BFSET (R325 to R327). -/
theorem Fetches.runInstr_replace (h : Fetches write ea f s x put y) (hw : write = true) (g : Field → Long) :
    runInstr (fieldInstr ea f fun x => storeField x (g x)) s =
      .next (((put (g y)).setCc (fieldFlags (s.fieldWidth f) x s.cc)).goOn (s.npc (2 + ea.words))) :=
  h.runInstr_fieldInstr (h.store hw _ _) (h.npc _ _)

/-- BFEXTU and BFEXTS (R322, R323). -/
theorem Fetches.runInstr_extract (h : Fetches write ea f s x put y) (dn : Reg) (g : Field → Long) :
    runInstr (fieldInstr ea f fun x => modify fun t => t.setD dn (g x)) s =
      .next (((s.setD dn (g y)).setCc (fieldFlags (s.fieldWidth f) x s.cc)).goOn (s.npc (2 + ea.words))) :=
  h.runInstr_fieldInstr rfl rfl

theorem Fetches.exec_bfexts (h : Fetches write ea f s x put y) (dn : Reg) : exec (.bfexts ea f dn) s =
    .next (((s.setD dn (BitVec.ofInt 32 (fieldInt (s.fieldWidth f) x))).setCc
      (fieldFlags (s.fieldWidth f) x s.cc)).goOn (s.npc (2 + ea.words))) := by
  rw [← signedField_eq (s.fieldWidth_le f) h.lt]
  refine (h.runInstr_extract dn fun x => signedField x.width x.value).trans ?_
  rw [h.width, h.value]

/-- BFINS takes the low bits of Dn, and the flags from them (R328). -/
theorem Fetches.exec_bfins (h : Fetches write ea f s x put y) (hw : write = true) (dn : Reg)
    (hv : v = BitVec.ofNat 32 ((s.dreg dn).toNat % 2 ^ s.fieldWidth f)) : exec (.bfins dn ea f) s =
      .next (((put v).setCc (fieldFlags (s.fieldWidth f) v s.cc)).goOn (s.npc (2 + ea.words))) := by
  have hlow : s.dreg dn &&& fieldMask y.width = v := by
    rw [hv, h.width, ← Nat.and_two_pow_sub_one_eq_mod, BitVec.ofNat_and, BitVec.ofNat_toNat, BitVec.setWidth_eq]
    rfl
  rw [← fieldCc_eq, ← h.width, ← hlow]
  refine runInstr_ok ((M.bind_ok h.fetch).trans ((M.get_bind _ s).trans ((M.set_bind _ _ s).trans
    ((M.bind_ok (h.store hw _ _)).trans ?_))))
  rw [M.advance_run, State.npc_setCc, h.npc]

/-! ## BFFFO (R324) -/

theorem ffoOffset_fixed {off : Int} (h : ¬ (y.reg.isSome = true ∧ ¬ (0 ≤ off ∧ off < 32))) (t : State) :
    ffoOffset off y t = .ok (BitVec.ofInt 32 off) t := M.ite_neg h t

/-- Where the spec leaves the offset free, it is the register or its value modulo 32, whatever the draw (93 U26). -/
theorem ffoOffset_cases {off : Int} (hoff : y.reg.isSome = true → y.off = (off % 32).toNat) (t : State) :
    ∃ o m, (o = off ∨ o = off % 32) ∧ ffoOffset off y t = .ok (BitVec.ofInt 32 o) (t.used m) := by
  by_cases hfree : y.reg.isSome = true ∧ ¬ (0 ≤ off ∧ off < 32)
  · have hmod : BitVec.ofNat 32 y.off = BitVec.ofInt 32 (off % 32) := by
      rw [hoff hfree.1, ← BitVec.ofInt_natCast, Int.toNat_of_nonneg (Int.emod_nonneg _ (by decide))]
    obtain ⟨b, hb⟩ : ∃ b, drawBit t = .ok b (t.used 1) := ⟨_, rfl⟩
    have hrun := (M.ite_pos (y := pure (BitVec.ofInt 32 off)) hfree t).trans (M.bind_ok (f := fun b =>
      pure (if b then BitVec.ofNat 32 y.off else BitVec.ofInt 32 off)) hb)
    cases b
    · exact ⟨off, 1, .inl rfl, hrun⟩
    · exact ⟨off % 32, 1, .inr rfl, hmod ▸ hrun⟩
  · exact ⟨off, 0, .inl rfl, ffoOffset_fixed hfree t⟩

theorem Fetches.exec_bfffo (h : Fetches write ea f s x put y) (dn : Reg) {o : Int} {m : Nat}
    (hk : firstOne x (s.fieldWidth f) = k)
    (ho : ffoOffset (s.fieldOffset f) y (s.setCc (fieldFlags (s.fieldWidth f) x s.cc)) =
      .ok (BitVec.ofInt 32 o) ((s.setCc (fieldFlags (s.fieldWidth f) x s.cc)).used m)) : exec (.bfffo ea f dn) s =
        .next ((((s.used m).setD dn (BitVec.ofInt 32 (o + k))).setCc
          (fieldFlags (s.fieldWidth f) x s.cc)).goOn (s.npc (2 + ea.words))) := by
  refine h.runInstr_fieldInstr ((M.bind_ok ho).trans ?_) rfl
  rw [M.modify_run, h.value, h.width, hk, BitVec.ofInt_add, BitVec.ofInt_natCast]
  rfl

/-- Settles O46: the field is fetched once, wherever it is, and each instruction is what it does with it. -/
theorem fieldInstructions : Obligations.FieldInstructions := by
  refine ⟨fun s f => ⟨rfl, s.fieldWidth_spec f⟩, ?_⟩
  intro s ea f dn write x put hfield w flags out
  obtain ⟨y, h⟩ := hfield.fetches
  refine ⟨h.runInstr_fieldInstr rfl rfl, h.value ▸ h.runInstr_extract dn fun x => x.value, h.exec_bfexts dn,
    fun k hk hzero hone => ⟨fun hplace => ?_, ?_⟩, fun hw => ⟨h.value ▸ h.runInstr_replace hw fun x => ~~~x.value,
      h.runInstr_replace hw fun _ => 0, h.runInstr_replace hw fun _ => fieldMask 32, h.exec_bfins hw dn rfl⟩⟩
  · refine h.exec_bfffo (m := 0) dn (firstOne_eq hk hzero hone) (ffoOffset_fixed (fun hreg => ?_) _)
    exact hplace.elim (h.inRegister hreg.1).2 hreg.2
  · obtain ⟨o, m, ho, hrun⟩ := ffoOffset_cases (fun hreg => (h.inRegister hreg).1) (s.setCc (flags x))
    exact ⟨o, m, ho, h.exec_bfffo dn (firstOne_eq hk hzero hone) hrun⟩

end Sys2Proof.Machine
end

/-! # ABCD, SBCD and NBCD (O47) -/

section
namespace Sys2Proof.Machine

variable {s t u : State} {sz : Size} {own : Nat} {ea : Ea} {rx ry : Reg} {op : BcdOp} {a v : Long}
  {exact : Long → Long → Bool → Int}

/-! ## Changes that meet no bus error -/

theorem Changes.of_dreg (s : State) (sz : Size) (own : Nat) (r : Reg) (f : Long → CC → Long × CC) :
    ∃ u, Changes sz own (.dreg r) f s u :=
  ⟨_, .inl ⟨r, rfl, rfl⟩⟩

theorem Changes.of_memory (f : Long → CC → Long × CC) (hm : inMemory ea = true)
    (ha : memAddr sz own ea s = .ok a t) (hr : t.readable t.dataSpace a sz.bytes)
    (hw : t.writable t.dataSpace a sz.bytes) : ∃ u, Changes sz own ea f s u :=
  ⟨_, .inr ⟨hm, a, t, ha, hr, hw, rfl⟩⟩

/-- The predecremented byte of a decimal operation, its address named before the step (R114). -/
theorem Changes.of_predec_byte (own : Nat) (f : Long → CC → Long × CC)
    (ha : a = t.areg rx - (if rx = 7 then 2 else 1)) (hr : t.readable t.dataSpace a 1)
    (hw : t.writable t.dataSpace a 1) : ∃ u, Changes .b own (.predec rx) f t u := by
  have hstep : a = t.areg rx - stepOf .b rx := by
    rw [ha, stepOf]
    simp only [and_true]
    rfl
  have haddr : memAddr .b own (.predec rx) t = .ok a (t.setA rx a) := hstep ▸ rfl
  refine Changes.of_memory f rfl haddr ?_ ?_ <;> rw [State.dataSpace_setA]
  · exact (State.readable_congr (t.setA_platform rx a) _ _ _).mpr hr
  · exact (State.writable_congr (t.setA_platform rx a) _ _ _).mpr hw

/-! ## Two digits as a number (R340) -/

theorem bcdValid_eq (v : Long) : bcdValid v = isDecimal v := (Bool.decide_and _ _).symm

theorem bcdValue_eq (v : Long) : (bcdValue v : Int) = decimalOf v := by
  rw [bcdValue, decimalOf]
  push_cast
  rfl

theorem decimalOf_nonneg (v : Long) : 0 ≤ decimalOf v := bcdValue_eq v ▸ Int.natCast_nonneg _

theorem decimalOf_lt (h : isDecimal v = true) : decimalOf v < 100 := by
  have hdigits := of_decide_eq_true h
  rw [decimalOf]
  omega

theorem bcdOf_emod (i : Int) : bcdOf (i % 100).toNat = digitsOf i := by
  rw [bcdOf, digitsOf, ← BitVec.ofInt_natCast]
  congr 1
  omega

/-! ## The exact results (R341 to R343) -/

/-- `d + v + X` (R341). -/
def decimalSum (v d : Long) (x : Bool) : Int := decimalOf d + decimalOf v + x.toNat

/-- `d - v - X` (R342, R343). -/
def decimalDifference (v d : Long) (x : Bool) : Int := decimalOf d - decimalOf v - x.toNat

/-- On a proper destination `op` answers the digits of the exact result, and whether it left 0 to 99. -/
def ExactDecimal (op : BcdOp) (exact : Long → Long → Bool → Int) : Prop :=
  ∀ v d x, isDecimal d = true →
    op v d x = (digitsOf (exact v d x), decide (exact v d x < 0 ∨ 100 ≤ exact v d x))

theorem abcdOut_exact : ExactDecimal abcdOut decimalSum := by
  intro v d x _
  have hv := decimalOf_nonneg v
  have hd := decimalOf_nonneg d
  have hsum : ((bcdValue v + bcdValue d + (if x then 1 else 0) : Nat) : Int) = decimalSum v d x := by
    rw [decimalSum, ← bcdValue_eq, ← bcdValue_eq]
    cases x <;> simp [Int.add_comm]
  rw [abcdOut, ← hsum, ← bcdOf_emod]
  refine Prod.ext (congrArg bcdOf ?_) (decide_eq_decide.mpr ?_) <;> omega

theorem sbcdOut_exact : ExactDecimal sbcdOut decimalDifference := by
  intro v d x hproper
  have hv := decimalOf_nonneg v
  have hd := decimalOf_lt hproper
  have hdiff : (bcdValue d : Int) - bcdValue v - (if x then 1 else 0) = decimalDifference v d x := by
    rw [decimalDifference, ← bcdValue_eq, ← bcdValue_eq]
    cases x <;> rfl
  have hbelow : decimalDifference v d x < 100 := by
    rw [decimalDifference]
    omega
  rw [sbcdOut, hdiff]
  refine Prod.ext (bcdOf_emod _) (decide_eq_decide.mpr ?_)
  omega

/-- What one draw gives a decimal operation (log 34, log 35). -/
def DecimalFree.ofDraw (free : Long) : DecimalFree where
  n := free.getLsbD 9
  v := free.getLsbD 10
  byte := free.setWidth 8
  carry := free.getLsbD 8
  x := free.getLsbD 11

theorem bcdResult_eq {valid : Bool} {out : Long × Bool} {i : Int} (free : Long) (cc : CC)
    (h : valid = true → out = (digitsOf i, decide (i < 0 ∨ 100 ≤ i))) :
    bcdResult free valid out cc = (DecimalFree.ofDraw free).result valid i cc := by
  cases valid with
  | true => rw [h rfl]; rfl
  | false => rfl

/-- The change an exact decimal operation makes to its destination. -/
def decimalChange (exact : Long → Long → Bool → Int) (free : Long) (v d : Long) (cc : CC) : Long × CC :=
  (DecimalFree.ofDraw free).result (isDecimal v && isDecimal d) (exact v d cc.x) cc

theorem decimalChange_eq (hop : ExactDecimal op exact) (free v d : Long) (cc : CC) :
    decimalChange exact free v d cc = bcdResult free (bcdValid v && bcdValid d) (op v d cc.x) cc := by
  rw [bcdValid_eq, bcdValid_eq]
  exact (bcdResult_eq free cc fun h => hop v d cc.x (Bool.and_eq_true_iff.mp h).2).symm

/-! ## The instructions -/

theorem runInstr_bcdTwo_reg (hop : ExactDecimal op exact)
    (h : Changes .b 0 (.dreg rx) (decimalChange exact (Config.freeLong s.draws) (trunc .b (s.dreg ry))) (s.used 1) u) :
    runInstr (bcdTwo op false ry rx) s = .next (u.goOn (s.npc 1)) := by
  have hsource : readEa .b 0 (.dreg ry) (s.used 1) = .ok (trunc .b (s.dreg ry)) (s.used 1) := rfl
  have hchange := modifyEa_ok (h.congr fun d cc _ => decimalChange_eq hop _ _ d cc)
  refine runInstr_ok ((M.bind_ok (M.draw_run s)).trans ((M.bind_ok hsource).trans ((M.bind_ok hchange).trans ?_)))
  show advance 1 u = _
  rw [M.advance_run, h.npc, State.npc_used]

/-- The memory forms step and read the source before the destination (R341). -/
theorem runInstr_bcdTwo_mem (hop : ExactDecimal op exact) (hv : readEa .b 0 (.predec ry) (s.used 1) = .ok v t)
    (h : Changes .b 0 (.predec rx) (decimalChange exact (Config.freeLong s.draws) v) t u) :
    runInstr (bcdTwo op true ry rx) s = .next (u.goOn (s.npc 1)) := by
  have hchange := checkpoint_eq_ok.mpr (modifyEa_ok (h.congr fun d cc _ => decimalChange_eq hop _ _ d cc))
  refine runInstr_ok ((M.bind_ok (M.draw_run s)).trans ((M.bind_ok hv).trans ((M.bind_ok hchange).trans ?_)))
  show advance 1 u = _
  rw [M.advance_run, h.npc, readEa_npc hv, State.npc_used]

/-- NBCD subtracts its operand from 0 (R343). -/
theorem exec_nbcd
    (h : Changes .b 0 ea (fun d cc => decimalChange decimalDifference (Config.freeLong s.draws) d 0 cc) (s.used 1) u) :
    exec (.nbcd ea) s = .next (u.goOn (s.npc (1 + ea.words))) := by
  have hchange := modifyEa_ok (h.congr fun d cc _ => (decimalChange_eq sbcdOut_exact _ d 0 cc).trans
    (congrArg (fun valid => bcdResult _ valid _ _) (Bool.and_true (bcdValid d))))
  refine runInstr_ok ((M.bind_ok (M.draw_run s)).trans ((M.bind_ok hchange).trans ?_))
  rw [M.advance_run, h.npc, State.npc_used]

/-- Settles O47: each form completes with one change of its destination, by an exact sum or difference; the free bits
are those of the one draw. -/
theorem decimal : Obligations.Decimal := by
  intro s
  refine ⟨DecimalFree.ofDraw (Config.freeLong s.draws), fun ry rx => ⟨?_, ?_, ?_⟩, ?_, ?_⟩
  · exact (Changes.of_dreg _ _ _ _ _).imp fun u h => ⟨h, runInstr_bcdTwo_reg abcdOut_exact h⟩
  · exact (Changes.of_dreg _ _ _ _ _).imp fun u h => ⟨h, runInstr_bcdTwo_reg sbcdOut_exact h⟩
  · exact (Changes.of_dreg _ _ _ _ _).imp fun u h => ⟨h, exec_nbcd h⟩
  · intro ry rx v t hv a hr hw
    have hchange := fun f => Changes.of_predec_byte 0 f (a := a) rfl hr hw
    exact ⟨(hchange _).imp fun u h => ⟨h, runInstr_bcdTwo_mem abcdOut_exact hv h⟩,
      (hchange _).imp fun u h => ⟨h, runInstr_bcdTwo_mem sbcdOut_exact hv h⟩⟩
  · intro ea a t hm ha hr hw
    exact (Changes.of_memory _ hm ha hr hw).imp fun u h => ⟨h, exec_nbcd h⟩

end Sys2Proof.Machine
end

/-! # PACK and UNPK (O48) -/

section
namespace Sys2Proof.Machine

variable {s t : State} {rx ry : Reg} {adj : Word} {sx sy a v : Long} {j k n : Nat}

/-! ## Updates of an address register -/

theorem State.setA_used (s : State) (k : Nat) (r : Reg) (v : Long) : (s.used k).setA r v = (s.setA r v).used k := by
  unfold State.setA State.setSp
  simp only [State.sBit_used, State.mBit_used]
  split_ifs <;> rfl

theorem State.setA_store (s : State) (fc : FC) (a : Long) (bs : List Byte) (r : Reg) (v : Long) :
    (s.store fc a bs).setA r v = (s.setA r v).store fc a bs := by
  unfold State.setA State.setSp
  simp only [State.sBit_store, State.mBit_store]
  split_ifs <;> rfl

@[simp] theorem State.setA_setA (s : State) (r : Reg) (v w : Long) : (s.setA r v).setA r w = s.setA r w := by
  by_cases h : r.val < 7
  · simp [State.setA, h]
  · simp [State.setA, h]

/-! ## The results, by arithmetic (R344, R345) -/

/-- The low digits of the two bytes of `n` with the adjustment added. -/
def packedOf (adj : Word) (n : Nat) : Nat :=
  let m := (n + adj.toNat) % 65536
  m / 256 % 16 * 16 + m % 16

/-- The digits of `n` in two bytes, with the adjustment added. -/
def spreadOf (adj : Word) (n : Nat) : Nat := (n / 16 % 16 * 256 + n % 16 + adj.toNat) % 65536

theorem append_toNat {m n : Nat} (x : BitVec m) (y : BitVec n) : (x ++ y).toNat = x.toNat * 2 ^ n + y.toNat := by
  rw [BitVec.toNat_append, ← Nat.shiftLeft_add_eq_or_of_lt y.isLt, Nat.shiftLeft_eq]

theorem packByte_toNat (w : Word) : (packByte w).toNat = w.toNat / 256 % 16 * 16 + w.toNat % 16 := by
  have hfit : w.toNat / 2 ^ 8 % 2 ^ 4 * 2 ^ 4 + w.toNat % 2 ^ 4 < 2 ^ 32 := by omega
  rw [packByte, BitVec.toNat_setWidth, append_toNat, BitVec.extractLsb'_toNat, BitVec.extractLsb'_toNat,
    Nat.shiftRight_eq_div_pow, Nat.shiftRight_zero, Nat.mod_eq_of_lt hfit]
  rfl

theorem packByte_add_toNat (adj : Word) {w : Word} (h : w.toNat = n) : (packByte (w + adj)).toNat = packedOf adj n := by
  rw [packByte_toNat, BitVec.toNat_add, h]
  rfl

theorem unpackWord_toNat (v : Long) : (unpackWord v).toNat = v.toNat / 16 % 16 * 256 + v.toNat % 16 := by
  rw [unpackWord, append_toNat, append_toNat, append_toNat, BitVec.extractLsb'_toNat, BitVec.extractLsb'_toNat,
    Nat.shiftRight_eq_div_pow, Nat.shiftRight_zero, BitVec.toNat_ofNat]
  omega

theorem unpackWord_add_toNat (adj : Word) (h : v.toNat % 256 = n) : (unpackWord v + adj).toNat = spreadOf adj n := by
  have hhigh : v.toNat / 16 % 16 = n / 16 % 16 := by omega
  have hlow : v.toNat % 16 = n % 16 := by omega
  rw [BitVec.toNat_add, unpackWord_toNat, spreadOf, hhigh, hlow]

/-! ## Single bytes of memory -/

theorem extractLsb'_byte (w : Word) (i : Nat) :
    BitVec.ofNat 8 ((w.extractLsb' i 8).setWidth 32).toNat = BitVec.ofNat 8 (w.toNat / 2 ^ i) := by
  apply BitVec.eq_of_toNat_eq
  simp only [BitVec.toNat_ofNat, BitVec.toNat_setWidth, BitVec.extractLsb'_toNat, Nat.shiftRight_eq_div_pow]
  omega

theorem lowByte_eq (w : Word) : BitVec.ofNat 8 ((w.extractLsb' 0 8).setWidth 32).toNat = BitVec.ofNat 8 w.toNat := by
  rw [extractLsb'_byte, Nat.pow_zero, Nat.div_one]

theorem highByte_eq (w : Word) :
    BitVec.ofNat 8 ((w.extractLsb' 8 8).setWidth 32).toNat = BitVec.ofNat 8 (w.toNat / 256) := extractLsb'_byte w 8

theorem setWidth_byte_mod (b : Byte) : (b.setWidth 32 : Long).toNat % 256 = b.toNat := by
  rw [BitVec.toNat_setWidth_of_le (by decide), Nat.mod_eq_of_lt b.isLt]

theorem longBytes_one (v : Long) : longBytes v 1 = [BitVec.ofNat 8 v.toNat] := by
  have hbyte := longBytes_getElem v 1 0 Nat.one_pos
  rw [Nat.pow_zero, Nat.div_one] at hbyte
  exact congrArg (fun b => [b]) hbyte

/-- A byte is read as it was in a state with the same memory. -/
theorem readData_byte (hp : t.platform = s.platform) (hm : t.mem = s.mem) (hsr : t.sr = s.sr)
    (h : s.readable s.dataSpace a 1) : readData a .b t = .ok ((s.byte s.dataSpace a).setWidth 32) t := by
  have hspace := State.dataSpace_congr hsr
  have hread := readData_ok (sz := .b) (hspace ▸ (State.readable_congr hp s.dataSpace a 1).mpr h)
  rw [hspace, State.load_congr hp hm] at hread
  exact hread.trans (congrArg (EStateM.Result.ok · t) BitVec.zero_or)

theorem writeData_byte {b : Byte} (hp : t.platform = s.platform) (hsr : t.sr = s.sr)
    (h : s.writable s.dataSpace a 1) (hv : BitVec.ofNat 8 v.toNat = b) :
    writeData a .b v t = .ok () (t.store s.dataSpace a [b]) := by
  have hspace := State.dataSpace_congr hsr
  have hwrite := writeData_ok (sz := .b) (v := v) (hspace ▸ (State.writable_congr hp s.dataSpace a 1).mpr h)
  rw [hspace] at hwrite
  rw [← hv, ← longBytes_one]
  exact hwrite

/-! ## Steps (R344) -/

/-- The step is 1, or for A7 1 or 2, whatever the draw (93 U27, log 22). -/
theorem packStep_ok (r : Reg) (s : State) :
    ∃ (step : Long) (k : Nat), (step = 1 ∨ r = 7 ∧ step = 2) ∧ packStep r s = .ok step (s.used k) := by
  by_cases hr : r = 7
  · obtain ⟨b, hb⟩ : ∃ b, drawBit s = .ok b (s.used 1) := ⟨_, rfl⟩
    have hrun := (M.ite_pos (y := pure 1) hr s).trans (M.bind_ok (f := fun b =>
      pure (if b then (2 : Long) else 1)) hb)
    cases b
    · exact ⟨1, 1, .inl rfl, hrun⟩
    · exact ⟨2, 1, .inr ⟨hr, rfl⟩, hrun⟩
  · exact ⟨1, 0, .inl rfl, M.ite_neg hr s⟩

theorem stepDown_used (r : Reg) (step : Long) (s : State) (k : Nat) :
    stepDown r step (s.used k) = .ok (s.areg r - step) ((s.setA r (s.areg r - step)).used k) := by
  rw [← State.setA_used]
  rfl

/-- A second step starts from the first. -/
theorem stepDown_setA_used (r : Reg) (step a : Long) (s : State) (k : Nat) :
    stepDown r step ((s.setA r a).used k) = .ok (a - step) ((s.setA r (a - step)).used k) := by
  rw [stepDown_used, State.areg_setA_self, State.setA_setA]

/-- A step does not depend on what was stored before it. -/
theorem stepDown_store {r : Reg} {step : Long} (h : stepDown r step s = .ok a t) (fc : FC) (x : Long) (bs : List Byte) :
    stepDown r step (s.store fc x bs) = .ok a (t.store fc x bs) := by
  cases h
  rw [← State.setA_store]
  rfl

/-! ## The instructions -/

theorem exec_pack_reg (ry rx : Reg) (adj : Word) (s : State) : exec (.pack false ry rx adj) s =
    .next ((s.putD .b rx (BitVec.ofNat 32 (packedOf adj ((s.dreg ry).toNat % 65536)))).goOn (s.npc 2)) := by
  rw [← packByte_add_toNat adj (BitVec.toNat_setWidth 16 (s.dreg ry)), BitVec.ofNat_toNat, BitVec.setWidth_eq]
  rfl

theorem exec_unpk_reg (ry rx : Reg) (adj : Word) (s : State) : exec (.unpk false ry rx adj) s =
    .next ((s.putD .w rx (BitVec.ofNat 32 (spreadOf adj ((s.dreg ry).toNat % 256)))).goOn (s.npc 2)) := by
  rw [← unpackWord_add_toNat adj rfl, BitVec.ofNat_toNat]
  rfl

/-- The two bytes PACK reads, as one word. -/
theorem packSource_toNat (hi lo : Byte) :
    ((hi.setWidth 32 <<< 8 ||| lo.setWidth 32 : Long).setWidth 16).toNat = hi.toNat * 256 + lo.toNat := by
  have hfirst : bytesLong [hi] = hi.setWidth 32 := BitVec.zero_or
  have hpair := bytesLong_snoc_toNat (xs := [hi]) lo (by simp)
  have hhi := hi.isLt
  have hlo := lo.isLt
  rw [bytesLong_snoc, hfirst, BitVec.toNat_setWidth_of_le (by decide)] at hpair
  rw [BitVec.toNat_setWidth, hpair]
  omega

section Memory

variable {b c : Long} (hsy : packStep ry s = .ok sy (s.used j)) (hsx : packStep rx (s.used j) = .ok sx (s.used k))
include hsy hsx

/-- PACK reads the byte below the pointer, then the one below that, and stores one byte (R344). -/
theorem exec_pack_mem (ha : s.areg ry - sy = a) (ht : s.setA ry (a - sy) = t) (hb : t.areg rx - sx = b)
    (hlow : s.readable s.dataSpace a 1) (hhigh : s.readable s.dataSpace (a - sy) 1) (hw : s.writable s.dataSpace b 1) :
    exec (.pack true ry rx adj) s = .next ((((t.setA rx b).used k).store s.dataSpace b [BitVec.ofNat 8 (packedOf adj
      ((s.byte s.dataSpace (a - sy)).toNat * 256 + (s.byte s.dataSpace a).toNat))]).goOn (s.npc 2)) := by
  have hfirst := ha ▸ stepDown_used ry sy s k
  have hsecond := ht ▸ stepDown_setA_used ry sy a s k
  have hthird := hb ▸ stepDown_used rx sx t k
  have hreadLow := readData_byte (t := (s.setA ry a).used k) (by simp) (by simp) (by simp) hlow
  have hreadHigh := readData_byte (t := t.used k) (by simp [← ht]) (by simp [← ht]) (by simp [← ht]) hhigh
  have hwrite := writeData_byte (t := (t.setA rx b).used k) (by simp [← ht]) (by simp [← ht]) hw
    (congrArg (BitVec.ofNat 8) (packByte_add_toNat adj (packSource_toNat (s.byte s.dataSpace (a - sy))
      (s.byte s.dataSpace a))))
  refine runInstr_ok ((M.bind_ok hsy).trans ((M.bind_ok hsx).trans ((M.bind_ok hfirst).trans ((M.bind_ok hreadLow).trans
    ((M.bind_ok (checkpoint_eq_ok.mpr ((M.bind_ok hsecond).trans ((M.bind_ok hreadHigh).trans (checkpoint_eq_ok.mpr
      ((M.bind_ok hthird).trans hwrite)))))).trans ?_)))))
  show advance 2 _ = _
  rw [M.advance_run, State.npc_store, State.npc_used, State.npc_congr (t := t.setA rx b) (s := s) (by simp [← ht])]

/-- UNPK reads one byte and stores two, the low-order one first (R345). -/
theorem exec_unpk_mem (ha : s.areg ry - sy = a) (ht : s.setA ry a = t) (hb : t.areg rx - sx = b)
    (hn : spreadOf adj (s.byte s.dataSpace a).toNat = n) (hr : s.readable s.dataSpace a 1)
    (hlow : s.writable s.dataSpace b 1) (hhigh : s.writable s.dataSpace (b - sx) 1) :
    exec (.unpk true ry rx adj) s = .next (((((t.setA rx (b - sx)).used k).store s.dataSpace b
      [BitVec.ofNat 8 n]).store s.dataSpace (b - sx) [BitVec.ofNat 8 (n / 256)]).goOn (s.npc 2)) := by
  have hword := (unpackWord_add_toNat adj (setWidth_byte_mod (s.byte s.dataSpace a))).trans hn
  have hfirst := ht ▸ ha ▸ stepDown_used ry sy s k
  have hsecond := hb ▸ stepDown_used rx sx t k
  have hthird := stepDown_store (stepDown_setA_used rx sx b t k) s.dataSpace b [BitVec.ofNat 8 n]
  have hread := readData_byte (t := t.used k) (by simp [← ht]) (by simp [← ht]) (by simp [← ht]) hr
  have hwriteLow := writeData_byte (t := (t.setA rx b).used k) (by simp [← ht]) (by simp [← ht]) hlow
    (hword ▸ lowByte_eq _)
  have hwriteHigh := writeData_byte (t := ((t.setA rx (b - sx)).used k).store s.dataSpace b [BitVec.ofNat 8 n])
    (by simp [← ht]) (by simp [← ht]) hhigh (hword ▸ highByte_eq _)
  refine runInstr_ok ((M.bind_ok hsy).trans ((M.bind_ok hsx).trans ((M.bind_ok hfirst).trans ((M.bind_ok hread).trans
    ((M.bind_ok (checkpoint_eq_ok.mpr ((M.bind_ok hsecond).trans ((M.bind_ok hwriteLow).trans (checkpoint_eq_ok.mpr
      ((M.bind_ok hthird).trans hwriteHigh)))))).trans ?_)))))
  show advance 2 _ = _
  rw [M.advance_run, State.npc_store, State.npc_store, State.npc_used,
    State.npc_congr (t := t.setA rx (b - sx)) (s := s) (by simp [← ht])]

end Memory

/-- Settles O48: PACK and UNPK draw their two steps alike, so one pair of steps serves both memory forms. -/
theorem packUnpack : Obligations.PackUnpack := by
  intro s ry rx adj
  obtain ⟨sy, j, hy, hsy⟩ := packStep_ok ry s
  obtain ⟨sx, i, hx, hsx⟩ := packStep_ok rx (s.used j)
  rw [State.used_used] at hsx
  exact ⟨exec_pack_reg ry rx adj s, exec_unpk_reg ry rx adj s, sy, sx, j + i, hy, hx,
    exec_pack_mem hsy hsx rfl rfl rfl, exec_unpk_mem hsy hsx rfl rfl rfl rfl⟩

end Sys2Proof.Machine
end

/-! # Bcc, BRA, DBcc, JMP and NOP (O49) -/

section
namespace Sys2Proof.Machine

variable {ea : Ea} {s t : State} {a : Long}

theorem branchBy_run (d : Long) (s : State) : branchBy d s = .ok () (s.flowTo (s.pc + 2 + d)) := rfl

/-! ## Branches on a displacement (R350, R351) -/

theorem exec_bcc (c : Cond) (d : BrDisp) (s : State) : exec (.bcc c d) s =
    if condTrue c s.cc then .next (s.flowTo (s.pc + 2 + BitVec.ofInt 32 (distance d)))
    else .next (s.goOn (s.npc (1 + d.words))) := by
  rw [← brValue_eq]
  split
  case isTrue htaken => exact runInstr_ok (M.ite_pos htaken s)
  case isFalse hnot => exact runInstr_ok (M.ite_neg hnot s)

theorem exec_bra (d : BrDisp) (s : State) : exec (.bra d) s =
    .next (s.flowTo (s.pc + 2 + BitVec.ofInt 32 (distance d))) := by
  rw [← brValue_eq]
  exact runInstr_ok (branchBy_run _ s)

/-! ## DBcc (R353) -/

/-- The low word of a long word counted down by one. -/
theorem trunc_word_sub_one (v : Long) : trunc .w (v - 1) = BitVec.ofNat 32 ((v.toNat % 65536 + 65535) % 65536) := by
  have hpred : (v - 1).toNat = (2 ^ 32 - 1 + v.toNat) % 2 ^ 32 := BitVec.toNat_sub v 1
  have hlow : (v - 1).toNat % 2 ^ Size.w.bits = (v.toNat % 65536 + 65535) % 65536 := by
    rw [hpred, Size.bits]
    omega
  rw [trunc_eq_ofNat, hlow]

/-- The count has passed from 0 to -1 exactly when it was 0. -/
theorem trunc_word_sub_one_eq_iff (v : Long) : trunc .w (v - 1) = 0xFFFF ↔ v.toNat % 65536 = 0 := by
  rw [trunc_word_sub_one, ← BitVec.toNat_inj, BitVec.toNat_ofNat]
  show _ % _ = 65535 ↔ _
  omega

/-- DBcc with its condition false, as the branch taken or not after the count. -/
theorem exec_dbcc_counts {c : Cond} (hc : ¬ condTrue c s.cc = true) (dn : Reg) (d16 : Word) :
    exec (.dbcc c dn d16) s = runInstr (do
      modify fun t => t.putD .w dn (trunc .w (s.dreg dn - 1))
      if trunc .w (s.dreg dn - 1) != 0xFFFF then branchBy (sextWord d16) else advance 2) s :=
  runInstr_congr (M.ite_neg hc s)

theorem exec_dbcc (c : Cond) (dn : Reg) (d16 : Word) (s : State) :
    let n := (s.dreg dn).toNat % 65536
    let u := s.putD .w dn (BitVec.ofNat 32 ((n + 65535) % 65536))
    exec (.dbcc c dn d16) s =
      if condTrue c s.cc then .next (s.goOn (s.pc + 4))
      else if n = 0 then .next (u.goOn (s.pc + 4))
      else .next (u.flowTo (s.pc + 2 + BitVec.ofInt 32 d16.toInt)) := by
  intro n u
  have hcount : s.putD .w dn (trunc .w (s.dreg dn - 1)) = u := by rw [trunc_word_sub_one]
  split_ifs with hc hn
  · exact runInstr_ok (M.ite_pos hc s)
  · have hlast : ¬ (trunc .w (s.dreg dn - 1) != 0xFFFF) = true := by
      rw [(trunc_word_sub_one_eq_iff _).mpr hn]
      decide
    rw [exec_dbcc_counts hc, ← hcount]
    exact runInstr_ok (M.ite_neg hlast _)
  · have hmore : (trunc .w (s.dreg dn - 1) != 0xFFFF) = true :=
      bne_iff_ne.mpr (mt (trunc_word_sub_one_eq_iff _).mp hn)
    rw [exec_dbcc_counts hc, ← hcount]
    exact runInstr_ok (M.ite_pos hmore _)

/-! ## JMP (R355) -/

theorem exec_jmp (ha : memAddr .l 0 ea s = .ok a t) : exec (.jmp ea) s = .next (t.flowTo a) :=
  runInstr_ok (M.bind_ok ha)

/-- Settles O49: each instruction is one move of the PC, after the count for DBcc. -/
theorem branches : Obligations.Branches := fun s c d dn d16 =>
  ⟨exec_bcc c d s, exec_bra d s, exec_dbcc c dn d16 s, fun _ _ _ ha => exec_jmp ha, runInstr_ok (M.advance_run 1 s)⟩

end Sys2Proof.Machine
end

/-! # CALLM and RTM (O50) -/

section
namespace Sys2Proof.Machine

variable {s : State} {ea : Ea} {argc : Byte} {a m entry ew : Long} {head : Word} {rn : Rn}

/-! ## Words in memory -/

theorem State.wordAt_lt (s : State) (fc : FC) (a : Long) : (s.wordAt fc a).toNat < 2 ^ 16 := s.load_lt fc a .w

theorem State.setWidth_wordAt_toNat (s : State) (fc : FC) (a : Long) :
    ((s.wordAt fc a).setWidth 16).toNat = (s.wordAt fc a).toNat := by
  rw [BitVec.toNat_setWidth, Nat.mod_eq_of_lt (s.wordAt_lt fc a)]

/-- Two bytes as a word, high-order byte first. -/
theorem bytesLong_two (x y : Byte) : (bytesLong [x, y]).setWidth 16 = bytesWord x y := by
  apply BitVec.eq_of_toNat_eq
  have hx := x.isLt
  have hy := y.isLt
  rw [BitVec.toNat_setWidth, bytesLong_toNat _ (by simp), bytesWord, append_toNat, List.foldl_cons, List.foldl_cons,
    List.foldl_nil]
  omega

/-- The upper word of a long word is the word at its address (R73). -/
theorem State.longAt_upper (s : State) (fc : FC) (a : Long) :
    (s.longAt fc a).extractLsb' 16 16 = (s.wordAt fc a).setWidth 16 := by
  have hword : (s.wordAt fc a).setWidth 16 = bytesWord (s.byte fc a) (s.byte fc (a + 1)) := bytesLong_two _ _
  rw [hword, State.longAt_eq_append, BitVec.extractLsb'_append_eq_left]

/-- Bits 11:0 of an entry word (R365). -/
theorem entryBits_ne_zero_iff (v : Long) : (v.extractLsb' 0 12 != 0#12) = true ↔ v.toNat % 4096 ≠ 0 := by
  rw [bne_iff_ne, ne_eq, ← BitVec.toNat_inj, BitVec.extractLsb'_toNat, Nat.shiftRight_zero]
  rfl

/-- A write of the flags changes nothing that a data read answers. -/
theorem readData_setCc {sz : Size} (f : CC) (h : s.readable s.dataSpace a sz.bytes) :
    readData a sz (s.setCc f) = .ok (bytesLong (s.load s.dataSpace a sz.bytes)) (s.setCc f) := by
  have hread := readData_ok (s := s.setCc f) (a := a) (sz := sz)
  rw [State.dataSpace_setCc, State.readable_congr (State.setCc_platform s f),
    State.load_congr (State.setCc_platform s f) (State.setCc_mem s f)] at hread
  exact hread h

/-! ## The opt and type of a module (R361, R362, R540) -/

section CheckModule

variable {w : Word}

theorem moduleWordOk_iff : moduleWordOk w = true ↔
    (w.toNat / 8192 = 0 ∨ w.toNat / 8192 = 4) ∧ (w.toNat / 256 % 32 = 0 ∨ w.toNat / 256 % 32 = 1) := by
  have hw := w.isLt
  have hopt : w.toNat / 8192 % 8 = w.toNat / 8192 := by omega
  simp only [moduleWordOk, Bool.and_eq_true, Bool.or_eq_true, beq_iff_eq, ← BitVec.toNat_inj,
    BitVec.extractLsb'_toNat, Nat.shiftRight_eq_div_pow, BitVec.toNat_ofNat]
  norm_num [hopt]

theorem moduleType_eq_iff : (w.extractLsb' 8 5 == 1#5) = true ↔ w.toNat / 256 % 32 = 1 := by
  rw [beq_iff_eq, ← BitVec.toNat_inj, BitVec.extractLsb'_toNat, Nat.shiftRight_eq_div_pow]
  rfl

theorem checkModule_improper (h : w.toNat / 8192 ≠ 0 ∧ w.toNat / 8192 ≠ 4 ∨
      w.toNat / 256 % 32 ≠ 0 ∧ w.toNat / 256 % 32 ≠ 1) (s : State) :
    checkModule w s = .error (.raised s.formatExc) s := by
  have hbad : ¬ moduleWordOk w = true := by
    rw [moduleWordOk_iff]
    omega
  exact (M.get_bind _ s).trans (M.ite_neg hbad s)

theorem checkModule_accessLevel (ho : w.toNat / 8192 = 0 ∨ w.toNat / 8192 = 4) (hty : w.toNat / 256 % 32 = 1)
    (s : State) : checkModule w s = .error (.refuse .moduleAccessLevel) s :=
  (M.get_bind _ s).trans ((M.ite_pos (moduleWordOk_iff.mpr ⟨ho, .inr hty⟩) s).trans
    (M.ite_pos (moduleType_eq_iff.mpr hty) s))

theorem checkModule_ok (ho : w.toNat / 8192 = 0 ∨ w.toNat / 8192 = 4) (hty : w.toNat / 256 % 32 = 0) (s : State) :
    checkModule w s = .ok () s := by
  have hne : ¬ (w.extractLsb' 8 5 == 1#5) = true := by
    rw [moduleType_eq_iff]
    omega
  exact (M.get_bind _ s).trans ((M.ite_pos (moduleWordOk_iff.mpr ⟨ho, .inl hty⟩) s).trans (M.ite_neg hne s))

end CheckModule

/-! ## The module frame (R361, R363) -/

/-- Long words that can be written one after the other are one store. -/
theorem writeLongs_ok (vs : List Long)
    (hw : ∀ k < vs.length, s.writable s.dataSpace (a + BitVec.ofNat 32 (4 * k)) 4) :
    writeLongs a vs s = .ok () (s.store s.dataSpace a (vs.flatMap fun v => longBytes v 4)) := by
  induction vs generalizing a s with
  | nil => rfl
  | cons v rest ih =>
    have hfirst : s.writable s.dataSpace a 4 := by simpa using hw 0 (Nat.succ_pos _)
    have hrest : ∀ k < rest.length, (s.store s.dataSpace a (longBytes v 4)).writable
        (s.store s.dataSpace a (longBytes v 4)).dataSpace (a + 4 + BitVec.ofNat 32 (4 * k)) 4 := by
      intro k hk
      have hnext := hw (k + 1) (Nat.succ_lt_succ hk)
      rw [Nat.mul_succ, Nat.add_comm, BitVec.ofNat_add, ← BitVec.add_assoc] at hnext
      exact hnext
    rw [writeLongs, M.bind_ok (writeData_ok (sz := .l) hfirst)]
    refine (ih hrest).trans ?_
    rw [List.flatMap_cons, State.store_append, longBytes_length]
    rfl

/-- The two bytes of a word. -/
theorem longBytes_word (w : Word) : longBytes (w.setWidth 32) 2 = [w.extractLsb' 8 8, w.extractLsb' 0 8] := by
  rw [← BitVec.extractLsb'_setWidth_of_le (b := w) (w' := 32) (start := 8) (by decide),
    ← BitVec.extractLsb'_setWidth_of_le (b := w) (w' := 32) (start := 0) (by decide)]
  rfl

theorem longBytes_append (hi lo : Word) :
    longBytes (hi ++ lo) 4 = longBytes (hi.setWidth 32) 2 ++ longBytes (lo.setWidth 32) 2 := by
  rw [longBytes_word, longBytes_word, ← BitVec.extractLsb'_append_eq_of_le (xlo := lo) (start := 24) (by decide),
    ← BitVec.extractLsb'_append_eq_of_le (xhi := hi) (xlo := lo) (start := 16) (by decide),
    ← BitVec.extractLsb'_append_eq_of_add_le (xhi := hi) (start := 8) (by decide),
    ← BitVec.extractLsb'_append_eq_of_add_le (xhi := hi) (start := 0) (by decide)]
  rfl

theorem extractLsb'_eight (w : Word) (i : Nat) : w.extractLsb' i 8 = BitVec.ofNat 8 (w.toNat / 2 ^ i) := by
  apply BitVec.eq_of_toNat_eq
  rw [BitVec.extractLsb'_toNat, Nat.shiftRight_eq_div_pow, BitVec.toNat_ofNat]

/-- The first word of the frame: the upper byte is the descriptor's, the access level byte is free. -/
theorem longBytes_frameHead (head y : Word) : longBytes (((head &&& 0xFF00) ||| (y &&& 0x00FF)).setWidth 32) 2 =
    [BitVec.ofNat 8 (head.toNat / 256), y.extractLsb' 0 8] := by
  have hupper : ((head &&& 0xFF00) ||| (y &&& 0x00FF)).extractLsb' 8 8 = head.extractLsb' 8 8 := by
    rw [BitVec.extractLsb'_or, BitVec.extractLsb'_and, BitVec.extractLsb'_and]
    exact (congrArg₂ (· ||| ·) BitVec.and_allOnes BitVec.and_zero).trans BitVec.or_zero
  have hlower : ((head &&& 0xFF00) ||| (y &&& 0x00FF)).extractLsb' 0 8 = y.extractLsb' 0 8 := by
    rw [BitVec.extractLsb'_or, BitVec.extractLsb'_and, BitVec.extractLsb'_and]
    exact (congrArg₂ (· ||| ·) BitVec.and_zero BitVec.and_allOnes).trans BitVec.zero_or
  rw [longBytes_word, hupper, hlower, extractLsb'_eight head 8]
  rfl

/-- The CCR as a word of the frame. -/
theorem longBytes_frameCcr (sr : Word) : longBytes ((sr &&& 0x001F).setWidth 32) 2 =
    [0, BitVec.ofNat 8 (sr.toNat % 32)] := by
  have hlow : (sr &&& 0x001F).toNat = sr.toNat % 32 := Nat.and_two_pow_sub_one_eq_mod sr.toNat 5
  have hzero : sr.toNat % 32 / 2 ^ 8 = 0 := by omega
  rw [longBytes_word, extractLsb'_eight, extractLsb'_eight, hlow, hzero, Nat.pow_zero, Nat.div_one]
  rfl

theorem longBytes_byte (b : Byte) : longBytes ((b.setWidth 16).setWidth 32) 2 = [0, b] := by
  have hb := b.isLt
  have hvalue : (b.setWidth 16).toNat = b.toNat := BitVec.toNat_setWidth_of_le (by decide)
  have hzero : b.toNat / 2 ^ 8 = 0 := by omega
  rw [longBytes_word, extractLsb'_eight, extractLsb'_eight, hvalue, hzero, Nat.pow_zero, Nat.div_one,
    BitVec.ofNat_toNat, BitVec.setWidth_eq]
  rfl

/-- The long words of the frame of a type $00 module; `free` is a draw (93 U28, log 27). -/
def State.moduleFrame (s : State) (head : Word) (free : Long) (argc : Byte) (m next : Long) (rn : Rn) : List Long :=
  [((head &&& 0xFF00) ||| (free.setWidth 16 &&& 0x00FF)) ++ (s.sr &&& 0x001F),
    argc.setWidth 16 ++ free.extractLsb' 16 16, m, next, s.getR rn, s.sp]

theorem State.moduleFrame_bytes (s : State) (head : Word) (free : Long) (argc : Byte) (m next : Long) (rn : Rn) :
    (s.moduleFrame head free argc m next rn).flatMap (fun v => longBytes v 4) =
      [BitVec.ofNat 8 (head.toNat / 256), (free.setWidth 16).extractLsb' 0 8, 0, BitVec.ofNat 8 (s.sr.toNat % 32),
        0, argc] ++ longBytes ((free.extractLsb' 16 16).setWidth 32) 2 ++ longBytes m 4 ++ longBytes next 4 ++
        longBytes (s.getR rn) 4 ++ longBytes s.sp 4 := by
  simp only [State.moduleFrame, List.flatMap_cons, List.flatMap_nil, longBytes_append (_ ||| _),
    longBytes_append (argc.setWidth 16), longBytes_frameHead, longBytes_frameCcr, longBytes_byte, List.cons_append,
    List.nil_append, List.append_assoc, List.append_nil]

/-- The frame is written where SP has moved to (log 44). -/
theorem writeLongs_frame {vs : List Long} (hlen : vs.length = 6)
    (hw : ∀ k < 6, s.writable s.dataSpace (s.sp - 24 + BitVec.ofNat 32 (4 * k)) 4) :
    writeLongs (s.sp - 24) vs ((s.used 1).setSp (s.sp - 24)) = .ok ()
      (((s.used 1).setSp (s.sp - 24)).store s.dataSpace (s.sp - 24) (vs.flatMap fun v => longBytes v 4)) := by
  have hspace : ((s.used 1).setSp (s.sp - 24)).dataSpace = s.dataSpace := State.dataSpace_setSp (s.used 1) _
  have hplat : ((s.used 1).setSp (s.sp - 24)).platform = s.platform := State.setSp_platform (s.used 1) _
  rw [writeLongs_ok vs, hspace]
  intro k hk
  rw [hspace, State.writable_congr hplat]
  exact hw k (hlen ▸ hk)

/-! ## CALLM (R361, R363 to R365) -/

section Callm

variable (ha : memAddr .l 1 ea s = .ok m s) (hr : s.readable (s.eaSpace ea) m 4)
  (hhead : (s.longAt (s.eaSpace ea) m).extractLsb' 16 16 = head)
include ha hr hhead

/-- CALLM of a descriptor that the check of its opt and type stops. -/
theorem exec_callm_stopped {e : Abort} (h : checkModule head s = .error e s) :
    exec (.callm argc ea) s = runInstr (fun _ => .error e s) s := by
  subst hhead
  exact runInstr_congr ((M.bind_ok ha).trans ((M.get_bind _ s).trans ((M.bind_ok (readMem_ok (sz := .l) hr)).trans
    (M.bind_error h))))

variable (hcheck : checkModule head s = .ok () s) (hre : s.readable (s.eaSpace ea) (m + 4) 4)
  (hentry : s.longAt (s.eaSpace ea) (m + 4) = entry) (hrw : s.readable s.dataSpace entry 2)
  (hew : s.wordAt s.dataSpace entry = ew)
include hcheck hre hentry hrw hew

/-- An entry word with bits 11:0 set is refused (R365, 93 U9). -/
theorem exec_callm_entryWord (hbits : ew.toNat % 4096 ≠ 0) :
    exec (.callm argc ea) s = .refused .moduleEntryWord := by
  subst hhead hentry hew
  exact runInstr_refuse ((M.bind_ok ha).trans ((M.get_bind _ s).trans ((M.bind_ok (readMem_ok (sz := .l) hr)).trans
    ((M.bind_ok hcheck).trans ((M.bind_ok (readMem_ok (sz := .l) hre)).trans
      ((M.bind_ok (readData_ok (sz := .w) hrw)).trans (M.ite_pos ((entryBits_ne_zero_iff _).mpr hbits) s)))))))

/-- CALLM of a type $00 module: the frame, the data pointer read after it, the jump past the entry word. -/
theorem exec_callm {bs : List Byte} {u : State} (hbits : ew.toNat % 4096 = 0)
    (hrd : s.readable (s.eaSpace ea) (m + 8) 4)
    (hw : ∀ k < 6, s.writable s.dataSpace (s.sp - 24 + BitVec.ofNat 32 (4 * k)) 4) (hrn : rnOf (ew.toNat / 4096) = rn)
    (hbs : (s.moduleFrame head (Config.freeLong s.draws) argc m (s.npc (2 + ea.words)) rn).flatMap
      (fun v => longBytes v 4) = bs)
    (hu : ((s.used 1).setSp (s.sp - 24)).store s.dataSpace (s.sp - 24) bs = u) :
    exec (.callm argc ea) s = .next ((u.setR rn (u.longAt (s.eaSpace ea) (m + 8))).flowTo (entry + 2)) := by
  have hdata : u.readable (s.eaSpace ea) (m + 8) 4 := by
    rwa [← hu, State.readable_congr (s := s) (by simp)]
  subst hhead hentry hew hrn hbs hu
  have hclear := mt (entryBits_ne_zero_iff _).mp (not_not.mpr hbits)
  exact runInstr_ok ((M.bind_ok ha).trans ((M.get_bind _ s).trans ((M.bind_ok (readMem_ok (sz := .l) hr)).trans
    ((M.bind_ok hcheck).trans ((M.bind_ok (readMem_ok (sz := .l) hre)).trans
      ((M.bind_ok (readData_ok (sz := .w) hrw)).trans ((M.ite_neg hclear s).trans ((M.get_bind _ s).trans
        ((M.bind_ok (M.draw_run s)).trans ((M.modify_bind _ _ _).trans
          ((M.bind_ok (writeLongs_frame rfl hw)).trans (M.bind_ok (readMem_ok (sz := .l) hdata)))))))))))))

end Callm

/-! ## RTM (R362, R364) -/

/-- RTM from a frame that the check of its opt and type stops. -/
theorem exec_rtm_stopped {e : Abort} (hr : s.readable s.dataSpace s.sp 2)
    (h : checkModule ((s.wordAt s.dataSpace s.sp).setWidth 16) s = .error e s) (rn : Rn) :
    exec (.rtm rn) s = runInstr (fun _ => .error e s) s :=
  runInstr_congr ((M.bind_ok (readData_ok (sz := .w) hr)).trans (M.bind_error h))

theorem exec_rtm (hr : s.readable s.dataSpace s.sp 2)
    (hcheck : checkModule ((s.wordAt s.dataSpace s.sp).setWidth 16) s = .ok () s)
    (hccr : s.readable s.dataSpace (s.sp + 2) 2) (hcount : s.readable s.dataSpace (s.sp + 4) 2)
    (hpc : s.readable s.dataSpace (s.sp + 12) 4) (hsaved : s.readable s.dataSpace (s.sp + 16) 4) (rn : Rn) :
    exec (.rtm rn) s = .next ((((s.setCc (CC.ofBits ((s.wordAt s.dataSpace (s.sp + 2)).setWidth 16))).setR rn
      (s.longAt s.dataSpace (s.sp + 16))).setSp (s.sp + 24 +
        BitVec.ofNat 32 ((s.wordAt s.dataSpace (s.sp + 4)).toNat % 256))).flowTo
          (s.longAt s.dataSpace (s.sp + 12))) := by
  have hbyte : s.wordAt s.dataSpace (s.sp + 4) &&& 0xFF =
      BitVec.ofNat 32 ((s.wordAt s.dataSpace (s.sp + 4)).toNat % 256) := trunc_eq_ofNat .b _
  rw [← hbyte]
  exact runInstr_ok ((M.bind_ok (readData_ok (sz := .w) hr)).trans ((M.bind_ok hcheck).trans
    ((M.bind_ok (readData_ok (sz := .w) hccr)).trans ((M.modify_bind _ _ s).trans
      ((M.bind_ok (readData_setCc (sz := .w) _ hcount)).trans ((M.bind_ok (readData_setCc (sz := .l) _ hpc)).trans
        (M.bind_ok (readData_setCc (sz := .l) _ hsaved))))))))

/-- Settles O50: the check of opt and type decides between the stops and the run, in CALLM on the descriptor's upper
word and in RTM on the frame's first. -/
theorem modules : Obligations.Modules := by
  intro s sd
  constructor
  case left =>
    intro argc ea m ds ha hr head o ty entry ew f
    have hbytes := s.moduleFrame_bytes head (Config.freeLong s.draws) argc m (s.npc (2 + ea.words)) (rnOf (ew / 4096))
    have hhead : (s.longAt ds m).extractLsb' 16 16 = head := s.longAt_upper ds m
    refine ⟨fun h => (exec_callm_stopped ha hr hhead (checkModule_improper h s)).trans rfl,
      fun ho hty => (exec_callm_stopped ha hr hhead (checkModule_accessLevel ho hty s)).trans rfl,
      fun ho hty hre hrw => ⟨fun hbits => ?_, fun hbits hrd hw =>
        ⟨((Config.freeLong s.draws).setWidth 16).extractLsb' 0 8,
          (Config.freeLong s.draws).extractLsb' 16 16, ?_⟩⟩⟩
    · exact exec_callm_entryWord ha hr hhead (checkModule_ok ho hty s) hre rfl hrw rfl hbits
    · exact exec_callm ha hr hhead (checkModule_ok ho hty s) hre rfl hrw rfl hbits hrd hw rfl hbytes rfl
  case right =>
    intro rn hr head o ty
    have hhead : ((s.wordAt sd s.sp).setWidth 16).toNat = head := s.setWidth_wordAt_toNat sd s.sp
    refine ⟨fun h => ?_, fun ho hty => ?_, fun ho hty hccr hcount hpc hsaved => ?_⟩
    · exact (exec_rtm_stopped hr (checkModule_improper (hhead ▸ h) s) rn).trans rfl
    · exact (exec_rtm_stopped hr (checkModule_accessLevel (hhead ▸ ho) (hhead ▸ hty) s) rn).trans rfl
    · exact exec_rtm hr (checkModule_ok (hhead ▸ ho) (hhead ▸ hty) s) hccr hcount hpc hsaved rn

end Sys2Proof.Machine
end

/-! # Privileged instructions in user mode, and the emulator lines (O7, O52) -/

section
namespace Sys2Proof.Machine

variable {s t : State}

/-- What a privileged instruction does in user mode (R390, R538). -/
theorem runInstr_privileged_user (h : s.sBit = false) (body : M Unit) :
    runInstr (privileged body) s = .next (s.takeException s.privilegeExc) :=
  runInstr_raised (privileged_user h)

/-- A cpSAVE or cpRESTORE of a coprocessor other than 0 in user mode (R446). -/
theorem fLineTrap_violates {c ty : Reg} (h : (ty = 4 ∨ ty = 5) ∧ s.sBit = false ∧ c ≠ 0) :
    runInstr (fLineTrap c ty) s = .next (s.takeException s.privilegeExc) :=
  runInstr_raised ((M.get_bind _ s).trans (M.ite_pos h s))

/-- Any other word of line 1111 (R435). -/
theorem fLineTrap_emulated {c ty : Reg} (h : ¬ ((ty = 4 ∨ ty = 5) ∧ s.sBit = false ∧ c ≠ 0)) :
    runInstr (fLineTrap c ty) s = .next (s.takeException (emulatorExc s 11)) :=
  runInstr_raised ((M.get_bind _ s).trans (M.ite_neg h s))

/-- A word of line 1111 whose type is not that of cpSAVE and cpRESTORE. -/
theorem fLineTrap_of_type (c ty : Reg) (h : ¬ (ty = 4 ∨ ty = 5)) :
    runInstr (fLineTrap c ty) s = .next (s.takeException (emulatorExc s 11)) :=
  fLineTrap_emulated fun hv => h hv.1

/-- A cpSAVE or cpRESTORE that passes the privilege check, which coprocessor 0 has not (R446, log 29). -/
theorem fLineTrap_allowed {c : Reg} (ty : Reg) (h : s.sBit = true ∨ c = 0) :
    runInstr (fLineTrap c ty) s = .next (s.takeException (emulatorExc s 11)) := by
  refine fLineTrap_emulated fun ⟨_, huser, hc⟩ => ?_
  rcases h with hs | h0
  · exact absurd hs (by simp [huser])
  · exact hc h0

/-- Settles O7: each body is guarded by the privilege check, and so are cpSAVE and cpRESTORE of a coprocessor. -/
theorem privilegedInUserMode : Obligations.PrivilegedInUserMode := by
  intro s hu o
  have hguard : ∀ body, runInstr (privileged body) s = o := runInstr_privileged_user hu
  exact ⟨fun _ => hguard _, fun _ => hguard _, fun _ => hguard _, fun _ => hguard _, fun _ => hguard _,
    fun _ _ => hguard _, fun _ _ _ => hguard _, fun _ _ _ _ => hguard _, hguard _, hguard _, fun _ => hguard _,
    fun _ _ _ hc => fLineTrap_violates ⟨.inl rfl, hu, hc⟩, fun _ _ _ hc => fLineTrap_violates ⟨.inr rfl, hu, hc⟩⟩

/-! ## The fields of a word of line 1111 (R432) -/

theorem typeField_eq_iff (v : BitVec 12) (k : Reg) : typeField v = k ↔ v.toNat / 64 % 8 = k.val := Fin.ext_iff

theorem cpidField_ne_zero_iff (v : BitVec 12) : cpidField v ≠ 0 ↔ v.toNat / 512 ≠ 0 := by
  have hv := v.isLt
  have hfield : cpidField v = 0 ↔ v.toNat / 512 % 8 = 0 := Fin.ext_iff
  rw [ne_eq, hfield]
  omega

theorem exec_fLine (v : BitVec 12) (s : State) : exec (.fLine v) s =
    if (v.toNat / 64 % 8 = 4 ∨ v.toNat / 64 % 8 = 5) ∧ s.sBit = false ∧ v.toNat / 512 ≠ 0 then
      .next (s.takeException s.privilegeExc) else .next (s.takeException (emulatorExc s 11)) := by
  have hcheck : (typeField v = 4 ∨ typeField v = 5) ∧ s.sBit = false ∧ cpidField v ≠ 0 ↔
      (v.toNat / 64 % 8 = 4 ∨ v.toNat / 64 % 8 = 5) ∧ s.sBit = false ∧ v.toNat / 512 ≠ 0 := by
    rw [typeField_eq_iff, typeField_eq_iff, cpidField_ne_zero_iff]
    rfl
  split
  case isTrue h => exact fLineTrap_violates (hcheck.mpr h)
  case isFalse h => exact fLineTrap_emulated (mt hcheck.mp h)

/-- Settles O52: line 1111 is decided by its type field, the other words raise one exception each. -/
theorem emulatorLines : Obligations.EmulatorLines := by
  intro s c m r takes
  refine ⟨runInstr_raised (M.raiseIllegal_run s), runInstr_raised (M.raiseIllegal_run s),
    fun v => runInstr_raised (M.raised_run _ s), fLineTrap_of_type c 0 (by decide),
    fLineTrap_of_type c 1 (by decide), fLineTrap_of_type c 1 (by decide), fLineTrap_of_type c 1 (by decide),
    fun long _ => ?_, fun h => ⟨fLineTrap_allowed 4 h, fLineTrap_allowed 5 h⟩, fun v => exec_fLine v s⟩
  cases long
  · exact fLineTrap_of_type c 2 (by decide)
  · exact fLineTrap_of_type c 3 (by decide)

end Sys2Proof.Machine
end

/-! # TRAP, TRAPcc, TRAPV and CHK (O51) -/

section
namespace Sys2Proof.Machine

variable {s t : State} {ea : Ea} {b : Long}

/-- A body that traps on a condition with the six-word frame, and goes on without it (R381, R382). -/
theorem runInstr_trap_if (c : Bool) (vector : Byte) (n : Nat) (s : State) :
    runInstr (if c then raised (s.trapExc vector n) else advance n) s =
      if c then .next (s.takeException ⟨vector, s.npc n, .six s.pc, .trapped⟩)
      else .next (s.goOn (s.npc n)) := by
  cases c
  · rfl
  · rfl

/-- N after CHK: it tells on which side the value is out of bounds, and is free for one that is not (R383). -/
def State.chkNegative (t : State) (v bound : Int) : Bool :=
  if v < 0 then true else if bound < v then false else (Config.freeLong t.draws).getLsbD 3

/-- The state of CHK with its flags written: X is kept; Z, V and C are free (R383, log 34). -/
def State.chkFlagged (t : State) (v bound : Int) : State :=
  (t.used 1).setCc ⟨t.cc.x, t.chkNegative v bound, (Config.freeLong t.draws).getLsbD 0,
    (Config.freeLong t.draws).getLsbD 1, (Config.freeLong t.draws).getLsbD 2⟩

theorem State.chkNegative_of_neg (t : State) {v bound : Int} (h : v < 0) : t.chkNegative v bound = true :=
  if_pos h

theorem State.chkNegative_of_over (t : State) {v bound : Int} (hpos : ¬ v < 0) (h : bound < v) :
    t.chkNegative v bound = false := by
  rw [State.chkNegative, if_neg hpos, if_pos h]

theorem State.chkNegative_of_inside (t : State) {v bound : Int} (hpos : ¬ v < 0) (h : ¬ bound < v) :
    t.chkNegative v bound = (Config.freeLong t.draws).getLsbD 3 := by
  rw [State.chkNegative, if_neg hpos, if_neg h]

/-- CHK (R383), by the side on which the value lies. -/
theorem exec_chk {sz : WL} {dn : Reg} {v bound : Int} (h : readEa sz.size 0 ea s = .ok b t)
    (hv : signedOf sz.size (t.dreg dn) = v) (hb : signedOf sz.size b = bound) : exec (.chk sz ea dn) s =
      if v < 0 ∨ bound < v then
        .next ((t.chkFlagged v bound).takeException ⟨6, s.npc (1 + ea.words), .six s.pc, .trapped⟩)
      else .next ((t.chkFlagged v bound).goOn (s.npc (1 + ea.words))) := by
  obtain ⟨-, -, -, -, hpc⟩ := readEa_frame h
  subst hv hb
  rw [← readEa_npc h, ← hpc, State.chkFlagged]
  by_cases hneg : signedOf sz.size (t.dreg dn) < 0
  · rw [if_pos (.inl hneg), State.chkNegative_of_neg t hneg]
    exact runInstr_raised ((M.bind_ok h).trans (M.ite_pos hneg _))
  by_cases hover : signedOf sz.size b < signedOf sz.size (t.dreg dn)
  · rw [if_pos (.inr hover), State.chkNegative_of_over t hneg hover]
    exact runInstr_raised ((M.bind_ok h).trans ((M.ite_neg hneg _).trans (M.ite_pos hover _)))
  · rw [if_neg (not_or.mpr ⟨hneg, hover⟩), State.chkNegative_of_inside t hneg hover]
    exact runInstr_ok ((M.bind_ok h).trans ((M.ite_neg hneg _).trans (M.ite_neg hover _)))

/-- Settles O51: TRAP always traps, TRAPcc and TRAPV on one condition, CHK by the side on which the value lies. -/
theorem traps : Obligations.Traps := by
  intro s
  refine ⟨fun v => rfl, fun c op => runInstr_trap_if _ 7 _ s, runInstr_trap_if _ 7 1 s, ?_⟩
  intro sz ea dn b t h v bound
  exact ⟨_, _, _, _, t.chkNegative_of_neg, fun hpos => t.chkNegative_of_over (not_lt.mpr hpos), exec_chk h rfl rfl⟩

end Sys2Proof.Machine
end

/-! # The SR and the CCR written by an instruction, STOP and RESET (O54, O55) -/

section
namespace Sys2Proof.Machine

variable {s t : State} {ea : Ea} {v : Long}

theorem exec_moveToSr (hs : s.sBit = true) (h : readEa .w 0 ea s = .ok v t) : exec (.moveToSr ea) s =
    .next { t with sr := v.setWidth 16 &&& 0xF71F, pc := s.npc (1 + ea.words), ending := .wroteSr } := by
  rw [← readEa_npc h]
  exact runInstr_ok ((privileged_super hs).trans ((M.bind_ok h).trans (M.modify_bind _ _ t)))

/-- ANDI, EORI and ORI to SR (R394 to R396). -/
theorem runInstr_changeSr (hs : s.sBit = true) (f : Word → Word) : runInstr (changeSr f) s =
    .next { s with sr := f s.sr &&& 0xF71F, pc := s.npc 2, ending := .wroteSr } :=
  runInstr_ok ((privileged_super hs).trans (M.modify_bind _ _ s))

theorem exec_stop (hs : s.sBit = true) (v : Word) : exec (.stop v) s =
    .next { s with sr := v &&& 0xF71F, pc := s.pc + 4, ending := .sequential,
                   run := if s.tracedAll then .normal else .stopped } :=
  runInstr_ok ((privileged_super hs).trans (M.modify_bind _ _ s))

theorem State.tracedAll_of_not_t1 (h : s.t1 = false) : s.tracedAll = false := by
  simp [State.tracedAll, h]

theorem State.tracedAll_of_t1 (h1 : s.t1 = true) (h0 : s.t0 = false) : s.tracedAll = true := by
  simp [State.tracedAll, h1, h0]

/-- Settles O54: each instruction is one update of the SR in supervisor state; whether STOP stops is whether all
instructions are traced. -/
theorem systemResults : Obligations.SystemResults := by
  intro s hs wrote
  refine ⟨fun ea v t h => exec_moveToSr hs h, fun v => runInstr_changeSr hs fun w => w &&& v,
    fun v => runInstr_changeSr hs fun w => w ^^^ v, fun v => runInstr_changeSr hs fun w => w ||| v,
    fun v => ⟨_, exec_stop hs v, fun h1 => ?_, fun h1 h0 => ?_, ?_⟩,
    runInstr_ok ((privileged_super hs).trans (M.advance_run 1 s))⟩
  · rw [State.tracedAll_of_not_t1 h1]
    rfl
  · rw [State.tracedAll_of_t1 h1 h0]
    rfl
  · cases s.tracedAll
    · exact .inl rfl
    · exact .inr rfl

theorem CC.bits_flags (f : CC) : f.bits.getLsbD 0 = f.c ∧ f.bits.getLsbD 1 = f.v ∧ f.bits.getLsbD 2 = f.z ∧
    f.bits.getLsbD 3 = f.n ∧ f.bits.getLsbD 4 = f.x := by
  obtain ⟨x, n, z, v, c⟩ := f
  cases x <;> cases n <;> cases z <;> cases v <;> cases c <;> decide

/-- The condition codes of a word are its bits 4:0. -/
theorem CC.bits_ofBits (w : Word) : (CC.ofBits w).bits = w &&& 0x001F := by
  obtain ⟨hc, hv, hz, hn, hx⟩ := (CC.ofBits w).bits_flags
  have hmask : ∀ i < 16, (0x001F : Word).getLsbD i = decide (i < 5) := by decide
  apply BitVec.eq_of_getLsbD_eq
  intro i hi
  rw [BitVec.getLsbD_and, hmask i hi]
  by_cases hlow : i < 5
  · rw [decide_eq_true hlow, Bool.and_true]
    interval_cases i
    · exact hc
    · exact hv
    · exact hz
    · exact hn
    · exact hx
  · rw [decide_eq_false hlow, Bool.and_false, CC.bits_getLsbD_high _ i (not_lt.mp hlow)]

/-- ANDI, EORI and ORI to CCR (R402 to R404). -/
theorem runInstr_changeCcr (f : Word → Word) (s : State) : runInstr (changeCcr f) s =
    .next { s with sr := (s.sr &&& 0xFFE0) ||| (f s.sr &&& 0x001F), pc := s.pc + 4, ending := .sequential } := by
  rw [← CC.bits_ofBits]
  exact runInstr_ok (M.modify_bind _ _ s)

/-- Settles O55: the words are the encodings of the three instructions, whatever the immediate. -/
theorem ccrImmediates : Obligations.CcrImmediates := by
  intro s b imm out
  exact ⟨decode_of_encode_eq rfl rfl, runInstr_changeCcr (fun w => w &&& imm) s,
    decode_of_encode_eq rfl rfl, runInstr_changeCcr (fun w => w ^^^ imm) s,
    decode_of_encode_eq rfl rfl, runInstr_changeCcr (fun w => w ||| imm) s⟩

end Sys2Proof.Machine
end

/-! # MOVES (O57) -/

section
namespace Sys2Proof.Machine

variable {s t : State} {sz : Size} {rn : Rn} {ea : Ea} {a : Long}

theorem stepsRegister_iff (ea : Ea) (rn : Rn) : stepsRegister ea rn = true ↔ rn ∈ steppedBy ea := by
  cases ea <;> simp [stepsRegister, steppedBy]

/-- The value MOVES stores: free for the register that the mode steps (93 U30, log 23). -/
def State.movesValue (s t : State) (rn : Rn) (ea : Ea) : Long :=
  if stepsRegister ea rn then Config.freeLong t.draws else s.getR rn

theorem State.movesValue_of_not_stepped (t : State) (h : rn ∉ steppedBy ea) : s.movesValue t rn ea = s.getR rn :=
  if_neg (mt (stepsRegister_iff ea rn).mp h)

theorem exec_moves_store (hs : s.sBit = true) (ha : memAddr sz 1 ea s = .ok a t) (hw : t.writable s.dfc a sz.bytes) :
    exec (.moves sz true rn ea) s =
      .next (((t.used 1).store s.dfc a (longBytes (s.movesValue t rn ea) sz.bytes)).goOn (s.npc (2 + ea.words))) := by
  rw [← memAddr_npc ha]
  exact runInstr_ok ((privileged_super hs).trans ((M.bind_ok ha).trans ((M.bind_ok (M.draw_run t)).trans
    (M.bind_ok (writeMem_ok (s := t.used 1) hw)))))

theorem exec_moves_load (hs : s.sBit = true) (ha : memAddr sz 1 ea s = .ok a t) (hr : t.readable s.sfc a sz.bytes)
    {v : Long} (hv : bytesLong (t.load s.sfc a sz.bytes) = v) : exec (.moves sz false rn ea) s =
      .next ((if rn.isAddr then t.setA rn.num (sext sz v) else t.putD sz rn.num v).goOn (s.npc (2 + ea.words))) := by
  subst hv
  have hnpc : ∀ u : State, u.pc = t.pc → u.npc (2 + ea.words) = s.npc (2 + ea.words) := fun u hu =>
    (State.npc_congr hu _).trans (memAddr_npc ha _)
  refine runInstr_ok ((privileged_super hs).trans ((M.bind_ok ha).trans ((M.bind_ok (readMem_ok hr)).trans
    ((M.modify_bind _ _ t).trans ((M.advance_run _ _).trans ?_)))))
  rw [hnpc]
  split
  · exact State.setA_pc _ _ _
  · rfl

/-- Settles O57: the address is computed once; the store draws a value, the load writes its register last. -/
theorem movesResult : Obligations.MovesResult := by
  intro s t sz rn ea a hs ha out
  refine ⟨fun hw => ⟨s.movesValue t rn ea, State.movesValue_of_not_stepped t, exec_moves_store hs ha hw⟩, ?_⟩
  intro hr v
  rw [← sext_eq]
  exact exec_moves_load hs ha hr rfl

end Sys2Proof.Machine
end

/-! # RTE (O53)

The loop of R388 passes over throwaway frames without touching a draw or the platform, so that the frame it ends at
is met in a state that differs from the first only in SR and the stack pointers. `RteEnds s x t out`: the rest `x` of
an RTE that began in `s`, run from `t`, makes the RTE's outcome `out`, and no checkpoint of the loop changes that. -/

section
namespace Sys2Proof.Machine

variable {s t u : State} {a : Long} {m n : Nat} {p : Nat × Bool} {x : M Unit}
  {out : Host.Outcome State Fault Refusal}

/-! ## The frame on the active stack (R504) -/

/-- The format of the frame. -/
def State.frameFormat (t : State) : Nat := (t.wordAt supervisorData (t.sp + 6)).toNat / 4096

/-- SR, PC and the format word can be read. -/
def State.frameReadable (t : State) : Prop :=
  t.readable supervisorData t.sp 2 ∧ t.readable supervisorData (t.sp + 2) 4 ∧ t.readable supervisorData (t.sp + 6) 2

/-- The SR of the frame, which writes the implemented bits alone (R391). -/
def State.frameSr (t : State) : Word := (t.wordAt supervisorData t.sp).setWidth 16 &&& 0xF71F

/-- A frame of `n` bytes is dropped and its SR loaded. -/
def State.dropFrame (n : Nat) (t : State) : State :=
  { (t.setSp (t.sp + BitVec.ofNat 32 n)) with sr := t.frameSr }

/-- The return by a frame of `n` bytes. -/
def State.returned (t : State) (n : Nat) : State :=
  { t.dropFrame n with pc := t.longAt supervisorData (t.sp + 2), ending := .returned }

/-- What a cycle of internal state that does not end normally makes of an RTE: halted, or waiting (R532, R89). -/
def State.stuckBy (s : State) (p : Nat × Bool) : Host.Outcome State Fault Refusal :=
  if p.2 then .next { s with run := .hung, ending := .notDone, draws := s.draws + 1 }
  else .next { s with run := .halted, ending := .notDone }

/-- What becomes of an RTE from `s` at a frame of `n` bytes with internal state, met in `t` (92 D11). -/
def State.internalEnd (s t : State) (n : Nat) : Host.Outcome State Fault Refusal :=
  match t.firstFault supervisorData false t.sp n with
  | none => .refused .rteInternalFrame
  | some p => s.stuckBy p

/-- `t` is where the loop of an RTE from `s` can be: no draw is used and the platform is the same. -/
def Alike (s t : State) : Prop := t.draws = s.draws ∧ t.platform = s.platform

theorem Alike.dropFrame (h : Alike s t) (n : Nat) : Alike s (t.dropFrame n) := by
  obtain ⟨hd, hp⟩ := h
  exact ⟨(State.setSp_draws t _).trans hd, (State.setSp_platform t _).trans hp⟩

theorem Alike.dropFrames (h : Alike s t) (n : Nat) : Alike s ((State.dropFrame 8)^[n] t) := by
  induction n generalizing t with
  | zero => exact h
  | succ n ih => exact ih (h.dropFrame 8)

theorem Alike.atDraw (h : Alike s t) : s.atDraw t = s := by
  rw [State.atDraw, h.1]

/-- The top four bits of a word (R504, R44). -/
theorem State.wordAt_top (t : State) (fc : FC) (a : Long) :
    ((t.wordAt fc a).extractLsb' 12 4).toNat = (t.wordAt fc a).toNat / 4096 := by
  have hlt := t.wordAt_lt fc a
  rw [BitVec.extractLsb'_toNat, Nat.shiftRight_eq_div_pow]
  omega

/-! ## How the rest of an RTE ends -/

/-- The rest `x` of an RTE that began in `s` gives it the outcome `out`, whatever checkpoints stand around it. -/
def RteEnds (s : State) (x : M Unit) (t : State) (out : Host.Outcome State Fault Refusal) : Prop :=
  (∀ f seen u, x t ≠ .error (.bus f seen false) u) ∧ runInstr (fun _ => x t) s = out

namespace RteEnds

theorem congr {y : M Unit} (h : RteEnds s y u out) (hxy : x t = y u) : RteEnds s x t out := by
  rwa [RteEnds, hxy]

theorem ok (h : x t = .ok () u) : RteEnds s x t (.next u) := by
  rw [RteEnds, h]
  exact ⟨by simp, rfl⟩

theorem bind {α : Type} {y : M α} {f : α → M Unit} {v : α} (hy : y t = .ok v u) (h : RteEnds s (f v) u out) :
    RteEnds s (y >>= f) t out :=
  h.congr (M.bind_ok hy)

theorem checkpointed (h : RteEnds s x t out) : RteEnds s (checkpoint x) t out := by
  refine h.congr ?_
  unfold checkpoint
  split
  case h_1 f seen made u hx =>
    cases made
    · exact absurd hx (h.1 f seen u)
    · rw [hx]
      rfl
  case h_2 => rfl

end RteEnds

/-- Values that all agree leave no choice. -/
theorem anyOf_same {α : Type} [DecidableEq α] (n r : Nat) (v : α) : anyOf n r [v] v = v := by
  simp [anyOf]

/-- A cut that leaves the registers as they were. -/
theorem State.partly_self (s : State) : State.partly [s] s s.pc = s.used 1 := by
  simp [State.partly, anyOf_same, State.used]

/-- Internal state that cannot be read (R532, R89, log 30, log 31, log 49). -/
theorem loadInternal_stuck {f : Long → M Unit} (h : Alike s t) (hp : t.firstFault supervisorData false a n = some p) :
    RteEnds s (loadInternal s a n >>= f) t (s.stuckBy p) := by
  have hread : busRead false supervisorData a n t =
      .error (t.accessFault supervisorData false false a n p []) t := by
    simp [busRead, hp]
  obtain ⟨i, never⟩ := p
  cases never with
  | true =>
    have hload : loadInternal s a n t =
        .error (.bus (t.accessFault supervisorData false false a n (i, true) []) [s] true) s := by
      simp [loadInternal, hread, State.accessFault]
    rw [RteEnds, M.bind_error hload]
    refine ⟨by simp, congrArg Host.Outcome.next ?_⟩
    simp [State.cutShort, State.accessFault, State.partly_self, State.hang, State.used]
  | false =>
    have hload : loadInternal s a n t = .error .doubleFault t := by
      simp [loadInternal, hread, State.accessFault]
    rw [RteEnds, M.bind_error hload]
    refine ⟨by simp, congrArg Host.Outcome.next ?_⟩
    rw [h.atDraw]
    rfl

theorem loadInternal_ok (h : t.readable supervisorData a n) :
    loadInternal s a n t = .ok (bytesLong (t.load supervisorData a n)) t := by
  simp [loadInternal, busRead_ok h]

/-- The format error goes back to the state before the RTE (R541, log 19). -/
theorem rteFormatError_ends (h : Alike s t) : RteEnds s (rteFormatError s) t (.next (s.takeException s.formatExc)) := by
  have herror : rteFormatError s t = .error (.raised s.formatExc) s :=
    congrArg (EStateM.Result.error (Abort.raised s.formatExc)) h.atDraw
  rw [RteEnds, herror]
  exact ⟨by simp, rfl⟩

/-- An internal frame is refused once it could be read (92 D11). -/
theorem rteInternal_ends (h : Alike s t) (n : Nat) : RteEnds s (rteInternal s n) t (s.internalEnd t n) := by
  refine RteEnds.congr ?_ (M.get_bind _ t)
  unfold State.internalEnd
  cases hf : t.firstFault supervisorData false t.sp n with
  | some p => exact loadInternal_stuck h hf
  | none =>
    have hread := (busRead_eq_ok (rmw := false)).mpr ⟨hf, rfl, rfl⟩
    obtain ⟨v, hload⟩ : ∃ v, loadInternal s t.sp n t = .ok v (t.afterRead supervisorData t.sp n) :=
      ⟨_, by rw [loadInternal, hread]⟩
    refine RteEnds.bind hload ?_
    rw [RteEnds, M.refuse_run]
    exact ⟨by simp, rfl⟩

/-! ## The formats (R388) -/

/-- What the loop does with a frame that gives this SR, PC and format. -/
def rteFrame (s0 : State) (m : Nat) (sr : Word) (pc : Long) : Nat → M Unit
  | 0 => modify fun t => t.restore 8 sr pc
  | 1 => do
    modify fun t => (t.setSp (t.sp + 8)).setSr sr
    checkpoint (rteLoop s0 m)
  | 2 => modify fun t => t.restore 12 sr pc
  | 9 => rteInternal s0 20
  | 10 => rteInternal s0 32
  | 11 => rteLongFrame s0 sr pc
  | _ => rteFormatError s0

/-- One turn of the loop, the head of the frame being readable. -/
theorem rteLoop_frame (s0 : State) (m : Nat) (h : t.frameReadable) : rteLoop s0 (m + 1) t =
    rteFrame s0 m ((t.wordAt supervisorData t.sp).setWidth 16) (t.longAt supervisorData (t.sp + 2)) t.frameFormat t := by
  obtain ⟨hsr, hpc, hfw⟩ := h
  rw [State.frameFormat, ← State.wordAt_top]
  exact (M.get_bind _ t).trans ((M.bind_ok (readMem_ok (sz := .w) hsr)).trans
    ((M.bind_ok (readMem_ok (sz := .l) hpc)).trans (M.bind_ok (readMem_ok (sz := .w) hfw))))

/-- Every other format is improper (R541). -/
theorem rteFrame_improper (s0 : State) (m : Nat) (sr : Word) (pc : Long) :
    ∀ f ∈ [3, 4, 5, 6, 7, 8, 12, 13, 14, 15], rteFrame s0 m sr pc f = rteFormatError s0 := by
  simp [rteFrame]

theorem rteLoop_ends {f : Nat} (h : t.frameReadable) (hf : t.frameFormat = f)
    (hend : RteEnds s (rteFrame s m ((t.wordAt supervisorData t.sp).setWidth 16)
      (t.longAt supervisorData (t.sp + 2)) f) t out) : RteEnds s (rteLoop s (m + 1)) t out :=
  hend.congr (hf ▸ rteLoop_frame s m h)

/-- Throwaway frames lead to the frame below them. -/
theorem rteLoop_throwaways (hpass : ∀ k < n, ((State.dropFrame 8)^[k] t).frameReadable ∧
      ((State.dropFrame 8)^[k] t).frameFormat = 1)
    (hend : RteEnds s (rteLoop s m) ((State.dropFrame 8)^[n] t) out) : RteEnds s (rteLoop s (m + n)) t out := by
  induction n generalizing t with
  | zero => exact hend
  | succ n ih =>
    obtain ⟨hread, hformat⟩ := hpass 0 n.succ_pos
    have hrest : RteEnds s (rteLoop s (m + n)) (t.dropFrame 8) out :=
      ih (fun k hk => hpass (k + 1) (Nat.succ_lt_succ hk)) hend
    exact rteLoop_ends hread hformat (hrest.checkpointed.congr (M.modify_bind _ _ t))

/-- The loop at its bound (log 19). -/
theorem rteLoop_spent (s t : State) : RteEnds s (rteLoop s 0) t (.fault .rteEndless) := by
  have herror : rteLoop s 0 t = .error (.fault .rteEndless) t := rfl
  rw [RteEnds, herror]
  exact ⟨by simp, rfl⟩

/-- RTE in supervisor state ends as its loop does. -/
theorem exec_rte (hs : s.sBit = true) (h : RteEnds s (rteLoop s rteFuel) s out) : exec .rte s = out :=
  (runInstr_congr (privileged_super hs)).trans h.2

/-- RTE from a frame below less than 2^112 throwaway frames. -/
theorem exec_rte_below (hs : s.sBit = true) (hn : n < 2 ^ 112)
    (hpass : ∀ k < n, ((State.dropFrame 8)^[k] s).frameReadable ∧ ((State.dropFrame 8)^[k] s).frameFormat = 1)
    (hend : ∀ m, RteEnds s (rteLoop s (m + 1)) ((State.dropFrame 8)^[n] s) out) : exec .rte s = out := by
  obtain ⟨m, hm⟩ := Nat.exists_eq_add_of_lt hn
  have hfuel : rteFuel = m + 1 + n := by
    rw [rteFuel, hm]
    omega
  refine exec_rte hs ?_
  rw [hfuel]
  exact rteLoop_throwaways hpass (hend m)

/-- DF and RM of the special status word (R513). -/
theorem reruns_wordAt (t : State) (fc : FC) (a : Long) : reruns ((t.wordAt fc a).setWidth 16) = true ↔
    (t.wordAt fc a).getLsbD 8 = true ∧ (t.wordAt fc a).getLsbD 7 = true := by
  simp [reruns]

/-- The version of a long frame is that of the processor (R541). -/
theorem version_ne_iff (h : Alike s t) (a : Long) :
    (t.wordAt supervisorData a).extractLsb' 12 4 ≠ t.platform.cpuVersion ↔
      (t.wordAt supervisorData a).toNat / 4096 ≠ s.platform.cpuVersion.toNat := by
  rw [ne_eq, ← BitVec.toNat_inj, State.wordAt_top, h.2]

section Long

variable {sr : Word} {pc : Long}

/-- An RTE from a long frame of the processor's own version (R553, 92 D11). -/
def rteOwnFrame (s0 t : State) (sr : Word) (pc : Long) : M Unit := do
  let ssw ← loadInternal s0 (t.sp + 0x0A) 2
  if reruns (ssw.setWidth 16) then do
    let _ ← loadInternal s0 t.sp 92
    modify fun u => { u.restore 92 sr pc with ending := .rerun }
  else rteInternal s0 92

/-- A version that cannot be read. -/
theorem rteLongFrame_unread (h : Alike s t) (hp : t.firstFault supervisorData false (t.sp + 0x36) 2 = some p) :
    RteEnds s (rteLongFrame s sr pc) t (s.stuckBy p) :=
  (loadInternal_stuck h hp).congr (M.get_bind _ t)

/-- A long frame of another version is improper (R541). -/
theorem rteLongFrame_other (h : Alike s t) (hr : t.readable supervisorData (t.sp + 0x36) 2)
    (hv : (t.wordAt supervisorData (t.sp + 0x36)).toNat / 4096 ≠ s.platform.cpuVersion.toNat) :
    RteEnds s (rteLongFrame s sr pc) t (.next (s.takeException s.formatExc)) :=
  (rteFormatError_ends h).congr ((M.get_bind _ t).trans ((M.bind_ok (loadInternal_ok hr)).trans
    (M.ite_pos ((version_ne_iff h _).mpr hv) t)))

theorem rteLongFrame_own (h : Alike s t) (hr : t.readable supervisorData (t.sp + 0x36) 2)
    (hv : ¬ (t.wordAt supervisorData (t.sp + 0x36)).toNat / 4096 ≠ s.platform.cpuVersion.toNat)
    (hend : RteEnds s (rteOwnFrame s t sr pc) t out) : RteEnds s (rteLongFrame s sr pc) t out :=
  hend.congr ((M.get_bind _ t).trans ((M.bind_ok (loadInternal_ok hr)).trans
    (M.ite_neg (mt (version_ne_iff h _).mp hv) t)))

/-- With DF and RM set the instruction at PC runs again, once the whole frame could be read (R553, log 42). -/
theorem rteOwnFrame_rerun (hssw : t.readable supervisorData (t.sp + 0xA) 2)
    (hbits : (t.wordAt supervisorData (t.sp + 0xA)).getLsbD 8 = true ∧
      (t.wordAt supervisorData (t.sp + 0xA)).getLsbD 7 = true)
    (hend : RteEnds s (do
      let _ ← loadInternal s t.sp 92
      modify fun u => { u.restore 92 sr pc with ending := .rerun }) t out) :
    RteEnds s (rteOwnFrame s t sr pc) t out :=
  hend.congr ((M.bind_ok (loadInternal_ok hssw)).trans (M.ite_pos ((reruns_wordAt t _ _).mpr hbits) t))

theorem rteOwnFrame_refused (h : Alike s t) (hssw : t.readable supervisorData (t.sp + 0xA) 2)
    (hbits : ¬ ((t.wordAt supervisorData (t.sp + 0xA)).getLsbD 8 = true ∧
      (t.wordAt supervisorData (t.sp + 0xA)).getLsbD 7 = true)) :
    RteEnds s (rteOwnFrame s t sr pc) t (s.internalEnd t 92) :=
  (rteInternal_ends h 92).congr ((M.bind_ok (loadInternal_ok hssw)).trans
    (M.ite_neg (mt (reruns_wordAt t _ _).mp hbits) t))

end Long

/-- Settles O53: the loop passes the throwaway frames, and each format of the frame below them ends it in one way; a
chain of throwaway frames as long as the loop's bound leaves it nothing to run. -/
theorem rteResult : Obligations.RteResult := by
  intro s hs sd fmt sr drop back head after next stuck improper
  refine ⟨?frames, ?endless⟩
  case endless =>
    intro hpass
    have hchain := rteLoop_throwaways hpass (rteLoop_spent s _)
    rw [Nat.zero_add] at hchain
    exact exec_rte hs hchain
  case frames =>
    intro n hn hpass hhead t inner
    have halike : Alike s t := Alike.dropFrames ⟨rfl, rfl⟩ n
    have hframe : ∀ {f out}, fmt t = f → (∀ m, RteEnds s (rteFrame s m ((t.wordAt sd t.sp).setWidth 16)
        (t.longAt sd (t.sp + 2)) f) t out) → exec .rte s = out :=
      fun hf hend => exec_rte_below hs hn hpass fun m => rteLoop_ends hhead hf (hend m)
    have hlong : ∀ {out}, fmt t = 11 → RteEnds s (rteLongFrame s ((t.wordAt sd t.sp).setWidth 16)
        (t.longAt sd (t.sp + 2))) t out → exec .rte s = out := fun hf hend => hframe hf fun _ => hend
    refine ⟨fun hf => hframe hf fun _ => .ok rfl, fun hf => hframe hf fun _ => .ok rfl, fun hf => ?_,
      fun hf => hframe hf fun _ => rteInternal_ends halike 20,
      fun hf => hframe hf fun _ => rteInternal_ends halike 32,
      fun hf => ⟨fun p hp => hlong hf (rteLongFrame_unread halike hp), fun hversion => ?_⟩⟩
    · refine hframe rfl fun m => ?_
      rw [rteFrame_improper s m _ _ (fmt t) hf]
      exact rteFormatError_ends halike
    · split
      case isTrue hv => exact hlong hf (rteLongFrame_other halike hversion hv)
      case isFalse hv =>
        have hown := fun {out} hend => hlong (out := out) hf (rteLongFrame_own halike hversion hv hend)
        refine ⟨fun p hp => hown (loadInternal_stuck halike hp), ?_⟩
        intro hssw ssw
        split
        case isTrue hbits =>
          exact ⟨fun p hp => hown (rteOwnFrame_rerun hssw hbits (loadInternal_stuck halike hp)),
            fun hall => hown (rteOwnFrame_rerun hssw hbits (.bind (loadInternal_ok hall) (.ok rfl)))⟩
        case isFalse hbits => exact hown (rteOwnFrame_refused halike hssw hbits)

end Sys2Proof.Machine
end

/-! # Exception entry, said once (R510, R514, R530 to R532)

`State.framed` is the state with a frame on the active stack and `State.vectorValue` what a vector then answers. A bus
or address error either stops the processor or leaves it at a vector; any other exception may also meet such an error
on its way. -/

section
namespace Sys2Proof.Machine

variable {s t : State} {vector : Byte} {bs : List Byte}

/-! ## The vector (R501) -/

theorem State.vectorAddr_eq (s : State) (vector : Byte) :
    s.vectorAddr vector = s.vbr + BitVec.ofNat 32 (4 * vector.toNat) := by
  have hv := vector.isLt
  refine congrArg (s.vbr + ·) (BitVec.eq_of_toNat_eq ?_)
  simp only [BitVec.toNat_shiftLeft, BitVec.toNat_setWidth, BitVec.toNat_ofNat, Nat.shiftLeft_eq]
  omega

/-- The long word that answers at a vector: memory's, or a device's, which is free. -/
def State.vectorValue (s : State) (vector : Byte) : Long :=
  bytesLong (if s.onDevice supervisorData (s.vectorAddr vector) 4 then s.answer supervisorData (s.vectorAddr vector) 4
    else s.load supervisorData (s.vectorAddr vector) 4)

theorem State.vectorValue_of_memory (h : s.onDevice supervisorData (s.vectorAddr vector) 4 = false) :
    s.vectorValue vector = s.longAt supervisorData (s.vectorAddr vector) := by
  unfold State.vectorValue
  rw [h]
  rfl

/-- The state with the PC loaded from a vector. -/
def State.atVector (s : State) (vector : Byte) : State :=
  { s.afterRead supervisorData (s.vectorAddr vector) 4 with pc := s.vectorValue vector }

theorem State.atVector_used (s : State) (vector : Byte) :
    ∃ k, s.atVector vector = { s.used k with pc := s.vectorValue vector } := by
  obtain ⟨k, hk⟩ := s.afterRead_used supervisorData (s.vectorAddr vector) 4
  exact ⟨k, by rw [State.atVector, hk]⟩

theorem State.atVector_of_readable (h : s.readable supervisorData (s.vectorAddr vector) 4) :
    s.atVector vector = { s with pc := s.longAt supervisorData (s.vectorAddr vector) } := by
  obtain ⟨-, hd⟩ := State.readable_iff.mp h
  rw [State.atVector, State.vectorValue_of_memory hd, State.afterRead, hd]
  rfl

theorem loadVector_ok (h : s.firstFault supervisorData false (s.vectorAddr vector) 4 = none) :
    loadVector vector s = .ok () (s.atVector vector) := by
  unfold loadVector
  rw [M.get_bind, M.bind_ok (busRead_eq_ok.mpr ⟨h, rfl, rfl⟩)]
  rfl

theorem loadVector_error {i : Nat × Bool} (h : s.firstFault supervisorData false (s.vectorAddr vector) 4 = some i) :
    loadVector vector s =
      .error (s.accessFault supervisorData false false (s.vectorAddr vector) 4 i []) s := by
  unfold loadVector
  rw [M.get_bind]
  refine M.bind_error ?_
  unfold busRead
  rw [h]

/-! ## The frame (R514) -/

/-- The frame `bs` on the active stack. -/
def State.framed (s : State) (bs : List Byte) : State :=
  (s.setSp (s.sp - BitVec.ofNat 32 bs.length)).store supervisorData (s.sp - BitVec.ofNat 32 bs.length) bs

theorem State.framed_platform (s : State) (bs : List Byte) : (s.framed bs).platform = s.platform :=
  State.setSp_platform _ _

theorem State.framed_sr (s : State) (bs : List Byte) : (s.framed bs).sr = s.sr := State.setSp_sr _ _

theorem State.framed_run (s : State) (bs : List Byte) : (s.framed bs).run = s.run := State.setSp_run _ _

theorem State.framed_vbr (s : State) (bs : List Byte) : (s.framed bs).vbr = s.vbr := State.setSp_vbr _ _

theorem State.framed_vectorAddr (s : State) (bs : List Byte) (vector : Byte) :
    (s.framed bs).vectorAddr vector = s.vectorAddr vector := congrArg (· + _) (s.framed_vbr bs)

theorem State.framed_sp (s : State) (bs : List Byte) :
    (s.framed bs).sp = s.sp - BitVec.ofNat 32 bs.length := State.sp_setSp _ _

theorem pushFrame_framed (h : s.writable supervisorData (s.sp - BitVec.ofNat 32 bs.length) bs.length) :
    pushFrame bs s = .ok () (s.framed bs) := pushFrame_ok h

/-- A frame whose writing faults: the stack pointer is past the whole of it (log 30). -/
theorem pushFrame_error {i : Nat × Bool}
    (h : s.firstFault supervisorData true (s.sp - BitVec.ofNat 32 bs.length) bs.length = some i) :
    ∃ f t, pushFrame bs s = .error f t ∧ t.sr = s.sr ∧ t.sp = s.sp - BitVec.ofNat 32 bs.length := by
  have hp := State.firstFault_congr (s.setSp_platform (s.sp - BitVec.ofNat 32 bs.length)) supervisorData true
    (s.sp - BitVec.ofNat 32 bs.length) bs.length
  have hsp := s.sp_setSp (s.sp - BitVec.ofNat 32 bs.length)
  unfold pushFrame
  dsimp only
  rw [hp, h]
  exact ⟨_, _, rfl, s.setSp_sr _, hsp⟩

/-- The stack that S = 1 and M select. -/
theorem State.beginException_sp (s : State) : s.beginException.sp = if s.mBit then s.msp else s.isp := by
  have hs : s.beginException.sBit = true := by simp [State.beginException, State.sBit, enteredSr]
  have hm : s.beginException.mBit = s.mBit := by simp [State.beginException, State.mBit, enteredSr]
  rw [State.sp, hs, hm]
  rfl

/-! ## Other exceptions -/

theorem State.takeException_of_ok {x : Exc} (hbs : x.frameBytes s.platform s.sr s.draws = bs)
    (h : (pushFrame bs >>= fun _ => loadVector x.vector) (s.beginException.used x.draws) = .ok () t) :
    s.takeException x = { t with ending := x.ending } := by
  unfold State.takeException
  dsimp only
  rw [hbs, h]

theorem State.takeException_of_error {x : Exc} {f : BusFault} (hbs : x.frameBytes s.platform s.sr s.draws = bs)
    (h : (pushFrame bs >>= fun _ => loadVector x.vector) (s.beginException.used x.draws) = .error f t) :
    s.takeException x = t.nestedBusError f := by
  unfold State.takeException
  dsimp only
  rw [hbs, h]

/-! ## Bus and address errors (R530 to R532) -/

theorem State.enterFault_unwritable {long : Bool} {pc : Long} {f : BusFault} {i : Nat × Bool}
    (h : s.firstFault supervisorData true (s.beginException.sp - BitVec.ofNat 32 (if long then 92 else 32))
      (if long then 92 else 32) = some i) :
    s.enterFault vector long pc f = if i.2 then s.hang else s.halt := by
  have hp := State.firstFault_congr (s := s) (t := s.beginException) rfl supervisorData true
  unfold State.enterFault
  dsimp only
  rw [faultFrame_length, hp, h]

/-- The bytes of the bus fault frame that `enterFault` writes. -/
abbrev State.faultBytes (s : State) (vector : Byte) (long : Bool) (pc : Long) (f : BusFault) : List Byte :=
  faultFrame s.draws vector long s.platform.cpuVersion s.sr pc f

theorem State.enterFault_unreadable {long : Bool} {pc : Long} {f : BusFault} {i : Nat × Bool}
    (hw : s.writable supervisorData (s.beginException.sp - BitVec.ofNat 32 (if long then 92 else 32))
      (if long then 92 else 32))
    (h : s.firstFault supervisorData false (s.vectorAddr vector) 4 = some i) :
    s.enterFault vector long pc f = if i.2 then s.hang else s.halt := by
  have hp := State.firstFault_congr (s := s) (t := s.beginException) rfl supervisorData true
  have hread := loadVector_error (s := s.beginException.framed (s.faultBytes vector long pc f)) (vector := vector) (i := i)
    (by rw [State.framed_vectorAddr, State.firstFault_congr (State.framed_platform _ _)]; exact h)
  unfold State.enterFault
  dsimp only
  rw [faultFrame_length, hp, show s.firstFault _ _ _ _ = none from hw]
  dsimp only
  rw [State.framed, faultFrame_length] at hread
  rw [hread]
  rfl

/-- A bus or address error that meets no fault of its own: an odd vector halts (R531, R532). -/
theorem State.enterFault_eq {long : Bool} {pc : Long} {f : BusFault}
    (hw : s.writable supervisorData (s.beginException.sp - BitVec.ofNat 32 (if long then 92 else 32))
      (if long then 92 else 32))
    (h : s.firstFault supervisorData false (s.vectorAddr vector) 4 = none) :
    s.enterFault vector long pc f =
      if ((s.beginException.framed (s.faultBytes vector long pc f)).atVector vector).pc.getLsbD 0 then
        (s.used frameDraws).halt
      else { (s.beginException.framed (s.faultBytes vector long pc f)).atVector vector with
        ending := .notDone }.used frameDraws := by
  have hp := State.firstFault_congr (s := s) (t := s.beginException) rfl supervisorData true
  have hread := loadVector_ok (s := s.beginException.framed (s.faultBytes vector long pc f)) (vector := vector)
    (by rw [State.framed_vectorAddr, State.firstFault_congr (State.framed_platform _ _)]; exact h)
  unfold State.enterFault
  dsimp only
  rw [faultFrame_length, hp, show s.firstFault _ _ _ _ = none from hw]
  dsimp only
  conv at hread => lhs; rw [State.framed, faultFrame_length]
  rw [hread]

end Sys2Proof.Machine
end

/-! # In user mode nothing reaches supervisor state but through exception entry (O19)

A body that runs in user mode keeps to the user's side (`UserSide`): it has no way to the supervisor stack pointers or
the upper byte of the SR, whatever its operands. It ends on that side, or in an exception, whose entry leaves the
processor halted, waiting, or at a handler (`AtHandler`). -/

section
namespace Sys2Proof.Machine

variable {s t u : State} {vector : Byte} {bs : List Byte} {n k : Nat}

/-! ## The SR on entry (R510) -/

theorem enteredSr_getLsbD (sr : Word) {i : Nat} (hi : i < 16) :
    (enteredSr sr).getLsbD i = (decide (i = 13) || decide (i < 14) && sr.getLsbD i) := by
  unfold enteredSr
  interval_cases i <;> simp

theorem enteredSr_entered (sr : Word) : enteredSr (enteredSr sr) = enteredSr sr := by
  refine BitVec.eq_of_getLsbD_eq fun i hi => ?_
  rw [enteredSr_getLsbD _ hi, enteredSr_getLsbD _ hi]
  cases decide (i = 13) <;> cases decide (i < 14) <;> simp

theorem State.sBit_of_entered {sr : Word} (h : t.sr = enteredSr sr) : t.sBit = true := by
  rw [State.sBit, h, enteredSr_getLsbD _ (by decide)]
  rfl

theorem State.mBit_of_entered (h : t.sr = enteredSr s.sr) : t.mBit = s.mBit := by
  rw [State.mBit, h, enteredSr_getLsbD _ (by decide)]
  rfl

theorem State.untraced_of_entered {sr : Word} (h : t.sr = enteredSr sr) : t.t1 = false ∧ t.t0 = false := by
  rw [State.t1, State.t0, h, enteredSr_getLsbD _ (by decide), enteredSr_getLsbD _ (by decide)]
  exact ⟨rfl, rfl⟩

/-! ## Where exception entry leads -/

/-- `t` begins a handler: an exception taken in `s` has put `n` bytes on the supervisor stack and loaded a vector. -/
structure AtHandler (s t : State) (n : Nat) : Prop where
  sr : t.sr = enteredSr s.sr
  run : t.run = .normal
  sp : t.sp = (if s.mBit then s.msp else s.isp) - BitVec.ofNat 32 n
  pc : (∀ v, t.onDevice supervisorData (t.vectorAddr v) 4 = false) →
    ∃ v, t.pc = t.longAt supervisorData (t.vectorAddr v)

namespace AtHandler

theorem withEnding (h : AtHandler s t n) (e : Ending) : AtHandler s { t with ending := e } n :=
  ⟨h.sr, h.run, h.sp, h.pc⟩

theorem used (h : AtHandler s t n) (k : Nat) : AtHandler s (t.used k) n := ⟨h.sr, h.run, h.sp, h.pc⟩

/-- The frame and then the vector, whatever draws were used before. -/
theorem of_framed (s : State) (k : Nat) (bs : List Byte) (vector : Byte) :
    AtHandler s (((s.beginException.used k).framed bs).atVector vector) bs.length := by
  have hsp := (s.beginException.used k).framed_sp bs
  rw [show (s.beginException.used k).sp = s.beginException.sp from rfl, s.beginException_sp] at hsp
  obtain ⟨j, hj⟩ := ((s.beginException.used k).framed bs).atVector_used vector
  rw [hj]
  exact ⟨State.framed_sr _ _, State.framed_run _ _, hsp, fun hmem => ⟨vector, State.vectorValue_of_memory (hmem vector)⟩⟩

/-- A handler of an exception that was met while another was entered, `n` bytes of whose frame are on the stack. -/
theorem nested {m : Nat} (h : AtHandler u t m) (hsr : u.sr = enteredSr s.sr)
    (hsp : u.sp = s.beginException.sp - BitVec.ofNat 32 n) : AtHandler s t (n + m) := by
  have hu : u.sp = if u.mBit then u.msp else u.isp := by rw [State.sp, State.sBit_of_entered hsr, if_pos rfl]
  refine ⟨by rw [h.sr, hsr, enteredSr_entered], h.run, ?_, h.pc⟩
  rw [h.sp, ← hu, hsp, s.beginException_sp, BitVec.ofNat_add, sub_sub]

end AtHandler

/-- A bus or address error stops the processor where it is, or enters its handler (R530 to R532). -/
theorem State.enterFault_cases (s : State) (vector : Byte) (long : Bool) (pc : Long) (f : BusFault) :
    (∃ k r, (r = .halted ∨ r = .hung) ∧
      s.enterFault vector long pc f = { s.used k with run := r, ending := .notDone }) ∨
    AtHandler s (s.enterFault vector long pc f) (if long then 92 else 32) := by
  have hstop : ∀ never : Bool, ∃ k r, (r = .halted ∨ r = .hung) ∧
      (if never then s.hang else s.halt) = { s.used k with run := r, ending := .notDone } := by
    rintro (_ | _)
    · exact ⟨0, .halted, .inl rfl, rfl⟩
    · exact ⟨0, .hung, .inr rfl, rfl⟩
  cases hw : s.firstFault supervisorData true (s.beginException.sp - BitVec.ofNat 32 (if long then 92 else 32))
      (if long then 92 else 32) with
  | some i => exact .inl (s.enterFault_unwritable hw ▸ hstop i.2)
  | none =>
    cases hr : s.firstFault supervisorData false (s.vectorAddr vector) 4 with
    | some i => exact .inl (s.enterFault_unreadable hw hr ▸ hstop i.2)
    | none =>
      rw [s.enterFault_eq hw hr]
      split
      · exact .inl ⟨frameDraws, .halted, .inl rfl, rfl⟩
      · have hentered := AtHandler.of_framed s 0 (s.faultBytes vector long pc f) vector
        rw [faultFrame_length] at hentered
        exact .inr ((hentered.withEnding .notDone).used frameDraws)

/-- An exception taken in `s` has led to `t`: the processor is halted, waits, or begins a handler. -/
structure Took (s t : State) : Prop where
  sr : t.sr = enteredSr s.sr
  run : t.run ≠ .stopped
  handler : t.run = .normal → ∃ n, 8 ≤ n ∧ n ≤ 124 ∧ AtHandler s t n

theorem AtHandler.took (h : AtHandler s t n) (hmin : 8 ≤ n) (hmax : n ≤ 124) : Took s t :=
  ⟨h.sr, by simp [h.run], fun _ => ⟨n, hmin, hmax, h⟩⟩

theorem Took.of_ended (hsr : t.sr = enteredSr s.sr) (hr : t.run = .halted ∨ t.run = .hung) : Took s t := by
  rcases hr with hr | hr
  · exact ⟨hsr, by simp [hr], by simp [hr]⟩
  · exact ⟨hsr, by simp [hr], by simp [hr]⟩

/-- A bus error on the frame or on the vector of an exception: its own frame goes below the first (92 D27). -/
theorem State.nestedBusError_took (hsr : u.sr = enteredSr s.sr)
    (hsp : u.sp = s.beginException.sp - BitVec.ofNat 32 n) (hmin : 8 ≤ n) (hmax : n ≤ 32) (f : BusFault) :
    Took s (u.nestedBusError f) := by
  unfold State.nestedBusError
  split
  · exact .of_ended hsr (.inr rfl)
  · rcases (u.used 1).enterFault_cases 2 (freeBit u.draws) (u.used 1).pc f with ⟨k, r, hr, heq⟩ | hin
    · rw [State.busError, heq]
      exact .of_ended hsr hr
    · refine (hin.nested (s := s) (n := n) hsr hsp).took (by omega) ?_
      split <;> omega

/-- The frame of an exception is 8, 12 or 32 bytes (R506, R508, R540). -/
theorem Exc.frameBytes_length (x : Exc) (p : Platform) (sr : Word) (n : Nat) :
    8 ≤ (x.frameBytes p sr n).length ∧ (x.frameBytes p sr n).length ≤ 32 := by
  have hhead : ∀ fmt, (frameHead fmt sr x.savedPc x.vector).length = 8 := fun _ => rfl
  unfold Exc.frameBytes
  split
  · simp [hhead]
  · simp [hhead, longBytes_length]
  · split <;> simp [hhead, shortTail, longBytes_length, freeWords_length]

theorem State.takeException_took (s : State) (x : Exc) : Took s (s.takeException x) := by
  obtain ⟨bs, hbs⟩ : ∃ bs, x.frameBytes s.platform s.sr s.draws = bs := ⟨_, rfl⟩
  obtain ⟨hmin, hmax⟩ := hbs ▸ x.frameBytes_length s.platform s.sr s.draws
  have hbegun := State.firstFault_congr (s := s) (t := s.beginException.used x.draws) rfl supervisorData
  cases hw : s.firstFault supervisorData true (s.beginException.sp - BitVec.ofNat 32 bs.length) bs.length with
  | some i =>
    obtain ⟨f, u, hpush, hsr, hsp⟩ := pushFrame_error ((hbegun _ _ _).trans hw)
    rw [State.takeException_of_error hbs (M.bind_error hpush)]
    exact State.nestedBusError_took hsr hsp hmin hmax f
  | none =>
    have hpush := pushFrame_framed ((hbegun _ _ _).trans hw)
    have hsp := (s.beginException.used x.draws).framed_sp bs
    cases hr : ((s.beginException.used x.draws).framed bs).firstFault supervisorData false
        (((s.beginException.used x.draws).framed bs).vectorAddr x.vector) 4 with
    | some i =>
      rw [State.takeException_of_error hbs ((M.bind_ok hpush).trans (loadVector_error hr))]
      exact State.nestedBusError_took (State.framed_sr _ _) hsp hmin hmax _
    | none =>
      rw [State.takeException_of_ok hbs ((M.bind_ok hpush).trans (loadVector_ok hr))]
      exact ((AtHandler.of_framed s _ bs x.vector).withEnding x.ending).took hmin (by omega)

end Sys2Proof.Machine
end

/-! # The bodies of user mode keep to the user's side (O19)

`Contained s x`: run from the user's side of `s`, the body `x` ends there, and so do the states that a bus error in it
reports as passed through; an exception that it raises says that the instruction trapped or was not done. A privileged
body is stopped before it begins. -/

section
namespace Sys2Proof.Machine

variable {s t : State}

/-! ## The user's side -/

/-- `t` is in user mode, with the supervisor stack pointers and the SR but for the condition codes of `s`. -/
structure UserSide (s t : State) : Prop where
  user : t.sBit = false
  isp : t.isp = s.isp
  msp : t.msp = s.msp
  sr : t.sr &&& 0xFFE0 = s.sr &&& 0xFFE0

namespace UserSide

theorem refl (h : s.sBit = false) : UserSide s s := ⟨h, rfl, rfl, rfl⟩

/-- The mode and the masked SR depend on the SR alone. -/
theorem congr {u : State} (h : UserSide s t) (hsr : u.sr = t.sr) (hisp : u.isp = t.isp) (hmsp : u.msp = t.msp) :
    UserSide s u :=
  ⟨by rw [State.sBit, hsr]; exact h.user, hisp.trans h.isp, hmsp.trans h.msp, by rw [hsr]; exact h.sr⟩

theorem goOn (h : UserSide s t) (a : Long) (e : Ending) : UserSide s { t with pc := a, ending := e } :=
  h.congr rfl rfl rfl

theorem used (h : UserSide s t) (k : Nat) : UserSide s (t.used k) := h.congr rfl rfl rfl

theorem setD (h : UserSide s t) (r : Reg) (v : Long) : UserSide s (t.setD r v) := h.congr rfl rfl rfl

theorem putD (h : UserSide s t) (sz : Size) (r : Reg) (v : Long) : UserSide s (t.putD sz r v) := h.setD r _

/-- In user mode the active stack pointer is the user's (R23). -/
theorem setSp (h : UserSide s t) (v : Long) : UserSide s (t.setSp v) := by
  unfold State.setSp
  rw [h.user]
  exact h.congr rfl rfl rfl

theorem setA (h : UserSide s t) (r : Reg) (v : Long) : UserSide s (t.setA r v) := by
  unfold State.setA
  split
  · exact h.congr rfl rfl rfl
  · exact h.setSp v

theorem setR (h : UserSide s t) (rn : Rn) (v : Long) : UserSide s (t.setR rn v) := by
  unfold State.setR
  split
  · exact h.setA _ v
  · exact h.setD _ v

theorem setCc (h : UserSide s t) (f : CC) : UserSide s (t.setCc f) :=
  ⟨(t.sBit_setCc f).trans h.user, h.isp, h.msp, (t.setCc_sr_high f).trans h.sr⟩

theorem store (h : UserSide s t) (fc : FC) (a : Long) (bs : List Byte) : UserSide s (t.store fc a bs) :=
  h.congr rfl rfl rfl

theorem afterRead (h : UserSide s t) (fc : FC) (a : Long) (n : Nat) : UserSide s (t.afterRead fc a n) := by
  obtain ⟨k, hk⟩ := t.afterRead_used fc a n
  rw [hk]
  exact h.used k

end UserSide

/-! ## Bodies -/

/-- A stop of a body leaves user mode only by an exception that traps the instruction or leaves it not done. -/
def Abort.FromUser (s : State) : Abort → Prop
  | .bus _ seen _ => ∀ u ∈ seen, UserSide s u
  | .raised x => x.ending = .trapped ∨ x.ending = .notDone
  | .doubleFault | .refuse _ | .fault _ => True

/-- From the user's side the body ends there, or in a stop that may leave user mode. -/
def Contained {α : Type} (s : State) (x : M α) : Prop :=
  ∀ t, UserSide s t →
    match x t with
    | .ok _ u => UserSide s u
    | .error e u => UserSide s u ∧ e.FromUser s

section Steps

variable {α β : Type}

theorem Contained.bind {x : M α} {f : α → M β} (hx : Contained s x) (hf : ∀ a, Contained s (f a)) :
    Contained s (x >>= f) := by
  intro t ht
  have hxt := hx t ht
  cases h : x t with
  | ok a u =>
    rw [h] at hxt
    rw [M.bind_ok h]
    exact hf a u hxt
  | error e u =>
    rw [h] at hxt
    rw [M.bind_error h]
    exact hxt

theorem Contained.ite {c : Prop} [Decidable c] {x y : M α} (hx : Contained s x) (hy : Contained s y) :
    Contained s (if c then x else y) := by
  split
  · exact hx
  · exact hy

theorem pure_contained (a : α) : Contained s (pure a : M α) := fun _ ht => ht

theorem modify_contained {g : State → State} (h : ∀ t, UserSide s t → UserSide s (g t)) :
    Contained s (modify g : M PUnit) := fun t ht => h t ht

theorem set_contained {t : State} (h : UserSide s t) : Contained s (set t : M PUnit) := fun _ _ => h

/-- After reading the state, what follows may use that it is on the user's side. -/
theorem Contained.get {f : State → M β} (h : ∀ t, UserSide s t → Contained s (f t)) :
    Contained s ((MonadState.get : M State) >>= f) := fun t ht => h t ht t ht

theorem raised_contained {x : Exc} (h : x.ending = .trapped ∨ x.ending = .notDone) : Contained s (raised x : M α) :=
  fun _ ht => ⟨ht, h⟩

theorem refuse_contained (r : Refusal) : Contained s (refuse r : M α) := fun _ ht => ⟨ht, trivial⟩

/-- A body that is refused on a condition and else goes on. -/
theorem refuseIf_contained {c : Prop} [Decidable c] {r : Refusal} {rest : PUnit → M α}
    (h : Contained s (rest ⟨⟩)) : Contained s (if c then refuse r >>= rest else rest ⟨⟩) :=
  Contained.ite ((refuse_contained r).bind fun _ => h) h

theorem raiseIllegal_contained : Contained s (raiseIllegal : M α) := fun _ ht => ⟨ht, .inr rfl⟩

/-- In user mode a privileged body is the privilege violation, whatever it would do (R390). -/
theorem privileged_contained (body : M Unit) : Contained s (privileged body) := by
  intro t ht
  rw [privileged_user ht.user]
  exact ⟨ht, .inr rfl⟩

theorem draw_contained : Contained s draw := fun _ ht => ht.used 1

theorem drawBit_contained : Contained s drawBit := draw_contained.bind fun _ => pure_contained _

theorem advance_contained (n : Nat) : Contained s (advance n) := modify_contained fun _ h => h.goOn _ _

theorem jump_contained (a : Long) : Contained s (jump a) := modify_contained fun _ h => h.goOn _ _

/-- The states seen, with the present one before them where it may still stand. -/
theorem UserSide.seen_cons (h : UserSide s t) {seen : List State} (hs : ∀ u ∈ seen, UserSide s u) (made : Bool) :
    ∀ u ∈ (if made then seen else t :: seen), UserSide s u := by
  split
  · exact hs
  · exact List.forall_mem_cons.mpr ⟨h, hs⟩

theorem checkpoint_contained {x : M α} (h : Contained s x) : Contained s (checkpoint x) := by
  intro t ht
  have hx := h t ht
  unfold checkpoint
  revert hx
  rcases x t with ⟨a, u⟩ | ⟨e, u⟩
  · exact id
  · cases e with
    | bus f seen made => exact fun ⟨hu, hseen⟩ => ⟨hu, ht.seen_cons hseen made⟩
    | raised _ | doubleFault | refuse _ | fault _ => exact id

theorem afterMade_contained {x : M α} (h : Contained s x) : Contained s (afterMade x) := by
  intro t ht
  have hx := h t ht
  unfold afterMade
  revert hx
  rcases x t with ⟨a, u⟩ | ⟨e, u⟩
  · exact id
  · cases e with
    | bus f seen made => exact fun ⟨hu, hseen⟩ => ⟨hu, ht.seen_cons hseen made⟩
    | raised _ | doubleFault | refuse _ | fault _ => exact id

end Steps

/-! ## Memory operands and the stack -/

/-- A bus access whose state afterwards is on the user's side however it ends. -/
theorem liftBus_contained {α : Type} {x : Bus α} (hok : ∀ t a u, UserSide s t → x t = .ok a u → UserSide s u)
    (herr : ∀ t f u, UserSide s t → x t = .error f u → UserSide s u) : Contained s (liftBus x) := by
  intro t ht
  unfold liftBus
  cases hx : x t with
  | ok a u => exact hok t a u ht hx
  | error f u => exact ⟨herr t f u ht hx, List.forall_mem_nil _⟩

theorem busRead_contained (rmw : Bool) (fc : FC) (a : Long) (n : Nat) :
    Contained s (liftBus (busRead rmw fc a n)) := by
  refine liftBus_contained (fun t bs u ht hx => ?_) (fun t f u ht hx => ?_)
  · obtain ⟨-, -, rfl⟩ := busRead_eq_ok.mp hx
    exact ht.afterRead fc a n
  · unfold busRead at hx
    split at hx <;> cases hx
    exact ht

theorem busWrite_contained (rmw : Bool) (fc : FC) (a : Long) (bs : List Byte) :
    Contained s (liftBus (busWrite rmw fc a bs)) := by
  refine liftBus_contained (fun t bs u ht hx => ?_) (fun t f u ht hx => ?_)
  all_goals
    unfold busWrite at hx
    split at hx <;> cases hx
    exact ht.store fc a _

theorem readMem_contained (rmw : Bool) (fc : FC) (a : Long) (sz : Size) : Contained s (readMem rmw fc a sz) :=
  (busRead_contained _ _ _ _).bind fun _ => pure_contained _

theorem writeMem_contained (rmw : Bool) (fc : FC) (a : Long) (sz : Size) (v : Long) :
    Contained s (writeMem rmw fc a sz v) := busWrite_contained _ _ _ _

theorem readData_contained (a : Long) (sz : Size) : Contained s (readData a sz) :=
  Contained.get fun _ _ => readMem_contained _ _ _ _

theorem writeData_contained (a : Long) (sz : Size) (v : Long) : Contained s (writeData a sz v) :=
  Contained.get fun _ _ => writeMem_contained _ _ _ _ _

theorem pushLong_contained (v : Long) : Contained s (pushLong v) :=
  (modify_contained fun _ h => h.setSp _).bind fun _ => Contained.get fun _ _ => writeData_contained _ _ _

theorem popLong_contained : Contained s popLong :=
  Contained.get fun _ _ => (readData_contained _ _).bind fun _ =>
    (modify_contained fun _ h => h.setSp _).bind fun _ => pure_contained _

/-! ## Effective addresses (R113 to R116) -/

theorem indexedAddr_contained (space : FC) (base : Long) (e : IndexExt) : Contained s (indexedAddr space base e) :=
  Contained.get fun _ _ => by
    cases e with
    | brief ix d8 => exact pure_contained _
    | full ix bs is bd ind =>
      cases ind with
      | none => exact pure_contained _
      | pre od => exact (readMem_contained _ _ _ _).bind fun _ => pure_contained _
      | post od => exact (readMem_contained _ _ _ _).bind fun _ => pure_contained _

theorem memAddr_contained (sz : Size) (own : Nat) (ea : Ea) : Contained s (memAddr sz own ea) :=
  Contained.get fun _ h => by
    cases ea with
    | postinc r => exact (set_contained (h.setA r _)).bind fun _ => pure_contained _
    | predec r => exact (set_contained (h.setA r _)).bind fun _ => pure_contained _
    | indexed r e => exact indexedAddr_contained _ _ e
    | pcIndexed e => exact indexedAddr_contained _ _ e
    | ind _ | disp _ _ | absW _ | absL _ | pcDisp _ => exact pure_contained _
    | dreg _ | areg _ | imm _ => exact raiseIllegal_contained

/-! ## Operands -/

theorem readEa_contained (sz : Size) (own : Nat) (ea : Ea) : Contained s (readEa sz own ea) :=
  Contained.get fun _ _ => by
    cases ea with
    | dreg _ | areg _ | imm _ => exact pure_contained _
    | _ => exact (memAddr_contained sz own _).bind fun _ => readMem_contained _ _ _ sz

theorem writeEa_contained (sz : Size) (own : Nat) (ea : Ea) (v : Long) : Contained s (writeEa sz own ea v) := by
  cases ea with
  | dreg r => exact modify_contained fun _ h => h.putD sz r v
  | areg _ | pcDisp _ | pcIndexed _ | imm _ => exact raiseIllegal_contained
  | _ => exact (memAddr_contained sz own _).bind fun _ => writeData_contained _ sz v

theorem modifyEa_contained (sz : Size) (own : Nat) (ea : Ea) (f : Long → CC → Long × CC) :
    Contained s (modifyEa sz own ea f) := by
  cases ea with
  | dreg r => exact modify_contained fun _ h => (h.putD sz r _).setCc _
  | areg _ | pcDisp _ | pcIndexed _ | imm _ => exact raiseIllegal_contained
  | _ =>
    exact (memAddr_contained sz own _).bind fun _ => (readData_contained _ sz).bind fun _ => Contained.get fun _ h =>
      (set_contained (h.setCc _)).bind fun _ => writeData_contained _ sz _

theorem testEa_contained (sz : Size) (own : Nat) (ea : Ea) (f : Long → CC → CC) : Contained s (testEa sz own ea f) :=
  (readEa_contained sz own ea).bind fun _ => modify_contained fun _ h => h.setCc _

/-! ## Register lists (R204) -/

theorem storeRegs_contained (sz : Size) (a : Long) (rns : List Rn) : Contained s (storeRegs sz a rns) := by
  induction rns generalizing a with
  | nil => exact pure_contained _
  | cons rn rest ih => exact Contained.get fun _ _ => (writeData_contained _ _ _).bind fun _ => ih _

theorem storeRegsDown_contained (sz : Size) (n : Reg) (a : Long) (rns : List Rn) :
    Contained s (storeRegsDown sz n a rns) := by
  induction rns generalizing a with
  | nil => exact pure_contained _
  | cons rn rest ih => exact Contained.get fun _ _ => (writeData_contained _ _ _).bind fun _ => ih _

theorem loadRegs_contained (space : FC) (sz : Size) (a : Long) (rns : List Rn) :
    Contained s (loadRegs space sz a rns) := by
  induction rns generalizing a with
  | nil => exact pure_contained _
  | cons rn rest ih =>
    exact (readMem_contained _ _ _ _).bind fun _ => (modify_contained fun _ h => h.setR rn _).bind fun _ =>
      afterMade_contained (ih _)

end Sys2Proof.Machine
end

/-! # Every instruction of user mode ends on the user's side or in an exception (O19) -/

section
namespace Sys2Proof.Machine

variable {s t : State}

/-! ## The end of a body -/

/-- `t` is where an exception led that an instruction of user mode took. -/
structure Excepted (s t : State) : Prop where
  took : ∃ u, UserSide s u ∧ Took u t
  ending : t.ending = .trapped ∨ t.ending = .notDone

/-- A next state of the outcome is on the user's side, or an exception led to it. -/
def OutOfUser (s : State) (o : Host.Outcome State Fault Refusal) : Prop :=
  s.sBit = false → ∀ t, o = .next t → UserSide s t ∨ Excepted s t

theorem UserSide.takeException (h : UserSide s t) {x : Exc} (hx : x.ending = .trapped ∨ x.ending = .notDone) :
    Excepted s (t.takeException x) := by
  refine ⟨⟨t, h, t.takeException_took x⟩, ?_⟩
  rcases t.takeException_ending x with he | he
  · rwa [he]
  · exact .inr he

theorem UserSide.busError (h : UserSide s t) (long : Bool) (f : BusFault) :
    UserSide s (t.busError long f) ∨ Excepted s (t.busError long f) := by
  have hending := t.enterFault_ending 2 long t.pc f
  unfold State.busError
  rcases t.enterFault_cases 2 long t.pc f with ⟨k, r, -, heq⟩ | hin
  · rw [heq]
    exact .inl (h.congr rfl rfl rfl)
  · exact .inr ⟨⟨t, h, hin.took (by split <;> omega) (by split <;> omega)⟩, .inr hending⟩

/-- A free choice among the values that states held is the value of one of them. -/
theorem anyOf_map_mem {α : Type} [DecidableEq α] (n r : Nat) (f : State → α) (seen : List State) (t : State) :
    ∃ u ∈ t :: seen, anyOf n r (seen.map f) (f t) = f u := by
  rcases anyOf_cases n r (seen.map f) (f t) with h | h
  · exact ⟨t, List.mem_cons_self, h⟩
  · obtain ⟨u, hu, he⟩ := List.mem_map.mp h
    exact ⟨u, List.mem_cons_of_mem _ hu, he.symm⟩

theorem UserSide.partly (h : UserSide s t) {seen : List State} (hs : ∀ u ∈ seen, UserSide s u) (pc : Long) :
    UserSide s (State.partly seen t pc) := by
  have hall : ∀ u ∈ t :: seen, UserSide s u := List.forall_mem_cons.mpr ⟨h, hs⟩
  obtain ⟨u, hu, hsr⟩ := anyOf_map_mem t.draws 18 (·.sr) seen t
  obtain ⟨v, hv, hisp⟩ := anyOf_map_mem t.draws 16 (·.isp) seen t
  obtain ⟨w, hw, hmsp⟩ := anyOf_map_mem t.draws 17 (·.msp) seen t
  exact ⟨(congrArg (·.getLsbD 13) hsr).trans (hall u hu).user, hisp.trans (hall v hv).isp,
    hmsp.trans (hall w hw).msp, (congrArg (· &&& 0xFFE0) hsr).trans (hall u hu).sr⟩

/-- An instruction cut short by a bus error has changed no register that a supervisor's is (R200, R553). -/
theorem UserSide.cutShort (h : UserSide s t) (hs : s.sBit = false) {seen : List State}
    (hseen : ∀ u ∈ seen, UserSide s u) (f : BusFault) (made : Bool) :
    UserSide s (s.cutShort t f seen made) ∨ Excepted s (s.cutShort t f seen made) := by
  have hregs : UserSide s (if f.rmw then s.undone t
      else State.partly (if made then seen else s :: seen) t s.pc) := by
    split
    · exact (UserSide.refl hs).congr rfl rfl rfl
    · exact h.partly ((UserSide.refl hs).seen_cons hseen made) s.pc
  unfold State.cutShort
  dsimp only
  split
  · exact .inl (hregs.congr rfl rfl rfl)
  · exact hregs.busError true f

theorem runInstr_contained {body : M Unit} (hb : Contained s body) : OutOfUser s (runInstr body s) := by
  intro hs t ht
  have hbody := hb s (.refl hs)
  unfold runInstr at ht
  split at ht <;> rename_i hr <;> rw [hr] at hbody <;> cases ht
  case h_1 => exact .inl hbody
  case h_2 =>
    obtain ⟨hu, hseen⟩ := hbody
    exact hu.cutShort hs hseen _ _
  case h_3 =>
    obtain ⟨hu, hx⟩ := hbody
    exact .inr (hu.takeException hx)
  case h_4 => exact .inl ((UserSide.refl hs).congr rfl rfl rfl)

end Sys2Proof.Machine
end

/-! # The bodies of user mode, instruction by instruction (O19) -/

section
namespace Sys2Proof.Machine

variable {s : State} {sz : Size} {wl : WL} {ea dst : Ea} {dn an rx ry : Reg} {rn : Rn} {k : Nat} {v : Imm}

/-! ## Data movement (40_data_movement) -/

theorem execMove_contained : OutOfUser s (execMove sz ea dst s) :=
  runInstr_contained <| (readEa_contained _ _ _).bind fun _ =>
    (checkpoint_contained <| (modify_contained fun _ h => h.setCc _).bind fun _ => writeEa_contained _ _ _ _).bind
      fun _ => advance_contained _

theorem execMovea_contained : OutOfUser s (execMovea wl ea an s) :=
  runInstr_contained <| (readEa_contained _ _ _).bind fun _ => (modify_contained fun _ h => h.setA _ _).bind
    fun _ => advance_contained _

theorem execMoveq_contained {data : Byte} : OutOfUser s (execMoveq dn data s) :=
  runInstr_contained <| (modify_contained fun _ h => (h.setD _ _).setCc _).bind fun _ => advance_contained _

theorem execMovemToMem_contained {mask : Word} : OutOfUser s (execMovemToMem wl mask ea s) := by
  refine runInstr_contained ?_
  cases ea with
  | predec n =>
    exact Contained.get fun _ _ => (storeRegsDown_contained _ _ _ _).bind fun _ =>
      (modify_contained fun _ h => h.setA n _).bind fun _ => advance_contained _
  | dreg _ | areg _ | postinc _ | pcDisp _ | pcIndexed _ | imm _ =>
    exact raiseIllegal_contained.bind fun _ => advance_contained _
  | ind _ | disp _ _ | indexed _ _ | absW _ | absL _ =>
    exact (memAddr_contained _ _ _).bind fun _ => (storeRegs_contained _ _ _).bind fun _ => advance_contained _

theorem execMovemToReg_contained {mask : Word} : OutOfUser s (execMovemToReg wl mask ea s) := by
  refine runInstr_contained (Contained.get fun _ _ => ?_)
  cases ea with
  | postinc n =>
    exact (loadRegs_contained _ _ _ _).bind fun _ => (modify_contained fun _ h => h.setA n _).bind
      fun _ => advance_contained _
  | dreg _ | areg _ | predec _ | imm _ => exact raiseIllegal_contained.bind fun _ => advance_contained _
  | ind _ | disp _ _ | indexed _ _ | absW _ | absL _ | pcDisp _ | pcIndexed _ =>
    exact (memAddr_contained _ _ _).bind fun _ => (loadRegs_contained _ _ _ _).bind fun _ => advance_contained _

theorem storeAlternate_contained (a x : Long) (n : Nat) : Contained s (storeAlternate a x n) := by
  induction n generalizing a with
  | zero => exact pure_contained _
  | succ n ih => exact (writeData_contained _ _ _).bind fun _ => ih _

theorem loadAlternate_contained (a acc : Long) (n : Nat) : Contained s (loadAlternate a acc n) := by
  induction n generalizing a acc with
  | zero => exact pure_contained _
  | succ n ih => exact (readData_contained _ _).bind fun _ => ih _ _

theorem execMovep_contained {toMem : Bool} {d16 : Word} : OutOfUser s (execMovep toMem wl rx an d16 s) :=
  runInstr_contained <| Contained.get fun _ _ => Contained.ite
    ((storeAlternate_contained _ _ _).bind fun _ => advance_contained _)
    ((loadAlternate_contained _ _ _).bind fun _ => (modify_contained fun _ h => h.putD _ _ _).bind fun _ => advance_contained _)

theorem execLea_contained : OutOfUser s (execLea ea an s) :=
  runInstr_contained <| (memAddr_contained _ _ _).bind fun _ => (modify_contained fun _ h => h.setA _ _).bind
    fun _ => advance_contained _

theorem execPea_contained : OutOfUser s (execPea ea s) :=
  runInstr_contained <| (memAddr_contained _ _ _).bind fun _ => (pushLong_contained _).bind fun _ => advance_contained _

theorem linkBody_contained {d : Long} : Contained s (linkBody an d) := by
  unfold linkBody
  exact refuseIf_contained <| Contained.get fun _ _ => (pushLong_contained _).bind fun _ =>
    modify_contained fun _ h => (h.setA _ _).setSp _

theorem execLinkW_contained {d16 : Word} : OutOfUser s (execLinkW an d16 s) :=
  runInstr_contained <| linkBody_contained.bind fun _ => advance_contained _

theorem execLinkL_contained {d32 : Long} : OutOfUser s (execLinkL an d32 s) :=
  runInstr_contained <| linkBody_contained.bind fun _ => advance_contained _

theorem execUnlk_contained : OutOfUser s (execUnlk an s) :=
  runInstr_contained <| refuseIf_contained <| (modify_contained fun _ h => h.setSp _).bind fun _ => popLong_contained.bind fun _ =>
    (modify_contained fun _ h => h.setA _ _).bind fun _ => advance_contained _

theorem execExg_contained {m : ExgMode} : OutOfUser s (execExg m rx ry s) := by
  refine runInstr_contained (Contained.get fun _ h => ?_)
  cases m with
  | dd => exact (set_contained ((h.setD _ _).setD _ _)).bind fun _ => advance_contained _
  | aa => exact (set_contained ((h.setA _ _).setA _ _)).bind fun _ => advance_contained _
  | da => exact (set_contained ((h.setD _ _).setA _ _)).bind fun _ => advance_contained _

/-! ## Integer arithmetic (41_integer_arithmetic) -/

theorem aluToReg_contained {op : AluOp} : Contained s (aluToReg op sz ea dn) :=
  (readEa_contained _ _ _).bind fun _ => (modify_contained fun _ h => (h.putD _ _ _).setCc _).bind fun _ => advance_contained _

theorem aluToEa_contained {op : AluOp} : Contained s (aluToEa op sz dn ea) :=
  Contained.get fun _ _ => (modifyEa_contained _ _ _ _).bind fun _ => advance_contained _

theorem aluToAddr_contained {f : Long → Long → Long} : Contained s (aluToAddr f wl ea an) :=
  (readEa_contained _ _ _).bind fun _ => (modify_contained fun _ h => h.setA _ _).bind fun _ => advance_contained _

theorem aluImm_contained {op : AluOp} : Contained s (aluImm op sz v ea) :=
  (modifyEa_contained _ _ _ _).bind fun _ => advance_contained _

theorem aluQuick_contained {op : AluOp} {f : Long → Long → Long} : Contained s (aluQuick op f sz dn ea) := by
  cases ea with
  | areg r => exact (modify_contained fun _ h => h.setA r _).bind fun _ => advance_contained _
  | _ => exact (modifyEa_contained _ _ _ _).bind fun _ => advance_contained _

theorem aluExtend_contained {op : AluOp} {mem : Bool} : Contained s (aluExtend op sz mem ry rx) :=
  Contained.ite
    ((readEa_contained _ _ _).bind fun _ => (checkpoint_contained (modifyEa_contained _ _ _ _)).bind fun _ => advance_contained _)
    ((readEa_contained _ _ _).bind fun _ => (modifyEa_contained _ _ _ _).bind fun _ => advance_contained _)

theorem execClr_contained : OutOfUser s (execClr sz ea s) :=
  runInstr_contained <| (modify_contained fun _ h => h.setCc _).bind fun _ => (writeEa_contained _ _ _ _).bind
    fun _ => advance_contained _

theorem execCmp_contained : OutOfUser s (execCmp sz ea dn s) :=
  runInstr_contained <| (readEa_contained _ _ _).bind fun _ => (modify_contained fun _ h => h.setCc _).bind
    fun _ => advance_contained _

theorem execCmpa_contained : OutOfUser s (execCmpa wl ea an s) :=
  runInstr_contained <| (readEa_contained _ _ _).bind fun _ => (modify_contained fun _ h => h.setCc _).bind
    fun _ => advance_contained _

theorem execCmpi_contained : OutOfUser s (execCmpi sz v ea s) :=
  runInstr_contained <| (testEa_contained _ _ _ _).bind fun _ => advance_contained _

theorem execCmpm_contained : OutOfUser s (execCmpm sz ry rx s) :=
  runInstr_contained <| (readEa_contained _ _ _).bind fun _ => (checkpoint_contained (testEa_contained _ _ _ _)).bind
    fun _ => advance_contained _

theorem boundsOf_contained : Contained s (boundsOf sz ea rn) :=
  (memAddr_contained _ _ _).bind fun _ => Contained.get fun _ _ => (readMem_contained _ _ _ _).bind fun _ =>
    (readMem_contained _ _ _ _).bind fun _ => Contained.ite (pure_contained _) (pure_contained _)

theorem compareBounds_contained {lo hi x : Long} : Contained s (compareBounds sz lo hi x) :=
  draw_contained.bind fun _ => (modify_contained fun _ h => h.setCc _).bind fun _ => pure_contained _

theorem execCmp2_contained : OutOfUser s (execCmp2 sz ea rn s) :=
  runInstr_contained <| boundsOf_contained.bind fun _ => compareBounds_contained.bind fun _ => advance_contained _

theorem zeroDivide_contained : Contained s (zeroDivide k) :=
  draw_contained.bind fun _ => (modify_contained fun _ h => h.setCc _).bind fun _ => Contained.get fun _ _ => raised_contained (.inl rfl)

theorem divOverflow_contained : Contained s divOverflow :=
  draw_contained.bind fun _ => modify_contained fun _ h => h.setCc _

theorem divWord_contained {signed : Bool} : Contained s (divWord signed ea dn) :=
  (readEa_contained _ _ _).bind fun _ => Contained.ite zeroDivide_contained <| Contained.get fun _ h => Contained.ite
    ((set_contained ((h.setD _ _).setCc _)).bind fun _ => advance_contained _)
    (divOverflow_contained.bind fun _ => advance_contained _)

theorem execDivL_contained {signed wide : Bool} : OutOfUser s (execDivL ea dn signed wide rx s) :=
  runInstr_contained <| (readEa_contained _ _ _).bind fun _ => Contained.ite zeroDivide_contained <| Contained.get fun _ h => Contained.ite
    ((set_contained (h.setCc _)).bind fun _ => Contained.ite
      (Contained.ite
        (draw_contained.bind fun _ => (modify_contained fun _ h => h.setD _ _).bind fun _ => advance_contained _)
        ((modify_contained fun _ h => h.setD _ _).bind fun _ => advance_contained _))
      ((modify_contained fun _ h => (h.setD _ _).setD _ _).bind fun _ => advance_contained _))
    (divOverflow_contained.bind fun _ => advance_contained _)

theorem execExtW_contained : OutOfUser s (execExtW dn s) :=
  runInstr_contained <| (modify_contained fun _ h => (h.putD _ _ _).setCc _).bind fun _ => advance_contained _

theorem execExtL_contained : OutOfUser s (execExtL dn s) :=
  runInstr_contained <| (modify_contained fun _ h => (h.setD _ _).setCc _).bind fun _ => advance_contained _

theorem execExtbL_contained : OutOfUser s (execExtbL dn s) :=
  runInstr_contained <| (modify_contained fun _ h => (h.setD _ _).setCc _).bind fun _ => advance_contained _

theorem mulWord_contained {signed : Bool} : Contained s (mulWord signed ea dn) :=
  (readEa_contained _ _ _).bind fun _ => (modify_contained fun _ h => (h.setD _ _).setCc _).bind fun _ => advance_contained _

theorem execMulL_contained {signed wide : Bool} : OutOfUser s (execMulL ea dn signed wide rx s) :=
  runInstr_contained <| (readEa_contained _ _ _).bind fun _ => Contained.get fun _ h => Contained.ite
    ((set_contained (h.setCc _)).bind fun _ => Contained.ite
      (draw_contained.bind fun _ => (modify_contained fun _ h => h.setD _ _).bind fun _ => advance_contained _)
      ((modify_contained fun _ h => (h.setD _ _).setD _ _).bind fun _ => advance_contained _))
    ((set_contained ((h.setD _ _).setCc _)).bind fun _ => advance_contained _)

theorem execNeg_contained : OutOfUser s (execNeg sz ea s) :=
  runInstr_contained <| (modifyEa_contained _ _ _ _).bind fun _ => advance_contained _

theorem execNegx_contained : OutOfUser s (execNegx sz ea s) :=
  runInstr_contained <| (modifyEa_contained _ _ _ _).bind fun _ => advance_contained _

/-! ## Logic, shifts and rotates (42_logical, 43_shift_rotate) -/

theorem logicToReg_contained {op : BitOp} : Contained s (logicToReg op sz ea dn) :=
  (readEa_contained _ _ _).bind fun _ => (modify_contained fun _ h => (h.putD _ _ _).setCc _).bind fun _ => advance_contained _

theorem logicToEa_contained {op : BitOp} : Contained s (logicToEa op sz dn ea) :=
  Contained.get fun _ _ => (modifyEa_contained _ _ _ _).bind fun _ => advance_contained _

theorem logicImmediate_contained {op : BitOp} : Contained s (logicImmediate op sz v ea) :=
  (modifyEa_contained _ _ _ _).bind fun _ => advance_contained _

theorem execNot_contained : OutOfUser s (execNot sz ea s) :=
  runInstr_contained <| (modifyEa_contained _ _ _ _).bind fun _ => advance_contained _

theorem execTst_contained : OutOfUser s (execTst sz ea s) :=
  runInstr_contained <| (testEa_contained _ _ _ _).bind fun _ => advance_contained _

theorem shiftReg_contained {op : ShiftOp} {c : ShiftCount} : Contained s (shiftReg op sz c dn) :=
  (modify_contained fun _ h => (h.putD _ _ _).setCc _).bind fun _ => advance_contained _

theorem shiftMem_contained {op : ShiftOp} : Contained s (shiftMem op ea) :=
  (modifyEa_contained _ _ _ _).bind fun _ => advance_contained _

theorem execSwap_contained : OutOfUser s (execSwap dn s) :=
  runInstr_contained <| (modify_contained fun _ h => (h.setD _ _).setCc _).bind fun _ => advance_contained _

/-! ## Bits and bit fields (44_bit_and_bitfield) -/

theorem bitTest_contained {n : Nat} : Contained s (bitTest n k ea) :=
  (testEa_contained _ _ _ _).bind fun _ => advance_contained _

theorem bitModify_contained {f : BitChange} {n : Nat} : Contained s (bitModify f n k ea) :=
  (modifyEa_contained _ _ _ _).bind fun _ => advance_contained _

theorem bitNumber_contained : Contained s (bitNumber dn) := Contained.get fun _ _ => pure_contained _

theorem execBtstDyn_contained : OutOfUser s (execBtstDyn dn ea s) :=
  runInstr_contained <| bitNumber_contained.bind fun _ => bitTest_contained

/-- BCHG, BCLR and BSET with the number in a register. -/
theorem bitModifyDyn_contained {f : BitChange} : Contained s (do let n ← bitNumber dn; bitModify f n 0 ea) :=
  bitNumber_contained.bind fun _ => bitModify_contained

theorem readField_contained (fc : FC) (a : Long) (n : Nat) : Contained s (readField fc a n) :=
  (busRead_contained _ _ _ _).bind fun _ => (busRead_contained _ _ _ _).bind
    fun _ => pure_contained _

theorem writeField_contained (fc : FC) (a : Long) (bs : List Byte) : Contained s (writeField fc a bs) :=
  (busWrite_contained _ _ _ _).bind fun _ => busWrite_contained _ _ _ _

theorem fetchField_contained {f : BitField} : Contained s (fetchField ea f) :=
  Contained.get fun _ _ => by
    cases ea with
    | dreg r => exact pure_contained _
    | _ => exact (memAddr_contained _ _ _).bind fun _ => (readField_contained _ _ _).bind fun _ => pure_contained _

theorem storeField_contained (x : Field) (y : Long) : Contained s (storeField x y) := by
  unfold storeField
  split
  · exact modify_contained fun _ h => h.setD _ _
  · exact writeField_contained _ _ _

theorem fieldInstr_contained {f : BitField} {body : Field → M Unit} (hb : ∀ x, Contained s (body x)) :
    Contained s (fieldInstr ea f body) :=
  fetchField_contained.bind fun x => (modify_contained fun _ h => h.setCc _).bind fun _ => (hb x).bind
    fun _ => advance_contained _

theorem execBftst_contained {f : BitField} : OutOfUser s (execBftst ea f s) :=
  runInstr_contained <| fieldInstr_contained fun _ => pure_contained _

/-- BFCHG, BFCLR and BFSET: the field is replaced. -/
theorem fieldStore_contained {f : BitField} {y : Field → Long} :
    Contained s (fieldInstr ea f fun x => storeField x (y x)) :=
  fieldInstr_contained fun x => storeField_contained x _

/-- BFEXTU and BFEXTS: the field goes to a data register. -/
theorem fieldExtract_contained {f : BitField} {y : Field → Long} :
    Contained s (fieldInstr ea f fun x => modify fun t => t.setD dn (y x)) :=
  fieldInstr_contained fun _ => modify_contained fun _ h => h.setD _ _

theorem ffoOffset_contained (off : Int) (x : Field) : Contained s (ffoOffset off x) :=
  Contained.ite (drawBit_contained.bind fun _ => pure_contained _) (pure_contained _)

theorem execBfffo_contained {f : BitField} : OutOfUser s (execBfffo ea f dn s) :=
  runInstr_contained <| fieldInstr_contained fun x => (ffoOffset_contained _ x).bind fun _ =>
    modify_contained fun _ h => h.setD _ _

theorem execBfins_contained {f : BitField} : OutOfUser s (execBfins dn ea f s) :=
  runInstr_contained <| fetchField_contained.bind fun x => Contained.get fun _ h => (set_contained (h.setCc _)).bind fun _ =>
    (storeField_contained x _).bind fun _ => advance_contained _

/-! ## Binary-coded decimal (45_bcd) -/

theorem bcdTwo_contained {op : BcdOp} {mem : Bool} : Contained s (bcdTwo op mem ry rx) :=
  draw_contained.bind fun _ => Contained.ite
    ((readEa_contained _ _ _).bind fun _ => (checkpoint_contained (modifyEa_contained _ _ _ _)).bind fun _ => advance_contained _)
    ((readEa_contained _ _ _).bind fun _ => (modifyEa_contained _ _ _ _).bind fun _ => advance_contained _)

theorem execNbcd_contained : OutOfUser s (execNbcd ea s) :=
  runInstr_contained <| draw_contained.bind fun _ => (modifyEa_contained _ _ _ _).bind fun _ => advance_contained _

theorem packStep_contained : Contained s (packStep rx) :=
  Contained.ite (drawBit_contained.bind fun _ => pure_contained _) (pure_contained _)

theorem stepDown_contained {step : Long} : Contained s (stepDown rx step) :=
  Contained.get fun _ h => (set_contained (h.setA _ _)).bind fun _ => pure_contained _

theorem execPack_contained {mem : Bool} {adj : Word} : OutOfUser s (execPack mem ry rx adj s) :=
  runInstr_contained <| Contained.ite
    (packStep_contained.bind fun _ => packStep_contained.bind fun _ => stepDown_contained.bind fun _ =>
      (readData_contained _ _).bind fun _ =>
        (checkpoint_contained <| stepDown_contained.bind fun _ => (readData_contained _ _).bind fun _ =>
          checkpoint_contained <| stepDown_contained.bind fun _ => writeData_contained _ _ _).bind fun _ => advance_contained _)
    ((modify_contained fun _ h => h.putD _ _ _).bind fun _ => advance_contained _)

theorem execUnpk_contained {mem : Bool} {adj : Word} : OutOfUser s (execUnpk mem ry rx adj s) :=
  runInstr_contained <| Contained.ite
    (packStep_contained.bind fun _ => packStep_contained.bind fun _ => stepDown_contained.bind fun _ =>
      (readData_contained _ _).bind fun _ =>
        (checkpoint_contained <| stepDown_contained.bind fun _ => (writeData_contained _ _ _).bind fun _ =>
          checkpoint_contained <| stepDown_contained.bind fun _ => writeData_contained _ _ _).bind fun _ => advance_contained _)
    ((modify_contained fun _ h => h.putD _ _ _).bind fun _ => advance_contained _)

/-! ## Program control (46_program_control) -/

theorem branchBy_contained {d : Long} : Contained s (branchBy d) := Contained.get fun _ _ => jump_contained _

theorem execBcc_contained {c : Cond} {d : BrDisp} : OutOfUser s (execBcc c d s) :=
  runInstr_contained <| Contained.ite branchBy_contained (advance_contained _)

theorem execBra_contained {d : BrDisp} : OutOfUser s (execBra d s) := runInstr_contained branchBy_contained

theorem execBsr_contained {d : BrDisp} : OutOfUser s (execBsr d s) :=
  runInstr_contained <| (pushLong_contained _).bind fun _ => branchBy_contained

theorem execDbcc_contained {c : Cond} {d16 : Word} : OutOfUser s (execDbcc c dn d16 s) :=
  runInstr_contained <| Contained.ite (advance_contained _) <| (modify_contained fun _ h => h.putD _ _ _).bind fun _ =>
    Contained.ite branchBy_contained (advance_contained _)

theorem execScc_contained {c : Cond} : OutOfUser s (execScc c ea s) :=
  runInstr_contained <| (writeEa_contained _ _ _ _).bind fun _ => advance_contained _

theorem execJmp_contained : OutOfUser s (execJmp ea s) :=
  runInstr_contained <| (memAddr_contained _ _ _).bind fun _ => jump_contained _

theorem execJsr_contained : OutOfUser s (execJsr ea s) :=
  runInstr_contained <| (memAddr_contained _ _ _).bind fun _ => (pushLong_contained _).bind fun _ => jump_contained _

theorem execRts_contained : OutOfUser s (execRts s) :=
  runInstr_contained <| popLong_contained.bind fun _ => jump_contained _

theorem setCcr_contained {w : Word} : Contained s (setCcr w) := modify_contained fun _ h => h.setCc _

theorem execRtr_contained : OutOfUser s (execRtr s) :=
  runInstr_contained <| (readData_contained _ _).bind fun _ => setCcr_contained.bind fun _ =>
    (modify_contained fun _ h => h.setSp _).bind fun _ => popLong_contained.bind fun _ => jump_contained _

theorem execRtd_contained {d16 : Word} : OutOfUser s (execRtd d16 s) :=
  runInstr_contained <| popLong_contained.bind fun _ => (modify_contained fun _ h => h.setSp _).bind fun _ => jump_contained _

theorem execNop_contained : OutOfUser s (execNop s) := runInstr_contained (advance_contained 1)

theorem checkModule_contained {w : Word} : Contained s (checkModule w) :=
  Contained.get fun _ _ => Contained.ite (Contained.ite (refuse_contained _) (pure_contained _)) (raised_contained (.inr rfl))

theorem writeLongs_contained (a : Long) (vs : List Long) : Contained s (writeLongs a vs) := by
  induction vs generalizing a with
  | nil => exact pure_contained _
  | cons x rest ih => exact (writeData_contained _ _ _).bind fun _ => ih _

theorem execCallm_contained {argc : Byte} : OutOfUser s (execCallm argc ea s) :=
  runInstr_contained <| (memAddr_contained _ _ _).bind fun _ => Contained.get fun _ _ => (readMem_contained _ _ _ _).bind fun _ =>
    checkModule_contained.bind fun _ => (readMem_contained _ _ _ _).bind fun _ => (readData_contained _ _).bind fun _ =>
      refuseIf_contained <| Contained.get fun _ _ => draw_contained.bind fun _ => (modify_contained fun _ h => h.setSp _).bind fun _ =>
        (writeLongs_contained _ _).bind fun _ => (readMem_contained _ _ _ _).bind fun _ =>
          (modify_contained fun _ h => h.setR _ _).bind fun _ => jump_contained _

theorem execRtm_contained : OutOfUser s (execRtm rn s) :=
  runInstr_contained <| (readData_contained _ _).bind fun _ => checkModule_contained.bind fun _ =>
    (readData_contained _ _).bind fun _ => setCcr_contained.bind fun _ => (readData_contained _ _).bind fun _ =>
      (readData_contained _ _).bind fun _ => (readData_contained _ _).bind fun _ =>
        (modify_contained fun _ h => (h.setR _ _).setSp _).bind fun _ => jump_contained _

/-! ## System control (47_system_control) -/

theorem execTrap_contained {n : Fin 16} : OutOfUser s (execTrap n s) := runInstr_contained (raised_contained (.inl rfl))

theorem execTrapcc_contained {c : Cond} {op : TrapOperand} : OutOfUser s (execTrapcc c op s) :=
  runInstr_contained <| Contained.ite (raised_contained (.inl rfl)) (advance_contained _)

theorem execTrapv_contained : OutOfUser s (execTrapv s) :=
  runInstr_contained <| Contained.ite (raised_contained (.inl rfl)) (advance_contained _)

theorem execChk_contained : OutOfUser s (execChk wl ea dn s) :=
  runInstr_contained <| (readEa_contained _ _ _).bind fun _ => Contained.get fun _ _ => draw_contained.bind fun _ => Contained.ite
    ((modify_contained fun _ h => h.setCc _).bind fun _ => raised_contained (.inl rfl))
    (Contained.ite ((modify_contained fun _ h => h.setCc _).bind fun _ => raised_contained (.inl rfl))
      ((modify_contained fun _ h => h.setCc _).bind fun _ => advance_contained _))

theorem execChk2_contained : OutOfUser s (execChk2 sz ea rn s) :=
  runInstr_contained <| boundsOf_contained.bind fun _ => compareBounds_contained.bind fun _ => Contained.get fun _ _ =>
    Contained.ite (raised_contained (.inl rfl)) (advance_contained _)

theorem execMoveFromCcr_contained : OutOfUser s (execMoveFromCcr ea s) :=
  runInstr_contained <| (writeEa_contained _ _ _ _).bind fun _ => advance_contained _

theorem execMoveToCcr_contained : OutOfUser s (execMoveToCcr ea s) :=
  runInstr_contained <| (readEa_contained _ _ _).bind fun _ => (modify_contained fun _ h => h.setCc _).bind
    fun _ => advance_contained _

theorem changeCcr_contained {f : Word → Word} : Contained s (changeCcr f) :=
  (modify_contained fun _ h => h.setCc _).bind fun _ => advance_contained _

/-! ## Read-modify-write (48_multiprocessor) -/

theorem execTas_contained : OutOfUser s (execTas ea s) := by
  refine runInstr_contained ?_
  cases ea with
  | dreg r => exact (modify_contained fun _ h => (h.putD _ r _).setCc _).bind fun _ => advance_contained _
  | areg _ | pcDisp _ | pcIndexed _ | imm _ => exact raiseIllegal_contained.bind fun _ => advance_contained _
  | _ =>
    exact (memAddr_contained _ _ _).bind fun _ => Contained.get fun _ _ => (readMem_contained _ _ _ _).bind fun _ =>
      (modify_contained fun _ h => h.setCc _).bind fun _ => (writeMem_contained _ _ _ _ _).bind fun _ => advance_contained _

theorem execCas_contained {du : Reg} : OutOfUser s (execCas sz dn du ea s) :=
  runInstr_contained <| (memAddr_contained _ _ _).bind fun _ => Contained.get fun _ _ => (readMem_contained _ _ _ _).bind fun _ =>
    (modify_contained fun _ h => h.setCc _).bind fun _ => Contained.ite
      ((writeMem_contained _ _ _ _ _).bind fun _ => advance_contained _)
      ((modify_contained fun _ h => h.putD _ _ _).bind fun _ => advance_contained _)

theorem execCas2_contained {rn2 : Rn} {du1 dc1 du2 dc2 : Reg} :
    OutOfUser s (execCas2 wl rn du1 dc1 rn2 du2 dc2 s) :=
  runInstr_contained <| Contained.get fun _ _ => (readMem_contained _ _ _ _).bind fun _ => (readMem_contained _ _ _ _).bind fun _ =>
    (modify_contained fun _ h => h.setCc _).bind fun _ => Contained.ite
      ((writeMem_contained _ _ _ _ _).bind fun _ => (writeMem_contained _ _ _ _ _).bind fun _ => advance_contained _)
      (Contained.ite
        (drawBit_contained.bind fun _ => (modify_contained fun _ h => h.putD _ _ _).bind fun _ => advance_contained _)
        ((modify_contained fun _ h => (h.putD _ _ _).putD _ _ _).bind fun _ => advance_contained _))

/-! ## Lines 1010 and 1111 (49_coprocessor) -/

theorem fLineTrap_contained (cpid ty : Reg) : Contained s (fLineTrap cpid ty) :=
  Contained.get fun _ _ => Contained.ite (raised_contained (.inr rfl)) (raised_contained (.inr rfl))

theorem execALine_contained (any : BitVec 12) : OutOfUser s (execALine any s) := runInstr_contained (raised_contained (.inr rfl))

/-! ## All instructions -/

/-- Every instruction ends on the user's side or in an exception, arm by arm of the dispatch. -/
theorem exec_contained (i : Instr) (s : State) : OutOfUser s (exec i s) := by
  cases i with
  | move => exact execMove_contained
  | movea => exact execMovea_contained
  | moveq => exact execMoveq_contained
  | movemToMem => exact execMovemToMem_contained
  | movemToReg => exact execMovemToReg_contained
  | movep => exact execMovep_contained
  | lea => exact execLea_contained
  | pea => exact execPea_contained
  | linkW => exact execLinkW_contained
  | linkL => exact execLinkL_contained
  | unlk => exact execUnlk_contained
  | exg => exact execExg_contained
  | addToReg | subToReg => exact runInstr_contained aluToReg_contained
  | addToEa | subToEa => exact runInstr_contained aluToEa_contained
  | adda | suba => exact runInstr_contained aluToAddr_contained
  | addi | subi => exact runInstr_contained aluImm_contained
  | addq | subq => exact runInstr_contained aluQuick_contained
  | addx | subx => exact runInstr_contained aluExtend_contained
  | clr => exact execClr_contained
  | cmp => exact execCmp_contained
  | cmpa => exact execCmpa_contained
  | cmpi => exact execCmpi_contained
  | cmpm => exact execCmpm_contained
  | cmp2 => exact execCmp2_contained
  | divuW | divsW => exact runInstr_contained divWord_contained
  | divL => exact execDivL_contained
  | extW => exact execExtW_contained
  | extL => exact execExtL_contained
  | extbL => exact execExtbL_contained
  | muluW | mulsW => exact runInstr_contained mulWord_contained
  | mulL => exact execMulL_contained
  | neg => exact execNeg_contained
  | negx => exact execNegx_contained
  | andToReg | orToReg => exact runInstr_contained logicToReg_contained
  | andToEa | orToEa | eor => exact runInstr_contained logicToEa_contained
  | andi | ori | eori => exact runInstr_contained logicImmediate_contained
  | not => exact execNot_contained
  | tst => exact execTst_contained
  | aslReg | asrReg | lslReg | lsrReg | rolReg | rorReg | roxlReg | roxrReg => exact runInstr_contained shiftReg_contained
  | aslMem | asrMem | lslMem | lsrMem | rolMem | rorMem | roxlMem | roxrMem => exact runInstr_contained shiftMem_contained
  | swap => exact execSwap_contained
  | btstDyn => exact execBtstDyn_contained
  | btstImm => exact runInstr_contained bitTest_contained
  | bchgDyn | bclrDyn | bsetDyn => exact runInstr_contained bitModifyDyn_contained
  | bchgImm | bclrImm | bsetImm => exact runInstr_contained bitModify_contained
  | bftst => exact execBftst_contained
  | bfextu | bfexts => exact runInstr_contained fieldExtract_contained
  | bfchg | bfclr | bfset => exact runInstr_contained fieldStore_contained
  | bfffo => exact execBfffo_contained
  | bfins => exact execBfins_contained
  | abcd | sbcd => exact runInstr_contained bcdTwo_contained
  | nbcd => exact execNbcd_contained
  | pack => exact execPack_contained
  | unpk => exact execUnpk_contained
  | bcc => exact execBcc_contained
  | bra => exact execBra_contained
  | bsr => exact execBsr_contained
  | dbcc => exact execDbcc_contained
  | scc => exact execScc_contained
  | jmp => exact execJmp_contained
  | jsr => exact execJsr_contained
  | rts => exact execRts_contained
  | rtr => exact execRtr_contained
  | rtd => exact execRtd_contained
  | nop => exact execNop_contained
  | callm => exact execCallm_contained
  | rtm => exact execRtm_contained
  | trap => exact execTrap_contained
  | trapcc => exact execTrapcc_contained
  | trapv => exact execTrapv_contained
  | chk => exact execChk_contained
  | chk2 => exact execChk2_contained
  | illegal | bkpt => exact runInstr_contained raiseIllegal_contained
  | stop | rte | reset | moveFromSr | moveToSr | andiToSr | eoriToSr | oriToSr | moveUsp | movec | moves =>
    exact runInstr_contained (privileged_contained _)
  | moveFromCcr => exact execMoveFromCcr_contained
  | moveToCcr => exact execMoveToCcr_contained
  | andiToCcr v => exact runInstr_contained (changeCcr_contained (f := fun w => w &&& v))
  | eoriToCcr v => exact runInstr_contained (changeCcr_contained (f := fun w => w ^^^ v))
  | oriToCcr v => exact runInstr_contained (changeCcr_contained (f := fun w => w ||| v))
  | tas => exact execTas_contained
  | cas => exact execCas_contained
  | cas2 => exact execCas2_contained
  | cpGen cpid => exact runInstr_contained (fLineTrap_contained cpid 0)
  | cpScc cpid | cpDbcc cpid | cpTrapcc cpid => exact runInstr_contained (fLineTrap_contained cpid 1)
  | cpBcc cpid long => exact runInstr_contained (fLineTrap_contained cpid (if long then 3 else 2))
  | cpSave cpid => exact runInstr_contained (fLineTrap_contained cpid 4)
  | cpRestore cpid => exact runInstr_contained (fLineTrap_contained cpid 5)
  | fLine any => exact runInstr_contained (fLineTrap_contained (cpidField any) (typeField any))
  | aLine any => exact execALine_contained any


end Sys2Proof.Machine
end

/-! # User mode is contained (O19) -/

section
namespace Sys2Proof.Machine

variable {s t : State}

/-- In user mode MOVEC to a control register is a privilege violation, so no control register changes (R390). -/
theorem exec_control_user {i : Instr} (hs : s.sBit = false) (h : exec i s = .next t) : t.control = s.control := by
  rcases movec_write_or i with ⟨rn, code, rfl⟩ | hi
  · rw [execMovec_user hs] at h
    cases h
    exact ((Confined.refl s).takeException _).control
  · exact (exec_confines i s hi t h).control

theorem UserSide.mBit (h : UserSide s t) : t.mBit = s.mBit := by
  have hbit : ∀ w : Word, w.getLsbD 12 = (w &&& 0xFFE0).getLsbD 12 := fun w => by
    rw [BitVec.getLsbD_and, show (0xFFE0 : Word).getLsbD 12 = true from rfl, Bool.and_true]
  rw [State.mBit, hbit, h.sr, ← hbit]
  rfl

/-- What an exception taken on the user's side makes of the supervisor state, in terms of the state before. -/
theorem Excepted.supervisor (h : Excepted s t) (hvbr : t.vbr = s.vbr) :
    t.sBit = true ∧ t.mBit = s.mBit ∧ t.t1 = false ∧ t.t0 = false ∧ (t.ending = .trapped ∨ t.ending = .notDone) ∧
    t.run ≠ .stopped ∧
    (t.run = .normal →
      (∃ n, 8 ≤ n ∧ n ≤ 124 ∧ t.sp = (if s.mBit then s.msp else s.isp) - BitVec.ofNat 32 n) ∧
      ((∀ v : Byte, t.onDevice supervisorData (s.vbr + BitVec.ofNat 32 (4 * v.toNat)) 4 = false) →
        ∃ v : Byte, t.pc = t.longAt supervisorData (s.vbr + BitVec.ofNat 32 (4 * v.toNat)))) := by
  obtain ⟨⟨u, hu, htook⟩, hending⟩ := h
  obtain ⟨ht1, ht0⟩ := State.untraced_of_entered htook.sr
  refine ⟨State.sBit_of_entered htook.sr, (State.mBit_of_entered htook.sr).trans hu.mBit, ht1, ht0, hending,
    htook.run, fun hrun => ?_⟩
  obtain ⟨n, hmin, hmax, hin⟩ := htook.handler hrun
  have haddr : ∀ v, t.vectorAddr v = s.vbr + BitVec.ofNat 32 (4 * v.toNat) := fun v => hvbr ▸ t.vectorAddr_eq v
  have hsp := hin.sp
  have hpc := hin.pc
  rw [hu.mBit, hu.msp, hu.isp] at hsp
  simp only [haddr] at hpc
  exact ⟨⟨n, hmin, hmax, hsp⟩, hpc⟩

/-- Settles O19: control registers are written in supervisor mode alone, and an instruction of user mode ends on the
user's side, with S = 0, or where an exception led, with S = 1. -/
theorem userModeContained : Obligations.UserModeContained := by
  intro i s t hs h
  have hcontrol := exec_control_user hs h
  simp only [State.control, Prod.mk.injEq] at hcontrol
  obtain ⟨hvbr, hsfc, hdfc, hcacr, hcaar, hcache⟩ := hcontrol
  refine ⟨hvbr, hsfc, hdfc, hcacr, hcaar, hcache, ?_⟩
  rcases exec_contained i s hs t h with hu | hx
  · exact ⟨fun _ => ⟨hu.isp, hu.msp, hu.sr⟩, fun hsuper => absurd hsuper (by simp [hu.user])⟩
  · obtain ⟨hsuper, hrest⟩ := hx.supervisor hvbr
    exact ⟨fun huser => absurd hsuper (by simp [huser]), fun _ => hrest⟩

end Sys2Proof.Machine
end

/-! # What a step does at its boundary: RESET, a stopped processor, an interrupt, a trace (O11, O13, O15, O16) -/

section
namespace Sys2Proof.Machine

variable {s t : State}

/-! ## The run state decides (R571, R581, R582) -/

theorem step_halted (h : s.input.reset = false) (hr : s.run = .halted) : step s = .fault .halted := by
  simp [step, h, hr]

theorem step_hung (h : s.input.reset = false) (hr : s.run = .hung) : step s = .fault .unterminated := by
  simp [step, h, hr]

theorem step_stopped (h : s.input.reset = false) (hr : s.run = .stopped) :
    step s = .next (if s.sample.recognised then s.sample.interrupt s.input.ack else s.sample) := by
  simp [step, h, hr]

theorem step_odd (h : s.input.reset = false) (hr : s.run = .normal) (ho : s.pc.getLsbD 0 = true) :
    step s = .next s.sample.addressError := by
  have ho' : s.sample.pc.getLsbD 0 = true := ho
  simp only [step, h, hr, ho', Bool.false_eq_true, if_false, if_true]

theorem step_interrupt (h : s.input.reset = false) (hr : s.run = .normal) (he : s.pc.getLsbD 0 = false)
    (hi : s.sample.recognised = true) : step s = .next (s.sample.interrupt s.input.ack) := by
  have he' : s.sample.pc.getLsbD 0 = false := he
  simp only [step, h, hr, he', hi, Bool.false_eq_true, if_false, if_true]

/-- Settles O11. -/
theorem haltedAndStopped : Obligations.HaltedAndStopped := fun _ h =>
  ⟨step_halted h, step_hung h, fun hr hi => (step_stopped h hr).trans (congrArg _ (if_pos hi)),
    fun hr hi => (step_stopped h hr).trans (congrArg _ (if_neg (ne_true_of_eq_false hi)))⟩

/-! ## Interrupts (R561, R562, R564) -/

theorem State.recognised_sample_iff (s : State) : s.sample.recognised = true ↔
    s.iMask < s.input.ipl.val ∨ (s.input.ipl = 7 ∧ (s.nmi = true ∨ s.ipl ≠ 7)) := by
  have hmask : s.sample.iMask = s.iMask := rfl
  have hipl : s.sample.ipl = s.input.ipl := rfl
  have hnmi : s.sample.nmi = (s.nmi || (s.input.ipl == 7 && s.ipl != 7)) := rfl
  rw [State.recognised, hmask, hipl, hnmi]
  by_cases h7 : s.input.ipl = 7 <;> simp [h7]

/-- Settles O13. -/
theorem interruptTaken : Obligations.InterruptTaken := fun s =>
  ⟨s.recognised_sample_iff, fun h hr he hi => by
    rw [step_interrupt h hr he hi, State.interrupt]
    cases s.input.ack <;> rfl⟩

/-! ## Trace (R545 to R547) -/

theorem State.traces_of_all (h1 : s.t1 = true) (h0 : s.t0 = false) (e : Ending) : s.traces e = true := by
  rw [State.traces, State.tracedAll_of_t1 h1 h0, Bool.true_or]

theorem State.traces_of_flow (h1 : s.t1 = false) (h0 : s.t0 = true) (e : Ending) : s.traces e = e.isFlow := by
  rw [State.traces, State.tracedAll_of_not_t1 h1, h1, h0]
  rfl

theorem State.traces_of_none (h1 : s.t1 = false) (h0 : s.t0 = false) (e : Ending) : s.traces e = false := by
  rw [State.traces, State.tracedAll_of_not_t1 h1, h1, h0]
  rfl

/-- With exactly one trace bit set, an instruction that changes the flow is traced. -/
theorem State.traces_flow (h : s.t1 ≠ s.t0) {e : Ending} (he : e.isFlow = true) : s.traces e = true := by
  cases h1 : s.t1 with
  | true => exact State.traces_of_all h1 (by simpa [h1] using h) e
  | false => rw [State.traces_of_flow h1 (by simpa [h1] using h), he]

/-- A completed instruction that neither trapped nor returned is traced for itself alone. -/
theorem traceAfter_own (hr : t.run = .normal) (he : t.ending = .sequential ∨ t.ending = .wroteSr ∨ t.ending = .flow) :
    traceAfter s t = if s.traces t.ending then t.takeOwnTrace s.pc else t := by
  rcases he with he | he | he <;> simp [traceAfter, hr, he]

theorem traceAfter_notDone (hr : t.run = .normal) (he : t.ending = .notDone ∨ t.ending = .rerun) :
    traceAfter s t = t := by
  rcases he with he | he <;> simp [traceAfter, hr, he]

theorem traceAfter_trapped (hr : t.run = .normal) (he : t.ending = .trapped) :
    traceAfter s t = if s.traces .trapped then t.oweTrace s.pc else t := by
  simp [traceAfter, hr, he]

theorem traceAfter_returned (hr : t.run = .normal) (he : t.ending = .returned) (ho : t.owed = none) :
    traceAfter s t = if s.traces .returned then t.takeOwnTrace s.pc else t := by
  simp [traceAfter, hr, he, ho]

theorem traceAfter_owed (hr : t.run = .normal) (he : t.ending = .returned) {a : Long} (ho : t.owed = some ⟨a, true⟩) :
    traceAfter s t = { (t.used 1) with owed := none }.takeTrace a := by
  simp [traceAfter, hr, he, ho]

/-- Untraced, an instruction other than an RTE leaves the state it ended in. -/
theorem traceAfter_untraced (hr : t.run = .normal) (he : t.ending ≠ .returned) (hn : s.traces t.ending = false) :
    traceAfter s t = t := by
  cases h : t.ending with
  | returned => exact absurd h he
  | trapped => rw [traceAfter_trapped hr h, ← h, hn]; rfl
  | notDone | rerun => exact traceAfter_notDone hr (by simp [h])
  | sequential | wroteSr | flow => rw [traceAfter_own hr (by simp [h]), hn]; rfl

/-- Settles O15: the ending decides what is traced, T1 and T0 whether. -/
theorem traceRules : Obligations.TraceRules := by
  intro s t hr u own
  have hafter : afterInstr s t = traceAfter s u := rfl
  have hrun : u.run = .normal := hr
  have hown : u.takeOwnTrace s.pc = own := rfl
  rw [hafter]
  refine ⟨fun h1 h0 he => ?_, fun h1 h0 he => ?_, fun h1 h0 he => ?_, fun h1 h0 he => ?_,
    traceAfter_notDone hrun, fun h he ho => ?_, fun a he ho => traceAfter_owed (t := u) hrun he ho, fun he ho h => ?_,
    fun he ho h1 h0 => ?_⟩
  · rw [traceAfter_own hrun he, State.traces_of_all h1 h0, ← hown]
    rfl
  · have hend : u.ending = .sequential := he
    rw [traceAfter_own hrun (.inl he), State.traces_of_flow h1 h0, hend]
    rfl
  · rw [traceAfter_own hrun (.inr he), State.traces_of_flow h1 h0, ← hown]
    exact if_pos (by rcases he with he | he <;> exact congrArg Ending.isFlow he)
  · exact traceAfter_untraced hrun he (State.traces_of_none h1 h0 _)
  · have howed : u.owed = none := ho
    rw [traceAfter_trapped hrun he, State.traces_flow h rfl, if_pos rfl, State.oweTrace, howed]
  · rw [traceAfter_returned hrun he ho, State.traces_flow h rfl, ← hown]
    rfl
  · rw [traceAfter_returned hrun he ho, State.traces_of_none h1 h0]
    rfl

end Sys2Proof.Machine
end

/-! # RESET (O16) -/

section
namespace Sys2Proof.Machine

variable {s t : State}

/-- Where no hole never ends its cycles, neither does an access (R89). -/
theorem State.firstFault_ends (hn : ∀ h ∈ s.platform.holes, h.never = false) {fc : FC} {w : Bool} {a : Long} {n : Nat}
    {i : Nat × Bool} (h : s.firstFault fc w a n = some i) : i.2 = false := by
  obtain ⟨k, -, hk⟩ := List.exists_of_findSome?_eq_some h
  obtain ⟨never, hend, rfl⟩ := Option.map_eq_some_iff.mp hk
  unfold State.byteEnd at hend
  split at hend
  · exact (Option.some.inj hend).symm
  · unfold State.badEnd at hend
    split at hend
    · exact (Option.some.inj hend).symm
    · obtain ⟨hole, hfind, rfl⟩ := Option.map_eq_some_iff.mp hend
      exact hn hole (List.mem_of_find?_eq_some hfind)

/-! ## The reset vectors (R600, R604) -/

/-- What RESET sets before it reads its vectors (R50, R600). -/
def State.cleared (s : State) : State :=
  { s with
    sr := (s.sr &&& 0x001F) ||| 0x2700, vbr := 0, cacr := 0, cache := Vector.replicate 64 none, pipe := [],
    run := .normal, owed := none, ending := .sequential, eaTemp := none, scanPc := none, ipl := 0, nmi := false }

theorem State.resetException_of_ok {u : State} (h : readResetVectors s.cleared = .ok () u) :
    s.resetException = if u.pc.getLsbD 0 then { u with run := .halted } else u := by
  unfold State.cleared at h
  unfold State.resetException
  dsimp only
  rw [h]

theorem State.resetException_of_error {u : State} {f : BusFault} (h : readResetVectors s.cleared = .error f u) :
    s.resetException = { u with run := if f.never then .hung else .halted } := by
  unfold State.cleared at h
  unfold State.resetException
  dsimp only
  rw [h]

theorem readResetVectors_ok (h0 : t.readable supervisorProgram 0 4) (h4 : t.readable supervisorProgram 4 4) :
    readResetVectors t = .ok ()
      { t with isp := t.longAt supervisorProgram 0, pc := t.longAt supervisorProgram 4 } := by
  have h4' : ({ t with isp := bytesLong (t.load supervisorProgram 0 4) } : State).readable supervisorProgram 4 4 :=
    (State.readable_congr rfl _ _ _).mpr h4
  unfold readResetVectors
  rw [M.bind_ok (busRead_ok h0), M.modify_bind, M.bind_ok (busRead_ok h4')]
  rfl

/-- A bus read that fails says whether its cycle ever ends, and changes nothing. -/
theorem busRead_error {rmw : Bool} {fc : FC} {a : Long} {n : Nat} {i : Nat × Bool}
    (h : s.firstFault fc false a n = some i) : busRead rmw fc a n s = .error (s.accessFault fc false rmw a n i []) s := by
  unfold busRead
  rw [h]

/-- One vector cannot be read, or both are: whatever ISP and PC then hold, nothing else is changed but the draws. -/
theorem readResetVectors_cases (t : State) :
    (∃ p f i k x, t.firstFault supervisorProgram false p 4 = some i ∧ f.never = i.2 ∧
      readResetVectors t = .error f { t.used k with isp := x }) ∨
    (t.firstFault supervisorProgram false 0 4 = none ∧ t.firstFault supervisorProgram false 4 4 = none ∧
      ∃ k x y, readResetVectors t = .ok () { t.used k with isp := x, pc := y } ∧
        (t.readable supervisorProgram 4 4 → y = t.longAt supervisorProgram 4)) := by
  unfold readResetVectors
  cases h0 : t.firstFault supervisorProgram false 0 4 with
  | some i => exact .inl ⟨0, _, i, 0, t.isp, h0, rfl, M.bind_error (busRead_error h0)⟩
  | none =>
    obtain ⟨k, hk⟩ := t.afterRead_used supervisorProgram 0 4
    rw [M.bind_ok (busRead_eq_ok.mpr ⟨h0, rfl, rfl⟩), M.modify_bind, hk]
    generalize bytesLong _ = x
    have hplat : ({ t.used k with isp := x } : State).platform = t.platform := rfl
    cases h4 : t.firstFault supervisorProgram false 4 4 with
    | some i => exact .inl ⟨4, _, i, k, x, h4, rfl,
        M.bind_error (busRead_error ((State.firstFault_congr hplat _ _ _ _).trans h4))⟩
    | none =>
      obtain ⟨j, hj⟩ := ({ t.used k with isp := x } : State).afterRead_used supervisorProgram 4 4
      rw [M.bind_ok (busRead_eq_ok.mpr ⟨(State.firstFault_congr hplat _ _ _ _).trans h4, rfl, rfl⟩), M.modify_run, hj]
      refine .inr ⟨rfl, rfl, k + j, x, _, by simp [State.used, Nat.add_assoc]; rfl, fun hr => ?_⟩
      obtain ⟨-, hd⟩ := State.readable_iff.mp ((State.readable_congr hplat _ _ _).mpr hr)
      exact congrArg bytesLong (if_neg (ne_true_of_eq_false hd))

/-- Settles O16: RESET clears, reads its two vectors, and halts on an odd PC. -/
theorem resetException : Obligations.ResetException := by
  intro s hreset
  have hstep : step s = .next s.sample.resetException := by simp [step, hreset]
  rw [hstep]
  constructor
  · intro h0 h4 heven
    rw [State.resetException_of_ok (readResetVectors_ok (t := s.sample.cleared) h0 h4)]
    exact congrArg _ (if_neg (ne_true_of_eq_false heven))
  · intro hbad
    refine ⟨_, rfl, ?_⟩
    rcases readResetVectors_cases s.sample.cleared with ⟨p, f, i, k, x, hi, hf, herr⟩ | ⟨h0, h4, k, x, y, hok, hy⟩
    · rw [State.resetException_of_error herr]
      refine ⟨?_, fun hn => ?_, rfl, rfl, rfl, rfl, rfl⟩
      · cases f.never
        · exact .inl rfl
        · exact .inr rfl
      · have hends : i.2 = false := State.firstFault_ends (s := s.sample.cleared) hn hi
        rw [hf, hends]
        rfl
    · have hodd : y.getLsbD 0 = true := by
        rcases hbad with h | h | ⟨hr, h⟩
        · exact absurd h0 h
        · exact absurd h4 h
        · rw [hy hr]
          exact h
      rw [State.resetException_of_ok hok, if_pos hodd]
      exact ⟨.inl rfl, fun _ => rfl, rfl, rfl, rfl, rfl, rfl⟩

end Sys2Proof.Machine
end

/-! # Stack frames in memory (R504, R506, R508, R511, R512)

Part of a frame is read where the parts before it end; the head of every frame is the SR, the PC, and the word of format
and vector offset. -/

section
namespace Sys2Proof.Machine

variable {s t : State} {fc : FC} {b : Long} {n : Nat}

/-! ## Parts of what is loaded -/

/-- A part of a loaded byte string is what is loaded from where the bytes before it end. -/
theorem State.load_part {xs ys zs : List Byte} (h : t.load fc b n = xs ++ (ys ++ zs)) :
    t.load fc (b + BitVec.ofNat 32 xs.length) ys.length = ys := by
  have hlen : n = xs.length + (ys.length + zs.length) := by
    rw [← List.length_append, ← List.length_append, ← h]
    exact (Memory.load_length _ _ _ _).symm
  rw [State.load_eq_map] at h ⊢
  refine List.ext_getElem (by simp) fun i hi _ => ?_
  have hi' : i < ys.length := by simpa using hi
  have hget : (xs ++ (ys ++ zs))[xs.length + i]? = some ys[i] := by
    rw [List.getElem?_append_right (Nat.le_add_right _ _), Nat.add_sub_cancel_left, List.getElem?_append_left hi',
      List.getElem?_eq_getElem hi']
  rw [← h, List.getElem?_map, List.getElem?_range (by omega)] at hget
  rw [List.getElem_map, List.getElem_range, BitVec.add_assoc, ← BitVec.ofNat_add]
  exact Option.some.inj hget

theorem bytesLong_longBytes_toNat (v : Long) {n : Nat} (h : n = 2 ∨ n = 4) :
    (bytesLong (longBytes v n)).toNat = v.toNat % 2 ^ (8 * n) := by
  have hv := v.isLt
  rcases h with rfl | rfl
  all_goals
    rw [bytesLong_toNat _ (by simp [longBytes_length])]
    simp [longBytes, Nat.shiftRight_eq_div_pow]
    omega

theorem bytesLong_longBytes (v : Long) : bytesLong (longBytes v 4) = v :=
  BitVec.eq_of_toNat_eq ((bytesLong_longBytes_toNat v (.inr rfl)).trans (Nat.mod_eq_of_lt v.isLt))

theorem bytesLong_wordBytes (w : Word) : bytesLong (longBytes (w.setWidth 32) 2) = w.setWidth 32 := by
  have hw : (w.setWidth 32 : Long).toNat < 2 ^ 16 := by
    rw [BitVec.toNat_setWidth]
    exact (Nat.mod_le _ _).trans_lt w.isLt
  exact BitVec.eq_of_toNat_eq ((bytesLong_longBytes_toNat _ (.inl rfl)).trans (Nat.mod_eq_of_lt hw))

/-- A long word of a loaded byte string, `i` bytes from its start. -/
theorem State.longAt_part {v : Long} {xs zs : List Byte} {i : Nat} (h : t.load fc b n = xs ++ (longBytes v 4 ++ zs))
    (hi : xs.length = i) : t.longAt fc (b + BitVec.ofNat 32 i) = v := by
  have hpart := State.load_part h
  rw [longBytes_length, hi] at hpart
  rw [State.longAt, hpart, bytesLong_longBytes]

/-- A word of a loaded byte string, `i` bytes from its start. -/
theorem State.wordAt_part {w : Word} {xs zs : List Byte} {i : Nat}
    (h : t.load fc b n = xs ++ (longBytes (w.setWidth 32) 2 ++ zs)) (hi : xs.length = i) :
    t.wordAt fc (b + BitVec.ofNat 32 i) = w.setWidth 32 := by
  have hpart := State.load_part h
  rw [longBytes_length, hi] at hpart
  rw [State.wordAt, hpart, bytesLong_wordBytes]

/-! ## The head of a frame (R504) -/

/-- A vector number times four, in the twelve low bits of the format word. -/
theorem vectorOffset_eq (v : Byte) : (0#2 ++ v ++ 0#2 : BitVec 12) = v.setWidth 12 <<< 2 := by
  have hv := v.isLt
  apply BitVec.eq_of_toNat_eq
  rw [append_toNat, append_toNat, BitVec.toNat_shiftLeft, BitVec.toNat_setWidth, Nat.shiftLeft_eq]
  simp only [BitVec.toNat_ofNat]
  omega

theorem formatWord_eq (fmt : BitVec 4) (v : Byte) : formatWord fmt v = fmt ++ (v.setWidth 12 <<< 2) :=
  congrArg (fmt ++ ·) (vectorOffset_eq v)

theorem frameHead_length (fmt : BitVec 4) (sr : Word) (pc : Long) (v : Byte) : (frameHead fmt sr pc v).length = 8 := rfl

/-- The short tail of a bus fault frame, part after part (R511). -/
theorem shortTail_eq (k : Nat) (ssw : Word) (addr out : Long) : shortTail k ssw addr out =
    freeWords k 1 ++ (longBytes (ssw.setWidth 32) 2 ++ (freeWords (k + 1) 2 ++ (longBytes addr 4 ++
      (freeWords (k + 3) 2 ++ (longBytes out 4 ++ freeWords (k + 5) 2))))) := by
  simp only [shortTail, List.append_assoc]

theorem shortTail_length (k : Nat) (ssw : Word) (addr out : Long) : (shortTail k ssw addr out).length = 24 := by
  simp [shortTail_eq, longBytes_length, freeWords_length]

/-- What the first eight bytes of every frame say. -/
theorem frameHead_parts {fmt : BitVec 4} {sr : Word} {pc : Long} {v : Byte} {tail : List Byte}
    (h : t.load fc b n = frameHead fmt sr pc v ++ tail) :
    t.load fc b 2 = longBytes (sr.setWidth 32) 2 ∧ t.longAt fc (b + 2) = pc ∧
    t.wordAt fc (b + 6) = (fmt ++ (v.setWidth 12 <<< 2)).setWidth 32 := by
  have hflat : t.load fc b n = longBytes (sr.setWidth 32) 2 ++ (longBytes pc 4 ++
      (longBytes ((formatWord fmt v).setWidth 32) 2 ++ tail)) := by
    rw [h, frameHead, List.append_assoc, List.append_assoc]
  have hsr := State.load_part (xs := []) (hflat.trans (List.nil_append _).symm)
  have hpc := State.longAt_part hflat (longBytes_length _ _)
  rw [← List.append_assoc] at hflat
  have hfmt := State.wordAt_part hflat (i := 6) (by simp [longBytes_length])
  rw [List.length_nil, BitVec.add_zero, longBytes_length] at hsr
  rw [formatWord_eq] at hfmt
  exact ⟨hsr, hpc, hfmt⟩

/-! ## A frame on the stack -/

/-- Bytes clear of a changed range are loaded as before. -/
theorem State.load_of_sameBytesBut (h : sameBytesBut fc b n s t) {x : Long} {m : Nat}
    (hx : ∀ k < m, n ≤ (x + BitVec.ofNat 32 k - b).toNat) : t.load fc x m = s.load fc x m := by
  rw [State.load_eq_map, State.load_eq_map]
  exact List.map_congr_left fun k hk => h fc _ (.inr (hx k (List.mem_range.mp hk)))

/-- `t` is `s` with the frame `bs` on the supervisor stack in use; the PC and the ending are not spoken of. -/
structure HasFrame (s t : State) (bs : List Byte) : Prop where
  sr : t.sr = s.sr
  srCopy : t.srCopy = s.srCopy
  run : t.run = s.run
  vbr : t.vbr = s.vbr
  platform : t.platform = s.platform
  d : t.d = s.d
  a : t.a = s.a
  usp : t.usp = s.usp
  sp : t.sp = s.sp - BitVec.ofNat 32 bs.length
  other : if s.mBit then t.isp = s.isp else t.msp = s.msp
  wf : s.mem.wf = true → t.mem.wf = true
  load : s.mem.wf = true → s.inRam supervisorData (s.sp - BitVec.ofNat 32 bs.length) bs.length →
    t.load supervisorData (s.sp - BitVec.ofNat 32 bs.length) bs.length = bs
  bytes : s.mem.wf = true → sameBytesBut supervisorData (s.sp - BitVec.ofNat 32 bs.length) bs.length s t

namespace HasFrame

variable {bs : List Byte}

/-- Where the processor goes on, and what it has drawn, are no part of the frame. -/
theorem goOn (h : HasFrame s t bs) (pc : Long) (e : Ending) (k : Nat) :
    HasFrame s ({ t with pc := pc, ending := e }.used k) bs :=
  ⟨h.sr, h.srCopy, h.run, h.vbr, h.platform, h.d, h.a, h.usp, h.sp, h.other, h.wf, h.load, h.bytes⟩

/-- The stack that M selects in supervisor mode takes the frame. -/
theorem framed (hs : s.sBit = true) (hlen : bs.length ≤ 2 ^ 32) : HasFrame s (s.framed bs) bs := by
  have hregs : (s.framed bs).usp = s.usp ∧
      (if s.mBit then (s.framed bs).isp = s.isp else (s.framed bs).msp = s.msp) := by
    unfold State.framed State.setSp
    rw [hs]
    cases s.mBit <;> exact ⟨rfl, rfl⟩
  obtain ⟨husp, hother⟩ := hregs
  have hmem := s.setSp_mem (s.sp - BitVec.ofNat 32 bs.length)
  have hplat := s.setSp_platform (s.sp - BitVec.ofNat 32 bs.length)
  refine ⟨s.framed_sr bs, State.setSp_srCopy _ _, s.framed_run bs, s.framed_vbr bs, s.framed_platform bs,
    State.setSp_d _ _, State.setSp_a _ _, husp, s.framed_sp bs, hother, fun hw => ?_, fun hw hr => ?_,
    fun hw fc' x hx => ?_⟩
  · exact State.wf_store _ _ _ ((congrArg Memory.wf hmem).trans hw)
  · exact State.load_store ((congrArg Memory.wf hmem).trans hw) hlen ((State.inRam_congr hplat _ _ _).mpr hr)
  · have hsame := sameBytes_of_mem hmem hplat fc' x
    rw [← hsame, State.framed]
    exact State.sameBytesBut_store ((congrArg Memory.wf hmem).trans hw) fc' x
      (by rwa [State.bank_setSp, State.bank_setSp])

end HasFrame

/-- A frame of `n` bytes that exception entry puts on the stack that M selects, in terms of the state before. -/
structure Entered (s t : State) (bs : List Byte) (f : Long) (n : Nat) : Prop where
  sr : t.sr = (s.sr &&& 0x3FFF) ||| 0x2000
  srCopy : t.srCopy = s.sr
  sp : t.sp = f
  run : t.run = .normal
  vbr : t.vbr = s.vbr
  platform : t.platform = s.platform
  load : s.inRam supervisorData f n → t.load supervisorData f n = bs
  bytes : sameBytesBut supervisorData f n s t
  d : t.d = s.d
  a : t.a = s.a
  usp : t.usp = s.usp
  other : if s.mBit then t.isp = s.isp else t.msp = s.msp

theorem HasFrame.entered {bs : List Byte} {k : Nat} (h : HasFrame (s.beginException.used k) t bs) (hw : s.mem.wf = true)
    (hn : bs.length = n) : Entered s t bs ((if s.mBit then s.msp else s.isp) - BitVec.ofNat 32 n) n := by
  have hb : (s.beginException.used k).sp - BitVec.ofNat 32 bs.length =
      (if s.mBit then s.msp else s.isp) - BitVec.ofNat 32 n := by
    rw [hn, ← s.beginException_sp]
    rfl
  have hm : (s.beginException.used k).mBit = s.mBit := State.mBit_of_entered rfl
  have hsp := h.sp
  have hload := h.load hw
  have hbytes := h.bytes hw
  have hother := h.other
  rw [hb] at hsp hload hbytes
  rw [hm] at hother
  rw [hn] at hload hbytes
  exact ⟨h.sr, h.srCopy, hsp, h.run, h.vbr, h.platform, fun hr => hload ((State.inRam_congr rfl _ _ _).mpr hr), hbytes,
    h.d, h.a, h.usp, hother⟩

end Sys2Proof.Machine
end

/-! # Four-word, six-word and format error frames (O8) -/

section
namespace Sys2Proof.Machine

variable {s t : State} {n : Nat} {fmt : BitVec 4} {x : Exc}

/-- Exception entry that meets no bus error: the frame, then the PC from the vector (R510). -/
theorem State.takeException_framed {bs : List Byte} (hbs : x.frameBytes s.platform s.sr s.draws = bs)
    (h : s.canEnter x.vector bs.length) (hw : s.mem.wf = true) (hlen : bs.length ≤ 2 ^ 32) :
    ∃ u, Entered s u bs ((if s.mBit then s.msp else s.isp) - BitVec.ofNat 32 bs.length) bs.length ∧
      s.takeException x = { u with pc := u.longAt supervisorData (s.vectorAddr x.vector), ending := x.ending } := by
  obtain ⟨hwrite, hread⟩ := h
  have hpush := pushFrame_framed ((State.writable_congr (s := s) (t := s.beginException.used x.draws) rfl _ _ _).mpr hwrite)
  have hframe := HasFrame.framed (s := s.beginException.used x.draws) (State.sBit_of_entered rfl) hlen
  generalize (s.beginException.used x.draws).framed bs = u at *
  have haddr : u.vectorAddr x.vector = s.vectorAddr x.vector := congrArg (· + _) hframe.vbr
  have hread' : u.readable supervisorData (u.vectorAddr x.vector) 4 := by
    rw [haddr, State.readable_congr hframe.platform]
    exact (State.readable_congr (s := s) rfl _ _ _).mpr hread
  refine ⟨u, hframe.entered hw rfl, ?_⟩
  rw [State.takeException_of_ok hbs ((M.bind_ok hpush).trans (loadVector_ok (State.readable_iff.mp hread').1)),
    State.atVector_of_readable hread', haddr]

/-- The special status word of a format error frame has FC, FB and DF clear (R540, log 18). -/
theorem formatSsw_clear (w : Word) : ((w &&& 0x30F7).setWidth 32 : Long) &&& 0xC100 = 0 := by
  apply BitVec.eq_of_getLsbD_eq
  intro i hi
  interval_cases i <;> simp

/-- The kinds of frames, with their sizes and formats (R506, R508, R540). -/
def Exc.Builds (x : Exc) (p : Platform) (n : Nat) (fmt : BitVec 4) : Prop :=
  (x.frame = .four ∧ n = 8 ∧ fmt = 0) ∨ ((∃ ia, x.frame = .six ia) ∧ n = 12 ∧ fmt = 2) ∨
    (x.frame = .formatError ∧ p.formatErrorShort = true ∧ n = 32 ∧ fmt = 0xA) ∨
    (x.frame = .formatError ∧ p.formatErrorShort = false ∧ n = 8 ∧ fmt = 0)

/-- A frame is its head and a tail: the instruction address in a six-word frame, the special status word and more in
the short bus fault frame of a format error. -/
theorem Exc.frameBytes_eq {p : Platform} (h : x.Builds p n fmt) (sr : Word) (k : Nat) :
    ∃ tail, x.frameBytes p sr k = frameHead fmt sr x.savedPc x.vector ++ tail ∧ 8 + tail.length = n ∧
      (∀ ia, x.frame = .six ia → tail = longBytes ia 4) ∧
      (n = 32 → ∃ pre post, ∃ w : Word, tail = pre ++ (longBytes ((w &&& 0x30F7).setWidth 32) 2 ++ post) ∧
        pre.length = 2) := by
  rcases h with ⟨hx, rfl, rfl⟩ | ⟨⟨ia, hx⟩, rfl, rfl⟩ | ⟨hx, hp, rfl, rfl⟩ | ⟨hx, hp, rfl, rfl⟩
  · exact ⟨[], by simp [Exc.frameBytes, hx], rfl, by simp [hx], by simp⟩
  · exact ⟨longBytes ia 4, by simp [Exc.frameBytes, hx], rfl, by simp [hx], by simp⟩
  · exact ⟨shortTail k (freeWord (k + 10) &&& 0x30F7) (Config.freeLong (k + 12)) (Config.freeLong (k + 13)),
      by simp [Exc.frameBytes, hx, hp], by rw [shortTail_length], by simp [hx],
      fun _ => ⟨_, _, _, shortTail_eq _ _ _ _, freeWords_length k 1⟩⟩
  · exact ⟨[], by simp [Exc.frameBytes, hx, hp], rfl, by simp [hx], by simp⟩

/-- What the frame of an exception says where it is read back. -/
theorem Exc.frame_parts {b : Long} (h : x.Builds s.platform n fmt)
    (hload : t.load supervisorData b n = x.frameBytes s.platform s.sr s.draws) :
    t.load supervisorData b 2 = longBytes (s.sr.setWidth 32) 2 ∧
    t.longAt supervisorData (b + 2) = x.savedPc ∧
    t.wordAt supervisorData (b + 6) = (fmt ++ (x.vector.setWidth 12 <<< 2)).setWidth 32 ∧
    (∀ ia, x.frame = .six ia → t.longAt supervisorData (b + 8) = ia) ∧
    (n = 32 → t.wordAt supervisorData (b + 10) &&& 0xC100 = 0) := by
  obtain ⟨tail, hbytes, -, hia, hssw⟩ := Exc.frameBytes_eq h s.sr s.draws
  rw [hbytes] at hload
  obtain ⟨hsr, hpc, hfmt⟩ := frameHead_parts hload
  refine ⟨hsr, hpc, hfmt, fun ia hx => ?_, fun h32 => ?_⟩
  · rw [hia ia hx, ← List.append_nil (longBytes ia 4)] at hload
    exact State.longAt_part hload (frameHead_length _ _ _ _)
  · obtain ⟨pre, post, w, htail, hpre⟩ := hssw h32
    rw [htail, ← List.append_assoc] at hload
    have hword := State.wordAt_part hload (i := 10) (by rw [List.length_append, frameHead_length, hpre])
    exact (congrArg (· &&& 0xC100) hword).trans (formatSsw_clear w)

/-- Settles O8: the frame goes on the stack that M selects, and the vector is read below it. -/
theorem exceptionFrame : Obligations.ExceptionFrame := by
  intro s x n fmt hm hkind henter t f
  have hn : (x.frameBytes s.platform s.sr s.draws).length = n := by
    obtain ⟨tail, hbytes, hlen, -⟩ := Exc.frameBytes_eq hkind s.sr s.draws
    rw [hbytes, List.length_append, ← hlen]
    rfl
  obtain ⟨hmin, hmax⟩ := x.frameBytes_length s.platform s.sr s.draws
  obtain ⟨u, hu, heq⟩ := State.takeException_framed rfl (hn.symm ▸ henter) hm (by omega)
  rw [hn] at hu
  have ht : t = { u with pc := u.longAt supervisorData (s.vectorAddr x.vector), ending := x.ending } := heq
  rw [s.vectorAddr_eq] at ht
  rw [ht]
  exact ⟨hu.sr, hu.srCopy, hu.sp, hu.run, rfl, fun hram => Exc.frame_parts hkind (hu.load hram), rfl, hu.bytes, hu.d,
    hu.a, hu.usp, hu.other, hu.vbr⟩

end Sys2Proof.Machine
end

/-! # Bus fault frames and the entry of a bus or address error (O9, O12) -/

section
namespace Sys2Proof.Machine

variable {s t : State} {n : Nat} {vector : Byte} {long : Bool} {pc b : Long} {f : BusFault}

/-! ## The words of the frame (R511 to R513) -/

/-- The special status word of a data cycle (R513). -/
theorem BusFault.ssw_data (h : f.fetch = false) (k : Nat) : ((f.ssw k).setWidth 32 : Long) =
    (0x0100 ||| (if f.rmw then 0x80 else 0) ||| (if f.write then 0 else 0x40) |||
      BitVec.ofNat 32 (16 * (if f.left = 1 ∨ f.left = 2 ∨ f.left = 3 then f.left else 0)) ||| f.fc.setWidth 32) := by
  have hrmw : ((flagAt f.rmw 7).setWidth 32 : Long) = if f.rmw then 0x80 else 0 := by cases f.rmw <;> rfl
  have hwrite : ((flagAt (!f.write) 6).setWidth 32 : Long) = if f.write then 0 else 0x40 := by cases f.write <;> rfl
  have hsize : ((sizeCode f.left <<< 4).setWidth 32 : Long) =
      BitVec.ofNat 32 (16 * (if f.left = 1 ∨ f.left = 2 ∨ f.left = 3 then f.left else 0)) := by
    unfold sizeCode
    split
    · next h => rw [h]; rfl
    · next h => rw [h]; rfl
    · next h => rw [h]; rfl
    · next h1 h2 h3 => rw [if_neg (by rintro (h | h | h); exacts [h1 h, h2 h, h3 h])]; rfl
  have hfc : ((f.fc.setWidth 16 : Word).setWidth 32 : Long) = f.fc.setWidth 32 :=
    BitVec.eq_of_toNat_eq (by have := f.fc.isLt; simp only [BitVec.toNat_setWidth]; omega)
  rw [BusFault.ssw, if_neg (ne_true_of_eq_false h), BitVec.setWidth_or, BitVec.setWidth_or, BitVec.setWidth_or,
    BitVec.setWidth_or, hrmw, hwrite, hsize, hfc]
  rfl

/-- The special status word of a prefetch: the fault and rerun bits of one stage, and DF clear (log 10). -/
theorem BusFault.ssw_fetch (h : f.fetch = true) (k : Nat) :
    ((f.ssw k).setWidth 32 : Long).toNat / 256 = 0xA0 ∨ ((f.ssw k).setWidth 32 : Long).toNat / 256 = 0x50 := by
  have hhigh : ∀ c w : Word, ((c ||| (w &&& 0x00F7)).setWidth 32 : Long).toNat / 256 = (c >>> 8).toNat := fun c w => by
    have hshift : (c ||| (w &&& 0x00F7)) >>> 8 = c >>> 8 := by
      rw [BitVec.ushiftRight_or_distrib, BitVec.ushiftRight_and_distrib, show (0x00F7 : Word) >>> 8 = 0 from rfl]
      simp
    rw [← hshift, BitVec.toNat_setWidth, BitVec.toNat_ushiftRight, Nat.shiftRight_eq_div_pow,
      Nat.mod_eq_of_lt ((BitVec.isLt _).trans (by decide))]
  rw [BusFault.ssw, if_pos h, hhigh]
  cases freeBit k
  · exact .inr rfl
  · exact .inl rfl

/-- The operand that was being written stands in the low bits of the data output buffer (log 10). -/
theorem BusFault.frameOut_low (f : BusFault) (k : Nat) :
    (f.frameOut k).toNat % 2 ^ (8 * f.out.length) = (bytesLong f.out).toNat := by
  rw [BusFault.frameOut, BitVec.toNat_or, BitVec.toNat_shiftLeft, Nat.shiftLeft_eq]
  by_cases h : f.out.length ≤ 4
  · have hdvd : 2 ^ (8 * f.out.length) ∣ 2 ^ 32 := Nat.pow_dvd_pow 2 (by omega)
    rw [Nat.or_mod_two_pow, Nat.mod_mod_of_dvd _ hdvd, Nat.mul_mod_left, Nat.zero_or,
      Nat.mod_eq_of_lt (bytesLong_lt f.out h)]
  · have hbig : 2 ^ 32 ≤ 2 ^ (8 * f.out.length) := Nat.pow_le_pow_right (by decide) (by omega)
    have hdvd : 2 ^ 32 ∣ 2 ^ (8 * f.out.length) := Nat.pow_dvd_pow 2 (by omega)
    rw [Nat.mod_eq_zero_of_dvd (hdvd.mul_left _), Nat.zero_or, Nat.mod_eq_of_lt ((BitVec.isLt _).trans_le hbig)]

theorem longTail_eq (k : Nat) (version : BitVec 4) : ∃ post : List Byte, longTail k version = freeWords k 11 ++
    (longBytes ((version ++ (freeWord (k + 11)).setWidth 12 : Word).setWidth 32) 2 ++ post) :=
  ⟨freeWords (k + 12) 18, by rw [longTail, List.append_assoc]⟩

theorem extractLsb'_version (version : BitVec 4) (low : BitVec 12) :
    ((version ++ low : Word).setWidth 32 : Long).extractLsb' 12 4 = version := by
  have hv := version.isLt
  have hl := low.isLt
  apply BitVec.eq_of_toNat_eq
  rw [BitVec.extractLsb'_toNat, BitVec.toNat_setWidth, append_toNat, Nat.shiftRight_eq_div_pow]
  omega

/-- What a bus fault frame says where it is read back (R511, R512). -/
theorem faultFrame_parts (h : t.load supervisorData b n = s.faultBytes vector long pc f) :
    t.load supervisorData b 2 = longBytes (s.sr.setWidth 32) 2 ∧
    t.longAt supervisorData (b + 2) = pc ∧
    t.wordAt supervisorData (b + 6) = ((if long then 0xB#4 else 0xA#4) ++ (vector.setWidth 12 <<< 2)).setWidth 32 ∧
    (∃ k, t.wordAt supervisorData (b + 0xA) = (f.ssw k).setWidth 32) ∧
    (∃ k, t.longAt supervisorData (b + 0x10) = f.frameAddr k) ∧
    (∃ k, t.longAt supervisorData (b + 0x18) = f.frameOut k) ∧
    (long = true → (t.wordAt supervisorData (b + 0x36)).extractLsb' 12 4 = s.platform.cpuVersion) := by
  have hsplit : t.load supervisorData b n = frameHead (if long then 0xB else 0xA) s.sr pc vector ++
      (shortTail s.draws (f.ssw (s.draws + 10)) (f.frameAddr (s.draws + 12)) (f.frameOut (s.draws + 13)) ++
        (if long then longTail (s.draws + 14) s.platform.cpuVersion else [])) := by
    rw [h, State.faultBytes, faultFrame, List.append_assoc]
  obtain ⟨hsr, hpc, hfmt⟩ := frameHead_parts hsplit
  have htail := hsplit
  rw [shortTail_eq] at htail
  simp only [List.append_assoc] at htail
  refine ⟨hsr, hpc, hfmt, ⟨s.draws + 10, ?special⟩, ⟨s.draws + 12, ?address⟩, ⟨s.draws + 13, ?buffer⟩, fun hl => ?number⟩
  case special =>
    rw [← List.append_assoc] at htail
    exact State.wordAt_part htail (by simp [frameHead_length, freeWords_length])
  case address =>
    rw [← List.append_assoc, ← List.append_assoc, ← List.append_assoc] at htail
    exact State.longAt_part htail (by simp [frameHead_length, freeWords_length, longBytes_length])
  case buffer =>
    rw [← List.append_assoc, ← List.append_assoc, ← List.append_assoc, ← List.append_assoc, ← List.append_assoc] at htail
    exact State.longAt_part htail (by simp [frameHead_length, freeWords_length, longBytes_length])
  case number =>
    obtain ⟨post, hlong⟩ := longTail_eq (s.draws + 14) s.platform.cpuVersion
    rw [if_pos hl, if_pos hl, hlong, ← List.append_assoc, ← List.append_assoc] at hsplit
    have hword := State.wordAt_part hsplit (i := 0x36)
      (by simp [frameHead_length, shortTail_length, freeWords_length])
    exact (congrArg (BitVec.extractLsb' 12 4) hword).trans (extractLsb'_version _ _)

/-! ## The entry (R530 to R532) -/

/-- A bus or address error that meets no fault of its own: the frame, then the vector, which is even or halts. -/
theorem State.enterFault_framed (s : State) (vector : Byte) (pc : Long) (f : BusFault) (hm : s.mem.wf = true)
    (hn : (if long then 92 else 32) = n)
    (hw : s.writable supervisorData ((if s.mBit then s.msp else s.isp) - BitVec.ofNat 32 n) n)
    (hr : s.readable supervisorData (s.vectorAddr vector) 4) :
    ∃ u, Entered s u (s.faultBytes vector long pc f) ((if s.mBit then s.msp else s.isp) - BitVec.ofNat 32 n) n ∧
      s.enterFault vector long pc f = if (u.longAt supervisorData (s.vectorAddr vector)).getLsbD 0 then
          (s.used frameDraws).halt
        else { u with pc := u.longAt supervisorData (s.vectorAddr vector), ending := .notDone }.used frameDraws := by
  have hlen : (s.faultBytes vector long pc f).length = n := (faultFrame_length _ _ _ _ _ _ _).trans hn
  have hframe := HasFrame.framed (s := s.beginException) (bs := s.faultBytes vector long pc f)
    (State.sBit_of_entered rfl) (by rw [hlen, ← hn]; split <;> decide)
  have heq := s.enterFault_eq (vector := vector) (long := long) (pc := pc) (f := f)
    (by rw [hn, s.beginException_sp]; exact hw) (State.readable_iff.mp hr).1
  generalize s.beginException.framed (s.faultBytes vector long pc f) = u at *
  have haddr : u.vectorAddr vector = s.vectorAddr vector := congrArg (· + _) hframe.vbr
  have hread : u.readable supervisorData (u.vectorAddr vector) 4 := by
    rw [haddr, State.readable_congr hframe.platform]
    exact (State.readable_congr (s := s) rfl _ _ _).mpr hr
  rw [State.atVector_of_readable hread, haddr] at heq
  exact ⟨u, hframe.entered (k := 0) hm hlen, heq⟩

/-- Settles O9: the frame or the vector faults and the processor stops as it was, or both are made and the vector's
lowest bit decides. -/
theorem busFaultEntry : Obligations.BusFaultEntry := by
  intro s vector long pc f hm n b va t
  have hva : s.vectorAddr vector = va := s.vectorAddr_eq vector
  have hsp := s.beginException_sp
  constructor
  · intro hbad
    have hstop : ∃ i fc w a m, s.firstFault fc w a m = some i ∧ t = if i.2 then s.hang else s.halt := by
      cases hw : s.firstFault supervisorData true b n with
      | some i => exact ⟨i, _, _, _, _, hw, s.enterFault_unwritable (hsp ▸ hw)⟩
      | none =>
        cases hr : s.firstFault supervisorData false va 4 with
        | some i => exact ⟨i, _, _, _, _, hr, s.enterFault_unreadable (hsp ▸ hw) (hva ▸ hr)⟩
        | none => exact absurd hbad (by simp [hw, hr])
    obtain ⟨i, fc, w, a, m, hi, ht⟩ := hstop
    rw [ht]
    refine ⟨?_, fun hn => by rw [State.firstFault_ends hn hi]; rfl⟩
    cases i.2
    · exact .inl rfl
    · exact .inr rfl
  · intro hw hr
    obtain ⟨u, hu, heq⟩ := s.enterFault_framed vector pc f (long := long) (n := n) hm rfl hw (hva ▸ hr)
    have ht : t = _ := heq
    rw [hva] at ht
    have hclear : (∀ k < 4, n ≤ (va + BitVec.ofNat 32 k - b).toNat) →
        u.longAt supervisorData va = s.longAt supervisorData va :=
      fun hk => congrArg bytesLong (State.load_of_sameBytesBut hu.bytes hk)
    cases hodd : (u.longAt supervisorData va).getLsbD 0 with
    | true =>
      rw [hodd, if_pos rfl] at ht
      rw [ht]
      exact ⟨fun hk => ⟨fun he => absurd hodd (by rw [hclear hk, he]; nofun), fun _ => rfl⟩, fun _ => rfl,
        fun hrun => absurd rfl hrun⟩
    | false =>
      rw [hodd, if_neg (by simp)] at ht
      rw [ht]
      have hrun : u.run ≠ .halted := by simp [hu.run]
      refine ⟨fun hk => ⟨fun _ => hu.run, fun ho => absurd hodd (by rw [hclear hk, ho]; nofun)⟩,
        fun hh => absurd hh hrun, fun _ => ⟨hu.sr, hu.srCopy, hu.sp, rfl, hu.run, fun hram => ?_, rfl, hodd, hu.bytes,
          hu.d, hu.a, hu.usp⟩⟩
      obtain ⟨hsr, hpc, hfmt, ⟨k, hssw⟩, ⟨j, haddr⟩, ⟨l, hout⟩, hversion⟩ := faultFrame_parts (hu.load hram)
      refine ⟨hsr, hpc, hfmt, fun hdata => ⟨?_, hssw.trans (BusFault.ssw_data hdata k), ?_⟩, fun hfetch => ?_, hversion⟩
      · exact haddr.trans (if_neg (ne_true_of_eq_false hdata))
      · exact (congrArg (fun v : Long => v.toNat % _) hout).trans (f.frameOut_low l)
      · have hbits := BusFault.ssw_fetch hfetch k
        rw [← hssw] at hbits
        exact hbits

end Sys2Proof.Machine
end

/-! # The address error of an odd PC (O12) -/

section
namespace Sys2Proof.Machine

variable {s : State}

/-- A frame of 32 bytes lies in RAM where one of 92 bytes does. -/
theorem State.inRam_short {fc : FC} {b : Long} (h : s.inRam fc (b - 92) 92) : s.inRam fc (b - 32) 32 := by
  refine List.all_eq_true.mpr fun i hi => ?_
  have hi' := List.mem_range.mp hi
  have haddr : b - 32 + BitVec.ofNat 32 i = b - 92 + BitVec.ofNat 32 (i + 60) := by
    rw [BitVec.ofNat_add]
    bv_omega
  have hlands := List.all_eq_true.mp h (i + 60) (List.mem_range.mpr (by omega))
  unfold State.lands at hlands ⊢
  rwa [haddr]

/-- What is clear of the long frame is clear of the short one. -/
theorem clear_short {b x : Long} (h : 92 ≤ (x - (b - 92)).toNat) : 32 ≤ (x - (b - 32)).toNat := by
  bv_omega

/-- The entry of an address error with either frame, on a stack `b` that has room for both (R531). -/
theorem State.enterAddressError (hm : s.mem.wf = true) (long : Bool) (pc : Long) (f : BusFault) {b : Long}
    (hb : (if s.mBit then s.msp else s.isp) = b) (hw32 : s.writable supervisorData (b - 32) 32)
    (hw92 : s.writable supervisorData (b - 92) 92) (hram92 : s.inRam supervisorData (b - 92) 92)
    (hr : s.readable supervisorData (s.vbr + 12) 4)
    (hclear92 : ∀ k < 4, 92 ≤ (s.vbr + 12 + BitVec.ofNat 32 k - (b - 92)).toNat) :
    ((s.longAt supervisorData (s.vbr + 12)).getLsbD 0 = true → (s.enterFault 3 long pc f).run = .halted ∧
      (s.enterFault 3 long pc f).mem = s.mem ∧ (s.enterFault 3 long pc f).sr = s.sr) ∧
    ((s.longAt supervisorData (s.vbr + 12)).getLsbD 0 = false → ∃ n : Long, (n = 32 ∨ n = 92) ∧
      (s.enterFault 3 long pc f).sp = b - n ∧ (s.enterFault 3 long pc f).run = .normal ∧
      (s.enterFault 3 long pc f).sr = (s.sr &&& 0x3FFF) ||| 0x2000 ∧
      (s.enterFault 3 long pc f).longAt supervisorData (b - n + 2) = pc ∧
      (s.enterFault 3 long pc f).wordAt supervisorData (b - n + 6) = (if n = 32 then 0xA00C else 0xB00C) ∧
      (s.enterFault 3 long pc f).pc = s.longAt supervisorData (s.vbr + 12)) := by
  have hsizes : s.writable supervisorData (b - BitVec.ofNat 32 (if long then 92 else 32)) (if long then 92 else 32) ∧
      s.inRam supervisorData (b - BitVec.ofNat 32 (if long then 92 else 32)) (if long then 92 else 32) ∧
      ∀ k < 4, (if long then 92 else 32) ≤
        (s.vbr + 12 + BitVec.ofNat 32 k - (b - BitVec.ofNat 32 (if long then 92 else 32))).toNat := by
    cases long
    · exact ⟨hw32, State.inRam_short hram92, fun k hk => clear_short (hclear92 k hk)⟩
    · exact ⟨hw92, hram92, hclear92⟩
  obtain ⟨hw, hram, hclear⟩ := hsizes
  subst hb
  obtain ⟨-, hentry⟩ := busFaultEntry s 3 long pc f hm
  obtain ⟨hgoes, hhalt, henter⟩ := hentry hw hr
  obtain ⟨heven, hstops⟩ := hgoes hclear
  refine ⟨fun ho => ?_, fun he => ?_⟩
  · rw [hhalt (hstops ho)]
    exact ⟨rfl, rfl, rfl⟩
  · obtain ⟨hsr, -, hsp, -, hnormal, hframe, hpc, -, hbytes, -⟩ := henter (by rw [heven he]; nofun)
    obtain ⟨-, hsaved, hfmt, -⟩ := hframe hram
    refine ⟨BitVec.ofNat 32 (if long then 92 else 32), ?_, hsp, hnormal, hsr, hsaved, hfmt.trans ?_,
      hpc.trans (congrArg bytesLong (State.load_of_sameBytesBut hbytes hclear))⟩
    · cases long
      · exact .inl rfl
      · exact .inr rfl
    · cases long <;> rfl

/-- Settles O12: the step of a processor with an odd PC is the entry with vector 3, whichever frame is drawn. -/
theorem oddPcAddressError : Obligations.OddPcAddressError := by
  intro s hm hreset hrun hodd b h hw32 hw92 hram hr hclear
  have hstep := step_odd hreset hrun hodd
  obtain ⟨hstops, hgoes⟩ := State.enterAddressError (s := s.sample.used 1) hm (freeBit s.sample.draws) s.sample.pc
    ⟨true, s.sample.progSpace, s.sample.pc, 2, false, false, [], false⟩ rfl hw32 hw92 hram hr hclear
  refine ⟨fun ho => ⟨_, hstep, hstops ho⟩, fun he => ?_⟩
  obtain ⟨n, hn, hentered⟩ := hgoes he
  exact ⟨_, n, hstep, hn, hentered⟩

end Sys2Proof.Machine
end

/-! # Interrupt entry (O14) -/

section
namespace Sys2Proof.Machine

variable {s t u w : State} {l : Fin 8} {v : Byte}

/-! ## The SR of an interrupt (R563) -/

/-- The SR with S set, T1 and T0 clear and the mask at the level. -/
def interruptSr (sr : Word) (l : Fin 8) : Word := (sr &&& 0x38FF) ||| 0x2000 ||| (BitVec.ofNat 16 l.val <<< 8)

/-- What an interrupt of level `l` does before its first frame. -/
def State.masked (s : State) (l : Fin 8) : State := { s.beginException with sr := interruptSr s.sr l }

theorem interruptSr_eq (s : State) (l : Fin 8) :
    (s.beginException.sr &&& 0xF8FF) ||| (BitVec.ofNat 16 l.val <<< 8) = interruptSr s.sr l := by
  show (enteredSr s.sr &&& 0xF8FF#16) ||| (BitVec.ofNat 16 l.val <<< 8) = _
  unfold enteredSr interruptSr
  congr 1
  refine BitVec.eq_of_getLsbD_eq fun i hi => ?_
  interval_cases i <;> simp

/-- The level is in bits 10:8, so S and M are as entry leaves them. -/
theorem interruptSr_modes (sr : Word) (l : Fin 8) :
    (interruptSr sr l).getLsbD 13 = true ∧ (interruptSr sr l).getLsbD 12 = sr.getLsbD 12 := by
  have hlevel : (BitVec.ofNat 16 l.val <<< 8 : Word).getLsbD 12 = false := by revert l; decide
  constructor
  · simp [interruptSr]
  · rw [interruptSr, BitVec.getLsbD_or, hlevel]
    simp

/-! ## The two ways of an interrupt -/

theorem State.takeInterrupt_normal (hpush : pushFrame (frameHead 0 s.sr s.pc v) (s.masked l) = .ok () u)
    (hm : u.mBit = false) (hload : loadVector v u = .ok () w) : s.takeInterrupt l v = { w with ending := .flow } := by
  rw [State.masked, ← interruptSr_eq] at hpush
  unfold State.takeInterrupt
  dsimp only
  rw [M.bind_ok hpush, M.get_bind, hm]
  simp only [Bool.false_eq_true, if_false]
  rw [hload]

theorem State.takeInterrupt_master (hpush : pushFrame (frameHead 0 s.sr s.pc v) (s.masked l) = .ok () t)
    (hm : t.mBit = true) (hthrow : pushFrame (frameHead 1 t.sr s.pc v) { t with sr := t.sr &&& 0xEFFF } = .ok () u)
    (hload : loadVector v u = .ok () w) : s.takeInterrupt l v = { w with ending := .flow } := by
  rw [State.masked, ← interruptSr_eq] at hpush
  unfold State.takeInterrupt
  dsimp only
  rw [M.bind_ok hpush, M.get_bind, hm]
  simp only [if_true]
  rw [M.set_bind, M.bind_ok hthrow, hload]

/-! ## Where the frames lie -/

theorem State.sp_interrupt (hs : s.sBit = true) (hm : s.mBit = false) : s.sp = s.isp := by
  rw [State.sp, hs, hm]
  rfl

theorem State.sp_master (hs : s.sBit = true) (hm : s.mBit = true) : s.sp = s.msp := by
  rw [State.sp, hs, hm]
  rfl

/-- Clearing M leaves S. -/
theorem clearM_modes (hs : s.sBit = true) : ({ s with sr := s.sr &&& 0xEFFF } : State).sBit = true ∧
    ({ s with sr := s.sr &&& 0xEFFF } : State).mBit = false := by
  unfold State.sBit at hs
  simp [State.sBit, State.mBit, hs]

theorem HasFrame.sBit {bs : List Byte} (h : HasFrame s t bs) : t.sBit = s.sBit := congrArg (·.getLsbD 13) h.sr

theorem HasFrame.mBit {bs : List Byte} (h : HasFrame s t bs) : t.mBit = s.mBit := congrArg (·.getLsbD 12) h.sr

theorem State.masked_sBit (s : State) (l : Fin 8) : (s.masked l).sBit = true := (interruptSr_modes s.sr l).1

theorem State.masked_mBit (s : State) (l : Fin 8) : (s.masked l).mBit = s.mBit := (interruptSr_modes s.sr l).2

/-- A four-word frame that can be written, and all that it leaves. -/
theorem pushFrame_head {fmt : BitVec 4} {sr : Word} {pc : Long} (hs : s.sBit = true)
    (hw : s.writable supervisorData (s.sp - 8) 8) :
    ∃ t, pushFrame (frameHead fmt sr pc v) s = .ok () t ∧ HasFrame s t (frameHead fmt sr pc v) ∧ t.sp = s.sp - 8 ∧
      (s.mem.wf = true → sameBytesBut supervisorData (s.sp - 8) 8 s t) ∧
      (s.mem.wf = true → s.inRam supervisorData (s.sp - 8) 8 →
        t.load supervisorData (s.sp - 8) 8 = frameHead fmt sr pc v) := by
  have h := HasFrame.framed (bs := frameHead fmt sr pc v) hs (by rw [frameHead_length]; decide)
  have hsp := h.sp
  have hbytes := h.bytes
  have hload := h.load
  rw [frameHead_length] at hsp hbytes hload
  exact ⟨_, pushFrame_framed hw, h, hsp, hbytes, hload⟩

/-- The throwaway frame goes on the interrupt stack, with the SR as it stood (R507, R563). -/
theorem pushFrame_throwaway {pc : Long} (hs : s.sBit = true)
    (hw : s.writable supervisorData (s.isp - 8) 8) :
    ∃ t, pushFrame (frameHead 1 s.sr pc v) { s with sr := s.sr &&& 0xEFFF } = .ok () t ∧
      HasFrame { s with sr := s.sr &&& 0xEFFF } t (frameHead 1 s.sr pc v) ∧ t.isp = s.isp - 8 ∧ t.msp = s.msp ∧
      (s.mem.wf = true → sameBytesBut supervisorData (s.isp - 8) 8 s t) ∧
      (s.mem.wf = true → s.inRam supervisorData (s.isp - 8) 8 →
        t.load supervisorData (s.isp - 8) 8 = frameHead 1 s.sr pc v) := by
  obtain ⟨hs', hM'⟩ := clearM_modes hs
  have hsp : ({ s with sr := s.sr &&& 0xEFFF } : State).sp = s.isp := State.sp_interrupt hs' hM'
  have hw' : ({ s with sr := s.sr &&& 0xEFFF } : State).writable supervisorData
      (({ s with sr := s.sr &&& 0xEFFF } : State).sp - 8) 8 := by
    rw [hsp]
    exact (State.writable_congr rfl _ _ _).mpr hw
  obtain ⟨t, hpush, ht, htsp, hbytes, hload⟩ := pushFrame_head (fmt := 1) (sr := s.sr) (pc := pc) (v := v) hs' hw'
  have hother := ht.other
  rw [hM', if_neg nofun] at hother
  rw [hsp] at htsp hbytes hload
  exact ⟨t, hpush, ht, (State.sp_interrupt (ht.sBit.trans hs') (ht.mBit.trans hM')).symm.trans htsp, hother, hbytes,
    hload⟩

/-- The vector of an interrupt, read through the VBR that entry leaves. -/
theorem loadVector_readable (hr : s.readable supervisorData (s.vbr + BitVec.ofNat 32 (4 * v.toNat)) 4)
    (hvbr : t.vbr = s.vbr) (hplat : t.platform = s.platform) :
    loadVector v t = .ok () { t with pc := t.longAt supervisorData (s.vbr + BitVec.ofNat 32 (4 * v.toNat)) } := by
  have haddr : t.vectorAddr v = s.vbr + BitVec.ofNat 32 (4 * v.toNat) := hvbr ▸ t.vectorAddr_eq v
  have hread : t.readable supervisorData (t.vectorAddr v) 4 := (State.readable_congr hplat _ _ _).mpr (haddr ▸ hr)
  rw [loadVector_ok (State.readable_iff.mp hread).1, State.atVector_of_readable hread, haddr]

/-- Frames at `a` and `b` that do not overlap: what is in the one at `b` is clear of the one at `a`. -/
theorem clear_of_apart {a b : Long} (hab : 8 ≤ (a - b).toNat) (hba : 8 ≤ (b - a).toNat) :
    ∀ k < 8, 8 ≤ (b - 8 + BitVec.ofNat 32 k - (a - 8)).toNat := by
  intro k hk
  have hk' : (BitVec.ofNat 32 k).toNat = k := by rw [BitVec.toNat_ofNat]; omega
  generalize BitVec.ofNat 32 k = x at hk'
  bv_omega

/-! ## Both ways together -/

section
variable (hm : s.mem.wf = true) (hr : s.readable supervisorData (s.vbr + BitVec.ofNat 32 (4 * v.toNat)) 4)
  (hwi : s.writable supervisorData (s.isp - 8) 8) (hri : s.inRam supervisorData (s.isp - 8) 8)
include hm hr hwi hri

theorem State.takeInterrupt_onInterruptStack (hM : s.mBit = false) : let t := s.takeInterrupt l v
    t.sr = interruptSr s.sr l ∧ t.isp = s.isp - 8 ∧ t.msp = s.msp ∧ t.usp = s.usp ∧ t.srCopy = s.sr ∧
      t.load supervisorData (s.isp - 8) 8 = frameHead 0 s.sr s.pc v ∧
      t.pc = t.longAt supervisorData (s.vbr + BitVec.ofNat 32 (4 * v.toNat)) ∧
      t.run = .normal ∧ sameBytesBut supervisorData (s.isp - 8) 8 s t := by
  intro t
  have hs := s.masked_sBit l
  have hmb := (s.masked_mBit l).trans hM
  have hsp : (s.masked l).sp = s.isp := State.sp_interrupt hs hmb
  obtain ⟨u, hpush, hu, husp, hbytes, hload⟩ := pushFrame_head (s := s.masked l) (fmt := 0) (sr := s.sr) (pc := s.pc)
    (v := v) hs (hsp ▸ hwi)
  have huM : u.mBit = false := hu.mBit.trans hmb
  have huisp : u.sp = u.isp := State.sp_interrupt (hu.sBit.trans hs) huM
  have hother := hu.other
  rw [hmb, if_neg nofun] at hother
  rw [hsp] at husp hbytes hload
  have ht : t = _ := State.takeInterrupt_normal hpush huM (loadVector_readable hr hu.vbr hu.platform)
  rw [ht]
  exact ⟨hu.sr, huisp.symm.trans husp, hother, hu.usp, hu.srCopy, hload hm hri, rfl, hu.run, hbytes hm⟩

theorem State.takeInterrupt_onBothStacks (hM : s.mBit = true) (hwm : s.writable supervisorData (s.msp - 8) 8)
    (hrm : s.inRam supervisorData (s.msp - 8) 8) (hapart : 8 ≤ (s.isp - s.msp).toNat)
    (hapart' : 8 ≤ (s.msp - s.isp).toNat) : let t := s.takeInterrupt l v
    t.sr = interruptSr s.sr l &&& 0xEFFF ∧ t.isp = s.isp - 8 ∧ t.msp = s.msp - 8 ∧ t.usp = s.usp ∧ t.srCopy = s.sr ∧
      t.load supervisorData (s.msp - 8) 8 = frameHead 0 s.sr s.pc v ∧
      t.load supervisorData (s.isp - 8) 8 = frameHead 1 (interruptSr s.sr l) s.pc v ∧
      t.pc = t.longAt supervisorData (s.vbr + BitVec.ofNat 32 (4 * v.toNat)) ∧ t.run = .normal ∧
      ∀ (fc : FC) (b : Long), s.bank fc ≠ s.bank supervisorData ∨
          (8 ≤ (b - (s.isp - 8)).toNat ∧ 8 ≤ (b - (s.msp - 8)).toNat) →
        t.byte fc b = s.byte fc b := by
  intro t
  have hs := s.masked_sBit l
  have hmb := (s.masked_mBit l).trans hM
  have hsp : (s.masked l).sp = s.msp := State.sp_master hs hmb
  obtain ⟨u, hpush, hu, husp, hbytes, hload⟩ := pushFrame_head (s := s.masked l) (fmt := 0) (sr := s.sr) (pc := s.pc)
    (v := v) hs (hsp ▸ hwm)
  have huM : u.mBit = true := hu.mBit.trans hmb
  have humsp : u.sp = u.msp := State.sp_master (hu.sBit.trans hs) huM
  have huisp : u.isp = s.isp := (if_pos hmb).mp hu.other
  rw [hsp] at husp hbytes hload
  obtain ⟨w, hthrow, hw, hwisp, hwmsp, hbytes', hload'⟩ := pushFrame_throwaway (pc := s.pc) (v := v) (hu.sBit.trans hs)
    (huisp ▸ (State.writable_congr hu.platform _ _ _).mpr hwi)
  rw [huisp] at hwisp hbytes' hload'
  have ht : t = _ := State.takeInterrupt_master hpush huM hthrow
    (loadVector_readable hr (hw.vbr.trans hu.vbr) (hw.platform.trans hu.platform))
  have hmaster : w.load supervisorData (s.msp - 8) 8 = frameHead 0 s.sr s.pc v :=
    (State.load_of_sameBytesBut (hbytes' (hu.wf hm)) (clear_of_apart hapart hapart')).trans (hload hm hrm)
  have hinterrupt : w.load supervisorData (s.isp - 8) 8 = frameHead 1 (interruptSr s.sr l) s.pc v :=
    (hload' (hu.wf hm) ((State.inRam_congr hu.platform _ _ _).mpr hri)).trans (congrArg (frameHead 1 · s.pc v) hu.sr)
  rw [ht]
  refine ⟨hw.sr.trans (congrArg (· &&& 0xEFFF) hu.sr), hwisp, hwmsp.trans (humsp.symm.trans husp),
    hw.usp.trans hu.usp, hw.srCopy.trans hu.srCopy, hmaster, hinterrupt, rfl, hw.run.trans hu.run, fun fc b hb => ?_⟩
  have hbank : ∀ q, u.bank q = s.bank q := State.bank_congr hu.platform
  have hsecond : w.byte fc b = u.byte fc b := hbytes' (hu.wf hm) fc b (hb.imp
    (fun hne => (hbank fc).trans_ne (hne.trans_eq (hbank _).symm)) And.left)
  exact hsecond.trans (hbytes hm fc b (hb.imp_right And.right))

end

/-- Settles O14: one frame on the interrupt stack, or one on each stack with M cleared between them. -/
theorem interruptFrames : Obligations.InterruptFrames := fun _ _ _ hm hr hwi hri =>
  ⟨State.takeInterrupt_onInterruptStack hm hr hwi hri, State.takeInterrupt_onBothStacks hm hr hwi hri⟩

end Sys2Proof.Machine
end

/-! # The read-modify-write instructions (O58) -/

section
namespace Sys2Proof.Machine

variable {s t u : State} {sz : Size} {ea : Ea} {a v : Long}

/-! ## TAS (R420) -/

/-- A memory operand keeps its low bits, gets its bit 7, and is tested as it stood. -/
theorem tasMemory_ok (ha : memAddr .b 0 ea s = .ok a t) (hr : t.readable t.dataSpace a Size.b.bytes)
    (hw : t.writable t.dataSpace a Size.b.bytes) :
    let v := bytesLong (t.load t.dataSpace a Size.b.bytes)
    tasMemory ea s = .ok () (((t.setCc (valueCc .b v t.cc)).store t.dataSpace a
      (longBytes (v ||| 0x80) Size.b.bytes)).goOn (s.npc (1 + ea.words))) := by
  intro v
  have hw' : (t.setCc (logicCc .b v t.cc)).writable t.dataSpace a Size.b.bytes :=
    (State.writable_congr rfl _ _ _).mpr hw
  rw [tasMemory, M.bind_ok ha, M.get_bind, M.bind_ok (readMem_ok hr), M.modify_bind, M.bind_ok (writeMem_ok hw'),
    M.advance_run, State.npc_store, State.npc_setCc, memAddr_npc ha, logicCc_eq]

theorem exec_tas (h : Changes .b 0 ea (fun d cc => (d ||| 0x80, valueCc .b d cc)) s u) :
    exec (.tas ea) s = .next (u.goOn (s.npc (1 + ea.words))) := by
  obtain ⟨r, rfl, rfl⟩ | ⟨hin, a, t, ha, hr, hw, rfl⟩ := h
  · dsimp only
    rw [← logicCc_eq]
    rfl
  · exact (execTas_eq_tasMemory hin).trans (runInstr_ok (tasMemory_ok ha hr hw))

/-! ## The comparison of CAS and CAS2 (R421, R422) -/

/-- The comparison finds its operands equal when its difference is 0. -/
theorem subAlu_r_eq_zero {d : Long} (hv : v.toNat < 2 ^ sz.bits) (hd : d.toNat < 2 ^ sz.bits) :
    (subAlu sz v d false).r = 0 ↔ d = v := by
  rw [subAlu_exact sz v d false hv hd, ← cmpCc_z (CC.ofBits 0) hv hd]
  exact decide_eq_true_iff.symm

/-! ## CAS (R421) -/

section Cas

variable {dc du : Reg}

/-- Equal operands: Du is stored. -/
theorem execCas_equal (ha : memAddr sz 1 ea s = .ok a t) (hv : readMem true t.dataSpace a sz t = .ok v t)
    (heq : v = trunc sz (t.dreg dc)) (hw : t.writable t.dataSpace a sz.bytes) :
    execCas sz dc du ea s = .next (((t.setCc (cmpCc sz (exactSub sz (trunc sz (t.dreg dc)) v false) t.cc)).store
      t.dataSpace a (longBytes (t.dreg du) sz.bytes)).goOn (s.npc (2 + ea.words))) := by
  have hc := trunc_lt sz (t.dreg dc)
  have hv' := readMem_lt hv
  have hw' (f : CC) : (t.setCc f).writable t.dataSpace a sz.bytes := (State.writable_congr rfl _ _ _).mpr hw
  refine runInstr_ok ((M.bind_ok ha).trans ((M.bind_ok hv).trans ?_))
  rw [M.modify_bind, M.ite_pos ((subAlu_r_eq_zero hc hv').mpr heq), M.bind_ok (writeMem_ok (hw' _)),
    compareCc_subAlu _ hc hv', ← memAddr_npc ha]
  rfl

/-- Unequal operands: Dc takes the operand. -/
theorem execCas_unequal (ha : memAddr sz 1 ea s = .ok a t) (hv : readMem true t.dataSpace a sz t = .ok v t)
    (hne : v ≠ trunc sz (t.dreg dc)) :
    execCas sz dc du ea s = .next (((t.setCc (cmpCc sz (exactSub sz (trunc sz (t.dreg dc)) v false) t.cc)).putD
      sz dc v).goOn (s.npc (2 + ea.words))) := by
  have hc := trunc_lt sz (t.dreg dc)
  have hv' := readMem_lt hv
  refine runInstr_ok ((M.bind_ok ha).trans ((M.bind_ok hv).trans ?_))
  rw [M.modify_bind, M.ite_neg (mt (subAlu_r_eq_zero hc hv').mp hne), compareCc_subAlu _ hc hv', ← memAddr_npc ha]
  rfl

end Cas

/-! ## CAS2 (R422) -/

section Cas2

variable {ws : WL} {r1 r2 : Rn} {dc du dc2 du2 : Reg} {v1 v2 c1 c2 : Long}

/-- The flags of CAS2: those of the first comparison that differs, of the second when none does. -/
def cas2Cc (ws : WL) (c1 v1 c2 v2 : Long) : CC → CC :=
  cmpCc ws.size (if v1 = c1 then exactSub ws.size c2 v2 false else exactSub ws.size c1 v1 false)

theorem compareCc_cas2 (hc1 : c1.toNat < 2 ^ ws.size.bits) (hv1 : v1.toNat < 2 ^ ws.size.bits)
    (hc2 : c2.toNat < 2 ^ ws.size.bits) (hv2 : v2.toNat < 2 ^ ws.size.bits) (old : CC) :
    compareCc ws.size (if (subAlu ws.size c1 v1 false).r = 0 then subAlu ws.size c2 v2 false
      else subAlu ws.size c1 v1 false) old = cas2Cc ws c1 v1 c2 v2 old := by
  rw [cas2Cc]
  by_cases h : v1 = c1
  · rw [if_pos h, if_pos ((subAlu_r_eq_zero hc1 hv1).mpr h)]
    exact compareCc_subAlu old hc2 hv2
  · rw [if_neg h, if_neg (mt (subAlu_r_eq_zero hc1 hv1).mp h)]
    exact compareCc_subAlu old hc1 hv1

section
variable (h1 : readMem true s.dataSpace (s.getR r1) ws.size s = .ok v1 s)
  (h2 : readMem true s.dataSpace (s.getR r2) ws.size s = .ok v2 s)
include h1 h2

/-- Both equal: both update operands are stored. -/
theorem execCas2_equal (he1 : v1 = trunc ws.size (s.dreg dc)) (he2 : v2 = trunc ws.size (s.dreg dc2))
    (hw1 : s.writable s.dataSpace (s.getR r1) ws.size.bytes) (hw2 : s.writable s.dataSpace (s.getR r2) ws.size.bytes) :
    execCas2 ws r1 du dc r2 du2 dc2 s = .next ((((s.setCc (cas2Cc ws (trunc ws.size (s.dreg dc)) v1
      (trunc ws.size (s.dreg dc2)) v2 s.cc)).store s.dataSpace (s.getR r1) (longBytes (s.dreg du) ws.size.bytes)).store
        s.dataSpace (s.getR r2) (longBytes (s.dreg du2) ws.size.bytes)).goOn (s.npc 3)) := by
  have hc1 := trunc_lt ws.size (s.dreg dc)
  have hc2 := trunc_lt ws.size (s.dreg dc2)
  have hw1' (f : CC) : (s.setCc f).writable s.dataSpace (s.getR r1) ws.size.bytes :=
    (State.writable_congr rfl _ _ _).mpr hw1
  have hw2' (f : CC) (bs : List Byte) : ((s.setCc f).store s.dataSpace (s.getR r1) bs).writable s.dataSpace
      (s.getR r2) ws.size.bytes := (State.writable_congr rfl _ _ _).mpr hw2
  refine runInstr_ok ((M.bind_ok h1).trans ((M.bind_ok h2).trans ?_))
  rw [M.modify_bind, M.ite_pos ⟨(subAlu_r_eq_zero hc1 (readMem_lt h1)).mpr he1,
    (subAlu_r_eq_zero hc2 (readMem_lt h2)).mpr he2⟩, M.bind_ok (writeMem_ok (hw1' _)),
    M.bind_ok (writeMem_ok (hw2' _ _)), compareCc_cas2 hc1 (readMem_lt h1) hc2 (readMem_lt h2)]
  rfl

/-- One unequal: both compare registers take the operands. -/
theorem execCas2_unequal (hne : ¬ (v1 = trunc ws.size (s.dreg dc) ∧ v2 = trunc ws.size (s.dreg dc2)))
    (hdc : dc ≠ dc2) :
    execCas2 ws r1 du dc r2 du2 dc2 s = .next ((((s.setCc (cas2Cc ws (trunc ws.size (s.dreg dc)) v1
      (trunc ws.size (s.dreg dc2)) v2 s.cc)).putD ws.size dc v1).putD ws.size dc2 v2).goOn (s.npc 3)) := by
  have hc1 := trunc_lt ws.size (s.dreg dc)
  have hc2 := trunc_lt ws.size (s.dreg dc2)
  rw [← subAlu_r_eq_zero hc1 (readMem_lt h1), ← subAlu_r_eq_zero hc2 (readMem_lt h2)] at hne
  refine runInstr_ok ((M.bind_ok h1).trans ((M.bind_ok h2).trans ?_))
  rw [M.modify_bind, M.ite_neg hne, M.ite_neg hdc, compareCc_cas2 hc1 (readMem_lt h1) hc2 (readMem_lt h2)]
  rfl

/-- One unequal and one compare register: it takes either operand (log 24). -/
theorem execCas2_shared (hne : ¬ (v1 = trunc ws.size (s.dreg dc) ∧ v2 = trunc ws.size (s.dreg dc))) :
    ∃ v, (v = v1 ∨ v = v2) ∧ execCas2 ws r1 du dc r2 du2 dc s = .next ((((s.setCc (cas2Cc ws
      (trunc ws.size (s.dreg dc)) v1 (trunc ws.size (s.dreg dc)) v2 s.cc)).used 1).putD ws.size dc v).goOn
        (s.npc 3)) := by
  have hc := trunc_lt ws.size (s.dreg dc)
  rw [← subAlu_r_eq_zero hc (readMem_lt h1), ← subAlu_r_eq_zero hc (readMem_lt h2)] at hne
  refine ⟨_, ite_eq_or_eq ((Config.freeLong s.draws).getLsbD 0 = true) v1 v2,
    runInstr_ok ((M.bind_ok h1).trans ((M.bind_ok h2).trans ?_))⟩
  rw [M.modify_bind, M.ite_neg hne, M.ite_pos rfl, compareCc_cas2 hc (readMem_lt h1) hc (readMem_lt h2)]
  rfl

end

end Cas2

/-- Settles O58: what each of the three does once its operands are read. -/
theorem readModifyWrite : Obligations.ReadModifyWrite := by
  intro s t u sz ws ea dc du a
  refine ⟨exec_tas, fun ha hr => ⟨fun heq hw => execCas_equal ha (readMem_ok hr) heq hw,
    execCas_unequal ha (readMem_ok hr)⟩, ?_⟩
  intro r1 r2 dc2 du2 n sd h1 h2
  have hv1 := readMem_ok (rmw := true) h1
  have hv2 := readMem_ok (rmw := true) h2
  refine ⟨fun heq hw1 hw2 => execCas2_equal hv1 hv2 heq.1 heq.2 hw1 hw2, execCas2_unequal hv1 hv2, fun hne hdc => ?_⟩
  subst hdc
  exact execCas2_shared hv1 hv2 hne

end Sys2Proof.Machine
end

/-! # The end of an instruction by a bus error (O10) -/

section
namespace Sys2Proof.Machine

variable {s t u w : State} {f : BusFault} {seen : List State} {made : Bool} {sz : Size} {own : Nat} {ea : Ea}
  {v a : Long} {fc : FC} {rmw : Bool}

/-! ## The state a bus error leaves (R200) -/

/-- Each register has the last value or one that a state passed through held. -/
theorem State.partly_fields (l : List State) (t : State) (pc : Long) : let p := State.partly l t pc
    p = { t with d := p.d, a := p.a, usp := p.usp, isp := p.isp, msp := p.msp, sr := p.sr, pc := pc,
                 draws := t.draws + 1 } ∧
    (∀ r, p.dreg r ∈ t.dreg r :: l.map (·.dreg r)) ∧
    (∀ i : Fin 7, p.a[i] ∈ t.a[i] :: l.map (·.a[i])) ∧
    p.usp ∈ t.usp :: l.map (·.usp) ∧ p.isp ∈ t.isp :: l.map (·.isp) ∧ p.msp ∈ t.msp :: l.map (·.msp) ∧
    p.sr ∈ t.sr :: l.map (·.sr) := by
  have held {α : Type} [DecidableEq α] (r : Nat) (g : State → α) : anyOf t.draws r (l.map g) (g t) ∈ g t :: l.map g := by
    obtain ⟨x, hx, he⟩ := anyOf_map_mem t.draws r g l t
    rw [he]
    exact List.mem_map_of_mem (f := g) hx
  refine ⟨rfl, fun r => ?_, fun i => ?_, held 15 (·.usp), held 16 (·.isp), held 17 (·.msp), held 18 (·.sr)⟩
  · have hget : (State.partly l t pc).dreg r = anyOf t.draws r.val (l.map (·.dreg r)) (t.dreg r) :=
      Vector.getElem_ofFn _
    rw [hget]
    exact held r.val (·.dreg r)
  · have hget : (State.partly l t pc).a[i] = anyOf t.draws (8 + i.val) (l.map (·.a[i])) t.a[i] :=
      Vector.getElem_ofFn _
    rw [hget]
    exact held (8 + i.val) (·.a[i])

/-- The bus error exception of an instruction at `pc`, or the wait for a cycle that never ends (R530, R89). -/
def State.endedBy (u : State) (pc : Long) (f : BusFault) : State :=
  if f.never then { u with run := .hung, ending := .notDone } else u.enterFault 2 true pc f

theorem State.busEnd_eq (u : State) (f : BusFault) :
    (if f.never then u.hang else u.busError true f) = u.endedBy u.pc f := rfl

theorem State.cutShort_data (hrmw : f.rmw = false) :
    s.cutShort t f seen made = (State.partly (if made then seen else s :: seen) t s.pc).endedBy s.pc f := by
  rw [State.cutShort, hrmw]
  exact State.busEnd_eq _ f

theorem State.cutShort_rmw (hrmw : f.rmw = true) : s.cutShort t f seen made = (s.undone t).endedBy s.pc f := by
  rw [State.cutShort, hrmw]
  exact State.busEnd_eq _ f

/-! ## Which bus errors a body can end in -/

/-- A bus error in `x` comes with no state passed through, and its report has the property. -/
def BusErrors {α : Type} (P : BusFault → Prop) (x : M α) : Prop :=
  ∀ ⦃s t f seen made⦄, x s = .error (.bus f seen made) t → seen = [] ∧ made = false ∧ P f

/-- The report of a data read outside a read-modify-write sequence. -/
def PlainRead (f : BusFault) : Prop := f.fetch = false ∧ f.write = false ∧ f.rmw = false

section
variable {α β : Type} {P Q : BusFault → Prop} {x : M α}

theorem BusErrors.mono (h : BusErrors P x) (hPQ : ∀ f, P f → Q f) : BusErrors Q x := fun _ _ f _ _ hx =>
  have ⟨hseen, hmade, hf⟩ := h hx
  ⟨hseen, hmade, hPQ f hf⟩

theorem BusErrors.bind {g : α → M β} (hx : BusErrors P x) (hg : ∀ b, BusErrors P (g b)) : BusErrors P (x >>= g) := by
  intro s t f seen made h
  cases hxs : x s with
  | ok b u =>
    rw [M.bind_ok hxs] at h
    exact hg b h
  | error e u =>
    rw [M.bind_error hxs] at h
    cases h
    exact hx hxs

theorem BusErrors.get {g : State → M β} (hg : ∀ b, BusErrors P (g b)) : BusErrors P (MonadState.get >>= g) :=
  fun s _ _ _ _ h => hg s h

theorem pure_busErrors (b : α) : BusErrors P (pure b : M α) := fun _ _ _ _ _ h => nomatch h

theorem set_busErrors (u : State) : BusErrors P (set u : M PUnit) := fun _ _ _ _ _ h => nomatch h

theorem modify_busErrors (g : State → State) : BusErrors P (modify g : M PUnit) := fun _ _ _ _ _ h => nomatch h

theorem raiseIllegal_busErrors : BusErrors P (raiseIllegal : M α) := fun _ _ _ _ _ h => nomatch h

end

theorem readMem_busErrors (fc : FC) (a : Long) (sz : Size) : BusErrors PlainRead (readMem false fc a sz) := by
  intro s t f seen made h
  obtain ⟨-, i, -, he⟩ := readMem_eq_error.mp h
  cases he
  exact ⟨rfl, rfl, rfl, rfl, rfl⟩

theorem indexedAddr_busErrors (space : FC) (base : Long) (e : IndexExt) :
    BusErrors PlainRead (indexedAddr space base e) := by
  refine .get fun s => ?_
  cases e with
  | brief ix d8 => exact pure_busErrors _
  | full ix bs is bd ind =>
    cases ind with
    | none => exact pure_busErrors _
    | pre od => exact (readMem_busErrors _ _ _).bind fun _ => pure_busErrors _
    | post od => exact (readMem_busErrors _ _ _).bind fun _ => pure_busErrors _

theorem memAddr_busErrors (sz : Size) (own : Nat) (ea : Ea) : BusErrors PlainRead (memAddr sz own ea) := by
  refine .get fun s => ?_
  cases ea with
  | ind r | disp r d16 | absW a | absL a | pcDisp d16 => exact pure_busErrors _
  | postinc r | predec r => exact (set_busErrors _).bind fun _ => pure_busErrors _
  | indexed r e | pcIndexed e => exact indexedAddr_busErrors _ _ e
  | dreg r | areg r | imm v => exact raiseIllegal_busErrors

theorem readEa_busErrors (sz : Size) (own : Nat) (ea : Ea) : BusErrors PlainRead (readEa sz own ea) := by
  refine .get fun s => ?_
  cases ea with
  | dreg r | areg r | imm v => exact pure_busErrors _
  | ind _ | postinc _ | predec _ | disp _ _ | indexed _ _ | absW _ | absL _ | pcDisp _ | pcIndexed _ =>
    exact (memAddr_busErrors _ _ _).bind fun _ => readMem_busErrors _ _ _

theorem writeData_busErrors (a : Long) (sz : Size) (v : Long) : BusErrors (·.rmw = false) (writeData a sz v) := by
  refine .get fun s => fun _ _ _ _ _ h => ?_
  obtain ⟨i, -, -, he⟩ := writeMem_eq_error.mp h
  cases he
  exact ⟨rfl, rfl, rfl⟩

theorem writeEa_busErrors (sz : Size) (own : Nat) (ea : Ea) (v : Long) :
    BusErrors (·.rmw = false) (writeEa sz own ea v) := by
  cases ea with
  | dreg r => exact modify_busErrors _
  | ind _ | postinc _ | predec _ | disp _ _ | indexed _ _ | absW _ | absL _ =>
    exact ((memAddr_busErrors _ _ _).mono fun _ h => h.2.2).bind fun _ => writeData_busErrors _ _ _
  | areg _ | pcDisp _ | pcIndexed _ | imm _ => exact raiseIllegal_busErrors

/-! ## The operand cannot be read (R200) -/

/-- A body whose first access fails. -/
theorem runInstr_readEa_error {g : Long → M Unit} (h : readEa sz own ea s = .error (.bus f seen made) t) :
    runInstr (readEa sz own ea >>= g) s = .next ((State.partly [s] t s.pc).endedBy s.pc f) := by
  obtain ⟨rfl, rfl, -, -, hrmw⟩ := readEa_busErrors _ _ _ h
  rw [runInstr_bus (M.bind_error h), State.cutShort_data hrmw]
  rfl

theorem exec_tst_error (h : readEa sz 0 ea s = .error (.bus f seen made) t) :
    exec (.tst sz ea) s = .next ((State.partly [s] t s.pc).endedBy s.pc f) := by
  obtain ⟨rfl, rfl, -, -, hrmw⟩ := readEa_busErrors _ _ _ h
  refine (runInstr_bus (M.bind_error (M.bind_error h))).trans ?_
  rw [State.cutShort_data hrmw]
  rfl

/-! ## The store of MOVE cannot be made (R200) -/

theorem checkpoint_error {α : Type} {x : M α} (h : x s = .error (.bus f [] false) t) :
    checkpoint x s = .error (.bus f [s] false) t := by
  simp [checkpoint, h]

theorem exec_move_store_error {src dst : Ea} (hv : readEa sz 0 src s = .ok v u)
    (h : writeEa sz src.words dst v (u.setCc (valueCc sz v u.cc)) = .error (.bus f seen made) t) :
    exec (.move sz src dst) s = .next ((State.partly [s, u] t s.pc).endedBy s.pc f) := by
  obtain ⟨rfl, rfl, hrmw⟩ := writeEa_busErrors _ _ _ _ h
  rw [← logicCc_eq] at h
  have hstore : (do modify fun t => t.setCc (logicCc sz v t.cc); writeEa sz src.words dst v : M Unit) u =
      .error (.bus f [] false) t := h
  refine (runInstr_bus ((M.bind_ok hv).trans (M.bind_error (checkpoint_error hstore)))).trans ?_
  rw [State.cutShort_data hrmw]
  rfl

/-- A write of an operand fails at the cycle that begins at byte `j`, what is before it written (R74, R513). -/
theorem writeMem_fails (h : writeMem rmw fc a sz v s = .error (.bus f seen made) t) :
    ∃ j < sz.bytes, f = ⟨false, fc, a + BitVec.ofNat 32 j, sz.bytes - j, true, rmw, longBytes v sz.bytes, f.never⟩ ∧
      t = s.store fc a ((longBytes v sz.bytes).take j) := by
  obtain ⟨i, hi, rfl, he⟩ := writeMem_eq_error.mp h
  cases he
  obtain ⟨k, hk, hik⟩ := List.exists_of_findSome?_eq_some hi
  obtain ⟨-, -, rfl⟩ := Option.map_eq_some_iff.mp hik
  have hsz : sz.bytes ≤ 4 := by cases sz <;> decide
  have hlt : s.cycleStart a k < sz.bytes := (s.cycleStart_le a k).trans_lt (List.mem_range.mp hk)
  refine ⟨_, hlt, ?_, rfl⟩
  rw [← cycleLeft_operand hsz (hlt.trans_le hsz)]
  rfl

/-! ## A load of MOVEM is cut short (R204) -/

theorem afterMade_error {α : Type} {x : M α} (h : x s = .error (.bus f [] false) t) :
    afterMade x s = .error (.bus f [s] true) t := by
  simp [afterMade, h]

theorem afterMade_made {α : Type} {x : M α} (h : x s = .error (.bus f seen true) t) :
    afterMade x s = .error (.bus f seen true) t := by
  simp [afterMade, h]

/-- What a body that fails under `afterMade` does as an instruction. -/
theorem runInstr_of_afterMade {α : Type} {x : M α} {g : α → M Unit}
    (h : afterMade x s = .error (.bus f [u] true) u) (hrmw : f.rmw = false) (hpc : u.pc = s.pc) :
    runInstr (x >>= g) s = .next ((u.used 1).endedBy s.pc f) := by
  have hpartly : State.partly [u] u s.pc = u.used 1 := hpc ▸ u.partly_self
  unfold afterMade at h
  split at h
  · next f' seen made t hx =>
    simp only [EStateM.Result.error.injEq, Abort.bus.injEq] at h
    obtain ⟨⟨rfl, hseen, -⟩, rfl⟩ := h
    rw [runInstr_bus (M.bind_error hx), State.cutShort_data hrmw, hseen, hpartly]
  · next hne => exact absurd h (hne _ _ _ _)

/-- How an access ends depends on the platform alone. -/
theorem readMem_error_congr (hplat : u.platform = s.platform) (h : readMem rmw fc a sz s = .error (.bus f seen made) t) :
    readMem rmw fc a sz u = .error (.bus f [] false) u := by
  obtain ⟨-, i, hi, he⟩ := readMem_eq_error.mp h
  cases he
  refine readMem_eq_error.mpr ⟨rfl, i, (State.firstFault_congr hplat _ _ _ _).trans hi, ?_⟩
  simp only [State.accessFault, State.cycleStart, State.portBytes, hplat]

/-- The load that fails leaves the registers loaded before it, and no earlier value of them. -/
theorem loadRegs_error {space : FC} {k : Nat} (rns : List Rn) (i : Nat) (hmem : u.mem = s.mem)
    (hplat : u.platform = s.platform) (hk : k < rns.length)
    (hr : ∀ j, i ≤ j → j < i + k → s.readable space (a + BitVec.ofNat 32 (sz.bytes * j)) sz.bytes)
    (hbad : readMem false space (a + BitVec.ofNat 32 (sz.bytes * (i + k))) sz s = .error (.bus f seen made) t) :
    let w := loadAll s space sz a ((rns.take k).zipIdx i) u
    afterMade (loadRegs space sz (a + BitVec.ofNat 32 (sz.bytes * i)) rns) u = .error (.bus f [w] true) w := by
  induction rns generalizing i u k with
  | nil => exact absurd hk (Nat.not_lt_zero k)
  | cons rn rest ih =>
    cases k with
    | zero => exact afterMade_error (M.bind_error (readMem_error_congr hplat hbad))
    | succ k =>
      have hfirst : u.readable space (a + BitVec.ofNat 32 (sz.bytes * i)) sz.bytes :=
        (State.readable_congr hplat _ _ _).mpr (hr i (Nat.le_refl i) (by omega))
      have hnext : a + BitVec.ofNat 32 (sz.bytes * i) + BitVec.ofNat 32 sz.bytes =
          a + BitVec.ofNat 32 (sz.bytes * (i + 1)) := by
        rw [BitVec.add_assoc, ← BitVec.ofNat_add, Nat.mul_succ]
      refine afterMade_made ?_
      rw [loadRegs, M.bind_ok (readMem_ok hfirst), M.modify_bind, State.load_congr hplat hmem, sext_eq, hnext]
      exact ih (i + 1) ((u.setR_mem rn _).trans hmem) ((u.setR_platform rn _).trans hplat) (Nat.lt_of_succ_lt_succ hk)
        (fun j hj hlt => hr j (by omega) (by omega)) (by rwa [Nat.add_right_comm, Nat.add_assoc])

theorem loadAll_pc (s : State) (space : FC) (sz : Size) (a : Long) (regs : List (Rn × Nat)) (u : State) :
    (loadAll s space sz a regs u).pc = u.pc := by
  simpa [State.npc] using loadAll_npc s space sz a regs u 0

theorem exec_movemToReg_error {ws : WL} {mask : Word} {k : Nat}
    (hea : (memAddr ws.size 1 ea s = .ok a s ∧ steppedBy ea = []) ∨ (∃ r, ea = .postinc r ∧ a = s.areg r))
    (hk : k < (maskRegs mask).length)
    (hr : ∀ i < k, s.readable (s.eaSpace ea) (a + BitVec.ofNat 32 (ws.size.bytes * i)) ws.size.bytes)
    (hbad : readMem false (s.eaSpace ea) (a + BitVec.ofNat 32 (ws.size.bytes * k)) ws.size s =
      .error (.bus f seen made) t) :
    exec (.movemToReg ws mask ea) s = .next (((loadAll s (s.eaSpace ea) ws.size a ((maskRegs mask).take k).zipIdx
      s).used 1).endedBy s.pc f) := by
  obtain ⟨-, -, -, -, hrmw⟩ := readMem_busErrors _ _ _ hbad
  have hload := loadRegs_error (s := s) (u := s) (a := a) (maskRegs mask) 0 rfl rfl hk
    (fun j _ hj => hr j (by omega)) (by rwa [Nat.zero_add])
  rw [Nat.mul_zero, BitVec.add_zero] at hload
  have hpc := loadAll_pc s (s.eaSpace ea) ws.size a ((maskRegs mask).take k).zipIdx s
  obtain ⟨ha, hstep⟩ | ⟨r, rfl, rfl⟩ := hea
  · have hbody : exec (.movemToReg ws mask ea) s = runInstr (do
        let _ ← loadRegs (s.eaSpace ea) ws.size a (maskRegs mask)
        advance (2 + ea.words)) s := by
      cases ea with
      | dreg _ | areg _ | imm _ => cases ha
      | postinc _ | predec _ => cases hstep
      | _ => exact runInstr_congr ((M.get_bind _ s).trans (M.bind_ok ha))
    rw [hbody]
    exact runInstr_of_afterMade hload hrmw hpc
  · have hbody : exec (.movemToReg ws mask (.postinc r)) s = runInstr (do
        let b ← loadRegs s.dataSpace ws.size (s.areg r) (maskRegs mask)
        modify fun u => u.setA r b
        advance 2) s := runInstr_congr (M.get_bind _ s)
    rw [hbody]
    exact runInstr_of_afterMade hload hrmw hpc

end Sys2Proof.Machine
end

/-! # A bus error in a read-modify-write sequence and on an instruction word (O10) -/

section
namespace Sys2Proof.Machine

variable {s t m w : State} {f : BusFault} {seen : List State} {made : Bool} {sz : Size} {ea : Ea} {v a : Long}
  {fc : FC} {rmw : Bool} {e : Abort} {cc : CC}

/-! ## The accesses of the sequence (R513) -/

theorem readMem_error_rmw (h : readMem rmw fc a sz s = .error (.bus f seen made) t) : f.rmw = rmw := by
  obtain ⟨-, i, -, he⟩ := readMem_eq_error.mp h
  cases he
  rfl

theorem writeMem_error_rmw (h : writeMem rmw fc a sz v s = .error (.bus f seen made) t) : f.rmw = rmw := by
  obtain ⟨i, -, -, he⟩ := writeMem_eq_error.mp h
  cases he
  rfl

/-- The flags set before a write do not touch it. -/
theorem writeMem_error_setCc (h : writeMem rmw fc a sz v s = .error e t) :
    writeMem rmw fc a sz v (s.setCc cc) = .error e (t.setCc cc) := by
  obtain ⟨i, hi, rfl, rfl⟩ := writeMem_eq_error.mp h
  exact writeMem_eq_error.mpr ⟨i, hi, rfl, rfl⟩

theorem writeMem_ok_setCc (h : writeMem rmw fc a sz v s = .ok () t) :
    writeMem rmw fc a sz v (s.setCc cc) = .ok () (t.setCc cc) := by
  obtain ⟨hw, rfl⟩ := writeMem_eq_ok.mp h
  exact writeMem_eq_ok.mpr ⟨hw, rfl⟩

theorem State.undone_setCc (s t : State) (cc : CC) : s.undone (t.setCc cc) = s.undone t := rfl

/-- A sequence that fails leaves the registers the instruction began with (R553, log 42). -/
theorem runInstr_rmw_error {body : M Unit} (hrmw : f.rmw = true) (h : body s = .error (.bus f seen made) t) :
    runInstr body s = .next ((s.undone t).endedBy s.pc f) := by
  rw [runInstr_bus h, State.cutShort_rmw hrmw]

/-- The same where the write comes after the flags. -/
theorem runInstr_rmw_error_setCc {body : M Unit} (hrmw : f.rmw = true)
    (h : body s = .error (.bus f seen made) (t.setCc cc)) : runInstr body s = .next ((s.undone t).endedBy s.pc f) := by
  rw [runInstr_rmw_error hrmw h, State.undone_setCc]

/-! ## TAS -/

theorem exec_tas_read_error (hin : inMemory ea = true) (ha : memAddr .b 0 ea s = .ok a m)
    (h : readMem true m.dataSpace a .b m = .error (.bus f seen made) t) :
    exec (.tas ea) s = .next ((s.undone t).endedBy s.pc f) :=
  (execTas_eq_tasMemory hin).trans (runInstr_rmw_error (readMem_error_rmw h)
    ((M.bind_ok ha).trans ((M.get_bind _ m).trans (M.bind_error h))))

theorem exec_tas_write_error (hin : inMemory ea = true) (ha : memAddr .b 0 ea s = .ok a m)
    (hv : readMem true m.dataSpace a .b m = .ok v w)
    (h : writeMem true m.dataSpace a .b (v ||| 0x80) w = .error (.bus f seen made) t) :
    exec (.tas ea) s = .next ((s.undone t).endedBy s.pc f) :=
  (execTas_eq_tasMemory hin).trans (runInstr_rmw_error_setCc (writeMem_error_rmw h) ((M.bind_ok ha).trans
    ((M.bind_ok hv).trans ((M.modify_bind _ _ w).trans (M.bind_error (writeMem_error_setCc h))))))

/-! ## CAS -/

section Cas

variable {dc du : Reg}

theorem exec_cas_read_error (ha : memAddr sz 1 ea s = .ok a m)
    (h : readMem true m.dataSpace a sz m = .error (.bus f seen made) t) :
    exec (.cas sz dc du ea) s = .next ((s.undone t).endedBy s.pc f) :=
  runInstr_rmw_error (readMem_error_rmw h)
    ((M.bind_ok ha).trans ((M.get_bind _ m).trans (M.bind_error h)))

theorem exec_cas_write_error (ha : memAddr sz 1 ea s = .ok a m)
    (hv : readMem true m.dataSpace a sz m = .ok (trunc sz (m.dreg dc)) w)
    (h : writeMem true m.dataSpace a sz (m.dreg du) w = .error (.bus f seen made) t) :
    exec (.cas sz dc du ea) s = .next ((s.undone t).endedBy s.pc f) := by
  have hc := trunc_lt sz (m.dreg dc)
  have hequal := (subAlu_r_eq_zero hc hc).mpr rfl
  exact runInstr_rmw_error_setCc (writeMem_error_rmw h) ((M.bind_ok ha).trans ((M.bind_ok hv).trans
    ((M.modify_bind _ _ w).trans ((M.ite_pos hequal _).trans (M.bind_error (writeMem_error_setCc h))))))

end Cas

/-! ## CAS2 -/

section Cas2

variable {ws : WL} {r1 r2 : Rn} {dc1 du1 dc2 du2 : Reg} {x y : State}

theorem exec_cas2_first_read_error
    (h : readMem true s.dataSpace (s.getR r1) ws.size s = .error (.bus f seen made) t) :
    exec (.cas2 ws r1 du1 dc1 r2 du2 dc2) s = .next ((s.undone t).endedBy s.pc f) :=
  runInstr_rmw_error (readMem_error_rmw h) ((M.get_bind _ s).trans (M.bind_error h))

theorem exec_cas2_second_read_error (hv : readMem true s.dataSpace (s.getR r1) ws.size s = .ok v w)
    (h : readMem true s.dataSpace (s.getR r2) ws.size w = .error (.bus f seen made) t) :
    exec (.cas2 ws r1 du1 dc1 r2 du2 dc2) s = .next ((s.undone t).endedBy s.pc f) :=
  runInstr_rmw_error (readMem_error_rmw h) ((M.bind_ok hv).trans (M.bind_error h))

section
variable (h1 : readMem true s.dataSpace (s.getR r1) ws.size s = .ok (trunc ws.size (s.dreg dc1)) w)
  (h2 : readMem true s.dataSpace (s.getR r2) ws.size w = .ok (trunc ws.size (s.dreg dc2)) x)
include h1 h2

/-- CAS2 with both operands read and equal makes its two writes, after the flags. -/
theorem exec_cas2_writes_error (hrmw : f.rmw = true)
    (h : ∀ cc, (do
      writeMem true s.dataSpace (s.getR r1) ws.size (s.dreg du1)
      writeMem true s.dataSpace (s.getR r2) ws.size (s.dreg du2)
      advance 3 : M Unit) (x.setCc cc) = .error (.bus f seen made) (t.setCc cc)) :
    exec (.cas2 ws r1 du1 dc1 r2 du2 dc2) s = .next ((s.undone t).endedBy s.pc f) := by
  have hc1 := trunc_lt ws.size (s.dreg dc1)
  have hc2 := trunc_lt ws.size (s.dreg dc2)
  have hequal := And.intro ((subAlu_r_eq_zero hc1 hc1).mpr rfl) ((subAlu_r_eq_zero hc2 hc2).mpr rfl)
  exact runInstr_rmw_error_setCc hrmw ((M.bind_ok h1).trans ((M.bind_ok h2).trans
    ((M.modify_bind _ _ x).trans ((M.ite_pos hequal _).trans (h _)))))

theorem exec_cas2_first_write_error
    (h : writeMem true s.dataSpace (s.getR r1) ws.size (s.dreg du1) x = .error (.bus f seen made) t) :
    exec (.cas2 ws r1 du1 dc1 r2 du2 dc2) s = .next ((s.undone t).endedBy s.pc f) :=
  exec_cas2_writes_error h1 h2 (writeMem_error_rmw h) fun _ => M.bind_error (writeMem_error_setCc h)

theorem exec_cas2_second_write_error
    (hw : writeMem true s.dataSpace (s.getR r1) ws.size (s.dreg du1) x = .ok () y)
    (h : writeMem true s.dataSpace (s.getR r2) ws.size (s.dreg du2) y = .error (.bus f seen made) t) :
    exec (.cas2 ws r1 du1 dc1 r2 du2 dc2) s = .next ((s.undone t).endedBy s.pc f) :=
  exec_cas2_writes_error h1 h2 (writeMem_error_rmw h) fun _ =>
    (M.bind_ok (writeMem_ok_setCc hw)).trans (M.bind_error (writeMem_error_setCc h))

end

end Cas2

/-! ## A bus error on an instruction word (R530, log 9, log 43) -/

/-- Fewer words than asked for: the next one cannot be fetched. -/
theorem State.fetchWords_stops (s : State) {n : Nat} {a : Long} (h : (s.fetchWords a n).length < n) :
    ∃ never, s.fetchWord (a + BitVec.ofNat 32 (2 * (s.fetchWords a n).length)) = .fault never := by
  induction n generalizing a with
  | zero => exact absurd h (Nat.not_lt_zero _)
  | succ n ih =>
    cases hw : s.fetchWord a with
    | fault never =>
      have hnil : s.fetchWords a (n + 1) = [] := by simp only [State.fetchWords, hw]
      exact ⟨never, by rw [hnil, ← hw]; exact congrArg s.fetchWord (BitVec.add_zero a)⟩
    | word x =>
      have hcons : s.fetchWords a (n + 1) = x :: s.fetchWords (a + 2) n := by simp only [State.fetchWords, hw]
      rw [hcons, List.length_cons] at h ⊢
      obtain ⟨never, hnever⟩ := ih (Nat.lt_of_succ_lt_succ h)
      refine ⟨never, hnever ▸ congrArg s.fetchWord ?_⟩
      rw [BitVec.add_assoc, Nat.mul_succ, Nat.add_comm, BitVec.ofNat_add]
      rfl

theorem State.undecoded_short {ws : List Word} (h : s.violates ws = false) :
    s.undecoded ws .short = .next (s.fetchError ws.length) := if_neg (ne_true_of_eq_false h)

theorem State.fetchError_of_fault {k : Nat} {never : Bool}
    (h : s.fetchWord (s.pc + BitVec.ofNat 32 (2 * k)) = .fault never) :
    s.fetchError k = if never then { s with run := .hung, ending := .notDone }
      else s.enterFault 2 (decide (k ≠ 0)) s.pc
        ⟨true, s.progSpace, s.pc + BitVec.ofNat 32 (2 * k), 2, false, false, [], false⟩ := by
  have hk : (k != 0) = decide (k ≠ 0) := by rw [bne, beq_eq_decide, decide_not]
  rw [State.fetchError, h, hk]
  cases never
  · rw [if_neg (by decide), if_neg (by decide)]
    rfl
  · rw [if_pos rfl, if_pos rfl]
    rfl

theorem step_fetch_error (hready : s.ready)
    (hdec : decode (s.sample.fetchWords s.pc maxWords) = .none .short)
    (hpriv : s.sample.violates (s.sample.fetchWords s.pc maxWords) = false)
    (hlen : (s.sample.fetchWords s.pc maxWords).length < maxWords) :
    let k := (s.sample.fetchWords s.pc maxWords).length
    let a := s.pc + BitVec.ofNat 32 (2 * k)
    ∃ never, s.sample.fetchWord a = .fault never ∧ step s = .next (afterInstr s.sample
      (if never then { s.sample with run := .hung, ending := .notDone }
        else s.sample.enterFault 2 (decide (k ≠ 0)) s.pc
          ⟨true, s.sample.progSpace, a, 2, false, false, [], false⟩)) := by
  intro k a
  obtain ⟨never, hnever⟩ := s.sample.fetchWords_stops hlen
  refine ⟨never, hnever, ?_⟩
  rw [step_of_ready hready, State.runNext_of_none (t := s.sample.fetchError k) hdec (State.undecoded_short hpriv),
    State.fetchError_of_fault (s := s.sample) hnever]
  rfl

/-! ## The obligation -/

/-- Settles O10: the bus errors of data reads, of the store of MOVE, of MOVEM's loads, of the read-modify-write
sequences and of instruction words, one after another. -/
theorem operandBusError : Obligations.OperandBusError := by
  refine ⟨State.partly_fields, fun s t f seen made sz => ⟨fun ea h => ?_, fun src dst v u => exec_move_store_error,
    fun rmw fc a v => writeMem_fails, ?_, ?_, step_fetch_error⟩⟩
  · obtain ⟨-, -, hfetch, hwrite, hrmw⟩ := readEa_busErrors _ _ _ h
    exact ⟨hfetch, hwrite, hrmw, fun _ => runInstr_readEa_error h, fun _ => runInstr_readEa_error h,
      fun _ => runInstr_readEa_error h, fun _ => runInstr_readEa_error h, fun _ => runInstr_readEa_error h,
      fun _ => runInstr_readEa_error h, exec_tst_error h⟩
  · intro ws mask ea a k hea n file regs place hk hr hbad
    have hregs : regs = maskRegs mask := (maskRegs_eq mask).symm
    rw [hregs] at hk ⊢
    exact exec_movemToReg_error hea hk hr hbad
  · exact ⟨fun fc a => readMem_error_rmw,
      fun ea a m hin ha => ⟨exec_tas_read_error hin ha, fun v w => exec_tas_write_error hin ha⟩,
      fun dc du ea a m ha => ⟨exec_cas_read_error ha, fun w => exec_cas_write_error ha⟩,
      fun ws r1 r2 du1 dc1 du2 dc2 => ⟨exec_cas2_first_read_error, fun v w => exec_cas2_second_read_error,
        fun w x h1 h2 => ⟨exec_cas2_first_write_error h1 h2, fun y => exec_cas2_second_write_error h1 h2⟩⟩⟩

end Sys2Proof.Machine
end
